-- ==== Sys2Proof/Word.lean ====
section
/-! DEFINITION. Words, identifiers and sets of dishes (00_scope.md "Numbering of things", R193). -/

namespace Sys2Proof

abbrev Byte := BitVec 8
abbrev Word := BitVec 16
abbrev Word32 := BitVec 32

/-- Array time: a 48-bit count of milliseconds, modulo 2^48 (R191). -/
abbrev ArrayTime := BitVec 48

abbrev DishId := Fin 12
abbrev FormationId := Fin 8
abbrev SlotId := Fin 32
abbrev LineId := Fin 3
abbrev ZoneId := Fin 36
abbrev PoolId := Fin 24

/-- A set of dishes as the layouts hold it: bit n for dish n (R193). -/
abbrev DishSet := BitVec 12

def DishSet.has (s : DishSet) (d : DishId) : Bool := s.getLsbD d.val

def DishSet.single (d : DishId) : DishSet := BitVec.ofNat 12 (2 ^ d.val)

def DishSet.insert (s : DishSet) (d : DishId) : DishSet := s ||| DishSet.single d

def DishSet.erase (s : DishSet) (d : DishId) : DishSet := s &&& ~~~(DishSet.single d)

/-- The dishes in ascending number. -/
def allDishes : List DishId := [0, 1, 2, 3, 4, 5, 6, 7, 8, 9, 10, 11]

def allFormations : List FormationId := [0, 1, 2, 3, 4, 5, 6, 7]

def DishSet.toList (s : DishSet) : List DishId := allDishes.filter (DishSet.has s)

def DishSet.ofList (l : List DishId) : DishSet := l.foldl DishSet.insert 0

end Sys2Proof
end

