-- ==== Sys2Proof/Syntax.lean ====
section
/-! DEFINITION. The commands: one constructor for each row of spec/opcode_table.json. The table gives
no row any fields, so the operands are the model's reading of the rule that the row names. -/

namespace Sys2Proof

/-- The two axes of a dish (R2). -/
inductive AxisId where
  | az
  | el
deriving DecidableEq, Repr

/-- The low or the high side of an axis: its limit switches and its bars (R2, R20, R24). -/
inductive Side where
  | low
  | high
deriving DecidableEq, Repr

/-- The two pin sensors of a dish (R17). -/
inductive PinSensor where
  | pinIn
  | pinOut
deriving DecidableEq, Repr

/-- The registers whose writes may be ignored (R169). -/
inductive WriteTarget where
  | ident
  | nudge
deriving DecidableEq, Repr

/-- What happens outside and is no event of any block, so that the table has no row for it: the site
computer writes one word of the exchange memory (8.1), or an amplifier-ready input becomes asserted
(R11 and R22 examine its level). It reaches the part with the next command that may look at it. -/
inductive Outside where
  | memoryWord (addr : Nat) (value : Word)
  | amplifierReady (d : DishId) (a : AxisId)
deriving DecidableEq, Repr

/-- The levels of the field inputs at power-on; bit n is the level for dish n (R1, R17, R74). -/
structure FieldLevels where
  pinIn : DishSet
  pinOut : DishSet
  ampReadyAz : DishSet
  ampReadyEl : DishSet
  limitLowAz : DishSet
  limitHighAz : DishSet
  limitLowEl : DishSet
  limitHighEl : DishSet
  derate : Bool
deriving DecidableEq, Repr

/-- The part of a slot header that every order has: the slot it stands in, its POST NUMBER and its
FLAGS (10.4). -/
structure OrderHead where
  slot : SlotId
  post : Word
  flags : Byte
deriving DecidableEq, Repr

/-- One waypoint of a TRACK_LOAD as the slot holds it (10.4). -/
structure RawWaypoint where
  time : ArrayTime
  skyAz : Word32
  el : Word32
deriving DecidableEq, Repr

/-- The end of a storage write (R189): which write has ended, named by the count of failed or unfinished writes
before it, and the bytes read back. That the event names its write is the model's form of it (log entry 41). -/
structure NvCompletion where
  write : Nat
  readBack : List Byte
deriving DecidableEq, Repr

/-- The commands, in the order of spec/opcode_table.json. `seen` is what happened outside before the
command. An order command places that order in its slot and has it taken (R175). -/
inductive Instr where
  | powerOn (levels : FieldLevels)
  | nudgeSweep (seen : List Outside)
  | nudgeLinkReset
  | causeClear (value : Word)
  | maskWrite (value : Word)
  | registerWriteIgnored (target : WriteTarget) (value : Word)
  | sweepTimerExpiry (seen : List Outside)
  | form (h : OrderHead) (formation : Byte) (dishes : Word)
  | disband (h : OrderHead) (formation : Byte)
  | halt (h : OrderHead) (formation : Byte)
  | slew (h : OrderHead) (formation : Byte) (skyAz : Word32) (el : Word32) (wrap : Word) (mode : Word)
  | trackLoad (h : OrderHead) (formation : Byte) (count : Word) (points : Vector RawWaypoint 6)
  | track (h : OrderHead) (formation : Byte) (wrap : Word)
  | raster (h : OrderHead) (formation : Byte) (startAz : Word32) (startEl : Word32) (stepAz : Word32) (stepEl : Word32) (count : Word) (dwell : Word32) (wrap : Word)
  | stow (h : OrderHead) (dishes : Word)
  | release (h : OrderHead) (dishes : Word)
  | meltMode (h : OrderHead) (dishes : Word) (classes : Word) (mode : Word) (forced : Word)
  | lock (h : OrderHead) (dish : Word) (cls : Word) (tag : Word)
  | unlock (h : OrderHead) (dish : Word) (tag : Word)
  | setBudget (h : OrderHead) (budget : Word)
  | clearFault (h : OrderHead) (dishes : Word)
  | setTime (h : OrderHead) (time : ArrayTime)
  | adjustTime (h : OrderHead) (offset : Word32)
  | adoptSite (h : OrderHead)
  | commitSite (h : OrderHead)
  | nvWriteCompletion (completion : NvCompletion)
  | commitTimerExpiry
  | pulseEvent (seen : List Outside)
  | lingerTimerExpiry (seen : List Outside)
  | presenceCheck (seen : List Outside)
  | servoEvent (d : DishId) (a : AxisId)
  | encoderReading (d : DishId) (a : AxisId) (position : Int)
  | encoderStartupTimeout (d : DishId) (a : AxisId)
  | warningTimerExpiry (d : DishId)
  | brakeReleaseTimerExpiry (d : DishId) (seen : List Outside)
  | settleTimerExpiry (d : DishId)
  | settleLimitExpiry (d : DishId)
  | holdToBrakeExpiry (d : DishId)
  | pinTimerExpiry (d : DishId)
  | pinInSensed (d : DishId)
  | pinOutSensed (d : DishId)
  | pinSensorCeased (d : DishId) (sensor : PinSensor)
  | limitSwitchAsserted (d : DishId) (a : AxisId) (side : Side)
  | limitSwitchCeased (d : DishId) (a : AxisId) (side : Side)
  | amplifierReadyLost (d : DishId) (a : AxisId)
  | heaterWindowStart (z : ZoneId)
  | heaterOnTimeEnd (z : ZoneId)
  | derateInputChange (asserted : Bool)
  | admissionWaitExpiry (f : FormationId)
  | dwellTimerExpiry (f : FormationId)
  | trackStep (f : FormationId)
  | starvePatienceExpiry (f : FormationId)
  | lagTimerExpiry (f : FormationId) (d : DishId)
  | lineByte (l : LineId) (value : Byte) (framing : Bool)
  | assemblerGapTimeout (l : LineId)
  | silenceTimerExpiry (l : LineId)
  | graceTimerExpiry
  | windSecond
  | stowDeadlineExpiry
  | releaseHoldExpiry
  | meltStep (z : ZoneId)
  | tailTimerExpiry (z : ZoneId)
  | pedestalSlot
  | replyWindowClose
  | panelReply (bytes : List Byte) (framing : Bool)
  | powerLoss
deriving DecidableEq, Repr

end Sys2Proof
end

