-- ==== Sys2Proof/Config.lean ====
section
/-! DEFINITION. What an implementation fixes, and the free value of the model. -/

namespace Sys2Proof

/-- FREE VALUE. Byte `i` of the NV RECORD after the `n`-th write that failed or was interrupted: the
record is then in an unknown condition (R189, R190). It has no body, so nothing can be proved of its
value (log entry 3). -/
opaque Config.freeNvByte : Nat → Nat → Byte

/-- The address space of the exchange memory in bytes: 32 KiB (8.1). -/
def Config.memoryBytes : Nat := 0x8000

end Sys2Proof
end

