-- ==== Sys2Proof/Machine/Types.lean ====
section
/-! DEFINITION. The records that the blocks hold, as the spec's state tables give them. A timer holds
the running count at which it expires. Where a value is enumerated its constructors stand in the order
of the spec's list, which is the order of its codes (R193). -/

namespace Sys2Proof.Machine

/-- The exchange memory as a list of (address, byte) pairs (Sys2Proof/Machine/Memory.lean). -/
abbrev Memory := List Host.Cell

/-- A timer: stopped, or running until the running count stands at the value held (R191). -/
abbrev Timer := Option Nat

/-! ### Dish drives (chapter 1) -/

inductive DriveState where
  | braked | warning | releasing | moving | settling | holding | stopping | pinning | pinned
  | unpinning | faulted
deriving DecidableEq, Repr

inductive Task where
  | none | formation | stow | shed | lockStop
deriving DecidableEq, Repr

/-- The blocks that own work of the dish drives (R1). The first three also claim power (R75). -/
inductive Owner where
  | fp | ww | mc | lt
deriving DecidableEq, Repr

inductive FaultKind where
  | following | encoder | limit | amplifier | pin
deriving DecidableEq, Repr

inductive Horn where
  | busy | idle
deriving DecidableEq, Repr

inductive WarningSelector where
  | normal | stow
deriving DecidableEq, Repr

inductive StartMode where
  | atReady | onStart
deriving DecidableEq, Repr

structure StowReasons where
  wind : Bool
  manual : Bool
deriving DecidableEq, Repr

/-- The four flags of R147. -/
structure LockSummary where
  motionLocked : Bool
  heatLocked : Bool
  stopPending : Bool
  stowYielding : Bool
deriving DecidableEq, Repr

structure FaultKinds where
  following : Bool
  encoder : Bool
  limit : Bool
  amplifier : Bool
  pin : Bool
deriving DecidableEq, Repr

structure OwnerSet where
  fp : Bool
  ww : Bool
  mc : Bool
  lt : Bool
deriving DecidableEq, Repr

inductive ProfileKind where
  | slew | follow | stop
deriving DecidableEq, Repr

/-- An axis profile in flight (R2, R12, R14, R67). `rate0` and `dir` are the initial rate and the
direction of a STOP profile (`dir` also of a SLEW); `target` of a FOLLOW is the target its owner last
gave. `finishing` marks a FOLLOW whose owner has ended it (R61). `bounds` are the soft limits in force when a
FOLLOW was planned; other kinds are bounded by their own ends (R3). -/
structure Profile where
  kind : ProfileKind
  start : Int
  target : Int
  v : Nat
  a : Nat
  startInstant : ArrayTime
  duration : Nat
  travelled : Int
  rate0 : Nat
  dir : Int
  ended : Bool
  finishing : Bool
  bounds : Option (Int × Int)
deriving DecidableEq, Repr

structure Axis where
  encoder : Option Int
  fresh : Bool
  profile : Option Profile
  position : Int
  rate : Int
  rateDemand : Int
  /-- V of the rate demand's clamp, as the plan of the move last taken read it (R18, R188). -/
  rateSetting : Nat
  softLow : Int
  softHigh : Int
  lowBar : Bool
  highBar : Bool
  followingCount : Nat
  /-- The latest servo event found READING FRESH clear (R22). -/
  missed : Bool
  /-- Axis sense inputs (00_scope.md, signals). -/
  ampReady : Bool
  limitLow : Bool
  limitHigh : Bool
  /-- The earliest running count of the next servo event (R18: every 10 ms). -/
  servoDue : Nat
deriving DecidableEq, Repr

inductive MoveKind where
  | still | slew | follow
deriving DecidableEq, Repr

/-- One axis of a plan or of a move (R3, R34): the profile fields, and the derated figures kept for a
later stretch or re-anchoring (R35, R38), the undegraded rate setting that the plan read (R18, R188), and the
soft limits of a FOLLOW (R3). -/
structure AxisMove where
  kind : MoveKind
  stay : Bool
  start : Int
  target : Int
  v : Nat
  a : Nat
  duration : Nat
  vDer : Nat
  aDer : Nat
  rateSetting : Nat
  bounds : Option (Int × Int)
deriving DecidableEq, Repr

structure Move where
  owner : Owner
  task : Task
  az : AxisMove
  el : AxisMove
  startMode : StartMode
deriving DecidableEq, Repr

/-- NEXT ACTION (R1): a held move, or a held unpin of the wind watch. -/
inductive NextAction where
  | none
  | move (m : Move)
  | unpin
deriving DecidableEq, Repr

/-- The plan result of R34. -/
structure PlanResult where
  az : AxisMove
  el : AxisMove
  minTime : Nat
  clamped : Bool
  wrapOther : Bool
deriving DecidableEq, Repr

structure Dish where
  drive : DriveState
  task : Task
  owner : Option Owner
  formation : Option FormationId
  reasons : StowReasons
  lock : LockSummary
  score : Nat
  derate : Nat
  motionGrant : Option Nat
  faultKind : Option FaultKind
  horn : Horn
  selector : WarningSelector
  removalMark : Bool
  nextAction : NextAction
  kindsSeen : FaultKinds
  startKept : Bool
  readyReported : Bool
  absorbed : OwnerSet
  pinningOwner : Option Owner
  stopRequesters : OwnerSet
  warningTimer : Timer
  brakeTimer : Timer
  settleTimer : Timer
  settleLimit : Timer
  holdTimer : Timer
  pinTimer : Timer
  /-- START MODE of the move in hand (R3, R11). -/
  startMode : StartMode
  /-- A move taken in HOLDING with ON_START waits for its start (R4). -/
  startAwaited : Bool
  az : Axis
  el : Axis
  /-- Dish sense inputs (00_scope.md, signals). -/
  pinIn : Bool
  pinOut : Bool
deriving DecidableEq, Repr

/-- A heater zone output: whether it is on, and when its present window began (R25). -/
structure HeaterOutput where
  on : Bool
  windowStart : Nat
deriving DecidableEq, Repr

/-! ### Formation planner (chapter 3) -/

inductive FormationState where
  | unused | idle | admitting | moving | dwelling | tracking | starved | halting
deriving DecidableEq, Repr

inductive Work where
  | slew | track | raster
deriving DecidableEq, Repr

inductive ArrivalMode where
  | joint | each
deriving DecidableEq, Repr

inductive WrapPreference where
  | nearest | cw | ccw
deriving DecidableEq, Repr

structure Notes where
  clamped : Bool
  waved : Bool
  skipped : Bool
  wrapOther : Bool
deriving DecidableEq, Repr

structure Raster where
  startAz : Int
  startEl : Int
  stepAz : Int
  stepEl : Int
  count : Nat
  index : Nat
  dwell : Nat
deriving DecidableEq, Repr

/-- A queued waypoint with one unwrapped azimuth for each included member (R44). -/
structure Waypoint where
  time : ArrayTime
  skyAz : Int
  el : Int
  unwrapped : Vector (Option Int) 12
deriving DecidableEq, Repr

/-- Where a member stands in the present piece of motion (R51 to R55, R63). `handed` carries the
wave, `ready` too; `running` has been started or starts by itself. -/
inductive Stage where
  | out
  | claiming
  | granted
  | handed (wave : Nat)
  | ready (wave : Nat)
  | running
  | arrived
  | followClaiming
  | following
deriving DecidableEq, Repr

structure Member where
  stage : Stage
  wrapAz : Option Int
  plan : Option PlanResult
  arrival : Option ArrayTime
  /-- A move kept until a halt of another formation has done with the dish (R69). -/
  kept : Option Move
  lagOpen : Bool
  lagTimer : Timer
  lagWritten : Bool
  /-- The lag of the latest track step (R66). -/
  lastLag : Nat
deriving DecidableEq, Repr

/-- The parameters of a SLEW, TRACK or RASTER as its owner keeps them. -/
structure WorkOrder where
  work : Work
  skyAz : Int
  el : Int
  wrap : WrapPreference
  mode : ArrivalMode
  raster : Option Raster
deriving DecidableEq, Repr

/-- PENDING WORK (R44, R50): a taken order with what was formed at its take. -/
structure PendingWork where
  slot : SlotId
  order : WorkOrder
  included : DishSet
  skipped : DishSet
  notes : Notes
  wraps : Vector (Option Int) 12
deriving DecidableEq, Repr

structure Formation where
  state : FormationState
  members : DishSet
  work : Option Work
  slot : Option SlotId
  pendingWork : Option PendingWork
  mode : ArrivalMode
  wrap : WrapPreference
  target : Option (Int × Int)
  included : DishSet
  skipped : DishSet
  excused : DishSet
  waveCount : Nat
  notes : Notes
  raster : Option Raster
  queue : List Waypoint
  wrapStop : Option ArrayTime
  /-- The unwrap that set the wrap stop: dish, waypoint time, unwrapped value (R65). -/
  wrapFail : Option (DishId × ArrayTime × Int)
  admission : Timer
  dwell : Timer
  starve : Timer
  trackStep : Timer
  member : Vector Member 12
  stopping : DishSet
  disbandPending : Bool
deriving DecidableEq, Repr

/-- The causes of an excusal (R48, R56). -/
inductive ExcusalCause where
  | lock | stow | fault | shed | score
deriving DecidableEq, Repr

/-! ### Feeder arbiter (chapter 4) -/

inductive ClaimClass where
  | stow | shed | move
deriving DecidableEq, Repr

structure Claim where
  dish : DishId
  claimant : Owner
  cls : ClaimClass
  azMoves : Bool
  elMoves : Bool
  amount : Nat
  azPeak : Nat
  elPeak : Nat
  seq : Nat
deriving DecidableEq, Repr

inductive GrantUse where
  | reserved | inUse
deriving DecidableEq, Repr

structure Grant where
  amount : Nat
  cls : ClaimClass
  holder : Owner
  use : GrantUse
  azPeak : Nat
  elPeak : Nat
deriving DecidableEq, Repr

structure Arbiter where
  requested : Nat
  derate : Bool
  target : Nat
  inForce : Nat
  held : Bool
  queue : List Claim
  grants : Vector (Option Grant) 12
  sequence : Nat
deriving DecidableEq, Repr

/-! ### Anemometer lines and wind watch (chapter 5) -/

inductive LineState where
  | ok | suspect | silent
deriving DecidableEq, Repr

inductive Precipitation where
  | none | rain | snow | unknown
deriving DecidableEq, Repr

inductive Instrument where
  | ok | degraded | overrange
deriving DecidableEq, Repr

structure Frame where
  speed : Nat
  direction : Nat
  temperature : Int
  precipitation : Precipitation
  instrument : Instrument
  time : ArrayTime
  valid : Bool
deriving DecidableEq, Repr

structure LineByte where
  value : Byte
  framing : Bool
  lost : Bool
deriving DecidableEq, Repr

structure Line where
  fifo : List LineByte
  /-- A byte was lost since the last stored one (R91). -/
  lostSince : Bool
  /-- The bytes gathered: none in HUNT, 1 to 8 in COLLECT (R90). -/
  gathered : List Byte
  gapTimer : Timer
  state : LineState
  goodRun : Nat
  silenceTimer : Timer
  lastGood : Option Frame
  secondSum : Nat
  secondCount : Nat
  goodCount : Nat
  voidCount : Nat
deriving DecidableEq, Repr

inductive WindState where
  | calm | watch | stowing | stowed | releaseWait
deriving DecidableEq, Repr

inductive Attended where
  | attended | unattended
deriving DecidableEq, Repr

inductive Fallback where
  | stow | hold
deriving DecidableEq, Repr

inductive StowPhase where
  | none | claiming | handed | stowed | blocked | unstowing
deriving DecidableEq, Repr

inductive BlockCause where
  | lock | fault | position | barred
deriving DecidableEq, Repr

structure StowRecord where
  phase : StowPhase
  cause : Option BlockCause
  late : Bool
  unpinWanted : Bool
  rehand : Bool
deriving DecidableEq, Repr

/-- A STOW order in hand (R118). -/
structure StandingStow where
  slot : SlotId
  dishes : DishSet
  waiting : DishSet
  released : DishSet
  /-- Dishes of the order that have been STOWED since its take; the model's own (log entry 54). -/
  pinned : DishSet
deriving DecidableEq, Repr

structure ThresholdSet where
  watchMean : Nat
  watchGust : Nat
  hysteresis : Nat
  stowMean : Nat
  stowGust : Nat
  releaseMean : Nat
  releaseGust : Nat
  releaseHold : Nat
deriving DecidableEq, Repr

/-- What the wind watch read of the settings at its latest wind second (R100, R188). -/
structure WindReading where
  set : Attended
  thresholds : ThresholdSet
  fallback : Fallback
  autoRelease : Bool
deriving DecidableEq, Repr

structure WindWatch where
  seconds : List (Option Nat)
  gust : Option Nat
  mean : Option Nat
  direction : Option Nat
  dataKnown : Bool
  grace : Timer
  state : WindState
  releaseHold : Timer
  deadline : Timer
  records : Vector StowRecord 12
  standing : List StandingStow
  reading : WindReading
  secondDue : Nat
deriving DecidableEq, Repr

/-! ### Melt controller (chapter 6) -/

inductive ZoneClass where
  | surface | subreflector | feed
deriving DecidableEq, Repr

inductive ZoneMode where
  | off | auto | forced
deriving DecidableEq, Repr

inductive ZoneState where
  | off | running | tailing | cut
deriving DecidableEq, Repr

structure Zone where
  rated : Nat
  mode : ZoneMode
  forced : Nat
  demand : Nat
  request : Nat
  grant : Nat
  grantedDuty : Nat
  applied : Nat
  state : ZoneState
  tail : Timer
  stepDue : Nat
deriving DecidableEq, Repr

/-- What MC read of the settings at the latest melt step of a zone, and uses until the next (R143, R188). -/
structure MeltReading where
  startValue : Nat
  stopValue : Nat
  curve : List (Int × Int)
  blindDuty : Nat
deriving DecidableEq, Repr

/-- What MC read of the settings at the latest SURFACE melt step of a dish: the levels, and what a shed is
decided by between these steps (R143, R188). -/
structure SnowReading where
  onset : Nat
  soft : Nat
  hard : Nat
  shedThreshold : Nat
  shedElevation : Int
  autoShed : Bool
deriving DecidableEq, Repr

inductive ShedPhase where
  | none | claiming | handed
deriving DecidableEq, Repr

/-- The shed record (R136) and the level sides (R134, true for ABOVE) of one dish. -/
structure Shed where
  armed : Bool
  phase : ShedPhase
  onset : Bool
  soft : Bool
  hard : Bool
deriving DecidableEq, Repr

/-! ### Lock table and pedestal line master (chapter 7) -/

inductive LockOrigin where
  | key | silent | order | badge
deriving DecidableEq, Repr

inductive LockClass where
  | motion | heat | full
deriving DecidableEq, Repr

inductive LockState where
  | waiting | effective
deriving DecidableEq, Repr

/-- A lock record (R145). `waiting` of `LockState` is the spec's PENDING. The tag is 0 for a key slot. -/
structure LockRecord where
  dish : DishId
  origin : LockOrigin
  cls : LockClass
  tag : Nat
  state : LockState
  placedAt : ArrayTime
  placedValid : Bool
  slot : Option SlotId
deriving DecidableEq, Repr

inductive Link where
  | online | silent
deriving DecidableEq, Repr

inductive KeyPosition where
  | run | hold | isolate
deriving DecidableEq, Repr

inductive RequestKind where
  | status | event | taken
deriving DecidableEq, Repr

structure Lamps where
  moving : Bool
  locked : Bool
  stowed : Bool
  refused : Bool
deriving DecidableEq, Repr

structure Panel where
  link : Link
  voids : Nat
  key : Option KeyPosition
  readDue : Bool
  takenDue : Bool
  refusedFlash : Bool
  lamps : Lamps
deriving DecidableEq, Repr

/-- An exchange whose reply window is open (R158, R159). -/
structure PanelExchange where
  panel : DishId
  kind : RequestKind
  refusedCarried : Bool
  window : Nat
deriving DecidableEq, Repr

structure Pedestal where
  panels : Vector Panel 12
  next : DishId
  exchange : Option PanelExchange
  /-- The last request frame put on the line (R158, R196). -/
  sent : List Byte
  slotDue : Nat
deriving DecidableEq, Repr

/-! ### Array clock and site store (chapters 8 and 9) -/

structure Clock where
  time : ArrayTime
  valid : Bool
  count : Nat
deriving DecidableEq, Repr

structure Presence where
  attended : Attended
  last : Word
  unchanged : Nat
deriving DecidableEq, Repr

/-- The settings of the site record, in its order (10.7). -/
abbrev Settings := Vector Int 93

inductive SettingsState where
  | provisional | adopted | stored
deriving DecidableEq, Repr

structure Commit where
  snapshot : List Byte
  slot : Option SlotId
  timer : Nat
deriving DecidableEq, Repr

structure SiteStore where
  working : Settings
  crc : Word
  state : SettingsState
  nv : List Byte
  commit : Option Commit
  /-- MODEL: how many writes have failed; numbers the free contents of the NV RECORD. -/
  failures : Nat
deriving DecidableEq, Repr

/-! ### Answers and trail (chapter 8) -/

/-- The answer codes of 10.4. -/
inductive AnswerCode where
  | done
  | endedCut | endedHalt | endedSuperseded | endedStow | endedLock | endedStarved | endedWrap | endedFault
  | unknownVerb | badField | noFormation | noLast | formationBusy | dishBusy | noMembers | provisional
  | windUnknown | shedding | timeUnset | trackActive | queueFull | timeOrder | stale | tableFull | dishFull
  | alreadyHeld | notHeld | panelLock | stillPresent | busy | budgetInUse
deriving DecidableEq, Repr

/-- The answer of R177 but for its time, which is stamped when it is handed over. -/
structure Answer where
  code : AnswerCode
  notes : Notes
  detail : Nat
  data : List Byte
deriving DecidableEq, Repr

/-- The seven causes, in the order of their bits (R170, 10.2). -/
inductive Cause where
  | answer | trail | wind | safety | lock | presence | settings
deriving DecidableEq, Repr

inductive WindTrigger where
  | gust | mean | data | release | hysteresis | complete
deriving DecidableEq, Repr

inductive LineEvent where
  | good | void | silence
deriving DecidableEq, Repr

inductive SnowLevel where
  | onset | soft | hard
deriving DecidableEq, Repr

inductive ShedOutcome where
  | arrived | lock | stow | fault
deriving DecidableEq, Repr

inductive RemovalCause where
  | unlock | cut | badge | key | panel
deriving DecidableEq, Repr

/-- The events of a SETTINGS entry. R185 names LOAD alone and R186 the other three, so that no one list codes them
by R193; the model takes LOAD first and then the list of R186 (log entry 10). -/
inductive SettingsEvent where
  | load | adopt | commitDone | commitFailed
deriving DecidableEq, Repr

inductive LoadFailure where
  | crc | format | value
deriving DecidableEq, Repr

inductive CommitFailure where
  | verify | timeout
deriving DecidableEq, Repr

/-- What a LOCK entry of the trail carries of its record (10.6). -/
structure LockMark where
  dish : DishId
  place : Nat
  origin : LockOrigin
  cls : LockClass
  tag : Nat
deriving DecidableEq, Repr

/-- The entries of the trail with what their rules make them carry (8.5). -/
inductive TrailEvent where
  | formationArrived (f : FormationId) (spread : Nat) (arrived : Nat) (index : Option Nat)
  | formationWave (f : FormationId) (wave : Nat) (dishes : DishSet) (common : Nat)
  | memberExcused (f : FormationId) (d : DishId) (cause : ExcusalCause)
  | trackStarved (f : FormationId) (last : ArrayTime)
  | trackLag (f : FormationId) (d : DishId) (lag : Nat)
  | wrapLimit (f : FormationId) (d : DishId) (time : ArrayTime) (value : Int)
  | dishFault (d : DishId) (kind : FaultKind) (fromState : DriveState)
  | faultCleared (d : DishId)
  | dishStowed (d : DishId)
  | dishUnstowed (d : DishId)
  | windState (old new : WindState) (gust mean : Option Nat) (set : Attended) (trigger : WindTrigger)
  | windData (known : Bool) (l0 l1 l2 : LineState)
  | lineState (l : LineId) (old new : LineState) (event : LineEvent)
  | stowLate (d : DishId) (phase : StowPhase) (drive : DriveState)
  | stowBlocked (d : DishId) (cause : BlockCause)
  | lockPlaced (m : LockMark) (state : LockState)
  | lockEffective (m : LockMark) (drive : DriveState)
  | lockRemoved (m : LockMark) (state : LockState) (cause : RemovalCause)
  | badgeRefused (d : DishId) (tag : Nat) (cls : LockClass) (refusal : AnswerCode)
  | panelState (d : DishId) (link : Link) (key : Option KeyPosition)
  | budgetHeld (target motion : Nat) (dishes : DishSet)
  | snowLevel (d : DishId) (level : SnowLevel) (value : Nat) (up : Bool) (score : Nat)
  | shedBegun (d : DishId) (el : Int) (target : Int) (clamped : Bool)
  | shedEnded (d : DishId) (outcome : ShedOutcome) (el : Int) (score : Nat)
  | presence (state : Attended) (last : Word)
  | settingsLoad (state : SettingsState) (crc : Word) (failure : Option LoadFailure)
  | settings (event : SettingsEvent) (old new : SettingsState) (crc : Word) (failure : Option CommitFailure)
  | timeSet (adjust : Bool) (old : ArrayTime) (oldValid : Bool) (new : ArrayTime)
  | orderAbandoned (slot : SlotId) (verb : Nat) (post : Word) (formation : Option FormationId)
  | trailGap (dropped : Nat)
deriving DecidableEq, Repr

/-- The pages of the exchange memory, each with an EDITION (R167). -/
inductive Page where
  | common
  | dish (d : DishId)
  | formation (f : FormationId)
  | wind
  | power
  | zone (z : ZoneId)
  | lockEntry (e : Fin 36)
deriving DecidableEq, Repr

/-- What the blocks hand to the exchange side in a command, in the order handed. -/
inductive Output where
  | trail (e : TrailEvent) (time : ArrayTime) (valid : Bool)
  | answer (slot : SlotId) (a : Answer) (time : ArrayTime) (valid : Bool)
  | cause (c : Cause)
  | page (p : Page)
deriving DecidableEq, Repr

/-! ### Messages between blocks (00_scope.md, "Paths at a glance") -/

/-- The reasons for which the dish drives refuse a move (R3). -/
inductive MoveRefusal where
  | faulted | locked | encoder | range | barred | stowing | pinned | noGrant
deriving DecidableEq, Repr

/-- The reports of the dish drives to the block that owns the work; PREEMPTED with the block that took the
dish or the held move away. -/
inductive Report where
  | ready
  | arrived (at_ : ArrayTime)
  | stowed
  | stopped
  | preempted (taker : Owner)
  | faulted
  | refused (r : MoveRefusal)
  | unpinned
  | unpinRefused (r : MoveRefusal)
deriving DecidableEq, Repr

inductive Message where
  | report (dst : Owner) (d : DishId) (r : Report)
  | granted (dst : Owner) (ds : List DishId)
  | withdrawn (dst : Owner) (d : DishId)
  | takenOver (dst : Owner) (d : DishId)
  | grantGone (dst : Owner) (d : DishId)
  | excuse (d : DishId) (cause : ExcusalCause)
  | lockChanged (d : DishId)
  | cleared (d : DishId)
  | reformRequest (z : ZoneId)
  | admissionOver (f : FormationId)
  | dwellOver (f : FormationId)
deriving DecidableEq, Repr

/-! ### The blocks together -/

/-- The state of every block on the part's side of the exchange memory. -/
structure Blocks where
  clock : Clock
  presence : Presence
  site : SiteStore
  dishes : Vector Dish 12
  heaters : Vector HeaterOutput 36
  forms : Vector Formation 8
  fa : Arbiter
  lines : Vector Line 3
  wind : WindWatch
  zones : Vector Zone 36
  sheds : Vector Shed 12
  meltReadings : Vector MeltReading 36
  snowReadings : Vector SnowReading 12
  keySlots : Vector (Option LockRecord) 12
  pool : Vector (Option LockRecord) 24
  pedestal : Pedestal
  /-- MODEL: messages between blocks not yet taken; empty between commands. -/
  inbox : List Message
  /-- MODEL: what the command in hand has handed to the exchange side; empty between commands. -/
  out : List Output
deriving DecidableEq, Repr

/-! ### The exchange side (chapter 8) -/

/-- The parameters of an order by verb (10.4). `unknown` is a verb code that names no order. -/
inductive OrderBody where
  | form
  | disband
  | halt
  | slew (skyAz el : Word32) (wrap mode : Word)
  | trackLoad (count : Word) (points : Vector RawWaypoint 6)
  | track (wrap : Word)
  | raster (startAz startEl stepAz stepEl : Word32) (count : Word) (dwell : Word32) (wrap : Word)
  | stow
  | release
  | meltMode (mode forced : Word)
  | lock (dish cls tag : Word)
  | unlock (dish tag : Word)
  | setBudget (budget : Word)
  | clearFault
  | setTime (time : ArrayTime)
  | adjustTime (offset : Word32)
  | adoptSite
  | commitSite
  | unknown (verb : Word)
deriving DecidableEq, Repr

/-- The copy of a slot's header and parameters that the order taker makes at the take (R175). -/
structure Order where
  post : Word
  formation : Byte
  flags : Byte
  dishes : Word
  classes : Word
  body : OrderBody
deriving DecidableEq, Repr

structure HeldOrder where
  slot : SlotId
  order : Order
  formation : Option FormationId
deriving DecidableEq, Repr

structure Editions where
  common : Word
  dish : Vector Word 12
  formation : Vector Word 8
  wind : Word
  power : Word
  zone : Vector Word 36
  lockEntry : Vector Word 36
deriving DecidableEq, Repr

structure Exchange where
  mem : Memory
  editions : Editions
  ready : Bool
  cause : BitVec 7
  mask : BitVec 7
  pulse : Word
  /-- The array time last written into SUMMARY (R168). -/
  shownTime : ArrayTime
  shownValid : Bool
  heldList : List HeldOrder
  expectedPost : Word
  lastFormation : Option FormationId
  answerMarks : BitVec 32
  sweepDue : Nat
  pulseDue : Nat
  presenceDue : Nat
  writeSequence : Word32
  dropped : Nat
  linger : Timer
  sampledRead : Word
  lingerSpent : Bool
deriving DecidableEq, Repr

/-- The whole part but for the queue of commands. -/
structure Part where
  blocks : Blocks
  xm : Exchange
deriving DecidableEq, Repr

end Sys2Proof.Machine
end

