-- ==== Sys2Proof/Machine/Bytes.lean ====
section
/-! DEFINITION. Byte order, codes for absent values, and the checks over bytes (R193, R195, R196). -/

namespace Sys2Proof.Machine

/-- The low `n` bytes of a number, low byte first (R193). -/
def lowBytes : Nat → Nat → List Byte
  | 0, _ => []
  | n + 1, v => BitVec.ofNat 8 v :: lowBytes n (v / 256)

/-- The number that bytes spell, low byte first (R193). -/
def fromLow : List Byte → Nat
  | [] => 0
  | b :: bs => b.toNat + 256 * fromLow bs

/-- A signed field of `n` bytes in two's complement (R193). -/
def signedBytes (n : Nat) (v : Int) : List Byte := lowBytes n (BitVec.ofInt (8 * n) v).toNat

/-- An unsigned field that may hold no value: all ones then (R193). -/
def optBytes (n : Nat) : Option Nat → List Byte
  | none => lowBytes n (256 ^ n - 1)
  | some v => lowBytes n v

/-- A signed field that may hold no value: the most negative value then (R193). -/
def optSignedBytes (n : Nat) : Option Int → List Byte
  | none => lowBytes n (256 ^ n / 2)
  | some v => signedBytes n v

def bit (b : Bool) : Nat := if b then 1 else 0

/-- Bytes cut or filled with 0 to a length: a byte that a layout does not name is 0 (R193). -/
def fit (n : Nat) (bs : List Byte) : List Byte := (bs ++ List.replicate n 0).take n

def zeros (n : Nat) : List Byte := List.replicate n 0

/-- One bit of a CRC register of width `w`, most significant bit first, no reflection (09 9.1, R196). -/
def crcShift (w : Nat) (poly : BitVec w) : Nat → BitVec w → BitVec w
  | 0, r => r
  | n + 1, r => crcShift w poly n (if r.msb then (r <<< 1) ^^^ poly else r <<< 1)

/-- A number handed on once it is evaluated. -/
def evaluated {α : Type} (n : Nat) (k : Nat → α) : α :=
  match n with
  | 0 => k 0
  | m + 1 => k (m + 1)

/-- The register of CRC-16 after one more byte. -/
def crc16Byte (r : Word) (b : Byte) : Word := crcShift 16 0x1021 8 (r ^^^ ((b.setWidth 16 : Word) <<< 8))

/-- The register of CRC-16, as a number, carried over bytes. -/
def crc16From : Nat → List Byte → Nat
  | r, [] => r
  | r, b :: bs => evaluated (crc16Byte (BitVec.ofNat 16 r) b).toNat (fun n => crc16From n bs)

/-- CRC-16, polynomial 0x1021, initial value 0xFFFF (09 9.1). -/
def crc16 (bs : List Byte) : Word := BitVec.ofNat 16 (crc16From 0xFFFF bs)

/-- CRC-8, polynomial 0x07, initial value 0x00 (R196). -/
def crc8 (bs : List Byte) : Byte :=
  bs.foldl (fun r b => crcShift 8 0x07 8 (r ^^^ b)) 0

end Sys2Proof.Machine
end

