-- ==== Sys2Proof/Machine/Settings.lean ====
section
/-! DEFINITION. The settings of the site record: their places, ranges, relations and factory defaults
(the settings tables of the chapters, R187, R195, 10.7). -/

namespace Sys2Proof.Machine

/-- Setting i of the working copy, as a number of its unit. -/
def Settings.nat (st : Settings) (i : Fin 93) : Nat := st[i].toNat

def Settings.normalWarning (st : Settings) : Nat := st.nat 0
def Settings.stowWarning (st : Settings) : Nat := st.nat 1
def Settings.brakeRelease (st : Settings) : Nat := st.nat 2
def Settings.tolerance (st : Settings) : Nat := st.nat 3
def Settings.settleTime (st : Settings) : Nat := st.nat 4
def Settings.settleLimit (st : Settings) : Nat := st.nat 5
def Settings.holdToBrake (st : Settings) : Nat := st.nat 6
def Settings.pinTime (st : Settings) : Nat := st.nat 7
def Settings.loopGain (st : Settings) : Nat := st.nat 8
def Settings.followLimit (st : Settings) : Nat := st.nat 9
def Settings.rate (st : Settings) : AxisId → Nat
  | .az => st.nat 10
  | .el => st.nat 12
def Settings.accel (st : Settings) : AxisId → Nat
  | .az => st.nat 11
  | .el => st.nat 13
def Settings.wrapMin (st : Settings) : Int := st[14]
def Settings.wrapMax (st : Settings) : Int := st[15]
def Settings.elMin (st : Settings) : Int := st[16]
def Settings.admissionWait (st : Settings) : Nat := st.nat 17
def Settings.starvePatience (st : Settings) : Nat := st.nat 18
def Settings.lagLimit (st : Settings) : Nat := st.nat 19
def Settings.feederMax (st : Settings) : Nat := st.nat 20
def Settings.reserve (st : Settings) : Nat := st.nat 21
def Settings.deratePermille (st : Settings) : Nat := st.nat 22
def Settings.azPeak (st : Settings) : Nat := st.nat 23
def Settings.elPeak (st : Settings) : Nat := st.nat 24

/-- The threshold set that stands from place `i` on (05 5.4). -/
def Settings.thresholds (st : Settings) : Attended → ThresholdSet
  | .attended => ⟨st.nat 25, st.nat 26, st.nat 27, st.nat 28, st.nat 29, st.nat 30, st.nat 31, st.nat 32⟩
  | .unattended => ⟨st.nat 33, st.nat 34, st.nat 35, st.nat 36, st.nat 37, st.nat 38, st.nat 39, st.nat 40⟩

def Settings.watchFloor (st : Settings) : Int := st[41]
def Settings.fallback (st : Settings) : Fallback := if st[42] = 0 then .stow else .hold
def Settings.autoRelease (st : Settings) : Bool := st[43] != 0
def Settings.stowDeadline (st : Settings) : Nat := st.nat 44
def Settings.ratedPower (st : Settings) : ZoneClass → Nat
  | .surface => st.nat 45
  | .subreflector => st.nat 46
  | .feed => st.nat 47
def Settings.startValue (st : Settings) : Nat := st.nat 48
def Settings.stopValue (st : Settings) : Nat := st.nat 49
def Settings.stopTime (st : Settings) : Nat := st.nat 50
def Settings.upStep (st : Settings) : Nat := st.nat 51
def Settings.downStep (st : Settings) : Nat := st.nat 52

/-- The four points (temperature, duty) of a class curve (06 6.3). -/
def Settings.curve (st : Settings) : ZoneClass → List (Int × Int)
  | .surface => [(st[53], st[54]), (st[55], st[56]), (st[57], st[58]), (st[59], st[60])]
  | .subreflector => [(st[61], st[62]), (st[63], st[64]), (st[65], st[66]), (st[67], st[68])]
  | .feed => [(st[69], st[70]), (st[71], st[72]), (st[73], st[74]), (st[75], st[76])]

def Settings.blindDuty (st : Settings) : ZoneClass → Nat
  | .surface => st.nat 77
  | .subreflector => st.nat 78
  | .feed => st.nat 79
def Settings.onset (st : Settings) : Nat := st.nat 80
def Settings.soft (st : Settings) : Nat := st.nat 81
def Settings.hard (st : Settings) : Nat := st.nat 82
def Settings.accumulation (st : Settings) : Nat := st.nat 83
def Settings.removal (st : Settings) : Nat := st.nat 84
def Settings.thaw (st : Settings) : Nat := st.nat 85
def Settings.startScore (st : Settings) : Nat := st.nat 86
def Settings.shedThreshold (st : Settings) : Nat := st.nat 87
def Settings.shedClear (st : Settings) : Nat := st.nat 88
def Settings.shedElevation (st : Settings) : Int := st[89]
def Settings.autoShed (st : Settings) : Bool := st[90] != 0
def Settings.triggerLevel (st : Settings) : Nat := st.nat 91
def Settings.presenceTimeout (st : Settings) : Nat := st.nat 92

/-- What a melt step of a zone of a class reads (R143). -/
def Settings.meltReading (st : Settings) (c : ZoneClass) : MeltReading :=
  ⟨st.startValue, st.stopValue, st.curve c, st.blindDuty c⟩

/-- What a SURFACE melt step reads (R143). -/
def Settings.snowReading (st : Settings) : SnowReading :=
  ⟨st.onset, st.soft, st.hard, st.shedThreshold, st.shedElevation, st.autoShed⟩

/-- The soft limits of an axis (R2). -/
def Settings.softLow (st : Settings) : AxisId → Int
  | .az => st.wrapMin
  | .el => st.elMin
def Settings.softHigh (st : Settings) : AxisId → Int
  | .az => st.wrapMax
  | .el => 90000

/-! ### Factory defaults -/

def driveDefaults : List Int :=
  [8000, 3000, 500, 20, 500, 3000, 30000, 15000, 2000, 500, 2000, 1000, 1000, 500, -270000, 270000, 5000]

def formationAndFeederDefaults : List Int := [3000, 10000, 100, 1800, 100, 600, 75, 60]

def windDefaults : List Int :=
  [1000, 1400, 200, 1500, 2000, 1000, 1500, 1200, 1000, 1400, 200, 1200, 1600, 800, 1200, 1200,
   30000, 0, 1, 180]

def meltDefaults : List Int :=
  [60, 15, 5, 300, 150, 120, 50, 100,
   -200, 1000, -100, 800, -20, 600, 20, 300,
   -200, 800, -100, 600, -20, 400, 20, 200,
   -300, 1000, -150, 700, 0, 400, 50, 200,
   400, 400, 600, 500, 3000, 8000, 3, 6, 2, 2000, 4000, 1000, 20000, 1]

def slateDefaults : List Int := [4, 10]

/-- The factory defaults (09 9.1). -/
def factoryDefaults : Settings :=
  ⟨(driveDefaults ++ formationAndFeederDefaults ++ windDefaults ++ meltDefaults ++ slateDefaults).toArray, by
    decide⟩

/-! ### Ranges and relations (R187) -/

/-- What a setting may be: a range, both ends included, or a list of named values (R195). -/
inductive SettingRange where
  | between (lo hi : Int)
  | oneOf (vs : List Int)
deriving DecidableEq, Repr

def SettingRange.admits : SettingRange → Int → Bool
  | .between lo hi, v => decide (lo ≤ v) && decide (v ≤ hi)
  | .oneOf vs, v => vs.contains v

def driveRanges : List SettingRange :=
  [.between 2000 30000, .between 1000 10000, .between 100 5000, .between 1 1000, .between 100 5000,
   .between 500 30000, .between 1000 600000, .between 2000 60000, .between 100 20000, .between 50 10000,
   .between 1 10000, .between 1 10000, .between 1 10000, .between 1 10000, .between (-270000) 0,
   .between 0 270000, .between 0 30000]

def formationAndFeederRanges : List SettingRange :=
  [.between 0 30000, .between 1000 60000, .between 10 10000,
   .between 100 5000, .between 0 500, .between 300 1000, .between 1 1000, .between 1 1000]

def thresholdRanges : List SettingRange :=
  [.between 0 6000, .between 0 6000, .between 0 1000, .between 1 6000, .between 1 6000, .between 0 6000,
   .between 0 6000, .between 60 7200]

def windRanges : List SettingRange :=
  thresholdRanges ++ thresholdRanges ++ [.between 0 90000, .oneOf [0, 1], .oneOf [0, 1], .between 30 900]

def curveRanges : List SettingRange :=
  [.between (-500) 500, .between 0 1000, .between (-500) 500, .between 0 1000,
   .between (-500) 500, .between 0 1000, .between (-500) 500, .between 0 1000]

def meltRanges : List SettingRange :=
  [.between 1 1000, .between 1 1000, .between 1 1000, .between 1 1000, .between 0 1000, .between 10 600,
   .between 1 1000, .between 1 1000] ++ curveRanges ++ curveRanges ++ curveRanges ++
  [.between 0 1000, .between 0 1000, .between 0 1000, .between 0 10000, .between 0 9999, .between 1 10000,
   .between 0 100, .between 0 100, .between 0 100, .between 0 10000, .between 0 10000, .between 0 10000,
   .between 0 90000, .oneOf [0, 1]]

def settingRanges : List SettingRange :=
  driveRanges ++ formationAndFeederRanges ++ windRanges ++ meltRanges ++
    [.oneOf [1, 4, 16, 64], .between 2 60]

/-- The place of the first value that its range does not allow (R187 check 3). -/
def firstOutOfRange : Nat → List SettingRange → List Int → Option Nat
  | _, [], _ => none
  | _, _, [] => none
  | i, r :: rs, v :: vs => if r.admits v then firstOutOfRange (i + 1) rs vs else some i

/-- The place of the first curve value out of order: temperatures strictly increase, duties do not
increase (R187). `base` is the place of the first point's temperature. -/
def curveTemperatureFault (base : Nat) (c : List (Int × Int)) : Option Nat :=
  match c with
  | [p1, p2, p3, p4] =>
    if p2.1 ≤ p1.1 then some (base + 2)
    else if p3.1 ≤ p2.1 then some (base + 4)
    else if p4.1 ≤ p3.1 then some (base + 6)
    else none
  | _ => none

def curveDutyFault (base : Nat) (c : List (Int × Int)) : Option Nat :=
  match c with
  | [p1, p2, p3, p4] =>
    if p1.2 < p2.2 then some (base + 3)
    else if p2.2 < p3.2 then some (base + 5)
    else if p3.2 < p4.2 then some (base + 7)
    else none
  | _ => none

/-- The relations of R187 in the order of its table, each with the place it names on failure. Within a row of
"each threshold set" or "each class curve" R187 gives no order; the model takes ATTENDED before UNATTENDED, and
SURFACE, SUBREFLECTOR, FEED (log entry 53). -/
def relationFaults (st : Settings) : List (Option Nat) :=
  let a := st.thresholds .attended
  let u := st.thresholds .unattended
  let need (ok : Bool) (i : Nat) : Option Nat := if ok then none else some i
  [need (decide (st.settleTime < st.settleLimit)) 5,
   need (decide (st.elPeak ≤ st.azPeak)) 24,
   need (decide (a.releaseMean < a.stowMean)) 30,
   need (decide (u.releaseMean < u.stowMean)) 38,
   need (decide (a.releaseGust < a.stowGust)) 31,
   need (decide (u.releaseGust < u.stowGust)) 39,
   need (decide (a.hysteresis ≤ a.watchMean) && decide (a.hysteresis ≤ a.watchGust)) 27,
   need (decide (u.hysteresis ≤ u.watchMean) && decide (u.hysteresis ≤ u.watchGust)) 35,
   need (decide (st.stopValue ≤ st.startValue)) 49,
   need (decide (st.soft < st.hard)) 82,
   need (decide (st.shedClear < st.shedThreshold)) 88,
   curveTemperatureFault 53 (st.curve .surface),
   curveTemperatureFault 61 (st.curve .subreflector),
   curveTemperatureFault 69 (st.curve .feed),
   curveDutyFault 53 (st.curve .surface),
   curveDutyFault 61 (st.curve .subreflector),
   curveDutyFault 69 (st.curve .feed)]

def firstSome : List (Option Nat) → Option Nat
  | [] => none
  | some i :: _ => some i
  | none :: l => firstSome l

/-- The place of the first setting that fails the range checks and then the relation checks (R187). -/
def settingFault (st : Settings) : Option Nat :=
  match firstOutOfRange 0 settingRanges st.toList with
  | some i => some i
  | none => firstSome (relationFaults st)

/-! ### The site record (10.7) -/

/-- FORMAT of the record for this part (10.7). -/
def recordFormat : Nat := 3

/-- The 1022 bytes that precede the CRC of a record that holds these settings (10.7, R195). -/
def recordBody (st : Settings) : List Byte :=
  fit 1022 (lowBytes 2 recordFormat ++ zeros 2 ++ st.toList.flatMap (signedBytes 4))

def settingsCrc (st : Settings) : Word := crc16 (recordBody st)

/-- The whole record: body and CRC-16 (R189). -/
def siteRecord (st : Settings) : List Byte := recordBody st ++ lowBytes 2 (settingsCrc st).toNat

def bytesAt (bs : List Byte) (off n : Nat) : List Byte := fit n (bs.drop off)

def recordSetting (bs : List Byte) (i : Nat) : Int :=
  (BitVec.ofNat 32 (fromLow (bytesAt bs (4 + 4 * i) 4))).toInt

/-- The settings that a record holds (R195). -/
def recordSettings (bs : List Byte) : Settings :=
  ⟨((List.range 93).map (recordSetting bs)).toArray, by simp⟩

def recordCrcField (bs : List Byte) : Nat := fromLow (bytesAt bs 0x3FE 2)

def recordFormatField (bs : List Byte) : Nat := fromLow (bytesAt bs 0 2)

def recordCrcGood (bs : List Byte) : Bool :=
  (crc16 (bytesAt bs 0 1022)).toNat == recordCrcField bs

/-- The first of the three conditions of the load that fails (R185). -/
def loadFailure (bs : List Byte) : Option LoadFailure :=
  if !recordCrcGood bs then some .crc
  else if recordFormatField bs ≠ recordFormat then some .format
  else if (settingFault (recordSettings bs)).isSome then some .value
  else none

/-- What refuses a staging page: the field number of 10.7 and the value found there (R187). -/
def stagingFault (bs : List Byte) : Option (Nat × Int) :=
  if !recordCrcGood bs then some (257, recordCrcField bs)
  else if recordFormatField bs ≠ recordFormat then some (256, recordFormatField bs)
  else
    match settingFault (recordSettings bs) with
    | some i => some (258 + i, recordSetting bs i)
    | none => none

end Sys2Proof.Machine
end

