-- ==== Sys2Proof/Machine/Ops.lean ====
section
/-! DEFINITION. The named operations over the records of the blocks: reading and changing one record,
timers, and what a block hands on (trail entries, answers, causes, messages). -/

namespace Sys2Proof.Machine

/-! ### Records -/

def Dish.axis (d : Dish) : AxisId → Axis
  | .az => d.az
  | .el => d.el

def Dish.modAxis (a : AxisId) (f : Axis → Axis) (d : Dish) : Dish :=
  match a with
  | .az => { d with az := f d.az }
  | .el => { d with el := f d.el }

/-- Both axes changed alike. -/
def Dish.modAxes (f : Axis → Axis) (d : Dish) : Dish := { d with az := f d.az, el := f d.el }

def Blocks.dish (b : Blocks) (d : DishId) : Dish := b.dishes[d]

def Blocks.modDish (d : DishId) (f : Dish → Dish) (b : Blocks) : Blocks :=
  { b with dishes := b.dishes.set d (f b.dishes[d]) }

def Blocks.form (b : Blocks) (f : FormationId) : Formation := b.forms[f]

def Blocks.modForm (f : FormationId) (g : Formation → Formation) (b : Blocks) : Blocks :=
  { b with forms := b.forms.set f (g b.forms[f]) }

def Formation.mem (m : Formation) (d : DishId) : Member := m.member[d]

def Formation.modMember (d : DishId) (g : Member → Member) (m : Formation) : Formation :=
  { m with member := m.member.set d (g m.member[d]) }

def Blocks.modMember (f : FormationId) (d : DishId) (g : Member → Member) (b : Blocks) : Blocks :=
  b.modForm f (Formation.modMember d g)

def Blocks.zone (b : Blocks) (z : ZoneId) : Zone := b.zones[z]

def Blocks.modZone (z : ZoneId) (f : Zone → Zone) (b : Blocks) : Blocks :=
  { b with zones := b.zones.set z (f b.zones[z]) }

def Blocks.heater (b : Blocks) (z : ZoneId) : HeaterOutput := b.heaters[z]

def Blocks.modHeater (z : ZoneId) (f : HeaterOutput → HeaterOutput) (b : Blocks) : Blocks :=
  { b with heaters := b.heaters.set z (f b.heaters[z]) }

def Blocks.shed (b : Blocks) (d : DishId) : Shed := b.sheds[d]

def Blocks.modShed (d : DishId) (f : Shed → Shed) (b : Blocks) : Blocks :=
  { b with sheds := b.sheds.set d (f b.sheds[d]) }

/-- What MC read at the latest melt step of a zone (R143). -/
def Blocks.meltReading (b : Blocks) (z : ZoneId) : MeltReading := b.meltReadings[z]

/-- What MC read at the latest SURFACE melt step of a dish (R143). -/
def Blocks.snowReading (b : Blocks) (d : DishId) : SnowReading := b.snowReadings[d]

def Blocks.line (b : Blocks) (l : LineId) : Line := b.lines[l]

def Blocks.modLine (l : LineId) (f : Line → Line) (b : Blocks) : Blocks :=
  { b with lines := b.lines.set l (f b.lines[l]) }

def Blocks.modWind (f : WindWatch → WindWatch) (b : Blocks) : Blocks := { b with wind := f b.wind }

def Blocks.stow (b : Blocks) (d : DishId) : StowRecord := b.wind.records[d]

def Blocks.modStow (d : DishId) (f : StowRecord → StowRecord) (b : Blocks) : Blocks :=
  b.modWind (fun w => { w with records := w.records.set d (f w.records[d]) })

def Blocks.modFa (f : Arbiter → Arbiter) (b : Blocks) : Blocks := { b with fa := f b.fa }

def Blocks.panel (b : Blocks) (d : DishId) : Panel := b.pedestal.panels[d]

def Blocks.modPanel (d : DishId) (f : Panel → Panel) (b : Blocks) : Blocks :=
  { b with pedestal := { b.pedestal with panels := b.pedestal.panels.set d (f b.pedestal.panels[d]) } }

/-- The settings in force. -/
abbrev Blocks.settings (b : Blocks) : Settings := b.site.working

/-- Dishes worked one after another in the order of the list, which runs by ascending number wherever a rule gives no
order (log entry 61). -/
def overDishes (l : List DishId) (f : DishId → Blocks → Blocks) (b : Blocks) : Blocks :=
  l.foldl (fun x d => f d x) b

/-- Formations worked one after another by ascending number, which no rule orders (log entry 61). -/
def overFormations (f : FormationId → Blocks → Blocks) (b : Blocks) : Blocks :=
  allFormations.foldl (fun x d => f d x) b

def allZones : List ZoneId := List.finRange 36

/-- Zone order of R25: z = 3 x dish + class. -/
def zoneOf (d : DishId) (c : ZoneClass) : ZoneId :=
  match c with
  | .surface => ⟨3 * d.val, by omega⟩
  | .subreflector => ⟨3 * d.val + 1, by omega⟩
  | .feed => ⟨3 * d.val + 2, by omega⟩

def zoneDish (z : ZoneId) : DishId := ⟨z.val / 3, by omega⟩

def zoneClass (z : ZoneId) : ZoneClass :=
  if z.val % 3 = 0 then .surface else if z.val % 3 = 1 then .subreflector else .feed

def zonesOf (d : DishId) : List ZoneId := [zoneOf d .surface, zoneOf d .subreflector, zoneOf d .feed]

/-! ### Time and timers (R191) -/

/-- One millisecond, or `n` of them: the running count and array time advance together (R191). -/
def Clock.advance (n : Nat) (c : Clock) : Clock :=
  { c with count := c.count + n, time := c.time + BitVec.ofNat 48 n }

/-- The time that is left until the running count stands at `deadline` passes. -/
def Blocks.runTo (deadline : Nat) (b : Blocks) : Blocks :=
  { b with clock := b.clock.advance (deadline - b.clock.count) }

/-- A timer started now with a duration in ms. -/
def Blocks.timer (ms : Nat) (b : Blocks) : Timer := some (b.clock.count + ms)

/-- What is left of a timer, in ms. -/
def Blocks.left (t : Timer) (b : Blocks) : Option Nat := t.map (fun n => n - b.clock.count)

/-- An expiry: of a running timer, the time left passes and the outcome is taken; of a stopped timer,
nothing happens (log entry 1). -/
def Blocks.expire (t : Timer) (f : Blocks → Blocks) (b : Blocks) : Blocks :=
  match t with
  | none => b
  | some n => f (b.runTo n)

/-! ### What a block hands on -/

/-- An entry handed to the trail writer, with the array time of the moment (R179). -/
def Blocks.trail (e : TrailEvent) (b : Blocks) : Blocks :=
  { b with out := b.out ++ [.trail e b.clock.time b.clock.valid] }

def Blocks.cause (c : Cause) (b : Blocks) : Blocks := { b with out := b.out ++ [.cause c] }

/-- An answer handed to the order taker (R176, R177). -/
def Blocks.answer (s : SlotId) (a : Answer) (b : Blocks) : Blocks :=
  { b with out := b.out ++ [.answer s a b.clock.time b.clock.valid] }

/-- A republication that a rule asks for whether or not a field has changed. -/
def Blocks.publish (p : Page) (b : Blocks) : Blocks := { b with out := b.out ++ [.page p] }

/-- A message to another block, taken later in the same command. -/
def Blocks.tell (m : Message) (b : Blocks) : Blocks := { b with inbox := b.inbox ++ [m] }

def noNotes : Notes := ⟨false, false, false, false⟩

/-- An answer with a code alone. -/
def plainAnswer (c : AnswerCode) : Answer := ⟨c, noNotes, 0, []⟩

/-- BAD_FIELD naming a field (R177). -/
def badField (n : Nat) : Answer := ⟨.badField, noNotes, n, []⟩

def dishSetBytes (s : DishSet) : List Byte := lowBytes 2 s.toNat

/-! ### Conditions that several blocks test -/

def Dish.reasonsEmpty (d : Dish) : Bool := !d.reasons.wind && !d.reasons.manual

/-- Both axes' profiles and rates are dropped (R6, R13 to R15, R21). -/
def Axis.drop (x : Axis) : Axis := { x with profile := none, rate := 0 }

/-- The drive states in which the servo runs and the brakes are released (R18). -/
def DriveState.active : DriveState → Bool
  | .releasing => true
  | .moving => true
  | .settling => true
  | .holding => true
  | .stopping => true
  | .braked => false
  | .warning => false
  | .pinning => false
  | .pinned => false
  | .unpinning => false
  | .faulted => false

/-! ### Outputs of a dish (00_scope.md, signals) -/

/-- The horn output: on exactly while HORN is BUSY (R10). -/
def Dish.hornOutput (d : Dish) : Bool := d.horn == .busy

/-- The brake-release output of the dish and the amplifier enable of both its axes: on exactly in the active
states (R11, R18). -/
def Dish.brakeReleaseOutput (d : Dish) : Bool := d.drive.active

def Dish.amplifierEnable (d : Dish) : Bool := d.drive.active

/-- The pin-in output: turned on at the entry to PINNING, off when pin-in is sensed and at a fault, the two
ways out of PINNING (R15, R21). -/
def Dish.pinInOutput (d : Dish) : Bool := d.drive == .pinning

/-- The pin-out output: turned on at the entry to UNPINNING, off when pin-out is sensed and at a fault, the two
ways out of UNPINNING (R16, R21). -/
def Dish.pinOutOutput (d : Dish) : Bool := d.drive == .unpinning

def OwnerSet.empty : OwnerSet := ⟨false, false, false, false⟩

def OwnerSet.add : Owner → OwnerSet → OwnerSet
  | .fp, s => { s with fp := true }
  | .ww, s => { s with ww := true }
  | .mc, s => { s with mc := true }
  | .lt, s => { s with lt := true }

def OwnerSet.has : Owner → OwnerSet → Bool
  | .fp, s => s.fp
  | .ww, s => s.ww
  | .mc, s => s.mc
  | .lt, s => s.lt

/-- The owners of a set, in the order of R1. -/
def OwnerSet.toList (s : OwnerSet) : List Owner := [Owner.fp, .ww, .mc, .lt].filter (fun o => s.has o)

def FaultKinds.empty : FaultKinds := ⟨false, false, false, false, false⟩

def FaultKinds.add : FaultKind → FaultKinds → FaultKinds
  | .following, s => { s with following := true }
  | .encoder, s => { s with encoder := true }
  | .limit, s => { s with limit := true }
  | .amplifier, s => { s with amplifier := true }
  | .pin, s => { s with pin := true }

def FaultKinds.has : FaultKind → FaultKinds → Bool
  | .following, s => s.following
  | .encoder, s => s.encoder
  | .limit, s => s.limit
  | .amplifier, s => s.amplifier
  | .pin, s => s.pin

end Sys2Proof.Machine
end

