-- ==== Sys2Proof/Machine/Heaters.lean ====
section
/-! DEFINITION. The heater zone outputs (R25) and what a zone does with its grant (R126, R127, R132). -/

namespace Sys2Proof.Machine

/-! ### Outputs (R25) -/

/-- The on-time of a zone in each window, in ms. -/
def onTime (duty : Nat) : Nat := duty * 10

/-- The place of a zone's window in each 10 s of the running count. -/
def windowPhase (z : ZoneId) : Nat := 250 * z.val

/-- The next running count, not before `count`, at which the window of `z` begins. -/
def nextWindow (z : ZoneId) (count : Nat) : Nat := count + (windowPhase z + 10000 - count % 10000) % 10000

/-- The window of a zone begins (R25). -/
def beginWindow (z : ZoneId) (b : Blocks) : Blocks :=
  let b := b.runTo (nextWindow z b.clock.count)
  b.modHeater z (fun _ => ⟨decide (0 < onTime (b.zone z).applied), b.clock.count⟩)

/-- The output turns off when the time elapsed in its window reaches its on-time (R25). -/
def endOnTime (z : ZoneId) (b : Blocks) : Blocks :=
  if (b.heater z).on then
    let b := b.runTo ((b.heater z).windowStart + onTime (b.zone z).applied)
    b.modHeater z (fun h => { h with on := false })
  else b

/-- A new applied duty takes effect on the output at once, but for a rise after the output has turned
off (R25). -/
def followDuty (duty count : Nat) (h : HeaterOutput) : HeaterOutput :=
  { h with on := h.on && decide (0 < duty) && decide (count - h.windowStart < onTime duty) }

/-- MC gives a zone its applied duty and hands it to the dish drives (R132). -/
def applyDuty (z : ZoneId) (duty : Nat) (b : Blocks) : Blocks :=
  (b.modZone z (fun x => { x with applied := duty })).modHeater z (followDuty duty b.clock.count)

/-- A zone enters OFF: no duty, no tail (R127 to R130). -/
def zoneOff (z : ZoneId) (b : Blocks) : Blocks :=
  (applyDuty z 0 b).modZone z (fun x => { x with state := .off, tail := none })

/-! ### Requests (R126) -/

/-- Power for a duty, rounded up (R126). -/
def powerFor (rated duty : Nat) : Nat := (rated * duty + 999) / 1000

/-- The REQUEST of a zone from its STATE and DEMAND (R126). -/
def requestOf (r : MeltReading) (x : Zone) : Nat :=
  if x.state = .cut then 0
  else if r.startValue ≤ x.demand then powerFor x.rated x.demand
  else if x.state = .running ∧ r.stopValue ≤ x.demand then powerFor x.rated x.demand
  else if x.state = .tailing then powerFor x.rated r.stopValue
  else 0

/-! ### Grants (R84, R127) -/

/-- GRANTED DUTY of a grant (R84), capped at 1000 (R143). -/
def grantedDuty (rated grant : Nat) : Nat := min 1000 (1000 * grant / rated)

/-- MC takes a new grant of a zone (R127). A REQUEST to be formed anew is left to a message, since no
arrival at FA is taken inside a grant event (R79). -/
def takeGrant (z : ZoneId) (b : Blocks) : Blocks :=
  let x := b.zone z
  match x.state with
  | .off => b
  | .cut => b
  | .running | .tailing =>
    if x.grantedDuty < (b.meltReading z).stopValue then (zoneOff z b).tell (.reformRequest z)
    else if x.grantedDuty < x.applied then applyDuty z x.grantedDuty b
    else b

/-- FA writes the grant of a zone and tells MC where it has changed (R84). -/
def giveHeat (z : ZoneId) (grant : Nat) (b : Blocks) : Blocks :=
  if (b.zone z).grant = grant then b
  else takeGrant z (b.modZone z (fun x => { x with grant := grant, grantedDuty := grantedDuty x.rated grant }))

end Sys2Proof.Machine
end

