-- ==== Sys2Proof/Machine/Feeder.lean ====
section
/-! DEFINITION. The feeder arbiter (chapter 4). -/

namespace Sys2Proof.Machine

/-! ### The budget (R72, R73) -/

def derateLimit (st : Settings) : Nat := st.feederMax * st.deratePermille / 1000

/-- BUDGET TARGET (R72). -/
def budgetTarget (st : Settings) (requested : Nat) (derate : Bool) : Nat :=
  let least := min requested st.feederMax
  (if derate then min least (derateLimit st) else least) - st.reserve

/-- MOTION SUM: the sum of the AMOUNTs of the motion grant table (R71). -/
def motionSum (fa : Arbiter) : Nat :=
  fa.grants.toList.foldl (fun n g => n + (g.map Grant.amount).getD 0) 0

def holdingDishes (fa : Arbiter) : DishSet :=
  DishSet.ofList (allDishes.filter (fun d => fa.grants[d].isSome))

def heaterSum (b : Blocks) : Nat := b.zones.toList.foldl (fun n z => n + z.grant) 0

/-- The remainder of R83: what motion leaves. -/
def remainder (fa : Arbiter) : Nat := fa.inForce - motionSum fa

/-- BUDGET IN FORCE and HELD recomputed; a change of the one republishes the summary (R89, R168), and a hold
that begins writes BUDGET_HELD (R73, R85). -/
def recomputeForce (b : Blocks) : Blocks :=
  let ms := motionSum b.fa
  let held := decide (b.fa.target < ms)
  let b1 := b.modFa (fun fa => { fa with inForce := max fa.target ms, held := held })
  let b' := if b1.fa.inForce = b.fa.inForce then b1 else b1.publish .common
  if held && !b.fa.held then b'.trail (.budgetHeld b.fa.target ms (holdingDishes b.fa)) else b'

/-! ### The motion step (R80) -/

/-- Whether a claim may be granted now, or is passed over (R80). -/
def considered (d : Dish) (grant : Option Grant) (cls : ClaimClass) : Bool :=
  d.drive != .faulted && d.task != .lockStop && !d.lock.stopPending
    && (!d.lock.motionLocked || (cls == .stow && d.lock.stowYielding)) && grant.isNone

/-- The walk of the claim queue from its head within a room: the claims granted and the queue left,
both in queue order (R80). -/
def walkClaims (ok : Claim → Bool) : Nat → List Claim → List Claim × List Claim
  | _, [] => ([], [])
  | room, c :: cs =>
    if !ok c then
      let r := walkClaims ok room cs
      (r.1, c :: r.2)
    else if c.amount ≤ room then
      let r := walkClaims ok (room - c.amount) cs
      (c :: r.1, r.2)
    else ([], c :: cs)

/-- FA writes a dish's entry of the motion grant table and its MOTION GRANT field (R71). -/
def setGrant (d : DishId) (g : Option Grant) (b : Blocks) : Blocks :=
  (b.modFa (fun fa => { fa with grants := fa.grants.set d g })).modDish d
    (fun x => { x with motionGrant := g.map Grant.amount })

def grantClaim (c : Claim) (b : Blocks) : Blocks :=
  setGrant c.dish (some ⟨c.amount, c.cls, c.claimant, .reserved, c.azPeak, c.elPeak⟩) b

/-- The dishes granted to one claimant reach it together (R80). -/
def tellGranted (gs : List Claim) (who : Owner) (b : Blocks) : Blocks :=
  match (gs.filter (fun c => c.claimant == who)).map Claim.dish with
  | [] => b
  | d :: ds => b.tell (.granted who (d :: ds))

def motionStep (b : Blocks) : Blocks :=
  let ok := fun c : Claim => considered (b.dish c.dish) b.fa.grants[c.dish] c.cls
  let r := walkClaims ok (remainder b.fa) b.fa.queue
  let b1 := b.modFa (fun fa => { fa with queue := r.2 })
  let b2 := r.1.foldl (fun x c => grantClaim c x) b1
  tellGranted r.1 .fp (tellGranted r.1 .mc (tellGranted r.1 .ww b2))

/-! ### The heater step (R83, R84) -/

/-- Insertion into a list kept by descending score, an equal score standing before (R83). -/
def insertByScore (score : DishId → Nat) (d : DishId) : List DishId → List DishId
  | [] => [d]
  | e :: es => if score e < score d then d :: e :: es else e :: insertByScore score d es

/-- Descending SCORE, equal scores by ascending dish number (R83). -/
def byScore (score : DishId → Nat) (l : List DishId) : List DishId :=
  l.foldl (fun acc d => insertByScore score d acc) []

/-- The order in which the zones are walked: four tiers (R83). -/
def heaterOrder (soft score : DishId → Nat) : List ZoneId :=
  let laden := allDishes.filter (fun d => decide (soft d ≤ score d))
  let other := allDishes.filter (fun d => decide (score d < soft d))
  allDishes.map (fun d => zoneOf d .feed) ++ (byScore score laden).map (fun d => zoneOf d .surface)
    ++ allDishes.map (fun d => zoneOf d .subreflector) ++ (byScore score other).map (fun d => zoneOf d .surface)

/-- What each zone of the walk receives (R83). -/
def shareHeat (request : ZoneId → Nat) : Nat → List ZoneId → List (ZoneId × Nat)
  | _, [] => []
  | room, z :: zs =>
    let g := min (request z) room
    (z, g) :: shareHeat request (room - g) zs

/-- The new grant of each zone is written, the zones told in zone order (R84). -/
def heaterStep (b : Blocks) : Blocks :=
  let order := heaterOrder (fun d => (b.snowReading d).soft) (fun d => (b.dish d).score)
  let shares := shareHeat (fun z => (b.zone z).request) (remainder b.fa) order
  allZones.foldl (fun x z => giveHeat z ((shares.lookup z).getD 0) x) b

/-- A grant event: motion, then heat, then the power page (R79, R80, R83, R84, R89). -/
def grantEvent (b : Blocks) : Blocks := (heaterStep (motionStep (recomputeForce b))).publish .power

/-- MC posts a REQUEST; a changed one makes a grant event (R126, R84, R79). -/
def postRequest (z : ZoneId) (r : Nat) (b : Blocks) : Blocks :=
  if (b.zone z).request = r then b
  else grantEvent (b.modZone z (fun x => { x with request := r }))

/-- MC forms REQUEST anew and posts it (R126). -/
def reformRequest (z : ZoneId) (b : Blocks) : Blocks := postRequest z (requestOf (b.meltReading z) (b.zone z)) b

/-! ### Claims (R75 to R78) -/

/-- Class order of the queue: STOW, SHED, MOVE (R76). -/
def ClaimClass.rank : ClaimClass → Nat
  | .stow => 0
  | .shed => 1
  | .move => 2

/-- A claim stands behind every claim of its class and of the classes before it (R76). -/
def enqueue (c : Claim) : List Claim → List Claim
  | [] => [c]
  | e :: es => if c.cls.rank < e.cls.rank then c :: e :: es else e :: enqueue c es

/-- The claim that a claimant submits, with its AMOUNT and its place of arrival (R75, R76). -/
def makeClaim (b : Blocks) (d : DishId) (who : Owner) (cls : ClaimClass) (azMoves elMoves : Bool) : Claim :=
  { dish := d, claimant := who, cls := cls, azMoves := azMoves, elMoves := elMoves
    amount := (if azMoves then b.settings.azPeak else 0) + (if elMoves then b.settings.elPeak else 0)
    azPeak := b.settings.azPeak, elPeak := b.settings.elPeak, seq := b.fa.sequence }

inductive ClaimOutcome where
  | joined | reclassed | empty | duplicate
deriving DecidableEq, Repr

def joinQueue (c : Claim) (b : Blocks) : Blocks :=
  b.modFa (fun fa => { fa with queue := enqueue c fa.queue, sequence := fa.sequence + 1 })

def removeClaim (d : DishId) (b : Blocks) : Blocks :=
  b.modFa (fun fa => { fa with queue := fa.queue.filter (fun c => c.dish != d) })

def queuedClaim (b : Blocks) (d : DishId) : Option Claim := b.fa.queue.find? (fun c => c.dish == d)

/-- Whether a claim of this claimant stands queued for the dish. -/
def hasClaim (b : Blocks) (who : Owner) (d : DishId) : Bool :=
  b.fa.queue.any (fun c => c.dish == d && c.claimant == who)

/-- A STOW claim reclasses the grant that its dish holds (R77). -/
def reclass (d : DishId) (g : Grant) (b : Blocks) : Blocks :=
  if g.cls = .stow ∧ g.holder = .ww then (b.tell (.granted .ww [d])).publish .power
  else
    let b1 := setGrant d (some { g with cls := .stow, holder := .ww, use := .reserved }) b
    let b2 := if g.holder = .ww then b1 else b1.tell (.takenOver g.holder d)
    (b2.tell (.granted .ww [d])).publish .power

/-- FA takes a submitted claim, but for the grant event that a join makes (R75). -/
def submitQuiet (c : Claim) (b : Blocks) : Blocks × ClaimOutcome :=
  if !c.azMoves && !c.elMoves then (b, .empty)
  else
    match c.cls, b.fa.grants[c.dish] with
    | .stow, some g => (reclass c.dish g b, .reclassed)
    | _, _ =>
      match queuedClaim b c.dish with
      | none => (joinQueue c b, .joined)
      | some q =>
        if c.cls = .stow ∧ q.cls ≠ .stow then
          (joinQueue c ((removeClaim c.dish b).tell (.withdrawn q.claimant c.dish)), .joined)
        else (b, .duplicate)

/-- One claim submitted (R75, R79). -/
def submitClaim (d : DishId) (who : Owner) (cls : ClaimClass) (azMoves elMoves : Bool) (b : Blocks) :
    Blocks × ClaimOutcome :=
  match submitQuiet (makeClaim b d who cls azMoves elMoves) b with
  | (b', .joined) => (grantEvent b', .joined)
  | r => r

/-- A batch of STOW claims of the wind watch submitted in one event; its joins make one grant event
(R76). -/
def submitStows (ds : List DishId) (b : Blocks) : Blocks :=
  let r := ds.foldl (fun (acc : Blocks × Bool) d =>
    match submitQuiet (makeClaim acc.1 d .ww .stow false true) acc.1 with
    | (b', .joined) => (b', true)
    | (b', _) => (b', acc.2)) (b, false)
  if r.2 then grantEvent r.1 else r.1

/-- A claimant withdraws its claim (R78). -/
def withdrawClaim (who : Owner) (d : DishId) (b : Blocks) : Blocks :=
  if hasClaim b who d then grantEvent (removeClaim d b) else b

/-! ### Use and return of a motion grant (R81, R82) -/

/-- The whole grant of a dish is returned (R82). -/
def returnGrant (d : DishId) (b : Blocks) : Blocks :=
  match b.fa.grants[d] with
  | none => b
  | some _ => grantEvent (setGrant d none b)

/-- The dish drives take a move: the grant comes into use, and a surplus is returned (R81). -/
def useGrant (d : DishId) (azMoves elMoves : Bool) (b : Blocks) : Blocks :=
  match b.fa.grants[d] with
  | none => b
  | some g =>
    let need := (if azMoves then g.azPeak else 0) + (if elMoves then g.elPeak else 0)
    if need < g.amount then
      grantEvent (setGrant d (if need = 0 then none else some { g with use := .inUse, amount := need }) b)
    else setGrant d (some { g with use := .inUse }) b

/-- The holder returns a grant that no move has used (R82). -/
def holderReturn (who : Owner) (d : DishId) (b : Blocks) : Blocks :=
  match b.fa.grants[d] with
  | some g => if g.holder = who ∧ g.use = .reserved then returnGrant d b else b
  | none => b

/-- A dish comes to rest: a grant in use is returned, unless a held move needs it (R82). -/
def restGrant (d : DishId) (b : Blocks) : Blocks :=
  match b.fa.grants[d], (b.dish d).nextAction with
  | some g, .none => if g.use = .inUse then returnGrant d b else b
  | some g, .unpin => if g.use = .inUse then returnGrant d b else b
  | _, _ => b

/-- The grant is returned whatever its use, and a holder other than `told` hears that it is gone
(R82, R150). -/
def seizeGrant (d : DishId) (told : Option Owner) (b : Blocks) : Blocks :=
  match b.fa.grants[d] with
  | none => b
  | some g =>
    let b1 := returnGrant d b
    if told = some g.holder then b1 else b1.tell (.grantGone g.holder d)

/-! ### The budget moves (R74, R86, R87) -/

/-- BUDGET TARGET recomputed; a changed one makes a grant event (R72). -/
def retarget (b : Blocks) : Blocks :=
  let t := budgetTarget b.settings b.fa.requested b.fa.derate
  if t = b.fa.target then b else grantEvent (b.modFa (fun fa => { fa with target := t }))

/-- A change of level of the derate input (R74). -/
def takeDerate (asserted : Bool) (b : Blocks) : Blocks :=
  if b.fa.derate = asserted then b
  else retarget ((b.modFa (fun fa => { fa with derate := asserted })).publish .power)

/-- SET_BUDGET (R86). The answer gives HELD as one byte, 1 for true (DEDUCED, log entry 43). -/
def takeBudget (s : SlotId) (value : Nat) (b : Blocks) : Blocks :=
  let v := min value b.settings.feederMax
  let b1 := retarget (b.modFa (fun fa => { fa with requested := v }))
  let fa := b1.fa
  b1.answer s ⟨.done, { noNotes with clamped := decide (v < value) }, 0,
    lowBytes 2 fa.requested ++ lowBytes 2 fa.target ++ lowBytes 2 fa.inForce ++ lowBytes 1 (bit fa.held)⟩

/-- Whether new budget values fit the motion grants held; the difference is not taken as 0 below 0 (R87). -/
def budgetFits (new : Settings) (fa : Arbiter) : Bool :=
  decide ((motionSum fa : Int) ≤ (new.feederMax : Int) - new.reserve)

/-- FA takes adopted settings: the target recomputed and a grant event in any case (R87). -/
def adoptBudget (b : Blocks) : Blocks :=
  grantEvent (b.modFa (fun fa => { fa with target := budgetTarget b.settings fa.requested fa.derate }))

/-- A new rated power posted by MC: the granted duty is rewritten and MC told if it changed (R143). -/
def postRated (z : ZoneId) (rated : Nat) (b : Blocks) : Blocks :=
  let x := b.zone z
  let b1 := b.modZone z (fun y => { y with rated := rated, grantedDuty := grantedDuty rated y.grant })
  if grantedDuty rated x.grant = x.grantedDuty then b1 else takeGrant z b1

end Sys2Proof.Machine
end

