-- ==== Sys2Proof/Machine/SlewPlanner.lean ====
section
/-! DEFINITION. The slew planner (chapter 2). It holds no state: every function here is a plain one. -/

namespace Sys2Proof.Machine

/-! ### Integer arithmetic (00_scope.md, "Arithmetic"; R33, R35) -/

/-- `k` bits of the root of `n`, from the top; `r` is what the higher bits gave. -/
def isqrtBits (n : Nat) : Nat → Nat → Nat
  | 0, r => r
  | k + 1, r => isqrtBits n k (if (r + 2 ^ k) * (r + 2 ^ k) ≤ n then r + 2 ^ k else r)

/-- The floor square root. -/
def isqrt (n : Nat) : Nat := isqrtBits n (Nat.log2 n / 2 + 1) 0

/-- Division rounded up. -/
def ceilDiv (n d : Nat) : Nat := (n + d - 1) / d

/-! ### Requests and failures (R27, R39) -/

inductive PlanFailure where
  | noPosition | badAzimuth | noCandidate
deriving DecidableEq, Repr

inductive AzimuthTarget where
  | stay
  /-- A wrap position handed back by the formation planner (R29, R49). -/
  | wrap (w : Int)
  | sky (a : Int) (preference : WrapPreference)
deriving DecidableEq, Repr

/-- The present position of R27, if the encoder knows one. -/
def presentPosition (drive : DriveState) (x : Axis) : Option Int :=
  match x.encoder with
  | none => none
  | some e => some (if drive = .holding then x.position else e)

/-- A derated figure (R28). -/
def derated (figure factor : Nat) : Nat := max 1 (figure * factor / 1000)

/-! ### Minimum time (R33) -/

def minimumTime (dist v a : Nat) : Nat :=
  if dist = 0 then 0
  else if v * v ≤ dist * a then ceilDiv (1000 * dist * a + 1000 * (v * v)) (v * a)
  else
    let m := ceilDiv (4000000 * dist) a
    let t := isqrt m
    if t * t < m then t + 1 else t

/-- One axis of a plan from P to T (R33, R34), with the undegraded rate setting that the plan reads (R188). -/
def planAxis (stay : Bool) (p t : Int) (v a rate : Nat) : AxisMove :=
  { kind := if p = t then .still else .slew
    stay := stay, start := p, target := t, v := v, a := a
    duration := minimumTime (t - p).natAbs v a
    vDer := v, aDer := a, rateSetting := rate, bounds := none }

/-! ### Azimuth (R29 to R31) -/

/-- The candidates of a sky azimuth, ascending (R29). The wrap limits lie within -270000 to 270000, so
no other whole number k gives one. -/
def wrapCandidates (st : Settings) (a : Int) : List Int :=
  [a - 360000, a, a + 360000].filter (fun w => decide (st.wrapMin ≤ w) && decide (w ≤ st.wrapMax))

/-- NEAREST between two candidates, the lower first (R30). -/
def nearer (p : Int) (v a : Nat) (low high : Int) : Int :=
  let tl := minimumTime (low - p).natAbs v a
  let th := minimumTime (high - p).natAbs v a
  if tl < th then low
  else if th < tl then high
  else if low.natAbs < high.natAbs then low
  else high

/-- The wrap position chosen and whether WRAP_OTHER is noted (R29 to R31). -/
def chooseWrap (st : Settings) (p : Int) (v a : Nat) (sky : Int) (pref : WrapPreference) :
    Except PlanFailure (Int × Bool) :=
  if sky < 0 ∨ 359999 < sky then .error .badAzimuth
  else
    match wrapCandidates st sky with
    | [] => .error .noCandidate
    | [w] => .ok (w, pref != .nearest)
    | low :: high :: _ =>
      match pref with
      | .nearest => .ok (nearer p v a low high, false)
      | .cw => .ok (high, false)
      | .ccw => .ok (low, false)

/-! ### Elevation (R32) -/

/-- The elevation target and whether a step changed the value; `watchFloor` is the floor while it
applies. -/
def clampElevation (st : Settings) (watchFloor : Option Int) (e : Int) : Int × Bool :=
  let e1 := max e st.elMin
  let e2 := min e1 90000
  let e3 := match watchFloor with
    | some f => max e2 f
    | none => e2
  (e3, e1 != e || e2 != e1 || e3 != e2)

/-! ### Plans (R27, R34) -/

def makePlan (az el : AxisMove) (clamped wrapOther : Bool) : PlanResult :=
  { az := az, el := el, minTime := max az.duration el.duration, clamped := clamped, wrapOther := wrapOther }

/-- The plan of a dish from its present position, for an azimuth target and a requested elevation. -/
def plan (st : Settings) (d : Dish) (azTarget : AzimuthTarget) (el : Int) (watchFloor : Option Int) :
    Except PlanFailure PlanResult :=
  match presentPosition d.drive d.az, presentPosition d.drive d.el with
  | some pAz, some pEl =>
    let vAz := derated (st.rate .az) d.derate
    let aAz := derated (st.accel .az) d.derate
    let vEl := derated (st.rate .el) d.derate
    let aEl := derated (st.accel .el) d.derate
    let (tEl, clamped) := clampElevation st watchFloor el
    let elMove := planAxis false pEl tEl vEl aEl (st.rate .el)
    match azTarget with
    | .stay => .ok (makePlan (planAxis true pAz pAz vAz aAz (st.rate .az)) elMove clamped false)
    | .wrap w => .ok (makePlan (planAxis false pAz w vAz aAz (st.rate .az)) elMove clamped false)
    | .sky a pref =>
      match chooseWrap st pAz vAz aAz a pref with
      | .error e => .error e
      | .ok (w, other) => .ok (makePlan (planAxis false pAz w vAz aAz (st.rate .az)) elMove clamped other)
  | _, _ => .error .noPosition

/-! ### Stretching (R35, R36) -/

/-- The cruise rate of the stretched axis before it is checked against its duration (R35). -/
def stretchRate (dist v a tc : Nat) : Nat :=
  let s := a * tc
  let q := s * s - 4000000 * a * dist
  min (max 1 (ceilDiv (s - isqrt q) 2000)) (min v (isqrt (a * dist)))

/-- The trapezoid time at a cruise rate (R33, R35). -/
def trapezoidTime (dist v a : Nat) : Nat := ceilDiv (1000 * dist * a + 1000 * (v * v)) (v * a)

/-- An axis stretched to the common duration; an axis that need not or cannot be stretched keeps its
profile (R35, R36). -/
def stretch (tc : Nat) (m : AxisMove) : AxisMove :=
  if m.kind = .slew ∧ m.duration < tc then
    let dist := (m.target - m.start).natAbs
    let v := stretchRate dist m.vDer m.aDer tc
    let t := trapezoidTime dist v m.aDer
    if t ≤ tc then { m with v := v, duration := t } else m
  else m

/-! ### Re-anchoring a held move (R38) -/

/-- The target of an axis that is replanned from P: STAY is taken afresh, any other keeps its TARGET (R38).
R34 gives an axis that was still at its plan no TARGET. In a move of task FORMATION or SHED it stays still
wherever the stop has left it, so that the move needs the same axes or fewer; in a stow it keeps 90000, which
every grant covers (R81, R109). The reading is the model's choice (log entry 38). -/
def reanchorTarget (task : Task) (p : Int) (m : AxisMove) : Int :=
  if m.stay || (m.kind == .still && task != .stow) then p else m.target

/-- One axis replanned from P (R38). -/
def reanchorAxis (task : Task) (p : Int) (m : AxisMove) : AxisMove :=
  planAxis m.stay p (reanchorTarget task p m) m.vDer m.aDer m.rateSetting

/-- A held move taken afresh from the present position; unchanged where an encoder is unknown (R3
refuses it then). -/
def reanchor (d : Dish) (m : Move) : Move :=
  match presentPosition d.drive d.az, presentPosition d.drive d.el with
  | some pAz, some pEl => { m with az := reanchorAxis m.task pAz m.az, el := reanchorAxis m.task pEl m.el }
  | _, _ => m

/-! ### Tracks (R41 to R43) -/

/-- The value of a sky azimuth that lies within 180000 of `u`, the larger of two (R41). -/
def unwrapNext (u a : Int) : Int := a + ((u + 180000 - a) / 360000) * 360000

def inWrapRange (st : Settings) (w : Int) : Bool := decide (st.wrapMin ≤ w) && decide (w ≤ st.wrapMax)

/-- A point between two, truncated toward zero (R42). -/
def interpolate (p0 p1 : Int) (t t0 t1 : Nat) : Int :=
  p0 + Int.tdiv ((p1 - p0) * ((t : Int) - t0)) ((t1 : Int) - t0)

/-- The pointing at a time from a list of (time, azimuth, elevation), earliest first (R42). -/
def pointing (t : Nat) : List (Nat × Int × Int) → Option (Int × Int)
  | [] => none
  | [(_, az, el)] => some (az, el)
  | (t0, az0, el0) :: (t1, az1, el1) :: rest =>
    if t < t0 then some (az0, el0)
    else if t < t1 then some (interpolate az0 az1 t t0 t1, interpolate el0 el1 t t0 t1)
    else pointing t ((t1, az1, el1) :: rest)

/-- The raise of an interpolated elevation in WATCH (R43): the elevation and whether it was raised. -/
def raiseToFloor (watchFloor : Option Int) (el : Int) : Int × Bool :=
  match watchFloor with
  | some f => (max el f, decide (el < f))
  | none => (el, false)

end Sys2Proof.Machine
end

