-- ==== Sys2Proof/Machine/Drives.lean ====
section
/-! DEFINITION. The dish drives (chapter 1): moves, stops, drive states, pins, faults. -/

namespace Sys2Proof.Machine

/-! ### Reports -/

def tellOwner (o : Option Owner) (d : DishId) (r : Report) (b : Blocks) : Blocks :=
  match o with
  | some w => b.tell (.report w d r)
  | none => b

def tellOwners (ws : List Owner) (d : DishId) (r : Report) (b : Blocks) : Blocks :=
  ws.foldl (fun x w => x.tell (.report w d r)) b

/-! ### Leaving and entering drive states -/

/-- What leaving a drive state ends: the timers and marks that belong to it (R1, R4, R8, R10, R11, R13,
R15). -/
def Dish.leave (d : Dish) : Dish :=
  match d.drive with
  | .braked => d
  | .warning => { d with horn := .idle, removalMark := false, warningTimer := none }
  | .releasing => { d with startKept := false, readyReported := false, brakeTimer := none }
  | .moving => d
  | .settling => { d with settleTimer := none, settleLimit := none }
  | .holding => { d with holdTimer := none, startAwaited := false }
  | .stopping => d
  | .pinning => { d with absorbed := .empty, pinTimer := none }
  | .pinned => { d with pinningOwner := none }
  | .unpinning => { d with pinTimer := none }
  | .faulted => d

/-- Outside the active states the servo is off: no profile, no rate, no demand, no following count
(R6, R13 to R15, R18). -/
def Axis.idle (x : Axis) : Axis := { x.drop with rateDemand := 0, followingCount := 0 }

/-- The state proper: the old one is left, the servo is off outside the active states. WARNING keeps the
profiles of the move that waits for its end (R8). -/
def Dish.enter (new : DriveState) (d : Dish) : Dish :=
  let d1 := { d.leave with drive := new }
  let d2 := if new = .pinning ∨ new = .pinned then d1 else { d1 with pinningOwner := none }
  if new.active ∨ new = .warning then d2 else d2.modAxes Axis.idle

def enterState (d : DishId) (new : DriveState) (b : Blocks) : Blocks := b.modDish d (Dish.enter new)

/-! ### Profiles -/

/-- The profile that a planned axis gives, not yet started (R3, R12, R34). -/
def AxisMove.profile (m : AxisMove) : Option Profile :=
  match m.kind with
  | .still => none
  | .slew => some { kind := .slew, start := m.start, target := m.target, v := m.v, a := m.a,
                    startInstant := 0, duration := m.duration, travelled := 0, rate0 := 0,
                    dir := (m.target - m.start).sign, ended := false, finishing := false, bounds := none }
  | .follow => some { kind := .follow, start := m.start, target := m.target, v := m.vDer, a := m.aDer,
                      startInstant := 0, duration := 0, travelled := 0, rate0 := 0, dir := 0,
                      ended := false, finishing := false, bounds := m.bounds }

def AxisMove.moves (m : AxisMove) : Bool := m.kind != .still

def Move.moves (m : Move) : Bool := m.az.moves || m.el.moves

def Move.axis (m : Move) : AxisId → AxisMove
  | .az => m.az
  | .el => m.el

/-- The profiles of a move are put on the axes of its dish. -/
def setProfiles (d : DishId) (m : Move) (b : Blocks) : Blocks :=
  b.modDish d (fun x => { x with az := { x.az with profile := m.az.profile }
                                 el := { x.el with profile := m.el.profile }
                                 startMode := m.startMode })

/-- The servo of a dish entering or in RELEASING holds a slewing axis at its START POSITION, and an axis
without a profile where it stands (R11). -/
def Axis.holdStart (x : Axis) : Axis :=
  match x.profile with
  | some p => if p.kind = .slew then { x with position := p.start, rate := 0 } else { x with rate := 0 }
  | none => { x with position := x.encoder.getD x.position, rate := 0 }

/-- A profile starts (R12, R67). -/
def Axis.begin (now : ArrayTime) (x : Axis) : Axis :=
  { x with rate := 0, profile := x.profile.map (fun p => { p with startInstant := now, travelled := 0 }) }

def enterMoving (d : DishId) (b : Blocks) : Blocks :=
  (enterState d .moving b).modDish d (Dish.modAxes (Axis.begin b.clock.time))

/-! ### Taking a move (R3 to R5, R8 to R11) -/

/-- A target beyond the encoder position toward a barred side (R24). -/
def Axis.barredAt (x : Axis) (target : Int) : Bool :=
  match x.encoder with
  | none => false
  | some e => (x.lowBar && decide (target < e)) || (x.highBar && decide (e < target))

def Axis.inSoftLimits (x : Axis) (target : Int) : Bool :=
  decide (x.softLow ≤ target) && decide (target ≤ x.softHigh)

def rangeRefused (x : Axis) (m : AxisMove) : Bool := m.kind == .slew && !x.inSoftLimits m.target

/-- An axis that moves toward a target beyond its bar (R24). A move gives a STILL axis no profile and so no TARGET
(R3, R24). R49 speaks of the target of every plan taken with an order, and R34 gives a STILL axis none; that an axis
STILL in its plan refuses no order there, also where its encoder stands short of its position toward a bar, is the
model's choice (log entry 59). -/
def barRefused (x : Axis) (m : AxisMove) : Bool := m.moves && x.barredAt m.target

/-- The checks on a move in their order (R3). -/
def checkMove (d : Dish) (m : Move) : Option MoveRefusal :=
  if d.drive = .faulted then some .faulted
  else if (d.lock.motionLocked || d.lock.stopPending || d.task == .lockStop)
      && !(m.task == .stow && d.lock.stowYielding && !d.lock.stopPending) then some .locked
  else if d.az.encoder = none ∨ d.el.encoder = none then some .encoder
  else if rangeRefused d.az m.az || rangeRefused d.el m.el then some .range
  else if barRefused d.az m.az || barRefused d.el m.el then some .barred
  else if m.task ≠ .stow ∧ (d.task = .stow ∨ d.reasonsEmpty = false) then some .stowing
  else if m.task ≠ .stow ∧ (d.drive = .pinned ∨ d.drive = .pinning) then some .pinned
  else if m.moves ∧ d.motionGrant = none then some .noGrant
  else none

/-- TASK and OWNER take a move's values (R4, R7), and the axes the rate settings of its plan (R18, R188). -/
def takeTask (d : DishId) (m : Move) (b : Blocks) : Blocks :=
  b.modDish d (fun x => { x with
    task := m.task, owner := some m.owner
    az := { x.az with rateSetting := m.az.rateSetting }
    el := { x.el with rateSetting := m.el.rateSetting } })

/-- The earlier owner hears PREEMPTED where it is another block (R4, R6). -/
def preempt (old : Option Owner) (new : Owner) (d : DishId) (b : Blocks) : Blocks :=
  match old with
  | some w => if w = new then b else b.tell (.report w d (.preempted new))
  | none => b

/-- The owner of a held move. -/
def NextAction.moveOwner (n : NextAction) : Option Owner :=
  match n with
  | .move m => some m.owner
  | .none => Option.none
  | .unpin => Option.none

/-- PINNING, which drives the pin-in output (R15). What a pin-in sensed already at the entry does is log
entry 20. -/
def enterPinning (d : DishId) (who : Owner) (b : Blocks) : Blocks :=
  (enterState d .pinning b).modDish d
    (fun x => { x with pinningOwner := some who, pinTimer := b.timer b.settings.pinTime })

/-- WARNING from BRAKED: the horn, and the warning time by the selector (R8). -/
def enterWarning (d : DishId) (m : Move) (b : Blocks) : Blocks :=
  let stow := m.task == .stow && !(b.dish d).removalMark
  let ms := if stow then b.settings.stowWarning else b.settings.normalWarning
  (enterState d .warning b).modDish d
    (fun x => { x with horn := .busy, selector := if stow then .stow else .normal
                       warningTimer := b.timer ms })

/-- A stow move replaces the move of a dish in WARNING with the NORMAL selector (R9). -/
def shortenWarning (d : DishId) (b : Blocks) : Blocks :=
  let x := b.dish d
  if x.selector = .normal ∧ x.removalMark = false then
    match b.left x.warningTimer with
    | some left =>
      b.modDish d (fun y => { y with
        selector := .stow
        warningTimer := if b.settings.stowWarning < left then b.timer b.settings.stowWarning
                        else y.warningTimer })
    | none => b
  else b

/-- READY to the owner, and the start mode acts (R4, R11). -/
def reportReady (d : DishId) (b : Blocks) : Blocks :=
  let b1 := tellOwner (b.dish d).owner d .ready (b.modDish d (fun x => { x with readyReported := true }))
  if (b.dish d).startMode = .atReady then enterMoving d b1 else b1

/-- A move that moves no axis, in HOLDING or BRAKED (R5). -/
def takeStill (d : DishId) (m : Move) (b : Blocks) : Blocks :=
  let x := b.dish d
  let b1 := takeTask d m b
  let b2 := useGrant d false false b1
  if x.drive = .braked ∧ m.task = .stow ∧ m.el.target = 90000 then enterPinning d m.owner b2
  else
    let b3 := b2.modDish d (fun y =>
      { (if y.startAwaited then y.modAxes Axis.drop else y) with holdTimer := none, startAwaited := false })
    b3.tell (.report m.owner d (.arrived b3.clock.time))

/-- A move held until the dish is at rest (R4). -/
def holdMove (d : DishId) (m : Move) (b : Blocks) : Blocks :=
  preempt (b.dish d).nextAction.moveOwner m.owner d (b.modDish d (fun x => { x with nextAction := .move m }))

/-! ### Stopping (R14) -/

/-- The STOP profile that replaces what an axis does (R14). Its R is the distance left in the direction
of the replaced motion. R14 gives it no TARGET of its own; the model keeps that of the replaced profile, and takes
the present PROFILE POSITION for an axis without one (log entry 18). -/
def Axis.stopProfile (now : ArrayTime) (x : Axis) : Profile :=
  match x.profile with
  | none => { kind := .stop, start := x.position, target := x.position, v := 1, a := 1, startInstant := now,
              duration := 0, travelled := 0, rate0 := 0, dir := 0, ended := false, finishing := false, bounds := none }
  | some p => { kind := .stop, start := x.position, target := p.target, v := p.v, a := p.a,
                startInstant := now, duration := 0, travelled := 0, rate0 := x.rate.natAbs
                dir := if p.kind = .follow then x.rate.sign else p.dir
                ended := false, finishing := false, bounds := none }

def Axis.beginStop (now : ArrayTime) (x : Axis) : Axis := { x with profile := some (x.stopProfile now) }

def enterStopping (d : DishId) (b : Blocks) : Blocks :=
  (enterState d .stopping b).modDish d (Dish.modAxes (Axis.beginStop b.clock.time))

/-- A move that has passed the checks is taken by the drive state (R4). OWNER stays the earlier block while the
move waits, so that block hears PREEMPTED when the move is held in MOVING or SETTLING and once more when it is
taken from BRAKED; in STOPPING and UNPINNING it hears it at the take from BRAKED alone (log entry 17). -/
def acceptMove (d : DishId) (m : Move) (b : Blocks) : Blocks :=
  let x := b.dish d
  match x.drive with
  | .braked =>
    let b1 := preempt x.owner m.owner d b
    if m.moves then
      useGrant d m.az.moves m.el.moves (enterWarning d m (setProfiles d m (takeTask d m b1)))
    else takeStill d m b1
  | .warning =>
    let b1 := preempt x.owner m.owner d (setProfiles d m (takeTask d m b))
    let b2 := if m.task = .stow then shortenWarning d b1 else b1
    useGrant d m.az.moves m.el.moves b2
  | .releasing =>
    let b1 := preempt x.owner m.owner d (setProfiles d m (takeTask d m b))
    let b2 := useGrant d m.az.moves m.el.moves (b1.modDish d (Dish.modAxes Axis.holdStart))
    if x.readyReported then reportReady d b2 else b2
  | .holding =>
    if m.moves then
      let b1 := preempt x.owner m.owner d (setProfiles d m (takeTask d m b))
      let b2 := useGrant d m.az.moves m.el.moves (b1.modDish d (fun y => { y with holdTimer := none }))
      if m.startMode = .atReady then enterMoving d b2
      else (b2.modDish d (fun y => { y with startAwaited := true })).tell (.report m.owner d .ready)
    else takeStill d m (preempt x.owner m.owner d b)
  | .moving | .settling => enterStopping d (holdMove d m (preempt x.owner m.owner d b))
  | .stopping | .unpinning => holdMove d m b
  | .pinning => b.modDish d (fun y => { y with absorbed := y.absorbed.add m.owner })
  | .pinned => (takeTask d m b).tell (.report m.owner d .stowed)
  | .faulted => b

/-- A move handed to the dish drives: refused with its reason, or taken (R3, R4). -/
def handMove (d : DishId) (m : Move) (b : Blocks) : Blocks × Option MoveRefusal :=
  match checkMove (b.dish d) m with
  | some r => (b, some r)
  | none => (acceptMove d m b, none)

/-! ### Coming to rest -/

/-- The stop in progress completes: STOPPED to every block that asked, and a lock stop gives up the dish,
or leaves it to the stow under which it pinned (R6, R15). -/
def completeStops (d : DishId) (b : Blocks) : Blocks :=
  let x := b.dish d
  let b1 := b.modDish d (fun y => { y with stopRequesters := .empty })
  let b2 :=
    if x.task = .lockStop then
      b1.modDish d (fun y =>
        match y.drive, y.pinningOwner with
        | .pinned, some w => { y with task := .stow, owner := some w }
        | _, _ => { y with task := .none, owner := none })
    else b1
  tellOwners x.stopRequesters.toList d .stopped b2

/-- A held move is checked and taken anew (R4, R38, R82). -/
def takeHeld (d : DishId) (m : Move) (b : Blocks) : Blocks :=
  let b1 := b.modDish d (fun x => { x with nextAction := .none })
  match handMove d (reanchor (b1.dish d) m) b1 with
  | (b2, none) => b2
  | (b2, some r) => returnGrant d (b2.tell (.report m.owner d (.refused r)))

/-- BRAKED at the end of a stop or of an unpinning (R4, R6, R82). -/
def settleBraked (d : DishId) (b : Blocks) : Blocks :=
  let b1 := completeStops d b
  match (b1.dish d).nextAction with
  | .move m => takeHeld d m b1
  | .none => restGrant d b1
  | .unpin => restGrant d b1

def enterBraked (d : DishId) (b : Blocks) : Blocks := settleBraked d (enterState d .braked b)

/-- HOLDING on arrival: the hold-to-brake timer runs while TASK is NONE, and the grant goes back
(R13, R82). -/
def enterHolding (d : DishId) (b : Blocks) : Blocks :=
  let b1 := enterState d .holding b
  let b2 :=
    if (b.dish d).task = .none then
      b1.modDish d (fun x => { x with holdTimer := b.timer b.settings.holdToBrake })
    else b1
  restGrant d b2

/-! ### Unpinning (R16) -/

/-- UNPINNING, which drives the pin-out output (R16). What a pin-out sensed already at the entry does is log
entry 20. -/
def enterUnpinning (d : DishId) (b : Blocks) : Blocks :=
  (enterState d .unpinning b).modDish d (fun x => { x with pinTimer := b.timer b.settings.pinTime })

/-- An unpin of a PINNED dish (R16). -/
def unpinPinned (d : DishId) (b : Blocks) : Blocks :=
  let x := b.dish d
  if x.lock.motionLocked || x.lock.stopPending then b.tell (.report .ww d (.unpinRefused .locked))
  else enterUnpinning d b

/-- The wind watch asks for an unpin (R16). -/
def requestUnpin (d : DishId) (b : Blocks) : Blocks :=
  match (b.dish d).drive with
  | .pinned => unpinPinned d b
  | .pinning => b.modDish d (fun x => { x with nextAction := .unpin })
  | .faulted => b.tell (.report .ww d (.unpinRefused .faulted))
  | .braked | .warning | .releasing | .moving | .settling | .holding | .stopping | .unpinning =>
    b.tell (.report .ww d .unpinned)

/-- PINNED at the end of PINNING (R15, R16). -/
def enterPinned (d : DishId) (b : Blocks) : Blocks :=
  let x := b.dish d
  let first := if x.task = .lockStop then x.pinningOwner else x.owner
  let b1 := (enterState d .pinned b).trail (.dishStowed d)
  let b2 := tellOwners x.absorbed.toList d .stowed (tellOwner first d .stowed b1)
  let b3 := restGrant d (completeStops d b2)
  match (b3.dish d).nextAction with
  | .unpin => unpinPinned d (b3.modDish d (fun y => { y with nextAction := .none }))
  | .none => b3
  | .move _ => b3

/-- BRAKED at the end of UNPINNING (R16). -/
def finishUnpinning (d : DishId) (b : Blocks) : Blocks :=
  let b1 := (enterState d .braked b).trail (.dishUnstowed d)
  let b2 := b1.modDish d (fun x => if x.task = .stow then { x with task := .none, owner := none } else x)
  settleBraked d (b2.tell (.report .ww d .unpinned))

/-! ### Faults (R20 to R22) -/

def faultTrail (d : DishId) (k : FaultKind) (x : Dish) (b : Blocks) : Blocks :=
  b.trail (.dishFault d k x.drive)

def clearTimers (x : Dish) : Dish :=
  { x with warningTimer := none, brakeTimer := none, settleTimer := none, settleLimit := none
           holdTimer := none, pinTimer := none }

/-- FAULTED is told to a block unless it is the one already told. -/
def alsoFaulted (told : Option Owner) (w : Owner) (d : DishId) (b : Blocks) : Blocks :=
  if told = some w then b else b.tell (.report w d .faulted)

/-- Who asked for a stop and is not the lock table hears STOPPED at the fault (R6). -/
def stoppedByFault (x : Dish) (d : DishId) (b : Blocks) : Blocks :=
  tellOwners (x.stopRequesters.toList.filter (fun w => w != .lt)) d .stopped b

/-- A fault event (R21, R22). -/
def faultDish (d : DishId) (k : FaultKind) (b : Blocks) : Blocks :=
  let x := b.dish d
  if x.drive = .faulted then b.modDish d (fun y => { y with kindsSeen := y.kindsSeen.add k })
  else
    let b1 := (enterState d .faulted b).modDish d (fun y => { clearTimers y with
      faultKind := some k, kindsSeen := FaultKinds.empty.add k, nextAction := .none
      task := .none, owner := none, stopRequesters := .empty })
    let b2 := faultTrail d k x b1
    let b3 := tellOwner x.owner d .faulted b2
    let b4 := match x.nextAction with
      | .move m => alsoFaulted x.owner m.owner d b3
      | .unpin => if x.owner = some .ww then b3 else b3.tell (.report .ww d (.unpinRefused .faulted))
      | .none => b3
    let held := x.nextAction.moveOwner
    let b5 := if hasClaim b .fp d && held != some .fp then alsoFaulted x.owner .fp d b4 else b4
    let b6 := if hasClaim b .ww d && held != some .ww then alsoFaulted x.owner .ww d b5 else b5
    seizeGrant d x.owner (stoppedByFault x d b6)

/-! ### Stops and releases (R6, R7) -/

/-- NEXT ACTION is emptied by the stop of a block; the owner of a held move hears PREEMPTED (R6). -/
def emptyNext (who : Owner) (d : DishId) (b : Blocks) : Blocks :=
  let o := (b.dish d).nextAction.moveOwner
  tellOwner o d (.preempted who) (b.modDish d (fun x => { x with nextAction := .none }))

/-- A stop request by the drive state (R6). -/
def requestStop (who : Owner) (d : DishId) (b : Blocks) : Blocks :=
  let b1 := (emptyNext who d b).modDish d (fun x => { x with stopRequesters := x.stopRequesters.add who })
  match (b.dish d).drive with
  | .braked | .pinned | .faulted => completeStops d b1
  | .warning | .releasing | .holding => enterBraked d b1
  | .moving | .settling => enterStopping d b1
  | .stopping | .pinning | .unpinning => b1

/-- An owner's stop leaves TASK and OWNER as they are (R6). -/
def ownerStop (who : Owner) (d : DishId) (b : Blocks) : Blocks := requestStop who d b

/-- A lock stop (R6). -/
def lockStop (d : DishId) (b : Blocks) : Blocks :=
  let b1 := preempt (b.dish d).owner .lt d b
  requestStop .lt d (b1.modDish d (fun x => { x with task := .lockStop, owner := some .lt }))

/-- A release by a block (R7). -/
def releaseDish (who : Owner) (d : DishId) (b : Blocks) : Blocks :=
  let x := b.dish d
  if x.owner ≠ some who then b
  else
    let b1 := b.modDish d (fun y => { y with task := .none, owner := none })
    match x.drive with
    | .pinning | .pinned => b
    | .holding =>
      b1.modDish d (fun y =>
        { (if y.startAwaited then y.modAxes Axis.drop else y) with
          startAwaited := false, holdTimer := b.timer b.settings.holdToBrake })
    | .releasing => if x.readyReported then enterBraked d b1 else b1
    | .braked | .warning | .moving | .settling | .stopping | .unpinning | .faulted => b1

/-- The owner starts a dish (R4, R11). -/
def startDish (d : DishId) (b : Blocks) : Blocks :=
  let x := b.dish d
  match x.drive with
  | .releasing =>
    if x.readyReported then enterMoving d b else b.modDish d (fun y => { y with startKept := true })
  | .holding => if x.startAwaited then enterMoving d b else b
  | .braked | .warning | .moving | .settling | .stopping | .pinning | .pinned | .unpinning | .faulted => b

/-! ### Timer expiries (R8, R11, R13, R15, R16) -/

def onWarningExpiry (d : DishId) (b : Blocks) : Blocks :=
  let b1 := (enterState d .releasing b).modDish d (Dish.modAxes Axis.holdStart)
  b1.modDish d (fun x => { x with brakeTimer := b.timer b.settings.brakeRelease })

/-- The dish is ready, or an amplifier is not (R7, R11). -/
def onBrakeReleaseExpiry (d : DishId) (b : Blocks) : Blocks :=
  let x := b.dish d
  let b1 := b.modDish d (fun y => { y with brakeTimer := none })
  if !x.az.ampReady || !x.el.ampReady then faultDish d .amplifier b1
  else if x.task = .none then enterBraked d b1
  else
    let b2 := reportReady d b1
    if x.startKept && (b2.dish d).drive == .releasing then enterMoving d b2 else b2

/-- The dish has arrived (R13). -/
def onSettleExpiry (d : DishId) (b : Blocks) : Blocks :=
  let x := b.dish d
  let b1 := tellOwner x.owner d (.arrived b.clock.time) b
  if x.task = .stow then enterPinning d (x.owner.getD .ww) b1 else enterHolding d b1

def onHoldExpiry (d : DishId) (b : Blocks) : Blocks := enterBraked d b

/-! ### The servo (R12 to R14, R18, R19, R61, R67) -/

/-- A SLEW profile at a servo event in MOVING (R12). -/
def stepSlew (now : ArrayTime) (p : Profile) (x : Axis) : Axis :=
  let e := (now - p.startInstant).toNat
  if e < p.duration then
    let rate := min p.v (min (p.a * e / 1000) (p.a * (p.duration - e) / 1000))
    let travelled := p.travelled + rate
    let dist := (p.target - p.start).natAbs
    { x with rate := rate, position := p.start + p.dir * min (dist : Int) (travelled / 100)
             profile := some { p with travelled := travelled } }
  else { x with rate := 0, position := p.target, profile := some { p with ended := true } }

/-- A rate moved toward a wanted one by at most a step. -/
def approach (r w step : Int) : Int := if r ≤ w then min w (r + step) else max w (r - step)

/-- The wanted rate of R67. -/
def wantedRate (p : Profile) (position : Int) : Int :=
  let gap := p.target - position
  let clamp := fun (bound w : Int) => max (-bound) (min bound w)
  clamp (isqrt (2 * p.a * gap.natAbs)) (clamp p.v (100 * gap))

/-- Whether a FOLLOW may stand at a position: within the soft limits in force when it was planned (R3). -/
def Profile.allows (p : Profile) (t : Int) : Bool :=
  match p.bounds with
  | some (low, high) => decide (low ≤ t) && decide (t ≤ high)
  | none => true

/-- The limit at which a FOLLOW that would leave its bounds is held (R67). -/
def Profile.hold (p : Profile) (t : Int) : Int :=
  match p.bounds with
  | some (low, high) => if t < low then low else min t high
  | none => t

/-- A FOLLOW profile at a servo event in MOVING (R61, R67). R61 does not say whether the tolerance test of a
follow that is ending looks at the position before or after the advance of its servo event; the model tests
before, and does not advance then (log entry 38). -/
def stepFollow (tolerance : Nat) (p : Profile) (x : Axis) : Axis :=
  if p.finishing ∧ (p.target - x.position).natAbs ≤ tolerance then
    { x with rate := 0, position := p.target, profile := some { p with ended := true } }
  else
    let rate := approach x.rate (wantedRate p x.position) (max 1 (p.a / 100) : Nat)
    let travelled := p.travelled + rate
    let moved := x.position + travelled.tdiv 100
    let rest := travelled.tmod 100
    { x with rate := if p.allows moved then rate else 0, position := p.hold moved
             profile := some { p with travelled := rest } }

/-- A STOP profile at a servo event in STOPPING (R14). -/
def stepStop (now : ArrayTime) (p : Profile) (x : Axis) : Axis :=
  let e := (now - p.startInstant).toNat
  let rate := p.rate0 - p.a * e / 1000
  let travelled := p.travelled + rate
  let room := max 0 (p.dir * (p.target - p.start))
  { x with rate := rate, position := p.start + p.dir * min room (travelled / 100)
           profile := some { p with travelled := travelled, ended := decide (rate = 0) } }

/-- The profile of an axis advances (R12, R14, R67). -/
def Axis.advance (drive : DriveState) (now : ArrayTime) (tolerance : Nat) (x : Axis) : Axis :=
  match x.profile with
  | none => x
  | some p =>
    if p.ended then x
    else
      match drive, p.kind with
      | .moving, .slew => stepSlew now p x
      | .moving, .follow => stepFollow tolerance p x
      | .stopping, .stop => stepStop now p x
      | _, _ => x

/-- PROFILE POSITION less ENCODER POSITION; 0 while the encoder is unknown. -/
def Axis.error (x : Axis) : Int :=
  match x.encoder with
  | none => 0
  | some e => x.position - e

/-- The clamped rate demand (R18), its bound from the rate setting of the move in hand (R188). -/
def rateDemandOf (st : Settings) (x : Axis) : Int :=
  let demand := x.rate + (x.error * st.loopGain).tdiv 1000
  let bound : Int := (11 * x.rateSetting / 10 : Nat)
  max (-bound) (min bound demand)

/-- The demand and the following check of one servo event (R18). -/
def Axis.serve (st : Settings) (x : Axis) : Axis :=
  { x with rateDemand := rateDemandOf st x
           followingCount := if st.followLimit < x.error.natAbs then x.followingCount + 1 else 0 }

/-- Whether nothing is left to run on an axis. R12 speaks of the event that ends the last running profile; a dish
that enters MOVING with no profile on either axis, under a still stow taken in WARNING or RELEASING (R4), enters
SETTLING at its next servo event (log entry 51). -/
def Axis.profileEnded (x : Axis) : Bool :=
  match x.profile with
  | none => true
  | some p => p.ended

def inTolerance (st : Settings) (d : Dish) : Bool :=
  decide (d.az.error.natAbs ≤ st.tolerance) && decide (d.el.error.natAbs ≤ st.tolerance)

/-- SETTLING begins when the last profile has ended (R12, R13). -/
def enterSettling (d : DishId) (b : Blocks) : Blocks :=
  let settle := if inTolerance b.settings (b.dish d) then b.timer b.settings.settleTime else none
  (enterState d .settling b).modDish d
    (fun x => { x with settleLimit := b.timer b.settings.settleLimit, settleTimer := settle })

/-- The check of both axes at each servo event in SETTLING (R13). -/
def checkSettling (d : DishId) (b : Blocks) : Blocks :=
  b.modDish d (fun x =>
    if inTolerance b.settings x then
      match x.settleTimer with
      | none => { x with settleTimer := b.timer b.settings.settleTime }
      | some _ => x
    else { x with settleTimer := none })

/-- What the end of profiles brings (R12, R14). -/
def afterAdvance (d : DishId) (b : Blocks) : Blocks :=
  let x := b.dish d
  match x.drive with
  | .moving => if x.az.profileEnded && x.el.profileEnded then enterSettling d b else b
  | .settling => checkSettling d b
  | .stopping => if x.az.profileEnded && x.el.profileEnded then enterBraked d b else b
  | .braked | .warning | .releasing | .holding | .pinning | .pinned | .unpinning | .faulted => b

/-- The servo of an active state (R18). Where one event both ends the last profile and brings FOLLOWING COUNT
to 3, R18 does not say which acts first; the model faults the dish, which then neither brakes nor settles (log
entry 46). -/
def servoActive (d : DishId) (a : AxisId) (b : Blocks) : Blocks :=
  let x := b.dish d
  let b1 := b.modDish d (Dish.modAxis a (fun y =>
    (y.advance x.drive b.clock.time b.settings.tolerance).serve b.settings))
  if 3 ≤ ((b1.dish d).axis a).followingCount then faultDish d .following b1 else afterAdvance d b1

/-- READING FRESH is examined and cleared (R19, R22). -/
def examineReading (d : DishId) (a : AxisId) (b : Blocks) : Blocks :=
  let x := (b.dish d).axis a
  let b1 := b.modDish d (Dish.modAxis a (fun y => { y with fresh := false, missed := !y.fresh }))
  if !x.fresh && x.encoder.isSome then faultDish d .encoder b1 else b1

/-- The servo event of one axis; the dish page is republished at its completion (R18, R19, R26). R18 and R19 do not
say which acts first where the event both ends the last profile and misses its reading; the model first ends the
motion, with all that follows in SETTLING or BRAKED, and then faults the dish from there. Nor do they say which kind
is FAULT KIND where one event brings FOLLOWING COUNT to 3 and misses its reading; it is FOLLOWING, and ENCODER joins
KINDS SEEN (log entry 46). -/
def servo (d : DishId) (a : AxisId) (b : Blocks) : Blocks :=
  let b1 := b.runTo ((b.dish d).axis a).servoDue
  let b2 := b1.modDish d (Dish.modAxis a (fun y => { y with servoDue := b1.clock.count + 10 }))
  (examineReading d a (if (b2.dish d).drive.active then servoActive d a b2 else b2)).publish (.dish d)

/-- An encoder reading (R19). -/
def takeReading (d : DishId) (a : AxisId) (p : Int) (b : Blocks) : Blocks :=
  b.modDish d (Dish.modAxis a (fun x =>
    { x with encoder := some p, fresh := true
             position := if x.encoder = none then p else x.position }))

/-- 1000 ms from power-on without a reading (R19). -/
def startupTimeout (d : DishId) (a : AxisId) (b : Blocks) : Blocks :=
  let b1 := b.runTo 1000
  if ((b1.dish d).axis a).encoder = none then faultDish d .encoder b1 else b1

/-! ### Field inputs (R17, R20, R24) -/

/-- Pin-in becomes asserted (R15, R17). R15 does not say what a pin-in that is asserted already when the dish
enters PINNING does; the model waits for a new assertion, or for the pin timer (log entry 20). -/
def onPinIn (d : DishId) (b : Blocks) : Blocks :=
  let x := b.dish d
  if x.pinIn then b
  else
    let b1 := b.modDish d (fun y => { y with pinIn := true })
    match x.drive with
    | .pinning => enterPinned d b1
    | .pinned | .faulted => b1
    | .braked | .warning | .releasing | .moving | .settling | .holding | .stopping | .unpinning =>
      faultDish d .pin b1

/-- Pin-out becomes asserted (R16, R17). R16 does not say what a pin-out that is asserted already when the
dish enters UNPINNING does; the model waits for a new assertion, or for the pin timer (log entry 20). -/
def onPinOut (d : DishId) (b : Blocks) : Blocks :=
  let x := b.dish d
  if x.pinOut then b
  else
    let b1 := b.modDish d (fun y => { y with pinOut := true })
    match x.drive with
    | .unpinning => finishUnpinning d b1
    | .pinned => faultDish d .pin b1
    | .braked | .warning | .releasing | .moving | .settling | .holding | .stopping | .pinning | .faulted => b1

def onPinCeased (d : DishId) (s : PinSensor) (b : Blocks) : Blocks :=
  match s with
  | .pinIn =>
    let b1 := b.modDish d (fun y => { y with pinIn := false })
    if (b.dish d).pinIn ∧ (b.dish d).drive = .pinned then faultDish d .pin b1 else b1
  | .pinOut => b.modDish d (fun y => { y with pinOut := false })

def Axis.limit (x : Axis) : Side → Bool
  | .low => x.limitLow
  | .high => x.limitHigh

def Axis.setLimit (s : Side) (v : Bool) (x : Axis) : Axis :=
  match s with
  | .low => { x with limitLow := v }
  | .high => { x with limitHigh := v }

/-- A limit switch becomes asserted (R20); in FAULTED it adds its kind (R21). -/
def onLimit (d : DishId) (a : AxisId) (s : Side) (b : Blocks) : Blocks :=
  if ((b.dish d).axis a).limit s then b
  else faultDish d .limit (b.modDish d (Dish.modAxis a (Axis.setLimit s true)))

/-- A limit switch ceases, and its bar clears (R24). -/
def onLimitCeased (d : DishId) (a : AxisId) (s : Side) (b : Blocks) : Blocks :=
  b.modDish d (Dish.modAxis a (fun x =>
    match s with
    | .low => { x with limitLow := false, lowBar := false }
    | .high => { x with limitHigh := false, highBar := false }))

/-- An amplifier-ready input ceases (R11, R20). -/
def onAmplifierLost (d : DishId) (a : AxisId) (b : Blocks) : Blocks :=
  let x := b.dish d
  if !(x.axis a).ampReady then b
  else
    let b1 := b.modDish d (Dish.modAxis a (fun y => { y with ampReady := false }))
    match x.drive with
    | .moving | .settling | .holding | .stopping => faultDish d .amplifier b1
    | .releasing => if x.readyReported then faultDish d .amplifier b1 else b1
    | .braked | .warning | .pinning | .pinned | .unpinning | .faulted => b1

/-! ### CLEAR_FAULT (R22 to R24) -/

/-- Whether the condition behind a kind is present (R22). -/
def conditionPresent (d : Dish) : FaultKind → Bool
  | .following => false
  | .encoder => d.az.missed || d.el.missed
  | .limit => (d.az.limitLow && d.az.limitHigh) || (d.el.limitLow && d.el.limitHigh)
  | .amplifier => !d.az.ampReady || !d.el.ampReady
  | .pin => d.pinIn == d.pinOut

def stillPresent (d : Dish) : Bool :=
  [FaultKind.following, .encoder, .limit, .amplifier, .pin].any
    (fun k => d.kindsSeen.has k && conditionPresent d k)

/-- The bars of an axis cleared from a LIMIT fault (R24). -/
def Axis.bar (x : Axis) : Axis :=
  { x with lowBar := x.lowBar || (x.limitLow && !x.limitHigh)
           highBar := x.highBar || (x.limitHigh && !x.limitLow) }

/-- One dish is cleared (R23, R24). -/
def clearDish (d : DishId) (b : Blocks) : Blocks :=
  let x := b.dish d
  let x1 := if x.faultKind = some .limit then x.modAxes Axis.bar else x
  let x2 := { x1.enter (if x.pinIn then .pinned else .braked) with
                faultKind := none, kindsSeen := .empty }
  ((b.modDish d (fun _ => x2)).trail (.faultCleared d)).tell (.cleared d)

/-- CLEAR_FAULT (R23). R23 does not say what the bits 12 to 15 of its dish set do; the model names no dish by
them, and a set of such bits alone is not empty (log entry 39). -/
def takeClearFault (s : SlotId) (dishes : Word) (b : Blocks) : Blocks :=
  if dishes = 0 then b.answer s (badField 6)
  else
    let faulted := (DishSet.toList (dishes.setWidth 12)).filter (fun d => (b.dish d).drive == .faulted)
    let present := faulted.filter (fun d => stillPresent (b.dish d))
    if present = [] then
      (overDishes faulted clearDish b).answer s ⟨.done, noNotes, 0, dishSetBytes (DishSet.ofList faulted)⟩
    else b.answer s ⟨.stillPresent, noNotes, 0, dishSetBytes (DishSet.ofList present)⟩

/-! ### Follows (R61, R67) -/

/-- FP gives the targets of a follow; one outside the soft limits of its planning is not taken (R3, R67). -/
def Axis.retarget (t : Int) (x : Axis) : Axis :=
  match x.profile with
  | some p =>
    if p.kind = .follow ∧ p.finishing = false ∧ p.allows t then { x with profile := some { p with target := t } }
    else x
  | none => x

def giveTargets (d : DishId) (az el : Int) (b : Blocks) : Blocks :=
  b.modDish d (fun x => { x with az := x.az.retarget az, el := x.el.retarget el })

/-- FP ends the follow of a dish (R61). -/
def Axis.finishFollow (x : Axis) : Axis :=
  { x with profile := x.profile.map (fun p => if p.kind = .follow then { p with finishing := true } else p) }

def endFollow (d : DishId) (b : Blocks) : Blocks := b.modDish d (Dish.modAxes Axis.finishFollow)

/-! ### Adoption and change of time (R188, R192) -/

/-- The new soft limits are written into the LIMITS of every axis (R188). -/
def Dish.adoptLimits (st : Settings) (d : Dish) : Dish :=
  { d with az := { d.az with softLow := st.softLow .az, softHigh := st.softHigh .az }
           el := { d.el with softLow := st.softLow .el, softHigh := st.softHigh .el } }

def adoptLimits (b : Blocks) : Blocks :=
  { b with dishes := b.dishes.map (Dish.adoptLimits b.settings) }

/-- A change of array time is added to the START INSTANT of SLEW and STOP profiles (R192). -/
def Axis.shiftTime (change : ArrayTime) (x : Axis) : Axis :=
  { x with profile := x.profile.map (fun p =>
      if p.kind = .follow then p else { p with startInstant := p.startInstant + change }) }

def shiftProfiles (change : ArrayTime) (b : Blocks) : Blocks :=
  { b with dishes := b.dishes.map (Dish.modAxes (Axis.shiftTime change)) }

end Sys2Proof.Machine
end

