-- ==== Sys2Proof/Machine/Lines.lean ====
section
/-! DEFINITION. The anemometer line receivers (05, 5.1; frames in 10.8). -/

namespace Sys2Proof.Machine

/-- The lead value of a frame (10.8). -/
def leadValue : Byte := 0xA7

def allLines : List LineId := [0, 1, 2]

def cap16 (n : Nat) : Nat := min n 65535

/-! ### Frames (R92, R93, 10.8) -/

def readPrecipitation (status : Nat) : Precipitation :=
  match status % 4 with
  | 0 => .none
  | 1 => .rain
  | 2 => .snow
  | _ => .unknown

/-- An INSTRUMENT code of 3 names no value (10.8). -/
def readInstrument (status : Nat) : Option Instrument :=
  match status / 4 % 4 with
  | 0 => some .ok
  | 1 => some .degraded
  | 2 => some .overrange
  | _ => none

def frameSum (bs : List Byte) : Byte := bs.foldl (fun n b => n + b) 0

/-- The nine bytes of a frame read as a good frame, or none where it is void (R92, R93). -/
def readFrame (bs : List Byte) (c : Clock) : Option Frame :=
  match bs with
  | [b0, s0, s1, d0, d1, t0, t1, st, chk] =>
    let direction := fromLow [d0, d1]
    match readInstrument st.toNat with
    | none => none
    | some i =>
      if frameSum [b0, s0, s1, d0, d1, t0, t1, st] = chk ∧ direction ≤ 359 then
        let temp := (BitVec.ofNat 16 (fromLow [t0, t1])).toInt
        some { speed := if i = .overrange then 6000 else min 6000 (fromLow [s0, s1])
               direction := direction, temperature := max (-500) (min 500 temp)
               precipitation := readPrecipitation st.toNat, instrument := i, time := c.time, valid := c.valid }
      else none
  | _ => none

/-! ### Line states (R94) -/

/-- A line takes a state; a change writes LINE_STATE (R94). -/
def setLineState (l : LineId) (new : LineState) (ev : LineEvent) (b : Blocks) : Blocks :=
  let old := (b.line l).state
  let b1 := b.modLine l (fun x => { x with state := new })
  if old = new then b1 else b1.trail (.lineState l old new ev)

def goodFrame (l : LineId) (f : Frame) (b : Blocks) : Blocks :=
  let x := b.line l
  let usable := f.instrument != .degraded
  let b1 := b.modLine l (fun y => { y with
    lastGood := some f, goodCount := cap16 (y.goodCount + 1), silenceTimer := b.timer 2000
    secondSum := y.secondSum + (if usable then f.speed else 0)
    secondCount := y.secondCount + (if usable then 1 else 0)
    goodRun := min 8 (y.goodRun + 1) })
  match x.state with
  | .ok => b1
  | .suspect => if 8 ≤ x.goodRun + 1 then setLineState l .ok .good b1 else b1
  | .silent => setLineState l .suspect .good (b1.modLine l (fun y => { y with goodRun := 1 }))

def voidFrame (l : LineId) (b : Blocks) : Blocks :=
  let b1 := b.modLine l (fun y => { y with voidCount := cap16 (y.voidCount + 1), goodRun := 0 })
  match (b.line l).state with
  | .ok => setLineState l .suspect .void b1
  | .suspect => b1
  | .silent => b1

/-- No good frame for 2000 ms (R94). -/
def onSilence (l : LineId) (b : Blocks) : Blocks :=
  setLineState l .silent .silence
    (b.modLine l (fun y => { y with silenceTimer := none, goodRun := 0, secondSum := 0, secondCount := 0 }))

/-! ### Assembly (R91, R92) -/

def toHunt (l : LineId) (b : Blocks) : Blocks := b.modLine l (fun y => { y with gathered := [], gapTimer := none })

/-- One byte taken by the assembler (R92). -/
def assemble (l : LineId) (x : LineByte) (b : Blocks) : Blocks :=
  let g := (b.line l).gathered
  if x.framing || x.lost then
    if g.isEmpty then b else voidFrame l (toHunt l b)
  else if g.isEmpty then
    if x.value = leadValue then b.modLine l (fun y => { y with gathered := [x.value], gapTimer := b.timer 20 })
    else b
  else if g.length < 8 then
    b.modLine l (fun y => { y with gathered := g ++ [x.value], gapTimer := b.timer 20 })
  else
    match readFrame (g ++ [x.value]) b.clock with
    | some f => goodFrame l f (toHunt l b)
    | none => voidFrame l (toHunt l b)

/-- A byte stored at the tail of the FIFO, or lost where the FIFO is full (R91). -/
def storeByte (value : Byte) (framing : Bool) (x : Line) : Line :=
  if 16 ≤ x.fifo.length then { x with lostSince := true }
  else { x with fifo := x.fifo ++ [⟨value, framing, x.lostSince⟩], lostSince := false }

/-- The assembler takes every byte that the FIFO holds (R91). -/
def drainFifo (l : LineId) (b : Blocks) : Blocks :=
  (b.line l).fifo.foldl (fun x byte => assemble l byte x) (b.modLine l (fun y => { y with fifo := [] }))

def takeByte (l : LineId) (value : Byte) (framing : Bool) (b : Blocks) : Blocks :=
  drainFifo l (b.modLine l (storeByte value framing))

/-- 20 ms without a byte in COLLECT (R92). -/
def onGap (l : LineId) (b : Blocks) : Blocks :=
  if (b.line l).gathered.isEmpty then b else voidFrame l (toHunt l b)

/-! ### The weather view (R95) -/

def contributing (b : Blocks) : List Frame :=
  allLines.filterMap (fun l => if (b.line l).state = .silent then none else (b.line l).lastGood)

/-- AIR TEMPERATURE, absent while no line contributes (R95). -/
def airTemperature (b : Blocks) : Option Int :=
  match contributing b with
  | [] => none
  | f :: fs =>
    let sum : Int := (f :: fs).foldl (fun (n : Int) (x : Frame) => n + x.temperature) 0
    some (sum.tdiv ((f :: fs).length : Int))

/-- PRECIPITATION of the view (R95). -/
def precipitation (b : Blocks) : Precipitation :=
  let ps := (contributing b).map Frame.precipitation
  if ps.contains .snow then .snow
  else if ps.contains .rain then .rain
  else if ps.contains .none then .none
  else .unknown

end Sys2Proof.Machine
end

