-- ==== Sys2Proof/Machine/Memory.lean ====
section
/-! DEFINITION. The exchange memory as a list of (address, byte) pairs in one canonical form: addresses
strictly rising, and no byte equal to what an unlisted address reads as. That is 0, since XM writes zero
to every word at power-on (R166). -/

namespace Sys2Proof.Machine

/-- What an address reads as that the list does not hold (R166). -/
def unlistedByte : Byte := 0

def Memory.read (a : Nat) : Memory → Byte
  | [] => unlistedByte
  | (b, v) :: m => if a = b then v else Memory.read a m

def Memory.readBytes (a : Nat) : Nat → Memory → List Byte
  | 0, _ => []
  | n + 1, m => Memory.read a m :: Memory.readBytes (a + 1) n m

/-- The cells that bytes written from an address on make: none for an unlisted byte. -/
def Memory.cells (a : Nat) : List Byte → Memory
  | [] => []
  | b :: bs => if b = unlistedByte then Memory.cells (a + 1) bs else (a, b) :: Memory.cells (a + 1) bs

/-- Bytes written from an address on: the cells below stay, and those above. -/
def Memory.writeBytes (a : Nat) (bs : List Byte) (m : Memory) : Memory :=
  m.filter (fun c => decide (c.1 < a)) ++ Memory.cells a bs
    ++ m.filter (fun c => decide (a + bs.length ≤ c.1))

/-- A 16-bit word, low byte first (R193). -/
def Memory.readWord (a : Nat) (m : Memory) : Word := BitVec.ofNat 16 (fromLow (m.readBytes a 2))

def Memory.writeWord (a : Nat) (v : Word) (m : Memory) : Memory := m.writeBytes a (lowBytes 2 v.toNat)

/-- Every listed address is above `a`, the addresses rise, and no listed byte is the unlisted one. -/
def Memory.wfAbove (a : Nat) : Memory → Bool
  | [] => true
  | (b, v) :: m => decide (a < b) && v != unlistedByte && Memory.wfAbove b m

/-- The canonical form. -/
def Memory.wf : Memory → Bool
  | [] => true
  | (b, v) :: m => v != unlistedByte && Memory.wfAbove b m

end Sys2Proof.Machine
end

