-- ==== Sys2Proof/Machine/Operands.lean ====
section
/-! DEFINITION. The operands of the orders: how an order stands in its slot (10.4, R194), and the reading
of its coded fields. -/

namespace Sys2Proof.Machine

/-! ### Slots -/

/-- Where a slot begins (10.4). -/
def slotBase (s : SlotId) : Nat := 0x0100 + 128 * s.val

/-- What a slot's STATE word names (8.3). -/
inductive SlotState where
  | empty | placed | taken | answered | cutAsked
deriving DecidableEq, Repr

def SlotState.code : SlotState → Word
  | .empty => 0
  | .placed => 1
  | .taken => 2
  | .answered => 3
  | .cutAsked => 4

/-- A value that names no state gives none (R173, R174). -/
def SlotState.ofWord (w : Word) : Option SlotState :=
  [SlotState.empty, .placed, .taken, .answered, .cutAsked].find? (fun x => x.code == w)

def slotState (s : SlotId) (m : Memory) : Option SlotState := SlotState.ofWord (m.readWord (slotBase s))

def setSlotState (s : SlotId) (x : SlotState) (m : Memory) : Memory := m.writeWord (slotBase s) x.code

/-! ### Fields -/

def word16 (w : Word) : List Byte := lowBytes 2 w.toNat
def word32 (w : Word32) : List Byte := lowBytes 4 w.toNat
def time48 (t : ArrayTime) : List Byte := lowBytes 6 t.toNat

/-- The number that stands in `n` bytes at an offset. -/
def fieldAt (bs : List Byte) (off n : Nat) : Nat := fromLow ((bs.drop off).take n)

def word16At (bs : List Byte) (off : Nat) : Word := BitVec.ofNat 16 (fieldAt bs off 2)
def word32At (bs : List Byte) (off : Nat) : Word32 := BitVec.ofNat 32 (fieldAt bs off 4)
def time48At (bs : List Byte) (off : Nat) : ArrayTime := BitVec.ofNat 48 (fieldAt bs off 6)
def byteAt (bs : List Byte) (off : Nat) : Byte := BitVec.ofNat 8 (fieldAt bs off 1)

/-! ### Orders in slots (10.4) -/

/-- The verb codes of 10.4. -/
def OrderBody.verb : OrderBody → Word
  | .form => 1
  | .disband => 2
  | .halt => 3
  | .slew _ _ _ _ => 4
  | .trackLoad _ _ => 5
  | .track _ => 6
  | .raster _ _ _ _ _ _ _ => 7
  | .stow => 8
  | .release => 9
  | .meltMode _ _ => 10
  | .lock _ _ _ => 11
  | .unlock _ _ => 12
  | .setBudget _ => 13
  | .clearFault => 14
  | .setTime _ => 15
  | .adjustTime _ => 16
  | .adoptSite => 17
  | .commitSite => 18
  | .unknown v => v

/-- `unknown` holds a code that names no order. -/
def OrderBody.wellFormed : OrderBody → Bool
  | .unknown v => v == 0 || decide (18 < v.toNat)
  | _ => true

def waypointBytes (p : RawWaypoint) : List Byte := time48 p.time ++ word32 p.skyAz ++ word32 p.el

/-- The parameters of a verb's row of 10.4. -/
def OrderBody.params : OrderBody → List Byte
  | .slew az el wrap mode => word32 az ++ word32 el ++ word16 wrap ++ word16 mode
  | .trackLoad count ps => word16 count ++ ps.toList.flatMap waypointBytes
  | .track wrap => word16 wrap
  | .raster sa se da de count dwell wrap =>
      word32 sa ++ word32 se ++ word32 da ++ word32 de ++ word16 count ++ zeros 2 ++ word32 dwell
        ++ word16 wrap
  | .meltMode mode forced => word16 mode ++ word16 forced
  | .lock dish cls tag => word16 dish ++ word16 cls ++ word16 tag
  | .unlock dish tag => word16 dish ++ word16 tag
  | .setBudget b => word16 b
  | .setTime t => time48 t
  | .adjustTime o => word32 o
  | .form => []
  | .disband => []
  | .halt => []
  | .stow => []
  | .release => []
  | .clearFault => []
  | .adoptSite => []
  | .commitSite => []
  | .unknown _ => []

/-- The bytes of an order from offset 0x02 of its slot: the header but for its STATE, then the 88 bytes
of parameters. -/
def orderBytes (o : Order) : List Byte :=
  word16 o.body.verb ++ word16 o.post ++ [o.formation, o.flags] ++ word16 o.dishes ++ word16 o.classes
    ++ zeros 4 ++ fit 88 o.body.params

def waypointAt (bs : List Byte) (off : Nat) : RawWaypoint :=
  { time := time48At bs off, skyAz := word32At bs (off + 6), el := word32At bs (off + 10) }

def waypointsAt (bs : List Byte) : Vector RawWaypoint 6 :=
  #v[waypointAt bs 2, waypointAt bs 16, waypointAt bs 30, waypointAt bs 44, waypointAt bs 58,
     waypointAt bs 72]

/-- What a verb code and the parameter bytes say (R194). -/
def readBody (verb : Word) (ps : List Byte) : OrderBody :=
  match verb.toNat with
  | 1 => .form
  | 2 => .disband
  | 3 => .halt
  | 4 => .slew (word32At ps 0) (word32At ps 4) (word16At ps 8) (word16At ps 10)
  | 5 => .trackLoad (word16At ps 0) (waypointsAt ps)
  | 6 => .track (word16At ps 0)
  | 7 => .raster (word32At ps 0) (word32At ps 4) (word32At ps 8) (word32At ps 12) (word16At ps 16)
      (word32At ps 20) (word16At ps 24)
  | 8 => .stow
  | 9 => .release
  | 10 => .meltMode (word16At ps 0) (word16At ps 2)
  | 11 => .lock (word16At ps 0) (word16At ps 2) (word16At ps 4)
  | 12 => .unlock (word16At ps 0) (word16At ps 2)
  | 13 => .setBudget (word16At ps 0)
  | 14 => .clearFault
  | 15 => .setTime (time48At ps 0)
  | 16 => .adjustTime (word32At ps 0)
  | 17 => .adoptSite
  | 18 => .commitSite
  | _ => .unknown verb

/-- The copy that the order taker makes, from the 102 bytes at offset 0x02 of the slot (R175, R194). -/
def readOrder (bs : List Byte) : Order :=
  { post := word16At bs 2
    formation := byteAt bs 4
    flags := byteAt bs 5
    dishes := word16At bs 6
    classes := word16At bs 8
    body := readBody (word16At bs 0) (bs.drop 14) }

def orderAt (s : SlotId) (m : Memory) : Order := readOrder (m.readBytes (slotBase s + 2) 102)

/-- The site computer writes an order into a slot: the fields first, PLACED last (8.8). -/
def placeOrder (s : SlotId) (o : Order) (m : Memory) : Memory :=
  setSlotState s .placed (m.writeBytes (slotBase s + 2) (orderBytes o))

/-! ### Coded fields of orders (10.4) -/

def readWrap (w : Word) : Option WrapPreference :=
  match w.toNat with
  | 0 => some .nearest
  | 1 => some .cw
  | 2 => some .ccw
  | _ => none

def readMode (w : Word) : Option ArrivalMode :=
  match w.toNat with
  | 0 => some .joint
  | 1 => some .each
  | _ => none

def readZoneMode (w : Word) : Option ZoneMode :=
  match w.toNat with
  | 0 => some .off
  | 1 => some .auto
  | 2 => some .forced
  | _ => none

def readLockClass (w : Word) : Option LockClass :=
  match w.toNat with
  | 0 => some .motion
  | 1 => some .heat
  | 2 => some .full
  | _ => none

/-- The dishes that a DISH SET word names in its bits 0 to 11. -/
def dishBits (w : Word) : DishSet := w.setWidth 12

/-- A formation field of 0 to 7. -/
def formationNumber (b : Byte) : Option FormationId :=
  if h : b.toNat < 8 then some ⟨b.toNat, h⟩ else none

def dishNumber (n : Nat) : Option DishId := if h : n < 12 then some ⟨n, h⟩ else none

end Sys2Proof.Machine
end

