-- ==== Sys2Proof/Machine/Melt.lean ====
section
/-! DEFINITION. The melt controller (chapter 6). -/

namespace Sys2Proof.Machine

/-! ### Demand (R124, R125) -/

/-- The duty between two points of a curve, the division truncated toward zero (R124). -/
def betweenPoints (p q : Int × Int) (t : Int) : Int := p.2 + ((q.2 - p.2) * (t - p.1)).tdiv (q.1 - p.1)

/-- The duty that a curve gives from its first remaining point on (R124). -/
def curveFrom (t : Int) : List (Int × Int) → Int
  | [] => 0
  | [p] => if t = p.1 then p.2 else 0
  | p :: q :: rest => if t < q.1 then betweenPoints p q t else curveFrom t (q :: rest)

/-- The duty of a curve at an air temperature (R124). -/
def curveDuty (c : List (Int × Int)) (t : Int) : Nat :=
  match c with
  | [] => 0
  | p :: ps => (if t < p.1 then p.2 else curveFrom t (p :: ps)).toNat

/-- DEMAND, with what the zone's melt step read and the onset level of its dish (R125). -/
def demandOf (r : MeltReading) (onset : Nat) (x : Zone) (cls : ZoneClass) (temp : Option Int)
    (precip : Precipitation) (score : Nat) : Nat :=
  let laden := decide (onset ≤ score)
  match x.mode with
  | .off => 0
  | .forced => x.forced
  | .auto =>
    match temp, cls with
    | none, .feed => r.blindDuty
    | none, .surface => if laden then r.blindDuty else 0
    | none, .subreflector => if laden then r.blindDuty else 0
    | some t, .feed => curveDuty r.curve t
    | some t, .surface =>
      if precip = .snow ∨ (precip = .unknown ∧ t ≤ 10) ∨ laden then curveDuty r.curve t else 0
    | some t, .subreflector =>
      if precip = .snow ∨ (precip = .unknown ∧ t ≤ 10) ∨ laden then curveDuty r.curve t else 0

/-- DEMAND formed with the weather view and the score as they stand. -/
def formDemand (z : ZoneId) (b : Blocks) : Blocks :=
  let d := zoneDish z
  b.modZone z (fun x => { x with
    demand := demandOf (b.meltReading z) (b.snowReading d).onset x (zoneClass z) (airTemperature b)
      (precipitation b) (b.dish d).score })

/-! ### The step of the zone's STATE (R128 to R131) -/

def stepToward (applied target up down : Nat) : Nat :=
  if applied < target then min target (applied + up)
  else if target < applied then max target (applied - down)
  else applied

def enterRunning (z : ZoneId) (b : Blocks) : Blocks :=
  (applyDuty z b.settings.startValue b).modZone z (fun x => { x with state := .running, tail := none })

def enterTailing (z : ZoneId) (b : Blocks) : Blocks :=
  (applyDuty z b.settings.stopValue b).modZone z
    (fun x => { x with state := .tailing, tail := b.timer (1000 * b.settings.stopTime) })

def stepZone (z : ZoneId) (b : Blocks) : Blocks :=
  let x := b.zone z
  let st := b.settings
  let target := min x.demand x.grantedDuty
  match x.state with
  | .off => if st.startValue ≤ target then enterRunning z b else b
  | .running =>
    if target < st.stopValue ∧ x.grantedDuty < st.stopValue then zoneOff z b
    else if target < st.stopValue then enterTailing z b
    else applyDuty z (stepToward x.applied target st.upStep st.downStep) b
  | .tailing =>
    if x.grantedDuty < st.stopValue then zoneOff z b
    else if st.startValue ≤ target then enterRunning z b
    else applyDuty z st.stopValue b
  | .cut => b

/-- The rated power of the settings, posted where it has changed, then REQUEST (R123 step 5, R143). -/
def postZone (z : ZoneId) (b : Blocks) : Blocks :=
  let rated := b.settings.ratedPower (zoneClass z)
  reformRequest z (if (b.zone z).rated = rated then b else postRated z rated b)

/-! ### Snow load score (R133 to R135) -/

/-- The derate factor (R135). -/
def derateOf (r : SnowReading) (score : Nat) : Nat :=
  if score < r.soft then 1000
  else if score < r.hard then 1000 - 500 * (score - r.soft) / (r.hard - r.soft)
  else 500

/-- The score after one SURFACE melt step (R133). -/
def nextScore (st : Settings) (score applied : Nat) (temp : Option Int) (precip : Precipitation) : Nat :=
  let falls : Bool := match temp with
    | some t => decide (t ≤ 10) && precip == .snow
    | none => false
  let thaws : Bool := match temp with
    | some t => decide (30 ≤ t)
    | none => false
  let plus : Int := if falls then st.accumulation else 0
  let minus : Int := (st.removal * applied / 1000 : Nat) + (if thaws then (st.thaw : Int) else 0)
  (max 0 (min 10000 ((score : Int) + plus - minus))).toNat

def updateScore (d : DishId) (applied : Nat) (b : Blocks) : Blocks :=
  let s := nextScore b.settings (b.dish d).score applied (airTemperature b) (precipitation b)
  b.modDish d (fun x => { x with score := s })

/-- One level side compared with its level (R134). -/
def checkSide (d : DishId) (level : SnowLevel) (value : Nat) (was : Bool) (set : Bool → Shed → Shed)
    (b : Blocks) : Blocks :=
  let score := (b.dish d).score
  let above := decide (value ≤ score)
  if above = was then b
  else (b.modShed d (set above)).trail (.snowLevel d level value above score)

def updateSides (d : DishId) (b : Blocks) : Blocks :=
  let x := b.shed d
  let r := b.snowReading d
  let b1 := checkSide d .onset r.onset x.onset (fun v s => { s with onset := v }) b
  let b2 := checkSide d .soft r.soft x.soft (fun v s => { s with soft := v }) b1
  checkSide d .hard r.hard x.hard (fun v s => { s with hard := v }) b2

def updateDerate (d : DishId) (b : Blocks) : Blocks :=
  b.modDish d (fun x => { x with derate := derateOf (b.snowReading d) x.score })

/-! ### Shed tilt (R136 to R141) -/

/-- The conditions of R137 but for ARMED, the shed phase and the score (R140). -/
def shedAllowed (b : Blocks) (d : DishId) : Bool :=
  let x := b.dish d
  (b.snowReading d).autoShed && x.task == .none && x.formation.isNone && !x.lock.motionLocked
    && !x.lock.stopPending && (x.drive == .braked || x.drive == .holding) && x.reasonsEmpty
    && b.wind.state == .calm

def laden (b : Blocks) (d : DishId) : Bool := decide ((b.snowReading d).shedThreshold ≤ (b.dish d).score)

def shedPlan (b : Blocks) (d : DishId) : Except PlanFailure PlanResult :=
  plan b.settings (b.dish d) .stay (b.snowReading d).shedElevation none

def shedMove (p : PlanResult) : Move :=
  { owner := .mc, task := .shed, az := p.az, el := p.el, startMode := .atReady }

/-- The elevation at which a dish stands, as SHED_BEGUN and SHED_ENDED carry it (R138, R139). The rules do not
say which value it is in HOLDING, where a plan runs from PROFILE POSITION (R27); the model takes ENCODER
POSITION in every state (log entry 47). -/
def standingElevation (x : Dish) : Int := x.el.encoder.getD x.el.position

def setPhase (d : DishId) (p : ShedPhase) (b : Blocks) : Blocks := b.modShed d (fun s => { s with phase := p })

def shedEnded (d : DishId) (o : ShedOutcome) (b : Blocks) : Blocks :=
  setPhase d .none (b.trail (.shedEnded d o (standingElevation (b.dish d)) (b.dish d).score))

/-- The shed move refused (R139). -/
def shedRefused (d : DishId) (r : MoveRefusal) (b : Blocks) : Blocks :=
  let b1 := setPhase d .none (holderReturn .mc d b)
  match r with
  | .locked | .faulted | .stowing | .noGrant => b1
  | .encoder | .range | .barred | .pinned => b1.modShed d (fun s => { s with armed := false })

/-- MC hands the tilt over; taken, it has begun (R137, R138). -/
def handShed (d : DishId) (p : PlanResult) (b : Blocks) : Blocks :=
  let el := standingElevation (b.dish d)
  match handMove d (shedMove p) b with
  | (b1, some r) => shedRefused d r b1
  | (b1, none) =>
    (b1.modShed d (fun s => { s with armed := false, phase := .handed })).trail
      (.shedBegun d el p.el.target p.clamped)

/-- A tilt that moves no axis is over as it begins (R137). -/
def handStillShed (d : DishId) (p : PlanResult) (b : Blocks) : Blocks :=
  let b1 := handShed d p b
  if (b1.shed d).phase = .handed then releaseDish .mc d (shedEnded d .arrived b1) else b1

/-- MC begins a tilt where all the conditions hold (R137). -/
def beginShed (d : DishId) (b : Blocks) : Blocks :=
  let s := b.shed d
  if shedAllowed b d && laden b d && s.armed && s.phase == .none then
    match shedPlan b d with
    | .error _ => b
    | .ok p =>
      if p.az.moves || p.el.moves then
        match submitClaim d .mc .shed p.az.moves p.el.moves (setPhase d .claiming b) with
        | (b1, .duplicate) => setPhase d .none b1
        | (b1, _) => b1
      else handStillShed d p b
  else b

/-- While in CLAIMING the conditions are checked again (R140). -/
def recheckShed (d : DishId) (b : Blocks) : Blocks :=
  if (b.shed d).phase = .claiming ∧ shedAllowed b d = false then
    withdrawClaim .mc d (setPhase d .none b)
  else b

/-- GRANTED for a shed claim (R138). -/
def onMcGranted (d : DishId) (b : Blocks) : Blocks :=
  if (b.shed d).phase = .claiming then
    if shedAllowed b d && laden b d then
      match shedPlan b d with
      | .ok p => handShed d p b
      | .error _ => setPhase d .none (holderReturn .mc d b)
    else setPhase d .none (holderReturn .mc d b)
  else holderReturn .mc d b

/-- Reports on a shed move (R139). -/
def onMcReport (d : DishId) (r : Report) (b : Blocks) : Blocks :=
  if (b.shed d).phase = .handed then
    match r with
    | .arrived _ => releaseDish .mc d (shedEnded d .arrived b)
    | .preempted taker => shedEnded d (if taker = .lt then .lock else .stow) b
    | .faulted => shedEnded d .fault b
    | .refused x => shedRefused d x b
    | .ready | .stopped | .stowed | .unpinned | .unpinRefused _ => b
  else b

/-- WITHDRAWN (R140). -/
def onMcWithdrawn (d : DishId) (b : Blocks) : Blocks :=
  if (b.shed d).phase = .claiming then setPhase d .none b else b

/-- TAKEN_OVER (R140). -/
def onMcTakenOver (d : DishId) (b : Blocks) : Blocks :=
  match (b.shed d).phase with
  | .handed => shedEnded d .stow b
  | .claiming => setPhase d .none b
  | .none => b

/-- A dish is stowing: its shed ends (R141). -/
def endShed (d : DishId) (b : Blocks) : Blocks :=
  match (b.shed d).phase with
  | .claiming => withdrawClaim .mc d (setPhase d .none b)
  | .handed => shedEnded d .stow (releaseDish .mc d b)
  | .none => b

def endSheds (b : Blocks) : Blocks := overDishes allDishes endShed b

/-- What a SURFACE melt step does beyond its zone, with the applied duty that its state step has set
(R123 step 6). -/
def surfaceStep (d : DishId) (applied : Nat) (b : Blocks) : Blocks :=
  let b1 := updateDerate d (updateSides d (updateScore d applied b))
  let b2 := if (b1.dish d).score < b1.settings.shedClear then b1.modShed d (fun s => { s with armed := true })
    else b1
  beginShed d (recheckShed d b2)

/-- The settings are read (R143, R188). -/
def readMelt (z : ZoneId) (b : Blocks) : Blocks :=
  let b1 := { b with meltReadings := b.meltReadings.set z (b.settings.meltReading (zoneClass z)) }
  if zoneClass z = .surface then
    { b1 with snowReadings := b1.snowReadings.set (zoneDish z) b.settings.snowReading }
  else b1

/-- The melt step of a zone (R123). -/
def meltStep (z : ZoneId) (b : Blocks) : Blocks :=
  let b1 := b.runTo (b.zone z).stepDue
  let b2 := b1.modZone z (fun x => { x with stepDue := b1.clock.count + 1000 })
  let b3 := stepZone z (formDemand z (readMelt z b2))
  let b4 := postZone z b3
  if zoneClass z = .surface then surfaceStep (zoneDish z) (b3.zone z).applied b4 else b4

/-- The tail is over (R130). -/
def onTailOver (z : ZoneId) (b : Blocks) : Blocks := reformRequest z (zoneOff z b)

/-! ### Heat locks (R131) -/

def cutZone (z : ZoneId) (b : Blocks) : Blocks :=
  reformRequest z ((applyDuty z 0 b).modZone z (fun x => { x with state := .cut, tail := none }))

def uncutZone (z : ZoneId) (b : Blocks) : Blocks :=
  if (b.zone z).state = .cut then reformRequest z (b.modZone z (fun x => { x with state := .off })) else b

/-- The zones of a dish are cut in the order SURFACE, SUBREFLECTOR, FEED, each posting its REQUEST before the next is
cut; R131 gives no order (log entry 61). -/
def cutHeat (d : DishId) (b : Blocks) : Blocks := (zonesOf d).foldl (fun x z => cutZone z x) b

/-- The cut of a dish ends, in the order of `cutHeat` (R131; log entry 61). -/
def uncutHeat (d : DishId) (b : Blocks) : Blocks := (zonesOf d).foldl (fun x z => uncutZone z x) b

/-! ### MELT_MODE (R142) -/

/-- The classes that a class set names by its bits 0 to 2 (R142). R142 does not say what bits 3 to 15 do; they
name no class here, and a set of such bits alone is empty (log entry 39). -/
def classBits (w : Word) : List ZoneClass :=
  (if w.getLsbD 0 then [ZoneClass.surface] else []) ++ (if w.getLsbD 1 then [ZoneClass.subreflector] else [])
    ++ (if w.getLsbD 2 then [ZoneClass.feed] else [])

/-- Every pairing of a named dish with a named class, by ascending dish, then class (R142; the order is log
entry 61). -/
def namedZones (dishes classes : Word) : List ZoneId :=
  (dishBits dishes).toList.flatMap (fun d => (classBits classes).map (zoneOf d))

/-- One named zone takes its mode, forms its DEMAND, and forms and posts its REQUEST (R142). -/
def modeZone (mode : ZoneMode) (forced : Nat) (z : ZoneId) (b : Blocks) : Blocks :=
  let b1 := formDemand z (b.modZone z (fun x => { x with
    mode := mode, forced := if mode = .forced then forced else x.forced }))
  let x := b1.zone z
  let b2 := if mode = .off ∧ (x.state = .running ∨ x.state = .tailing) then zoneOff z b1 else b1
  reformRequest z b2

/-- A set of zones in 5 bytes (10.4). -/
def zoneSetBytes (zs : List ZoneId) : List Byte := lowBytes 5 (zs.foldl (fun n z => n + 2 ^ z.val) 0)

/-- MELT_MODE (R142). R142 gives no order among the named zones; that they are worked one at a time, by ascending
dish, then class, and that each posts its REQUEST, with a grant event of its own, before the next takes its mode, is
the model's choice (log entry 61). -/
def takeMeltMode (s : SlotId) (dishes classes mode forced : Word) (b : Blocks) : Blocks :=
  if dishes = 0 ∨ 4096 ≤ dishes.toNat then b.answer s (badField 6)
  else if (classBits classes).isEmpty then b.answer s (badField 7)
  else
    match readZoneMode mode with
    | none => b.answer s (badField 8)
    | some m =>
      let zs := namedZones dishes classes
      let b1 := zs.foldl (fun x z => modeZone m (min 1000 forced.toNat) z x) b
      let cut := zs.filter (fun z => (b1.zone z).state == .cut)
      b1.answer s ⟨.done, { noNotes with clamped := m == .forced && decide (1000 < forced.toNat) }, 0,
        zoneSetBytes cut⟩

end Sys2Proof.Machine
end

