-- ==== Sys2Proof/Machine/Locks.lean ====
section
/-! DEFINITION. The lock table (07, 7.1 to 7.4). -/

namespace Sys2Proof.Machine

/-! ### Records and the summary (R145, R147) -/

def LockClass.holdsMotion : LockClass → Bool
  | .motion => true
  | .full => true
  | .heat => false

def LockClass.holdsHeat : LockClass → Bool
  | .heat => true
  | .full => true
  | .motion => false

/-- The place of a record: a key slot, or a pool record (R145). -/
inductive LockPlace where
  | key (d : DishId)
  | pool (p : PoolId)
deriving DecidableEq, Repr

/-- The number of a place's lock view entry (10.5, 10.6). -/
def LockPlace.entry : LockPlace → Nat
  | .key d => d.val
  | .pool p => 12 + p.val

def allPool : List PoolId := List.finRange 24

def recordAt (b : Blocks) : LockPlace → Option LockRecord
  | .key d => b.keySlots[d]
  | .pool p => b.pool[p]

def putRecord (pl : LockPlace) (r : Option LockRecord) (b : Blocks) : Blocks :=
  match pl with
  | .key d => { b with keySlots := b.keySlots.set d r }
  | .pool p => { b with pool := b.pool.set p r }

/-- The places that hold a record of a dish: its key slot, then the pool ascending. -/
def placesOf (b : Blocks) (d : DishId) : List LockPlace :=
  ((LockPlace.key d) :: allPool.map LockPlace.pool).filter (fun pl => (recordAt b pl).any (fun r => r.dish == d))

def recordsOf (b : Blocks) (d : DishId) : List LockRecord := (placesOf b d).filterMap (recordAt b)

def motionRecords (b : Blocks) (d : DishId) : List LockRecord :=
  (recordsOf b d).filter (fun r => r.cls.holdsMotion)

/-- The four flags of a dish (R147). -/
def summaryOf (b : Blocks) (d : DishId) : LockSummary :=
  let ms := motionRecords b d
  { motionLocked := ms.any (fun r => r.state == .effective)
    heatLocked := (recordsOf b d).any (fun r => r.cls.holdsHeat)
    stopPending := ms.any (fun r => r.state == .waiting)
    stowYielding := !ms.isEmpty && ms.all (fun r => r.origin == .silent) }

def markOf (pl : LockPlace) (r : LockRecord) : LockMark := ⟨r.dish, pl.entry, r.origin, r.cls, r.tag⟩

/-! ### The end of an event of LT (R147, R150) -/

/-- A MOTION-LOCKED dish gives up its motion grant, but for a stow that the lock yields to (R150). -/
def seizeLocked (d : DishId) (b : Blocks) : Blocks :=
  let x := b.dish d
  match b.fa.grants[d] with
  | some g =>
    if x.lock.motionLocked ∧ ¬(x.lock.stowYielding ∧ g.cls = .stow) then seizeGrant d none b else b
  | none => b

/-- What a changed summary sets off, after the entries and the lock stop (R147 steps 4 to 7). -/
def spreadSummary (d : DishId) (old : LockSummary) (b : Blocks) : Blocks :=
  let new := (b.dish d).lock
  let b1 := if (queuedClaim b d).isSome then grantEvent b else b
  let risen := (new.motionLocked && !old.motionLocked) || (new.stopPending && !old.stopPending)
  let b2 := if risen && (b1.dish d).formation.isSome then b1.tell (.excuse d .lock) else b1
  let b3 := b2.tell (.lockChanged d)
  if new.heatLocked && !old.heatLocked then cutHeat d b3
  else if !new.heatLocked && old.heatLocked then uncutHeat d b3
  else b3

/-- What an event of LT has to write and send beside its records. -/
structure LockEffects where
  entries : List TrailEvent
  stop : Bool

def writeEntries (es : List TrailEvent) (b : Blocks) : Blocks :=
  es.foldl (fun x e => (x.trail e).cause .lock) b

/-- The end of an event of LT on the records of a dish (R147, R150). `before` is the state before the
event. -/
def endLockEvent (d : DishId) (before : Blocks) (fx : LockEffects) (b : Blocks) : Blocks :=
  let old := (before.dish d).lock
  let new := summaryOf b d
  let gone := !(motionRecords before d).isEmpty && (motionRecords b d).isEmpty
  let b1 := b.modDish d (fun x => { x with lock := new, removalMark := x.removalMark || gone })
  let b2 := writeEntries fx.entries b1
  let b3 := if fx.stop then lockStop d b2 else b2
  let b4 := overDishes allDishes seizeLocked b3
  if old = new then b4 else spreadSummary d old b4

/-! ### Placing (R146, R148, R149, R151) -/

/-- The state that a record takes, and whether a lock stop is sent (R148, R149, R151). -/
def placementState (x : Dish) (origin : LockOrigin) (cls : LockClass) : LockState × Bool :=
  if cls = .heat then (.effective, false)
  else if origin = .silent ∧ x.task = .stow then (.effective, false)
  else if x.task = .lockStop then (.waiting, false)
  else
    match x.drive with
    | .braked | .pinned | .faulted => (.effective, false)
    | .warning | .releasing | .holding => (.effective, true)
    | .moving | .settling | .stopping | .pinning | .unpinning => (.waiting, true)

/-- The drive state at which a record placed EFFECTIVE takes effect: BRAKED where its stop completes in
the event (R148). -/
def stateAtEffect (x : Dish) (stop : Bool) : DriveState := if stop then .braked else x.drive

/-- A record is put in its place; the entries and the stop that it brings (R148). -/
def placeRecord (pl : LockPlace) (d : DishId) (origin : LockOrigin) (cls : LockClass) (tag : Nat)
    (slot : Option SlotId) (b : Blocks) : Blocks × LockEffects :=
  let x := b.dish d
  let st := placementState x origin cls
  let r : LockRecord :=
    { dish := d, origin := origin, cls := cls, tag := tag, state := st.1, placedAt := b.clock.time
      placedValid := b.clock.valid, slot := if st.1 = .waiting then slot else none }
  let m := markOf pl r
  let placed := TrailEvent.lockPlaced m st.1
  (putRecord pl (some r) b,
    { entries := if st.1 = .effective then [placed, .lockEffective m (stateAtEffect x st.2)] else [placed]
      stop := st.2 })

/-- A record is removed; its entry (R153). -/
def removeRecord (pl : LockPlace) (r : LockRecord) (cause : RemovalCause) (b : Blocks) : Blocks × TrailEvent :=
  (putRecord pl none b, .lockRemoved (markOf pl r) r.state cause)

/-- One record removed as an event of its own (R153). -/
def removeAlone (pl : LockPlace) (r : LockRecord) (cause : RemovalCause) (b : Blocks) : Blocks :=
  let x := removeRecord pl r cause b
  endLockEvent r.dish b ⟨[x.2], false⟩ x.1

def poolOf (b : Blocks) (d : DishId) : List (PoolId × LockRecord) :=
  allPool.filterMap (fun p =>
    match b.pool[p] with
    | some r => if r.dish = d then some (p, r) else none
    | none => none)

/-- The checks of R146, or the lowest free pool record. -/
def poolPlace (b : Blocks) (d : DishId) (origin : LockOrigin) (tag : Nat) : Except AnswerCode PoolId :=
  let mine := poolOf b d
  if mine.any (fun x => x.2.origin == origin && x.2.tag == tag) then .error .alreadyHeld
  else if 3 ≤ mine.length then .error .dishFull
  else
    match allPool.find? (fun p => (b.pool[p]).isNone) with
    | none => .error .tableFull
    | some p => .ok p

/-- A pool record placed as an event of its own. -/
def placePool (p : PoolId) (d : DishId) (origin : LockOrigin) (cls : LockClass) (tag : Nat)
    (slot : Option SlotId) (b : Blocks) : Blocks :=
  let x := placeRecord (.pool p) d origin cls tag slot b
  endLockEvent d b x.2 x.1

/-! ### Reports on a lock stop (R150) -/

/-- Every PENDING motion-class record of the dish takes effect (R150). -/
def effectiveRecord (pl : LockPlace) (b : Blocks) : Blocks :=
  match recordAt b pl with
  | some r => putRecord pl (some { r with state := .effective, slot := none }) b
  | none => b

/-- The answer data of a LOCK that is done (R154, 10.4). -/
def lockDone (place : Nat) (drive : DriveState → Nat) (x : DriveState) : Answer :=
  ⟨.done, noNotes, 0, lowBytes 1 place ++ lowBytes 1 (drive x)⟩

/-- The code of a drive state: its place in the list of R1 (R193). -/
def DriveState.code : DriveState → Nat
  | .braked => 0
  | .warning => 1
  | .releasing => 2
  | .moving => 3
  | .settling => 4
  | .holding => 5
  | .stopping => 6
  | .pinning => 7
  | .pinned => 8
  | .unpinning => 9
  | .faulted => 10

def answerLock (drive : DriveState) (x : LockPlace × LockRecord) (b : Blocks) : Blocks :=
  match x.2.slot, x.1 with
  | some s, .pool p => b.answer s (lockDone p.val DriveState.code drive)
  | _, _ => b

def pendingRecords (b : Blocks) (d : DishId) : List (LockPlace × LockRecord) :=
  (placesOf b d).filterMap (fun pl =>
    match recordAt b pl with
    | some r => if r.state = .waiting ∧ r.cls.holdsMotion then some (pl, r) else none
    | none => none)

/-- STOPPED or FAULTED for a lock stop (R150). -/
def onLtStopped (d : DishId) (b : Blocks) : Blocks :=
  let drive := (b.dish d).drive
  let ps := pendingRecords b d
  if ps.isEmpty then b
  else
    let b1 := ps.foldl (fun x p => effectiveRecord p.1 x) b
    let b2 := endLockEvent d b ⟨ps.map (fun p => .lockEffective (markOf p.1 p.2) drive), false⟩ b1
    ps.foldl (fun x p => answerLock drive p x) b2

def onLtReport (d : DishId) (r : Report) (b : Blocks) : Blocks :=
  match r with
  | .stopped => onLtStopped d b
  | .faulted => onLtStopped d b
  | .ready | .arrived _ | .stowed | .preempted _ | .refused _ | .unpinned | .unpinRefused _ => b

/-! ### LOCK and UNLOCK (R154 to R156) -/

/-- LOCK; true where its record is PENDING and the order stands (R154). -/
def takeLock (s : SlotId) (dish cls tag : Word) (b : Blocks) : Blocks × Bool :=
  match dishNumber dish.toNat, readLockClass cls with
  | none, _ => (b.answer s (badField 8), false)
  | some _, none => (b.answer s (badField 9), false)
  | some d, some c =>
    if tag = 0 then (b.answer s (badField 10), false)
    else
      match poolPlace b d .order tag.toNat with
      | .error e => (b.answer s (plainAnswer e), false)
      | .ok p =>
        let st := placementState (b.dish d) .order c
        let b1 := placePool p d .order c tag.toNat (some s) b
        if st.1 = .effective then
          (b1.answer s (lockDone p.val DriveState.code (stateAtEffect (b.dish d) st.2)), false)
        else (b1, true)

/-- The four flags in the order of R147, as bits (R193). -/
def LockSummary.bits (x : LockSummary) : Nat :=
  bit x.motionLocked + 2 * bit x.heatLocked + 4 * bit x.stopPending + 8 * bit x.stowYielding

def LockState.code : LockState → Nat
  | .waiting => 0
  | .effective => 1

/-- UNLOCK (R156). -/
def takeUnlock (s : SlotId) (dish tag : Word) (b : Blocks) : Blocks :=
  match dishNumber dish.toNat with
  | none => b.answer s (badField 8)
  | some d =>
    if tag = 0 then b.answer s (badField 9)
    else
      let mine := (poolOf b d).filter (fun x => x.2.tag == tag.toNat)
      match mine.find? (fun x => x.2.origin == .order) with
      | some (p, r) =>
        let b1 := removeAlone (.pool p) r .unlock b
        let b2 := match r.slot with
          | some t => b1.answer t ⟨.endedCut, noNotes, 6, []⟩
          | none => b1
        b2.answer s ⟨.done, noNotes, 0, lowBytes 1 r.state.code ++ lowBytes 1 (b2.dish d).lock.bits⟩
      | none => b.answer s (plainAnswer (if mine.isEmpty then .notHeld else .panelLock))

/-- The pool record of a standing LOCK. -/
def recordOfSlot (b : Blocks) (s : SlotId) : Option (PoolId × LockRecord) :=
  allPool.findSome? (fun p =>
    match b.pool[p] with
    | some r => if r.slot = some s then some (p, r) else none
    | none => none)

/-- A standing LOCK is cut, or abandoned (R155). -/
def endLockOrder (s : SlotId) (code : Option AnswerCode) (b : Blocks) : Blocks :=
  match recordOfSlot b s with
  | none => b
  | some (p, r) =>
    match code with
    | some c => (removeAlone (.pool p) r .cut b).answer s (plainAnswer c)
    | none => putRecord (.pool p) (some { r with slot := none }) b

/-- A link reset: the SLOT of every pending ORDER record becomes none (R145, R155). -/
def dropLockSlots (b : Blocks) : Blocks :=
  { b with pool := b.pool.map (fun r => r.map (fun x => { x with slot := none })) }

/-! ### Key slots (R160, R162) -/

/-- A panel falls silent: an empty key slot takes a SILENT record (R160). -/
def onPanelSilent (d : DishId) (b : Blocks) : Blocks :=
  match recordAt b (.key d) with
  | some _ => b
  | none =>
    let x := placeRecord (.key d) d .silent .motion 0 none b
    endLockEvent d b x.2 x.1

/-- The class of the KEY record that a key position wants (R162). -/
def wantedClass : KeyPosition → Option LockClass
  | .run => none
  | .hold => some .motion
  | .isolate => some .full

def slotMatches (r : Option LockRecord) (want : Option LockClass) : Bool :=
  match r, want with
  | none, none => true
  | some x, some c => x.origin == .key && x.cls == c
  | none, some _ => false
  | some _, none => false

/-- The key slot reconciled with a key position, in one event of LT (R162). -/
def reconcileKey (d : DishId) (k : KeyPosition) (b : Blocks) : Blocks :=
  let old := recordAt b (.key d)
  let want := wantedClass k
  if slotMatches old want then b
  else
    let r1 : Blocks × List TrailEvent := match old with
      | some r =>
        let x := removeRecord (.key d) r (if r.origin = .silent then .panel else .key) b
        (x.1, [x.2])
      | none => (b, [])
    let r2 : Blocks × LockEffects := match want with
      | some c => placeRecord (.key d) d .key c 0 none r1.1
      | none => (r1.1, ⟨[], false⟩)
    endLockEvent d b ⟨r1.2 ++ r2.2.entries, r2.2.stop⟩ r2.1

/-! ### Badges (R163) -/

/-- BADGE_LOCK; true where it is refused for room (R163). -/
def badgeLock (d : DishId) (tag : Nat) (cls : LockClass) (b : Blocks) : Blocks × Bool :=
  match poolPlace b d .badge tag with
  | .ok p => (placePool p d .badge cls tag none b, false)
  | .error .alreadyHeld => (b, false)
  | .error e => (b.trail (.badgeRefused d tag cls e), true)

/-- BADGE_FREE (R163). -/
def badgeFree (d : DishId) (tag : Nat) (b : Blocks) : Blocks :=
  match (poolOf b d).find? (fun x => x.2.origin == .badge && x.2.tag == tag) with
  | some (p, r) => removeAlone (.pool p) r .badge b
  | none => b

end Sys2Proof.Machine
end

