-- ==== Sys2Proof/Machine/Panels.lean ====
section
/-! DEFINITION. The pedestal line master (07, 7.5; frames in 10.8). -/

namespace Sys2Proof.Machine

/-! ### Requests (R158, R164, R196) -/

def RequestKind.code : RequestKind → Byte
  | .status => 1
  | .event => 2
  | .taken => 3

/-- The request kind of a panel by the first row that applies (R158). -/
def requestKind (p : Panel) : RequestKind :=
  if p.takenDue then .taken else if p.readDue then .event else .status

/-- MOVING is lit in these drive states (R164). -/
def DriveState.lampMoving : DriveState → Bool
  | .braked => false
  | .pinned => false
  | .faulted => false
  | .warning => true
  | .releasing => true
  | .moving => true
  | .settling => true
  | .holding => true
  | .stopping => true
  | .pinning => true
  | .unpinning => true

/-- The lamp settings of a request (R164). -/
def lampsFor (b : Blocks) (d : DishId) : Lamps :=
  { moving := (b.dish d).drive.lampMoving
    locked := (recordsOf b d).any (fun r => r.origin != .silent)
    stowed := (b.dish d).drive == .pinned
    refused := (b.panel d).refusedFlash }

def Lamps.bits (x : Lamps) : Nat := bit x.moving + 2 * bit x.locked + 4 * bit x.stowed + 8 * bit x.refused

/-- The address of the panel of a dish (00_scope.md, "Numbering of things"). -/
def panelAddress (d : DishId) : Byte := BitVec.ofNat 8 (d.val + 1)

/-- A request frame (10.8, R196). -/
def requestFrame (d : DishId) (k : RequestKind) (x : Lamps) : List Byte :=
  let body := [panelAddress d, k.code, BitVec.ofNat 8 x.bits]
  body ++ [crc8 body]

/-! ### Void slots (R159, R160) -/

/-- A slot is void (R159, R160). -/
def voidSlot (d : DishId) (b : Blocks) : Blocks :=
  let p := b.panel d
  let b1 := b.modPanel d (fun x => { x with voids := min 3 (x.voids + 1) })
  if p.link = .online ∧ 3 ≤ p.voids + 1 then
    let b2 := b1.modPanel d (fun x => { x with
      link := .silent, readDue := false, takenDue := false, refusedFlash := false })
    onPanelSilent d (b2.trail (.panelState d .silent p.key))
  else b1

def closeExchange (b : Blocks) : Blocks := { b with pedestal := { b.pedestal with exchange := none } }

/-- The reply window closes on an exchange without a good reply (R159). -/
def closeWindow (b : Blocks) : Blocks :=
  match b.pedestal.exchange with
  | none => b
  | some x => voidSlot x.panel (closeExchange (b.runTo x.window))

/-! ### The slot event (R158) -/

def servePanel (d : DishId) (b : Blocks) : Blocks :=
  let kind := requestKind (b.panel d)
  let lamps := lampsFor b d
  let b1 := b.modPanel d (fun x => { x with lamps := lamps, takenDue := x.takenDue && kind != .taken })
  { b1 with pedestal := { b1.pedestal with
      next := d + 1, sent := requestFrame d kind lamps
      exchange := some ⟨d, kind, lamps.refused, b.clock.count + 5⟩ } }

/-- The slot event: a window still open closes first (R158, R159). -/
def pedestalSlot (b : Blocks) : Blocks :=
  let b1 := (closeWindow b).runTo b.pedestal.slotDue
  let b2 := { b1 with pedestal := { b1.pedestal with slotDue := b1.clock.count + 20 } }
  servePanel b2.pedestal.next b2

/-! ### Replies (R159, R161, R163, R196) -/

inductive PanelEvent where
  | none
  | badgeLock (tag : Nat) (cls : LockClass)
  | badgeFree (tag : Nat)
deriving DecidableEq, Repr

inductive PanelReply where
  | status (key : KeyPosition) (waiting : Bool)
  | event (key : KeyPosition) (e : PanelEvent)
deriving DecidableEq, Repr

def readKey (v : Byte) : Option KeyPosition :=
  match v.toNat with
  | 0 => some .run
  | 1 => some .hold
  | 2 => some .isolate
  | _ => none

/-- The event of an event reply; none where it makes the slot void (R196). -/
def readEvent (kind cls : Byte) (tag : Nat) : Option PanelEvent :=
  match kind.toNat with
  | 0 => some .none
  | 1 =>
    if tag = 0 then Option.none
    else if cls = 0 then some (.badgeLock tag .motion)
    else if cls = 1 then some (.badgeLock tag .full)
    else Option.none
  | 2 => if tag = 0 then Option.none else some (.badgeFree tag)
  | _ => Option.none

/-- The bytes of a reply read by their form; none where they are void (R159, R196). -/
def readReply (d : DishId) (bs : List Byte) : Option PanelReply :=
  match bs with
  | [a, form, key, flags, chk] =>
    if form = 0x81 ∧ a = panelAddress d ∧ crc8 [a, form, key, flags] = chk then
      (readKey key).map (fun k => .status k (flags.getLsbD 0))
    else none
  | [a, form, key, flags, kind, cls, t0, t1, chk] =>
    if form = 0x82 ∧ a = panelAddress d ∧ crc8 [a, form, key, flags, kind, cls, t0, t1] = chk then
      match readKey key, readEvent kind cls (fromLow [t0, t1]) with
      | some k, some e => some (.event k e)
      | _, _ => none
    else none
  | _ => none

/-- A reply is complete with its fifth byte for form 0x81, with its ninth for form 0x82 (R196). -/
def completeBytes (bs : List Byte) : List Byte := if bs[1]? = some 0x81 then bs.take 5 else bs.take 9

/-- Steps 1 to 3 of a good reply (R161). -/
def panelHeard (d : DishId) (k : KeyPosition) (b : Blocks) : Blocks :=
  let b1 := if (b.panel d).link = .silent then
      (b.modPanel d (fun x => { x with link := .online })).trail (.panelState d .online (some k))
    else b
  reconcileKey d k (b1.modPanel d (fun x => { x with voids := 0, key := some k }))

/-- An event handed to LT (R163). -/
def applyEvent (d : DishId) (e : PanelEvent) (b : Blocks) : Blocks :=
  match e with
  | .none => b
  | .badgeFree tag => badgeFree d tag b
  | .badgeLock tag cls =>
    let r := badgeLock d tag cls b
    if r.2 then r.1.modPanel d (fun x => { x with refusedFlash := true }) else r.1

/-- A good reply, its steps in order: the flash that the request carried is cleared last (R161). The key and
the badge of one event reply are two events of LT, each with its summary at its end (R147), where R161 and R162
can be read as one event with one summary; that is the model's choice (log entry 48). -/
def takeReply (x : PanelExchange) (r : PanelReply) (b : Blocks) : Blocks :=
  let d := x.panel
  let b1 := match r with
    | .status k waiting => (panelHeard d k b).modPanel d (fun p => { p with readDue := waiting })
    | .event k e =>
      (applyEvent d e (panelHeard d k b)).modPanel d
        (fun p => { p with readDue := false, takenDue := p.takenDue || e != .none })
  if x.refusedCarried then b1.modPanel d (fun p => { p with refusedFlash := false }) else b1

def replyFits (k : RequestKind) (r : PanelReply) : Bool :=
  match r with
  | .status _ _ => k != .event
  | .event _ _ => k == .event

/-- The bytes of a reply arrive (R159, R161). -/
def onReply (bytes : List Byte) (framing : Bool) (b : Blocks) : Blocks :=
  match b.pedestal.exchange with
  | none => b
  | some x =>
    let b1 := closeExchange b
    match readReply x.panel (completeBytes bytes) with
    | some r =>
      if framing || decide (x.window < b.clock.count) || !replyFits x.kind r then voidSlot x.panel b1
      else takeReply x r b1
    | none => voidSlot x.panel b1

end Sys2Proof.Machine
end

