-- ==== Sys2Proof/Machine/Formations.lean ====
section
/-! DEFINITION. The formation planner (chapter 3). -/

namespace Sys2Proof.Machine

/-! ### Records -/

/-- A member that takes no part in a piece of motion. -/
def idleMember : Member :=
  { stage := .out, wrapAz := none, plan := none, arrival := none, kept := none
    lagOpen := false, lagTimer := none, lagWritten := false, lastLag := 0 }

/-- A formation record after power-on (R44). -/
def unusedFormation : Formation :=
  { state := .unused, members := 0, work := none, slot := none, pendingWork := none, mode := .joint
    wrap := .nearest, target := none, included := 0, skipped := 0, excused := 0, waveCount := 0
    notes := noNotes, raster := none, queue := [], wrapStop := none, wrapFail := none
    admission := none, dwell := none, starve := none, trackStep := none
    member := Vector.replicate 12 idleMember, stopping := 0, disbandPending := false }

/-- Members of INCLUDED not in EXCUSED, in ascending number. -/
def Formation.active (m : Formation) : List DishId :=
  allDishes.filter (fun d => m.included.has d && !m.excused.has d)

def Formation.mapMembers (f : Member → Member) (m : Formation) : Formation :=
  { m with member := m.member.map f }

/-- Whether the formation has work or a halt in progress (R56, R59). -/
def FormationState.busy : FormationState → Bool
  | .unused => false
  | .idle => false
  | .admitting => true
  | .moving => true
  | .dwelling => true
  | .tracking => true
  | .starved => true
  | .halting => true

/-- Whether a standing order's work is in hand (R50, R60). -/
def FormationState.working : FormationState → Bool
  | .halting => false
  | s => s.busy

/-- The watch floor while it applies to formation plans (R32, R43). -/
def watchFloorNow (b : Blocks) : Option Int :=
  if b.wind.state = .watch then some b.settings.watchFloor else none

/-- The first condition of R48 that makes a member ineligible. -/
def ineligible (hard : Nat) (d : Dish) : Option ExcusalCause :=
  if d.lock.motionLocked || d.lock.stopPending then some .lock
  else if d.drive = .faulted then some .fault
  else if d.reasonsEmpty = false then some .stow
  else if d.task = .shed then some .shed
  else if hard ≤ d.score then some .score
  else none

/-! ### Answers -/

/-- The answer data of R55 and R57 in its layout (10.4). -/
def workData (m : Formation) (spread : Nat) : List Byte :=
  dishSetBytes m.skipped ++ dishSetBytes m.excused ++ lowBytes 1 m.waveCount
    ++ optBytes 1 (m.raster.map Raster.index) ++ lowBytes 4 spread

/-- An answer to the order in hand: its notes and its data (R55, R57, R60). -/
def workAnswer (m : Formation) (code : AnswerCode) (detail spread : Nat) : Answer :=
  ⟨code, m.notes, detail, workData m spread⟩

/-- The order in hand is answered, where there is one. -/
def answerWork (f : FormationId) (code : AnswerCode) (detail spread : Nat) (b : Blocks) : Blocks :=
  match (b.form f).slot with
  | some s => b.answer s (workAnswer (b.form f) code detail spread)
  | none => b

/-- The answer to an order that ends out of PENDING WORK, from what its take formed (R50, R59, R60). R50 has INDEX
become 0 when a RASTER is taken up; that the answer of one still pending gives 0 too is the model's choice (log
entry 11). -/
def pendingAnswer (p : PendingWork) (code : AnswerCode) (detail : Nat) : Answer :=
  ⟨code, p.notes, detail, dishSetBytes p.skipped ++ dishSetBytes 0 ++ lowBytes 1 0
    ++ optBytes 1 (p.order.raster.map Raster.index) ++ lowBytes 4 0⟩

/-- PENDING WORK is answered and emptied (R50, R59, R60). -/
def answerPending (f : FormationId) (code : AnswerCode) (detail : Nat) (b : Blocks) : Blocks :=
  match (b.form f).pendingWork with
  | some p => (b.answer p.slot (pendingAnswer p code detail)).modForm f (fun m => { m with pendingWork := none })
  | none => b

/-- The code and the detail word of an end by an excusal's cause (R57, 10.4). -/
def excusalEnd : ExcusalCause → AnswerCode × Nat
  | .lock => (.endedLock, 1)
  | .stow => (.endedStow, 2)
  | .fault => (.endedFault, 3)
  | .shed => (.endedFault, 4)
  | .score => (.endedFault, 5)

/-! ### Ending work -/

/-- A grant that a member holds for a move not yet handed over is returned (R56, R59, R60). -/
def returnUnhanded (f : FormationId) (d : DishId) (b : Blocks) : Blocks :=
  let m := (b.form f).mem d
  let waiting := match m.stage with
    | .claiming => true
    | .granted => true
    | .followClaiming => true
    | .handed _ => m.kept.isSome
    | .running => m.kept.isSome
    | .ready _ => false
    | .following => false
    | .arrived => false
    | .out => false
  if waiting then holderReturn .fp d b else b

/-- Queued claims of the formation are withdrawn, and grants not yet used by a move returned
(R57, R59, R60). -/
def dropClaims (f : FormationId) (b : Blocks) : Blocks :=
  overDishes (b.form f).active (fun d x => returnUnhanded f d (withdrawClaim .fp d x)) b

def closeLag (m : Member) : Member := { m with lagOpen := false, lagTimer := none, lagWritten := false }

/-- Timers stopped, lag watches closed, no member in a piece of motion (R44, R57, R60, R66). -/
def Formation.rest (m : Formation) : Formation :=
  ({ m with admission := none, dwell := none, starve := none, trackStep := none }).mapMembers
    (fun x => { closeLag x with stage := .out, kept := none })

/-- WORK, TARGET, STANDING SLOT and RASTER become none; TARGET holds the wrap positions too (R44). -/
def Formation.clearWork (m : Formation) : Formation :=
  (({ m with work := none, target := none, slot := none, raster := none }).mapMembers
    (fun x => { x with wrapAz := none })).rest

/-- FP releases every member it owns (R55, R64, R65, R68). -/
def releaseMembers (f : FormationId) (b : Blocks) : Blocks :=
  overDishes ((b.form f).members ||| (b.form f).included).toList (releaseDish .fp) b

/-- The work is over and the formation is IDLE (R55, R57, R64, R65, R68). -/
def goIdle (f : FormationId) (b : Blocks) : Blocks :=
  b.modForm f (fun m => { m.clearWork with state := .idle })

/-- The waypoint queue is emptied. R57, R59, R60 and R64 do not name WRAP STOP among what goes with it; that it
becomes none too is the model's choice (log entry 40). -/
def emptyQueue (f : FormationId) (b : Blocks) : Blocks :=
  b.modForm f (fun m => { m with queue := [], wrapStop := none, wrapFail := none })

/-! ### Excusal (R56, R57) -/

/-- The excusal proper; false where the event changes nothing (R56). -/
def excusable (m : Formation) (d : DishId) : Bool :=
  m.state.busy && m.included.has d && !m.excused.has d

/-- FP ends its work on a dish: an owner's stop where FP owns the dish (R56, R60). Where the dish has another
owner or none, and holds a move of FP in NEXT ACTION (R4), the same stop empties it: R1 has halts cancel held
moves, and by R61 the moves of the work stop in every case, but R56 and R60 name owned dishes alone. FP gives
back the RESERVED grant of a held move that it cancels, which no rule names. Both are the model's choice (log
entry 45). -/
def stopWork (d : DishId) (b : Blocks) : Blocks :=
  let x := b.dish d
  if x.nextAction.moveOwner = some .fp then holderReturn .fp d (ownerStop .fp d b)
  else if x.owner = some .fp then ownerStop .fp d b
  else b

/-- What excusal does to one member (R56). -/
def excuseMember (f : FormationId) (d : DishId) (cause : ExcusalCause) (b : Blocks) : Blocks :=
  let b1 := (b.modForm f (fun m => { m with excused := m.excused.insert d })).trail (.memberExcused f d cause)
  let b2 := returnUnhanded f d (withdrawClaim .fp d b1)
  stopWork d (b2.modForm f (fun m =>
    { (m.modMember d (fun x => { x with stage := .out, kept := none })) with stopping := m.stopping.erase d }))

/-- The work ends when no member of INCLUDED is left outside EXCUSED (R57). -/
def endIfEmpty (f : FormationId) (cause : ExcusalCause) (b : Blocks) : Blocks :=
  let m := b.form f
  if m.state.working && m.active.isEmpty then
    let (code, detail) := excusalEnd cause
    goIdle f (emptyQueue f (dropClaims f (answerWork f code detail 0 b)))
  else b

def excuseCore (f : FormationId) (d : DishId) (cause : ExcusalCause) (b : Blocks) : Blocks :=
  if excusable (b.form f) d then endIfEmpty f cause (excuseMember f d cause b) else b

/-! ### Handing moves (R53, R54, R63, R69) -/

/-- A dish that another formation in HALTING still holds in STOPPING DISHES (R69). -/
def heldByHalt (f : FormationId) (d : DishId) (b : Blocks) : Bool :=
  allFormations.any (fun g => g != f && (b.form g).state == .halting && (b.form g).stopping.has d)

/-- A move is handed to the dish drives, or kept while a halt holds the dish (R69). A refusal is taken as
a report (R56). -/
def handMember (f : FormationId) (d : DishId) (mv : Move) (b : Blocks) : Blocks :=
  if heldByHalt f d b then b.modMember f d (fun x => { x with kept := some mv })
  else
    match handMove d mv (b.modMember f d (fun x => { x with kept := none })) with
    | (b1, none) => b1
    | (b1, some r) => b1.tell (.report .fp d (.refused r))

/-- Moves kept for a dish are handed once no halt holds it (R69). -/
def handKept (d : DishId) (b : Blocks) : Blocks :=
  overFormations (fun f x =>
    match ((x.form f).mem d).kept with
    | some mv => handMember f d mv x
    | none => x) b

def formationMove (mode : StartMode) (az el : AxisMove) : Move :=
  { owner := .fp, task := .formation, az := az, el := el, startMode := mode }

/-! ### Tracks: unwrapping (R41, R63, R65) -/

/-- The unwrapped azimuth of each active member at the next waypoint, or the first that fails. R65 does not say
which dish is the one whose unwrap failed where several fail at one waypoint; it is the lowest-numbered (log entry
56). -/
def unwrapPoint (st : Settings) (members : List DishId) (prev : Vector (Option Int) 12) (w : Waypoint) :
    Except (DishId × Int) Waypoint :=
  members.foldlM (fun acc d =>
    match prev[d] with
    | none => .ok acc
    | some u =>
      let v := unwrapNext u w.skyAz
      if inWrapRange st v then .ok { acc with unwrapped := acc.unwrapped.set d (some v) } else .error (d, v)) w

/-- The waypoints unwrapped one after another; at a failure that waypoint and every later one is left
out (R65). -/
def unwrapFrom (st : Settings) (members : List DishId) :
    Vector (Option Int) 12 → List Waypoint → List Waypoint × Option (DishId × ArrayTime × Int)
  | _, [] => ([], none)
  | prev, w :: ws =>
    match unwrapPoint st members prev w with
    | .error (d, v) => ([], some (d, w.time, v))
    | .ok w' =>
      let r := unwrapFrom st members w'.unwrapped ws
      (w' :: r.1, r.2)

/-- A failed unwrap sets WRAP STOP to the time of the waypoint then at the tail (R65). -/
def Formation.setWrapStop (m : Formation) (fail : Option (DishId × ArrayTime × Int)) : Formation :=
  match fail with
  | some x => { m with wrapStop := m.queue.getLast?.map Waypoint.time, wrapFail := some x }
  | none => m

/-- The whole queue unwrapped from the chosen wrap positions of the active members (R41, R63). -/
def unwrapQueue (f : FormationId) (b : Blocks) : Blocks :=
  b.modForm f (fun m =>
    match m.queue with
    | [] => m
    | w :: ws =>
      let first := { w with unwrapped := Vector.ofFn (fun d : Fin 12 =>
        if m.included.has d && !m.excused.has d then (m.mem d).wrapAz else none) }
      let r := unwrapFrom b.settings m.active first.unwrapped ws
      ({ m with queue := first :: r.1, wrapStop := none, wrapFail := none }).setWrapStop r.2)

/-- While the second queued waypoint is at or before the time, the first is removed (R63, R64). -/
def pruneQueue (now : Nat) : List Waypoint → List Waypoint
  | w1 :: w2 :: ws => if w2.time.toNat ≤ now then pruneQueue now (w2 :: ws) else w1 :: w2 :: ws
  | ws => ws

/-! ### Waves (R52, R53) -/

def Formation.allGranted (m : Formation) : Bool := m.active.all (fun d => (m.mem d).stage != .claiming)

def Formation.grantedMembers (m : Formation) : List DishId :=
  m.active.filter (fun d => (m.mem d).stage == .granted)

/-- The largest dish minimum time of a wave (R53). -/
def waveDuration (m : Formation) (ds : List DishId) : Nat :=
  ds.foldl (fun n d => max n (((m.mem d).plan.map PlanResult.minTime).getD 0)) 0

def handWaveMember (f : FormationId) (wave tc : Nat) (d : DishId) (b : Blocks) : Blocks :=
  match ((b.form f).mem d).plan with
  | none => b
  | some p =>
    handMember f d (formationMove .onStart (stretch tc p.az) (stretch tc p.el))
      (b.modMember f d (fun x => { x with stage := .handed wave }))

/-- Every granted member that no wave holds forms the next wave (R52, R53). -/
def formWave (f : FormationId) (b : Blocks) : Blocks :=
  let m := b.form f
  let ds := m.grantedMembers
  let n := m.waveCount + 1
  let tc := waveDuration m ds
  let b1 := b.modForm f (fun x => { x with
    waveCount := n, state := .moving, admission := none
    notes := if 2 ≤ n then { x.notes with waved := true } else x.notes })
  let b2 := if 2 ≤ n then b1.trail (.formationWave f n (DishSet.ofList ds) tc) else b1
  overDishes ds (handWaveMember f n tc) b2

/-- A started member runs, unless it has already arrived without moving (R5, R53). -/
def startMember (f : FormationId) (d : DishId) (b : Blocks) : Blocks :=
  if ((b.form f).mem d).arrival.isSome then b.modMember f d (fun x => { x with stage := .arrived })
  else startDish d (b.modMember f d (fun x => { x with stage := .running }))

/-- A wave starts when every member of it that is not excused has reported readiness (R53). -/
def startWave (f : FormationId) (n : Nat) (b : Blocks) : Blocks :=
  let m := b.form f
  let ready := m.active.filter (fun d => (m.mem d).stage == .ready n)
  if m.active.any (fun d => (m.mem d).stage == .handed n) then b
  else overDishes ready (startMember f) b

def startWaves (f : FormationId) (b : Blocks) : Blocks :=
  (List.range ((b.form f).waveCount + 1)).foldl (fun x n => startWave f n x) b

/-! ### Arrival (R55, R63, R68) -/

def Formation.arrivals (m : Formation) : List ArrayTime :=
  m.active.filterMap (fun d => (m.mem d).arrival)

/-- Latest arrival less earliest (R55): the difference of their ages at `now`, which a change of array time
that moves all of them leaves as it is (R192), also where array time passes 0 between them. -/
def spreadOf (now : ArrayTime) (ts : List ArrayTime) : Nat :=
  match ts.map (fun t => (now - t).toNat) with
  | [] => 0
  | n :: rest => rest.foldl max n - rest.foldl min n

def Formation.hasArrived (m : Formation) : Bool :=
  m.state == .moving && m.active.all (fun d => (m.mem d).arrival.isSome)

/-- A follow claim for an arrived member (R63). -/
def claimFollow (f : FormationId) (d : DishId) (b : Blocks) : Blocks :=
  (submitClaim d .fp .move true true (b.modMember f d (fun x => { x with stage := .followClaiming }))).1

/-- TRACKING begins (R63). -/
def enterTracking (f : FormationId) (b : Blocks) : Blocks :=
  let b1 := b.modForm f (fun m => { m with state := .tracking, trackStep := b.timer 10 })
  overDishes (b.form f).active (claimFollow f) b1

/-- DWELLING begins; a dwell of 0 expires at once (R68). -/
def enterDwelling (f : FormationId) (b : Blocks) : Blocks :=
  let ms := ((b.form f).raster.map Raster.dwell).getD 0
  let b1 := b.modForm f (fun m => { m with state := .dwelling, dwell := b.timer ms })
  if ms = 0 then b1.tell (.dwellOver f) else b1

/-- The order in hand is answered DONE, and the members are released (R55, R68). -/
def finishWork (f : FormationId) (b : Blocks) : Blocks :=
  goIdle f (releaseMembers f (answerWork f .done 0 (spreadOf b.clock.time (b.form f).arrivals) b))

/-- The piece of motion has arrived (R55). -/
def pieceArrived (f : FormationId) (b : Blocks) : Blocks :=
  let m := b.form f
  let b1 := b.trail (.formationArrived f (spreadOf b.clock.time m.arrivals) m.arrivals.length
    (m.raster.map Raster.index))
  match m.work with
  | some .slew => finishWork f b1
  | some .raster => enterDwelling f b1
  | some .track => enterTracking f b1
  | none => b1

/-! ### What a grant, a report or an excusal may bring about -/

/-- ARRIVAL MODE EACH: a granted member is handed its move at once (R54). -/
def handEach (f : FormationId) (d : DishId) (b : Blocks) : Blocks :=
  match ((b.form f).mem d).plan with
  | none => b
  | some p =>
    handMember f d (formationMove .atReady p.az p.el)
      ((b.modMember f d (fun x => { x with stage := .running })).modForm f (fun m => { m with state := .moving }))

/-- Granted members are handed their moves: at once under EACH; under JOINT as the first wave when every
planned member is granted or the admission wait is over, and as a later wave at once (R52, R54). -/
def advanceGranted (f : FormationId) (b : Blocks) : Blocks :=
  let m := b.form f
  if m.grantedMembers.isEmpty then b
  else
    match m.mode with
    | .each => overDishes m.grantedMembers (handEach f) b
    | .joint =>
      if m.state = .moving then formWave f b
      else if m.state = .admitting ∧ (m.allGranted ∨ m.admission = none) then formWave f b
      else b

/-- The consequences that the state of the members has for the formation (R52, R53, R55). -/
def advanceFormation (f : FormationId) (b : Blocks) : Blocks :=
  if (b.form f).state.working then
    let b1 := startWaves f (advanceGranted f b)
    if (b1.form f).hasArrived then pieceArrived f b1 else b1
  else b

/-! ### Admission (R51) -/

/-- The azimuth target of the present piece of motion for a member (R49, R51, R64, R68). -/
def pieceAzimuth (m : Formation) (d : DishId) : AzimuthTarget :=
  match (m.mem d).wrapAz with
  | some c =>
    match m.raster with
    | some r => .wrap (c + r.index * r.stepAz)
    | none => .wrap c
  | none => .sky ((m.target.map Prod.fst).getD 0) m.wrap

def pieceElevation (m : Formation) : Int :=
  match m.raster with
  | some r => r.startEl + r.index * r.stepEl
  | none => (m.target.map Prod.snd).getD 0

def Notes.withPlan (n : Notes) (p : PlanResult) : Notes :=
  { n with clamped := n.clamped || p.clamped, wrapOther := n.wrapOther || p.wrapOther }

/-- One member is planned; a plan that fails excuses it with cause FAULT (R51). -/
def planMember (f : FormationId) (d : DishId) (b : Blocks) : Blocks :=
  let m := b.form f
  match plan b.settings (b.dish d) (pieceAzimuth m d) (pieceElevation m) (watchFloorNow b) with
  | .error _ => excuseCore f d .fault b
  | .ok p =>
    (b.modForm f (fun x => { x with notes := x.notes.withPlan p })).modMember f d (fun x => { x with
      plan := some p, arrival := none
      wrapAz := match x.wrapAz with
        | some c => some c
        | none => some p.az.target })

/-- One planned member claims its power, or counts as granted (R51). -/
def claimMember (f : FormationId) (d : DishId) (b : Blocks) : Blocks :=
  match ((b.form f).mem d).plan with
  | none => b
  | some p =>
    if p.az.moves || p.el.moves then
      (submitClaim d .fp .move p.az.moves p.el.moves
        (b.modMember f d (fun x => { x with stage := .claiming }))).1
    else b.modMember f d (fun x => { x with stage := .granted })

def checkMember (f : FormationId) (d : DishId) (b : Blocks) : Blocks :=
  match ineligible (b.snowReading d).hard (b.dish d) with
  | some c => excuseCore f d c b
  | none => b

/-- The claims of an admission and its wait (R51, R52). -/
def claimAll (f : FormationId) (b : Blocks) : Blocks :=
  let b1 := overDishes (b.form f).active (claimMember f) b
  match (b1.form f).mode with
  | .each => b1
  | .joint =>
    let wait := b.settings.admissionWait
    let b2 := b1.modForm f (fun m => { m with admission := b1.timer wait })
    if wait = 0 then b2.tell (.admissionOver f) else b2

/-- ADMITTING is entered (R51). `fresh` marks an acquisition that chooses its wrap positions anew, from
which the queue is then unwrapped (R41, R64). R51 does not say whether WAVE COUNT is 0 already while eligibility
is checked, which the answer of an order ended by this check shows (R57); the model sets it first (log
entry 52). -/
def admitPiece (f : FormationId) (fresh : Bool) (b : Blocks) : Blocks :=
  let b1 := b.modForm f (fun m => { m with state := .admitting, waveCount := 0 })
  let b2 := overDishes (b1.form f).active (checkMember f) b1
  let b3 := overDishes (b2.form f).active (planMember f) b2
  if (b3.form f).state = .admitting then
    let b4 := if fresh then unwrapQueue f b3 else b3
    advanceFormation f (claimAll f b4)
  else b3

/-! ### Taking work in hand (R50) -/

/-- A taken order becomes the work in hand (R50, R63). For an order that waited in PENDING WORK, R48 has
INCLUDED, SKIPPED, EXCUSED and ARRIVALS formed anew at the take, and R50 brings them in at the end of HALTING;
that the record keeps those of the halted work until then, so that an excusal in HALTING is of that work and is
cleared here, is the model's choice (log entry 44). -/
def takeUp (f : FormationId) (p : PendingWork) (b : Blocks) : Blocks :=
  let b1 := b.modForm f (fun m =>
    { m with
      slot := some p.slot, work := some p.order.work, target := some (p.order.skyAz, p.order.el)
      mode := p.order.mode, wrap := p.order.wrap, raster := p.order.raster
      included := p.included, skipped := p.skipped, excused := 0, notes := p.notes, pendingWork := none
      member := Vector.ofFn (fun d : Fin 12 =>
        { idleMember with wrapAz := p.wraps[d], plan := none }) })
  admitPiece f false (if p.order.work = .track then unwrapQueue f b1 else b1)

/-- HALTING ends when no dish is noted as stopping (R50, R60, R69). -/
def finishHalting (f : FormationId) (b : Blocks) : Blocks :=
  let m := b.form f
  if m.state = .halting ∧ m.stopping = 0 then
    match m.pendingWork with
    | some p => takeUp f p b
    | none =>
      if m.disbandPending then b.modForm f (fun _ => unusedFormation)
      else b.modForm f (fun x => { x with state := .idle })
  else b

/-- Whether FP owns a dish or a move held for it. -/
def Dish.worksForFp (x : Dish) : Bool := x.owner == some .fp || x.nextAction.moveOwner == some .fp

/-- One dish that works for FP is stopped and noted (R60; log entry 45). -/
def haltDish (f : FormationId) (d : DishId) (b : Blocks) : Blocks :=
  if (b.dish d).worksForFp then
    stopWork d (b.modForm f (fun m => { m with stopping := m.stopping.insert d }))
  else b

/-- The work in hand is halted; `code` answers its order (R60). WRAP STOP becomes none with it, also where the
queue is kept (log entry 40). -/
def haltWork (f : FormationId) (code : Option AnswerCode) (keepQueue : Bool) (b : Blocks) : Blocks :=
  let b1 := match code with
    | some c => answerWork f c 0 0 b
    | none => b
  let b2 := dropClaims f b1
  let b3 := if keepQueue then b2 else emptyQueue f b2
  let b4 := b3.modForm f (fun m => { m.clearWork with state := .halting, wrapStop := none, wrapFail := none })
  overDishes ((b.form f).members ||| (b.form f).included).toList (haltDish f) b4

/-- A taken order by the STATE of its formation (R50). -/
def takeWork (f : FormationId) (p : PendingWork) (b : Blocks) : Blocks :=
  let m := b.form f
  if m.state.working then
    let b1 := haltWork f (some .endedSuperseded) (p.order.work == .track) b
    finishHalting f (b1.modForm f (fun x => { x with pendingWork := some p }))
  else if m.state = .halting then
    (answerPending f .endedSuperseded 0 b).modForm f (fun x => { x with pendingWork := some p })
  else takeUp f p b

/-! ### Checks at the take (R47 to R49, R68) -/

/-- What the checks of a standing order form. -/
structure TakeResult where
  included : DishSet
  skipped : DishSet
  notes : Notes
  wraps : Vector (Option Int) 12

/-- The fields that a BAD_FIELD for a target names: azimuth and elevation (R49, R194). -/
structure TargetFields where
  az : Nat
  el : Nat

/-- NO_MEMBERS with its data (R47, 10.4). -/
def noMembers (skipped : DishSet) : Answer := ⟨.noMembers, noNotes, 0, dishSetBytes skipped⟩

/-- A planned target of a moving axis beyond a bar (R24, R49; of a STILL axis log entry 59). Which target field
BAD_FIELD names where bars stop both axes, or several members, R49 does not say; the model takes the lowest dish
first, and azimuth before elevation (log entry 25). -/
def barField (fields : TargetFields) (d : Dish) (p : PlanResult) : Option Nat :=
  if barRefused d.az p.az then some fields.az
  else if barRefused d.el p.el then some fields.el
  else none

/-- The plans of the eligible members, in ascending number (R49). -/
def planAll (b : Blocks) (o : WorkOrder) (ds : List DishId) :
    List (DishId × Except PlanFailure PlanResult) :=
  ds.map (fun d => (d, plan b.settings (b.dish d) (.sky o.skyAz o.wrap) o.el (watchFloorNow b)))

def refusedPlan (fields : TargetFields) (r : DishId × Except PlanFailure PlanResult) : Option Nat :=
  match r.2 with
  | .error .noPosition => none
  | .error .badAzimuth => some fields.az
  | .error .noCandidate => some fields.az
  | .ok _ => none

def goodPlan (r : DishId × Except PlanFailure PlanResult) : Option (DishId × PlanResult) :=
  match r.2 with
  | .ok p => some (r.1, p)
  | .error _ => none

/-- The further checks of a RASTER after its plans (R68). -/
def rasterFault (st : Settings) (r : Raster) (plans : List (DishId × PlanResult)) : Option Nat :=
  let last := (r.count : Int) - 1
  let inEl := fun e : Int => decide (st.elMin ≤ e) && decide (e ≤ 90000)
  if !inEl r.startEl then some 9
  else if !inEl (r.startEl + last * r.stepEl) then some 11
  else if plans.any (fun p => !inWrapRange st (p.2.az.target + last * r.stepAz)) then some 10
  else none

/-- Eligibility and plans at the take (R48, R49, R68). -/
def planTake (b : Blocks) (m : Formation) (o : WorkOrder) (fields : TargetFields) :
    Except Answer TakeResult :=
  let eligible := m.members.toList.filter (fun d => (ineligible (b.snowReading d).hard (b.dish d)).isNone)
  if eligible.isEmpty then .error (noMembers m.members)
  else
    let results := planAll b o eligible
    match results.findSome? (refusedPlan fields) with
    | some n => .error (badField n)
    | none =>
      let plans := results.filterMap goodPlan
      let included := DishSet.ofList (plans.map Prod.fst)
      let skipped := m.members &&& ~~~included
      if plans.isEmpty then .error (noMembers skipped)
      else
        match plans.findSome? (fun p => barField fields (b.dish p.1) p.2) with
        | some n => .error (badField n)
        | none =>
          match o.raster.bind (fun r => rasterFault b.settings r plans) with
          | some n => .error (badField n)
          | none =>
            .ok { included := included, skipped := skipped
                  notes := plans.foldl (fun n p => n.withPlan p.2)
                    { noNotes with skipped := skipped != 0 }
                  wraps := plans.foldl (fun w p => w.set p.1 (some p.2.az.target))
                    (Vector.replicate 12 none) }

/-- ENDED_STOW at the take (R47). The order has no work whose data it could give: the model answers with
empty sets, no wave, no INDEX and a spread of 0 in the layout of a standing end (10.4; log entry 11). -/
def endedStowAtTake : Answer :=
  ⟨.endedStow, noNotes, 2, dishSetBytes 0 ++ dishSetBytes 0 ++ lowBytes 1 0 ++ optBytes 1 none ++ lowBytes 4 0⟩

/-- The checks of R47 before eligibility. -/
def workRefused (b : Blocks) (m : Formation) (badParam : Option Nat) (isTrack : Bool) : Option Answer :=
  if m.state = .unused then some (plainAnswer .noFormation)
  else
    match badParam with
    | some n => some (badField n)
    | none =>
      if b.site.state = .provisional then some (plainAnswer .provisional)
      else if b.wind.state = .stowing ∨ b.wind.state = .stowed ∨ b.wind.state = .releaseWait then
        some endedStowAtTake
      else if b.wind.dataKnown = false ∧ b.wind.reading.fallback = .hold then some (plainAnswer .windUnknown)
      else if isTrack ∧ b.clock.valid = false then some (plainAnswer .timeUnset)
      else if isTrack ∧ m.queue.all (fun w => decide (w.time.toNat ≤ b.clock.time.toNat)) then
        some (plainAnswer .stale)
      else none

/-- A standing order of FP is checked and taken; true where it is taken (R47, R50). -/
def takeStanding (s : SlotId) (f : FormationId) (o : WorkOrder) (badParam : Option Nat)
    (fields : TargetFields) (b : Blocks) : Blocks × Bool :=
  match workRefused b (b.form f) badParam (o.work == .track) with
  | some a => (b.answer s a, false)
  | none =>
    match planTake b (b.form f) o fields with
    | .error a => (b.answer s a, false)
    | .ok r =>
      let b1 := if o.work = .track then
          b.modForm f (fun m => { m with queue := pruneQueue b.clock.time.toNat m.queue })
        else b
      (takeWork f ⟨s, o, r.included, r.skipped, r.notes, r.wraps⟩ b1, true)

/-- The first failing parameter in field order (R47). -/
def firstBad (checks : List (Bool × Nat)) : Option Nat :=
  (checks.find? (fun c => !c.1)).map Prod.snd

/-- SLEW (R47). -/
def takeSlew (s : SlotId) (f : FormationId) (skyAz el : Word32) (wrap mode : Word) (b : Blocks) :
    Blocks × Bool :=
  let bad := firstBad [(decide (skyAz.toNat ≤ 359999), 8), ((readWrap wrap).isSome, 10),
    ((readMode mode).isSome, 11)]
  takeStanding s f
    { work := .slew, skyAz := skyAz.toNat, el := el.toInt, wrap := (readWrap wrap).getD .nearest
      mode := (readMode mode).getD .joint, raster := none } bad ⟨8, 9⟩ b

/-- TRACK: the acquisition target is the head of the queue once pruned (R49, R63). -/
def takeTrack (s : SlotId) (f : FormationId) (wrap : Word) (b : Blocks) : Blocks × Bool :=
  let head := (pruneQueue b.clock.time.toNat (b.form f).queue).head?
  takeStanding s f
    { work := .track, skyAz := (head.map Waypoint.skyAz).getD 0, el := (head.map Waypoint.el).getD 0
      wrap := (readWrap wrap).getD .nearest, mode := .joint, raster := none }
    (firstBad [((readWrap wrap).isSome, 8)]) ⟨10, 11⟩ b

/-- RASTER (R47, R68). -/
def takeRaster (s : SlotId) (f : FormationId) (startAz startEl stepAz stepEl : Word32) (count : Word)
    (dwell : Word32) (wrap : Word) (b : Blocks) : Blocks × Bool :=
  let bad := firstBad
    [(decide (startAz.toNat ≤ 359999), 8),
     (decide (stepAz.toInt.natAbs ≤ 540000), 10), (decide (stepEl.toInt.natAbs ≤ 90000), 11),
     (decide (1 ≤ count.toNat) && decide (count.toNat ≤ 64), 12),
     (decide (dwell.toNat ≤ 600000), 13), ((readWrap wrap).isSome, 14)]
  takeStanding s f
    { work := .raster, skyAz := startAz.toNat, el := startEl.toInt, wrap := (readWrap wrap).getD .nearest
      mode := .joint
      raster := some ⟨startAz.toNat, startEl.toInt, stepAz.toInt, stepEl.toInt, count.toNat, 0, dwell.toNat⟩ }
    bad ⟨8, 9⟩ b

/-! ### FORM, DISBAND, HALT (R46, R60) -/

/-- A DISH SET field that is empty or names a dish above 11. -/
def badDishSet (w : Word) : Bool := w == 0 || decide (4096 ≤ w.toNat)

def setFormation (v : Option FormationId) (d : DishId) (b : Blocks) : Blocks :=
  b.modDish d (fun x => { x with formation := v })

/-- MEMBERS takes a new value, and the FORMATION fields follow (R44, R46). -/
def setMembers (f : FormationId) (new : DishSet) (b : Blocks) : Blocks :=
  let old := (b.form f).members
  let b1 := overDishes (old &&& ~~~new).toList (setFormation none) b
  (overDishes new.toList (setFormation (some f)) b1).modForm f (fun m => { m with members := new })

/-- The check of FORM that fails first (R46). -/
def formRefused (f : FormationId) (dishes : Word) (b : Blocks) : Option Answer :=
  let ds := (dishBits dishes).toList
  if badDishSet dishes then some (badField 6)
  else if (b.form f).state.busy then some (plainAnswer .formationBusy)
  else if ds.any (fun d => (b.dish d).formation.isSome && (b.dish d).formation != some f) then
    some (plainAnswer .dishBusy)
  else if ds.any (fun d => (b.dish d).task == .shed) then some (plainAnswer .shedding)
  else none

/-- FORM (R46). -/
def takeForm (s : SlotId) (f : FormationId) (dishes : Word) (b : Blocks) : Blocks :=
  match formRefused f dishes b with
  | some a => b.answer s a
  | none =>
    ((setMembers f (dishBits dishes) b).modForm f (fun m => { m with state := .idle })).answer s
      (plainAnswer .done)

/-- DISBAND (R46). -/
def takeDisband (s : SlotId) (f : FormationId) (b : Blocks) : Blocks :=
  match (b.form f).state with
  | .unused => b.answer s (plainAnswer .noFormation)
  | .idle => ((setMembers f 0 b).modForm f (fun _ => unusedFormation)).answer s (plainAnswer .done)
  | .admitting | .moving | .dwelling | .tracking | .starved | .halting =>
    b.answer s (plainAnswer .formationBusy)

/-- HALT (R60). -/
def takeHalt (s : SlotId) (f : FormationId) (b : Blocks) : Blocks :=
  match (b.form f).state with
  | .unused => b.answer s (plainAnswer .noFormation)
  | .idle => (emptyQueue f b).answer s (plainAnswer .done)
  | .halting => (answerPending f .endedHalt 0 b).answer s (plainAnswer .done)
  | .admitting | .moving | .dwelling | .tracking | .starved =>
    finishHalting f ((haltWork f (some .endedHalt) false b).answer s (plainAnswer .done))

/-! ### TRACK_LOAD (R62) -/

/-- The waypoints that the count names, as loaded: elevations clamped (R62). -/
def loadedWaypoint (st : Settings) (p : RawWaypoint) : Waypoint :=
  { time := p.time, skyAz := p.skyAz.toNat, el := min 90000 (max st.elMin p.el.toInt)
    unwrapped := Vector.replicate 12 none }

def loadClamps (st : Settings) (p : RawWaypoint) : Bool :=
  decide (p.el.toInt < st.elMin) || decide (90000 < p.el.toInt)

/-- Times strictly increase, the first later than `last`. -/
def timesRise : Option Nat → List RawWaypoint → Bool
  | _, [] => true
  | last, p :: ps => (last.all (fun t => decide (t < p.time.toNat))) && timesRise (some p.time.toNat) ps

/-- The first failing field of a load: the count, or a sky azimuth (R62, R194). -/
def loadField (count : Nat) (ps : List RawWaypoint) : Option Nat :=
  if count = 0 ∨ 6 < count then some 8
  else (ps.findIdx? (fun p => decide (359999 < p.skyAz.toNat))).map (fun k => 10 + 3 * k)

def loadRefused (m : Formation) (count : Nat) (ps : List RawWaypoint) (c : Clock) : Option Answer :=
  if m.state = .unused then some (plainAnswer .noFormation)
  else
    match loadField count ps with
    | some n => some (badField n)
    | none =>
      if c.valid = false then some (plainAnswer .timeUnset)
      else if timesRise (m.queue.getLast?.map (fun w => w.time.toNat)) ps = false then
        some (plainAnswer .timeOrder)
      else if ps.getLast?.all (fun p => decide (p.time.toNat ≤ c.time.toNat)) then some (plainAnswer .stale)
      else if 32 - m.queue.length < ps.length then
        some ⟨.queueFull, noNotes, 0, lowBytes 1 (32 - m.queue.length)⟩
      else none

/-- New waypoints join the queue; under a TRACK without a wrap stop they are unwrapped (R62, R65). -/
def joinWaypoints (f : FormationId) (ws : List Waypoint) (b : Blocks) : Blocks :=
  b.modForm f (fun m =>
    match m.work, m.wrapStop, m.queue.getLast? with
    | some .track, none, some last =>
      let r := unwrapFrom b.settings m.active last.unwrapped ws
      ({ m with queue := m.queue ++ r.1 }).setWrapStop r.2
    | _, _, _ => { m with queue := m.queue ++ ws })

/-- A load in STARVED: the old waypoint goes, and a fresh acquisition begins (R64). -/
def reacquire (f : FormationId) (ws : List Waypoint) (b : Blocks) : Blocks :=
  let b1 := b.modForm f (fun m =>
    { (m.mapMembers (fun x => { x with wrapAz := none })) with
      starve := none, queue := ws, wrapStop := none, wrapFail := none
      target := ws.head?.map (fun w => (w.skyAz, w.el)) })
  admitPiece f true b1

/-- TRACK_LOAD (R62, R64). -/
def takeTrackLoad (s : SlotId) (f : FormationId) (count : Word) (points : Vector RawWaypoint 6)
    (b : Blocks) : Blocks :=
  let ps := points.toList.take count.toNat
  match loadRefused (b.form f) count.toNat ps b.clock with
  | some a => b.answer s a
  | none =>
    let ws := ps.map (loadedWaypoint b.settings)
    let a : Answer := ⟨.done, { noNotes with clamped := ps.any (loadClamps b.settings) }, 0, []⟩
    if (b.form f).state = .starved then reacquire f ws (b.answer s a)
    else (joinWaypoints f ws b).answer s a

/-! ### Track steps (R64 to R66) -/

/-- The waypoints that the pointing is taken from: up to WRAP STOP while it is set (R65). -/
def Formation.pointQueue (m : Formation) : List Waypoint :=
  match m.wrapStop with
  | some t => m.queue.filter (fun w => decide (w.time.toNat ≤ t.toNat))
  | none => m.queue

/-- The pointing of a member, raised to the floor in WATCH, and whether it was raised (R42, R43). -/
def memberPointing (b : Blocks) (m : Formation) (d : DishId) : Option (Int × Int × Bool) :=
  let points := m.pointQueue.map (fun w => (w.time.toNat, (w.unwrapped[d]).getD 0, w.el))
  (pointing b.clock.time.toNat points).map (fun p =>
    let e := raiseToFloor (watchFloorNow b) p.2
    (p.1, e.1, e.2))

/-- The lag of an axis; 0 while the encoder is unknown (R66). -/
def axisLag (x : Axis) (p : Int) : Nat :=
  match x.encoder with
  | some e => (p - e).natAbs
  | none => 0

/-- The lag watch of a member (R66). -/
def watchLag (limit lag : Nat) (deadline : Timer) (m : Member) : Member :=
  let m1 := { m with lastLag := lag }
  if limit < lag then
    if m.lagOpen then m1 else { m1 with lagOpen := true, lagTimer := deadline, lagWritten := false }
  else if m.lagOpen then { m1 with lagOpen := false, lagTimer := none } else m1

/-- One member of a track step: its targets and its lag (R64, R66). -/
def stepMember (f : FormationId) (d : DishId) (b : Blocks) : Blocks :=
  let m := b.form f
  match memberPointing b m d with
  | none => b
  | some (az, el, raised) =>
    let b1 := if raised then b.modForm f (fun x => { x with notes := { x.notes with clamped := true } }) else b
    let b2 := if (m.mem d).stage = .following then giveTargets d az el b1 else b1
    let x := b2.dish d
    let lag := max (axisLag x.az az) (axisLag x.el el)
    b2.modMember f d (watchLag b2.settings.lagLimit lag (b2.timer 1000))

/-- The follows of the formation end, and follow claims still queued are withdrawn (R61, R64, R65). -/
def endFollows (f : FormationId) (b : Blocks) : Blocks :=
  let m := b.form f
  overDishes (m.active.filter (fun d => (m.mem d).stage == .following)) endFollow (dropClaims f b)

/-- STARVED is entered (R64). -/
def enterStarved (f : FormationId) (last : Waypoint) (b : Blocks) : Blocks :=
  let b1 := endFollows f b
  let b2 := b1.modForm f (fun m =>
    { m.rest with state := .starved, queue := [last], starve := b1.timer b1.settings.starvePatience })
  b2.trail (.trackStarved f last.time)

/-- The end of a track at its wrap stop (R65). -/
def endAtWrap (f : FormationId) (b : Blocks) : Blocks :=
  let m := b.form f
  let b1 := endFollows f b
  let b2 := match m.wrapFail with
    | some (d, t, v) => b1.trail (.wrapLimit f d t v)
    | none => b1
  goIdle f (emptyQueue f (releaseMembers f (answerWork f .endedWrap 0 0 b2)))

/-- The work of a track step (R64). -/
def trackStepWork (f : FormationId) (b : Blocks) : Blocks :=
  let now := b.clock.time.toNat
  let b1 := b.modForm f (fun m => { m with queue := pruneQueue now m.queue })
  let m := b1.form f
  if m.wrapStop.any (fun t => decide (t.toNat < now)) then endAtWrap f b1
  else
    match m.queue.getLast? with
    | none => b1
    | some last =>
      if last.time.toNat < now then enterStarved f last b1
      else overDishes m.active (stepMember f) b1

/-- The track step event, every 10 ms in TRACKING (R64). -/
def onTrackStep (f : FormationId) (b : Blocks) : Blocks :=
  b.expire (b.form f).trackStep (fun x =>
    trackStepWork f (x.modForm f (fun m => { m with trackStep := x.timer 10 })))

/-- A granted follow claim: two FOLLOW profiles at the acquisition plan's derated figures (R63), bounded by
the soft limits in force as FP forms them (R3; log entry 18). -/
def followAxis (x : Axis) (p : AxisMove) : AxisMove :=
  { kind := .follow, stay := false, start := x.position, target := x.position, v := p.vDer, a := p.aDer
    duration := 0, vDer := p.vDer, aDer := p.aDer, rateSetting := p.rateSetting
    bounds := some (x.softLow, x.softHigh) }

def handFollow (f : FormationId) (d : DishId) (b : Blocks) : Blocks :=
  match ((b.form f).mem d).plan with
  | none => b
  | some p =>
    let x := b.dish d
    handMember f d (formationMove .atReady (followAxis x.az p.az) (followAxis x.el p.el))
      (b.modMember f d (fun y => { y with stage := .following }))

/-! ### Timers (R52, R64, R66, R68) -/

/-- The admission wait is over (R52). -/
def onAdmissionOver (f : FormationId) (b : Blocks) : Blocks :=
  if (b.form f).state = .admitting ∧ (b.form f).admission.isSome then
    advanceFormation f (b.modForm f (fun m => { m with admission := none }))
  else b

/-- The dwell is over: the next leg, or the end of the RASTER (R68). -/
def onDwellOver (f : FormationId) (b : Blocks) : Blocks :=
  let m := b.form f
  if m.state = .dwelling ∧ m.dwell.isSome then
    let b1 := b.modForm f (fun x => { x with dwell := none })
    match m.raster with
    | none => b1
    | some r =>
      if r.index + 1 < r.count then
        admitPiece f false (b1.modForm f (fun x => { x with raster := some { r with index := r.index + 1 } }))
      else finishWork f b1
  else b

/-- The starve patience is over (R64). -/
def onStarveOver (f : FormationId) (b : Blocks) : Blocks :=
  goIdle f (emptyQueue f (releaseMembers f (answerWork f .endedStarved 0 0 b)))

/-- A lag timer is over (R66). -/
def onLagOver (f : FormationId) (d : DishId) (b : Blocks) : Blocks :=
  (b.trail (.trackLag f d ((b.form f).mem d).lastLag)).modMember f d
    (fun m => { m with lagTimer := none, lagWritten := true })

/-! ### Messages (R52, R56, R60, R69) -/

/-- An excusal and what it brings about (R53, R55 to R57, R60). -/
def excuse (f : FormationId) (d : DishId) (cause : ExcusalCause) (b : Blocks) : Blocks :=
  if excusable (b.form f) d then finishHalting f (advanceFormation f (excuseCore f d cause b)) else b

def excuseEverywhere (d : DishId) (cause : ExcusalCause) (b : Blocks) : Blocks :=
  handKept d (overFormations (fun f x => excuse f d cause x) b)

/-- The formation that a report on a dish is for: the one whose halt holds it, or else its own (R69). -/
def reportFormation (b : Blocks) (d : DishId) : Option FormationId :=
  match allFormations.find? (fun f => (b.form f).stopping.has d) with
  | some f => some f
  | none => (b.dish d).formation

/-- The dish has stopped, faulted or been preempted: no halt holds it longer (R60, R69). -/
def leaveStopping (d : DishId) (b : Blocks) : Blocks :=
  handKept d (overFormations (fun f x =>
    if (x.form f).stopping.has d then
      finishHalting f (x.modForm f (fun m => { m with stopping := m.stopping.erase d }))
    else x) b)

/-- Whether a member's move is in the hands of the dish drives. -/
def Member.handedOver (m : Member) : Bool :=
  match m.stage with
  | .handed _ => m.kept.isNone
  | .ready _ => true
  | .running => m.kept.isNone
  | .following => m.kept.isNone
  | .arrived => true
  | .out => false
  | .claiming => false
  | .granted => false
  | .followClaiming => false

/-- Whether newer work of FP is already under way on the dish. -/
def inNewWork (b : Blocks) (d : DishId) : Bool :=
  allFormations.any (fun f => (b.form f).active.contains d && ((b.form f).mem d).handedOver)

def onFpReady (f : FormationId) (d : DishId) (b : Blocks) : Blocks :=
  match ((b.form f).mem d).stage with
  | .handed n => advanceFormation f (b.modMember f d (fun m => { m with stage := .ready n }))
  | .out | .claiming | .granted | .ready _ | .running | .arrived | .followClaiming | .following => b

/-- ARRIVED: the instant is kept; before the start of a wave it counts as readiness (R53, R55). -/
def onFpArrived (f : FormationId) (d : DishId) (t : ArrayTime) (b : Blocks) : Blocks :=
  match ((b.form f).mem d).stage with
  | .handed n =>
    advanceFormation f (b.modMember f d (fun m => { m with stage := .ready n, arrival := some t }))
  | .ready _ => advanceFormation f (b.modMember f d (fun m => { m with arrival := some t }))
  | .running =>
    advanceFormation f (b.modMember f d (fun m => { m with stage := .arrived, arrival := some t }))
  | .out | .claiming | .granted | .arrived | .followClaiming | .following => b

/-- The cause of an excusal by PREEMPTED, from the block that took the dish (R56). -/
def preemptCause : Owner → Option ExcusalCause
  | .lt => some .lock
  | .ww => some .stow
  | .fp => none
  | .mc => none

/-- The cause of an excusal by a refused move (R56). -/
def refusalCause : MoveRefusal → ExcusalCause
  | .locked => .lock
  | .stowing => .stow
  | .pinned => .stow
  | .faulted => .fault
  | .encoder => .fault
  | .range => .fault
  | .barred => .fault
  | .noGrant => .fault

/-- FAULTED excuses the dish in the formation that the report is for, and in the dish's own formation,
which may hold a claim or a move for it (R21, R56, R69). -/
def onFpFaulted (f : FormationId) (d : DishId) (b : Blocks) : Blocks :=
  let b1 := excuse f d .fault b
  leaveStopping d (match (b.dish d).formation with
    | some g => excuse g d .fault b1
    | none => b1)

/-- A move that the dish drives have refused is not handed over: a grant held for it goes back at the excusal
(R3, R56). -/
def notHanded (f : FormationId) (d : DishId) (b : Blocks) : Blocks :=
  if excusable (b.form f) d then b.modMember f d (fun m => { m with stage := .granted }) else b

def onFpReport (d : DishId) (r : Report) (b : Blocks) : Blocks :=
  match reportFormation b d with
  | none => b
  | some f =>
    match r with
    | .ready => onFpReady f d b
    | .arrived t => onFpArrived f d t b
    | .preempted taker =>
      leaveStopping d (match preemptCause taker with
        | some c => excuse f d c b
        | none => b)
    | .faulted => onFpFaulted f d b
    | .refused x => excuse f d (refusalCause x) (notHanded f d b)
    | .stopped | .stowed | .unpinned | .unpinRefused _ => b

/-- STOPPED: FP releases the dish, unless newer work of FP has it (R56, R60). -/
def onFpStopped (d : DishId) (b : Blocks) : Blocks :=
  leaveStopping d (if inNewWork b d then b else releaseDish .fp d b)

/-- A grant reaches FP: the member counts as granted, a following member is handed its move; a grant that
no member waits for is returned (R52, R54, R63). -/
def onFpGranted (d : DishId) (b : Blocks) : Blocks :=
  match (b.dish d).formation with
  | none => holderReturn .fp d b
  | some f =>
    let held := match b.fa.grants[d] with
      | some g => g.holder == .fp && g.use == .reserved
      | none => false
    match ((b.form f).mem d).stage, held with
    | .claiming, true => b.modMember f d (fun m => { m with stage := .granted })
    | .followClaiming, true => handFollow f d b
    | .handed _, _ => b
    | .running, _ => b
    | .following, _ => b
    | .granted, _ => b
    | .ready _, _ => b
    | _, _ => holderReturn .fp d b

/-- The grants of one grant event reach FP together (R52). -/
def onFpGrants (ds : List DishId) (b : Blocks) : Blocks :=
  overFormations advanceFormation (overDishes ds onFpGranted b)

/-- FA took the grant or the claim of a member away (R56). -/
def onFpGrantGone (d : DishId) (b : Blocks) : Blocks :=
  let x := b.dish d
  excuseEverywhere d (if x.lock.motionLocked || x.lock.stopPending then .lock else .fault) b

/-! ### Entry into STOWING (R59) -/

/-- One formation at the entry into STOWING (R59). R59 does not name STOPPING DISHES; that a HALTING formation
that goes IDLE has none left is the model's choice (log entry 40). -/
def stowFormation (f : FormationId) (b : Blocks) : Blocks :=
  let m := b.form f
  if m.state.busy then
    let b1 := answerPending f .endedStow 2 (answerWork f .endedStow 2 0 b)
    let b2 := endFollows f b1
    let b3 := overDishes (m.members ||| m.included ||| m.stopping).toList (releaseDish .fp) b2
    if m.state = .halting ∧ m.disbandPending then b3.modForm f (fun _ => unusedFormation)
    else (goIdle f (emptyQueue f b3)).modForm f (fun x => { x with stopping := 0 })
  else b

/-- The formations at the entry into STOWING; then every dish that FP still owns is released, as one that was
excused and is stopping while its formation is IDLE (R56, R57, R59). -/
def stowFormations (b : Blocks) : Blocks :=
  overDishes allDishes (releaseDish .fp) (overFormations stowFormation b)

/-! ### Cuts, abandonments, link reset (R61, R69, R178) -/

/-- The order of a slot ends without its work done: `code` where it is answered (R61, R178). -/
def endStanding (s : SlotId) (code : Option AnswerCode) (f : FormationId) (b : Blocks) : Blocks :=
  let m := b.form f
  if m.slot = some s then finishHalting f (haltWork f code false b)
  else if m.pendingWork.any (fun p => p.slot == s) then
    match code with
    | some c => answerPending f c 0 b
    | none => b.modForm f (fun x => { x with pendingWork := none })
  else b

def endFormationOrder (s : SlotId) (code : Option AnswerCode) (b : Blocks) : Blocks :=
  overFormations (endStanding s code) b

/-- A link reset for one formation; its members' claims and RESERVED grants go (R69, R88). -/
def resetFormation (f : FormationId) (b : Blocks) : Blocks :=
  let b1 := b.modForm f (fun m => { m with pendingWork := none })
  let b2 := if (b1.form f).state.working then haltWork f none false b1 else b1
  let b3 := overDishes (b2.form f).members.toList (fun d x => holderReturn .fp d (withdrawClaim .fp d x)) b2
  let b4 := emptyQueue f (setMembers f 0 (b3.modForm f (fun m => { m with disbandPending := true })))
  if (b4.form f).state = .halting then finishHalting f b4 else b4.modForm f (fun _ => unusedFormation)

def resetFormations (b : Blocks) : Blocks := overFormations resetFormation b

/-! ### Change of time (R192) -/

def shiftArrivals (change : ArrayTime) (b : Blocks) : Blocks :=
  { b with forms := b.forms.map (Formation.mapMembers (fun m =>
      { m with arrival := m.arrival.map (fun t => t + change) })) }

end Sys2Proof.Machine
end

