-- ==== Sys2Proof/Machine/Site.lean ====
section
/-! DEFINITION. The site store (9.1 to 9.5), array time (9.6) and the presence watch (8.6). -/

namespace Sys2Proof.Machine

/-! ### Settings state (R186) -/

/-- The settings state moves to a new one, with its entry; `always` sets the cause even without a
change (R186). -/
def moveSettings (ev : SettingsEvent) (new : SettingsState) (fail : Option CommitFailure) (always : Bool)
    (b : Blocks) : Blocks :=
  let old := b.site.state
  let b1 := ({ b with site := { b.site with state := new } }).trail (.settings ev old new b.site.crc fail)
  if always || old != new then b1.cause .settings else b1

def crcBytes (c : Word) : List Byte := lowBytes 2 c.toNat

/-! ### ADOPT_SITE (R187, R188) -/

/-- What refuses ADOPT_SITE, from the copy of the staging page (R187). -/
def adoptRefused (staging : List Byte) (b : Blocks) : Option Answer :=
  if b.site.commit.isSome then some (plainAnswer .busy)
  else
    match stagingFault staging with
    | some (n, v) => some ⟨.badField, noNotes, n, signedBytes 4 v⟩
    | none =>
      if budgetFits (recordSettings staging) b.fa then none else some (plainAnswer .budgetInUse)

/-- The copied values come into force (R186 to R188). No rule orders the trail entries of one adoption; the grant
event, with a BUDGET_HELD, comes before the SETTINGS entry (log entry 58). -/
def adoptSettings (staging : List Byte) (b : Blocks) : Blocks :=
  let st := recordSettings staging
  let b1 := { b with site := { b.site with working := st, crc := settingsCrc st } }
  moveSettings .adopt .adopted none false (adoptBudget (adoptLimits b1))

/-- ADOPT_SITE (R187). -/
def takeAdopt (s : SlotId) (staging : List Byte) (b : Blocks) : Blocks :=
  match adoptRefused staging b with
  | some a => b.answer s a
  | none =>
    let b1 := adoptSettings staging b
    b1.answer s ⟨.done, noNotes, 0, crcBytes b1.site.crc⟩

/-! ### COMMIT_SITE (R189, R190) -/

/-- COMMIT_SITE; true where it is taken (R189). -/
def takeCommit (s : SlotId) (b : Blocks) : Blocks × Bool :=
  match b.site.commit with
  | some _ => (b.answer s (plainAnswer .busy), false)
  | none =>
    ({ b with site := { b.site with
        commit := some ⟨siteRecord b.site.working, some s, b.clock.count + 1000⟩ } }, true)

/-- The free contents of the NV RECORD after its `n`-th failed or unfinished write (R189, R190). -/
def freeRecord (n : Nat) : List Byte := (List.range 1024).map (Config.freeNvByte n)

/-- The NV RECORD is in an unknown condition (R189, R190). -/
def SiteStore.spoil (x : SiteStore) : SiteStore :=
  { x with nv := freeRecord x.failures, failures := x.failures + 1, commit := none }

def answerCommit (slot : Option SlotId) (a : Answer) (b : Blocks) : Blocks :=
  match slot with
  | some s => b.answer s a
  | none => b

/-- The write is verified (R189). -/
def commitDone (c : Commit) (b : Blocks) : Blocks :=
  let b1 := { b with site := { b.site with nv := c.snapshot, commit := none } }
  answerCommit c.slot ⟨.done, noNotes, 0, c.snapshot.drop 1022⟩
    (moveSettings .commitDone .stored none true b1)

/-- The state after a failed write (R186). -/
def failedState : SettingsState → SettingsState
  | .provisional => .provisional
  | .adopted => .adopted
  | .stored => .adopted

/-- The write has failed (R189); the detail word names the kind (10.4). -/
def commitFailed (c : Commit) (k : CommitFailure) (b : Blocks) : Blocks :=
  let b1 := { b with site := b.site.spoil }
  answerCommit c.slot ⟨.endedFault, noNotes, if k = .verify then 7 else 8, []⟩
    (moveSettings .commitFailed (failedState b.site.state) (some k) true b1)

/-- The storage's completion event of a write, with what SS reads back. A write is named by the count of failed
or unfinished writes before it, so that the completion of a write that ended in TIMEOUT is told from that of a
later one, and ignored (R189; log entry 41). -/
def onCompletion (e : NvCompletion) (b : Blocks) : Blocks :=
  match b.site.commit with
  | none => b
  | some c =>
    if e.write ≠ b.site.failures then b
    else if e.readBack = c.snapshot then commitDone c b
    else commitFailed c .verify b

/-- The completion timer expires (R189). -/
def onCommitTimer (b : Blocks) : Blocks :=
  match b.site.commit with
  | none => b
  | some c => commitFailed c .timeout (b.runTo c.timer)

/-- A held COMMIT_SITE is cut or abandoned: the write runs on (R190). -/
def endCommitOrder (s : SlotId) (code : Option AnswerCode) (b : Blocks) : Blocks :=
  match b.site.commit with
  | none => b
  | some c =>
    if c.slot = some s then
      let b1 := { b with site := { b.site with commit := some { c with slot := none } } }
      match code with
      | some x => b1.answer s (plainAnswer x)
      | none => b1
    else b

/-! ### Array time (R191, R192) -/

/-- A change of array time; AC republishes it in the summary (R192). -/
def changeTime (adjust : Bool) (new : ArrayTime) (b : Blocks) : Blocks :=
  let old := b.clock
  let change := new - old.time
  let b1 := { b with clock := { b.clock with time := new, valid := true } }
  ((shiftArrivals change (shiftProfiles change b1)).trail (.timeSet adjust old.time old.valid new)).publish .common

def timeBytes (t : ArrayTime) : List Byte := lowBytes 6 t.toNat

/-- SET_TIME (R191). The answer gives the old VALID as one byte, 1 for true (DEDUCED, log entry 43). -/
def takeSetTime (s : SlotId) (t : ArrayTime) (b : Blocks) : Blocks :=
  if allFormations.any (fun f => (b.form f).state == .tracking || (b.form f).state == .starved) then
    b.answer s (plainAnswer .trackActive)
  else
    (changeTime false t b).answer s
      ⟨.done, noNotes, 0, timeBytes b.clock.time ++ lowBytes 1 (bit b.clock.valid)⟩

/-- ADJUST_TIME (R192); the answer as SET_TIME's. -/
def takeAdjustTime (s : SlotId) (offset : Word32) (b : Blocks) : Blocks :=
  let o := offset.toInt
  if 1000 < o.natAbs then b.answer s (badField 8)
  else if b.clock.valid = false then b.answer s (plainAnswer .timeUnset)
  else
    let old := (b.clock.time.toNat : Int)
    let new := max 0 (old + o)
    (changeTime true (BitVec.ofInt 48 new) b).answer s
      ⟨.done, { noNotes with clamped := decide (old + o < 0) }, 0,
        timeBytes b.clock.time ++ lowBytes 1 (bit b.clock.valid) ++ zeros 1 ++ signedBytes 4 (new - old)⟩

/-! ### The presence watch (R182) -/

/-- A change of attended state (R182). -/
def changePresence (new : Attended) (b : Blocks) : Blocks :=
  let b1 := { b with presence := { b.presence with attended := new } }
  (b1.trail (.presence new b1.presence.last)).cause .presence

/-- The presence check, with the word read (R182). -/
def checkPresence (word : Word) (b : Blocks) : Blocks :=
  if word ≠ b.presence.last then
    let b1 := { b with presence := { b.presence with last := word, unchanged := 0 } }
    if b.presence.attended = .unattended then changePresence .attended b1 else b1
  else
    let n := b.presence.unchanged + 1000
    let b1 := { b with presence := { b.presence with unchanged := n } }
    if b.presence.attended = .attended ∧ 1000 * b.settings.presenceTimeout ≤ n then
      changePresence .unattended b1
    else b1

end Sys2Proof.Machine
end

