-- ==== Sys2Proof/Machine/Wind.lean ====
section
/-! DEFINITION. The wind watch (chapter 5). -/

namespace Sys2Proof.Machine

/-! ### Second values, gust and mean (R97, R98) -/

/-- The line mean of a contributing line (R97). -/
def lineMean (x : Line) : Option Nat :=
  if x.state = .silent ∨ x.secondCount = 0 then none else some (x.secondSum / x.secondCount)

/-- The line whose mean is largest, the lower-numbered of two, with its mean (R97). -/
def bestLine (b : Blocks) : Option (LineId × Nat) :=
  allLines.foldl (fun best l =>
    match lineMean (b.line l), best with
    | none, _ => best
    | some m, none => some (l, m)
    | some m, some (k, n) => if n < m then some (l, m) else some (k, n)) none

/-- The present values of a list divided by their number, truncated; absent where none is (R98). -/
def presentMean (l : List (Option Nat)) : Option Nat :=
  match l.filterMap id with
  | [] => none
  | v :: vs => some ((v :: vs).sum / (v :: vs).length)

def lastEntries (n : Nat) (l : List (Option Nat)) : List (Option Nat) := l.drop (l.length - n)

/-- The second value joins SECOND LIST, and GUST and MEAN are recomputed (R97, R98). -/
def takeSecond (b : Blocks) : Blocks :=
  let best := bestLine b
  let list := lastEntries 600 (b.wind.seconds ++ [best.map Prod.snd])
  let dir := best.bind (fun p => (b.line p.1).lastGood.map Frame.direction)
  let b1 := b.modWind (fun w => { w with
    seconds := list, gust := presentMean (lastEntries 3 list), mean := presentMean list, direction := dir })
  { b1 with lines := b1.lines.map (fun x => { x with secondSum := 0, secondCount := 0 }) }

/-- The threshold set, the fallback and auto release as they stand (R100). -/
def readSettings (b : Blocks) : Blocks :=
  let st := b.settings
  b.modWind (fun w => { w with reading :=
    ⟨b.presence.attended, st.thresholds b.presence.attended, st.fallback, st.autoRelease⟩ })

/-! ### Comparisons (R101) -/

/-- A comparison with an absent value is not met (R101). -/
def atLeast (v : Option Nat) (n : Nat) : Bool := v.any (fun x => decide (n ≤ x))

def under (v : Option Nat) (n : Nat) : Bool := v.any (fun x => decide (x < n))

def WindWatch.set (w : WindWatch) : ThresholdSet := w.reading.thresholds

/-- DATA FLAG UNKNOWN with fallback STOW (R101). -/
def WindWatch.dataTrigger (w : WindWatch) : Bool := !w.dataKnown && w.reading.fallback == .stow

/-- A stow trigger, with what the entry names for it (R101, R105). -/
def stowTrigger (w : WindWatch) : Option WindTrigger :=
  if atLeast w.gust w.set.stowGust then some .gust
  else if atLeast w.mean w.set.stowMean then some .mean
  else if w.dataTrigger then some .data
  else none

def watchTrigger (w : WindWatch) : Option WindTrigger :=
  if atLeast w.gust w.set.watchGust then some .gust
  else if atLeast w.mean w.set.watchMean then some .mean
  else none

def calmAgain (w : WindWatch) : Bool :=
  under w.mean (w.set.watchMean - w.set.hysteresis) && under w.gust (w.set.watchGust - w.set.hysteresis)

def releaseMet (w : WindWatch) : Bool := under w.gust w.set.releaseGust && under w.mean w.set.releaseMean

/-- The states whose entry or exit sets the WIND cause (R105). -/
def WindState.stowing' (s : WindState) : Bool := s == .stowing || s == .stowed || s == .releaseWait

/-- A change of WIND STATE with its entry, its republication of the summary and its cause (R105, R168). -/
def changeWind (new : WindState) (t : WindTrigger) (b : Blocks) : Blocks :=
  let w := b.wind
  let b1 := ((b.modWind (fun x => { x with state := new })).trail
    (.windState w.state new w.gust w.mean w.reading.set t)).publish .common
  if w.state.stowing' || new.stowing' then b1.cause .wind else b1

/-! ### Blocking (R107, R108, R114) -/

/-- Whether a dish is blocked from stowing, and by what (R107). -/
def blockedBy (d : Dish) : Option BlockCause :=
  if d.drive = .faulted then some .fault
  else if d.lock.stopPending || d.task == .lockStop then some .lock
  else if d.lock.motionLocked && !d.lock.stowYielding then some .lock
  else none

/-- Whether a dish counts as moving to stow (R106). -/
def movingToStow (b : Blocks) (d : DishId) : Bool :=
  !(b.dish d).reasonsEmpty && ((b.stow d).phase == .claiming || (b.stow d).phase == .handed)

/-- A dish becomes BLOCKED: claim and unused grant go back, the entry is written (R108, R114). -/
def blockDish (d : DishId) (c : BlockCause) (b : Blocks) : Blocks :=
  let b1 := if (b.stow d).phase = .claiming then withdrawClaim .ww d b else b
  let b2 := holderReturn .ww d b1
  (b2.modStow d (fun r => { r with phase := .blocked, cause := some c, rehand := false })).trail
    (.stowBlocked d c)

/-- An event of R114 on a dish: a dish moving to stow is blocked; one already BLOCKED may take the cause
FAULT. -/
def blockEvent (d : DishId) (c : BlockCause) (b : Blocks) : Blocks :=
  if (b.stow d).phase = .blocked then
    if c = .fault then b.modStow d (fun r => { r with cause := some .fault }) else b
  else if movingToStow b d then blockDish d c b
  else b

/-! ### Beginning a stow (R109, R110) -/

/-- A stow move of a dish that need not move: at the position it has, toward 90000. -/
def stillStow (d : Dish) : Move :=
  let az := planAxis true d.az.position d.az.position 1 1 d.az.rateSetting
  let el := planAxis false 90000 90000 1 1 d.el.rateSetting
  { owner := .ww, task := .stow, az := az, el := el, startMode := .atReady }

def stowMove (p : PlanResult) : Move :=
  { owner := .ww, task := .stow, az := p.az, el := p.el, startMode := .atReady }

def stowPlan (b : Blocks) (d : DishId) : Except PlanFailure PlanResult :=
  plan b.settings (b.dish d) .stay 90000 none

/-- A PHASE other than BLOCKED, with BLOCK CAUSE none. The spec sets the cause to none only where a blocked dish
loses its reasons or holds none at CALM (R115, R116); that it goes with every other end of BLOCKED too is the model's
choice (log entry 60). -/
def setStowPhase (d : DishId) (p : StowPhase) (b : Blocks) : Blocks :=
  b.modStow d (fun r => { r with phase := p, cause := none })

/-- A claim of one stow alone (R109). -/
def claimStow (d : DishId) (b : Blocks) : Blocks := submitStows [d] (setStowPhase d .claiming b)

/-- A stow move refused (R114). -/
def stowRefused (d : DishId) (r : MoveRefusal) (b : Blocks) : Blocks :=
  match r with
  | .locked => blockEvent d .lock b
  | .faulted => blockEvent d .fault b
  | .encoder => blockEvent d .position b
  | .barred => blockEvent d .barred b
  | .noGrant => if movingToStow b d then claimStow d b else b
  | .range | .stowing | .pinned => b

def handStow (d : DishId) (m : Move) (b : Blocks) : Blocks :=
  match handMove d m b with
  | (b1, none) => b1
  | (b1, some r) => stowRefused d r b1

/-- The stow of a dish is begun; true where its claim is still to be submitted (R109, R117). A dish that was BLOCKED
has BLOCK CAUSE none from here on, unless it is blocked anew (R115; log entry 60). -/
def beginStow (d : DishId) (b : Blocks) : Blocks × Bool :=
  let wanted := (b.stow d).unpinWanted
  let b0 := b.modStow d (fun r => { r with unpinWanted := false, cause := none, rehand := false })
  match (b0.dish d).drive with
  | .pinned => (handStow d (stillStow (b0.dish d)) (setStowPhase d .handed b0), false)
  | .pinning =>
    let b1 := handStow d (stillStow (b0.dish d)) (setStowPhase d .handed b0)
    (if wanted then ownerStop .ww d b1 else b1, false)
  | .braked | .warning | .releasing | .moving | .settling | .holding | .stopping | .unpinning | .faulted =>
    match stowPlan b0 d with
    | .error _ => (blockDish d .position b0, false)
    | .ok p =>
      if p.az.moves || p.el.moves then (setStowPhase d .claiming b0, true)
      else
        let b1 := b0.modStow d (fun r => { r with
          phase := .handed, rehand := (b0.dish d).drive == .holding })
        (handStow d (stowMove p) b1, false)

/-- A stow begun alone (R109). -/
def beginStowAlone (d : DishId) (b : Blocks) : Blocks :=
  let r := beginStow d b
  if r.2 then submitStows [d] r.1 else r.1

/-- Insertion by ascending encoder elevation, then by dish number (R76). -/
def insertByElevation (el : DishId → Int) (d : DishId) : List DishId → List DishId
  | [] => [d]
  | e :: es => if el d < el e then d :: e :: es else e :: insertByElevation el d es

/-- The order of a batch of STOW claims (R76). -/
def byElevation (el : DishId → Int) (ds : List DishId) : List DishId :=
  ds.foldl (fun acc d => insertByElevation el d acc) []

/-- GRANTED for a stow claim (R110). -/
def onWwGranted (d : DishId) (b : Blocks) : Blocks :=
  if (b.stow d).phase = .claiming then
    match stowPlan b d with
    | .ok p => handStow d (stowMove p) (setStowPhase d .handed b)
    | .error _ => blockDish d .position b
  else holderReturn .ww d b

/-! ### Without reasons (R116, R117) -/

def askUnpin (d : DishId) (b : Blocks) : Blocks :=
  requestUnpin d (b.modStow d (fun r => { r with unpinWanted := true }))

def unstowWith (d : DishId) (b : Blocks) : Blocks :=
  askUnpin d (b.modStow d (fun r => { r with phase := .unstowing, rehand := false }))

/-- STOW REASONS have become empty (R116). -/
def unstow (d : DishId) (b : Blocks) : Blocks :=
  let drive := (b.dish d).drive
  match (b.stow d).phase with
  | .none => if drive = .pinned then askUnpin d b else b
  | .claiming => setStowPhase d .none (holderReturn .ww d (withdrawClaim .ww d b))
  | .handed =>
    if drive = .pinning ∨ drive = .pinned then unstowWith d b
    else ownerStop .ww d (b.modStow d (fun r => { r with phase := .unstowing, rehand := false }))
  | .stowed => unstowWith d b
  | .blocked =>
    let b1 := setStowPhase d .none b
    if drive = .pinned then askUnpin d b1 else b1
  | .unstowing => b

def setReasons (d : DishId) (f : StowReasons → StowReasons) (b : Blocks) : Blocks :=
  b.modDish d (fun x => { x with reasons := f x.reasons })

/-- Reasons are taken from a dish; where they become empty it is unstowed (R104, R116, R120). -/
def takeReasons (d : DishId) (f : StowReasons → StowReasons) (b : Blocks) : Blocks :=
  let b1 := setReasons d f b
  if !(b.dish d).reasonsEmpty && (b1.dish d).reasonsEmpty then unstow d b1 else b1

/-! ### Entering STOWING and CALM (R104, R108, R115) -/

/-- Whether a phase goes on as it is at an entry into STOWING or a STOW (R108, R118). -/
def StowPhase.underWay : StowPhase → Bool
  | .claiming => true
  | .handed => true
  | .stowed => true
  | .none => false
  | .blocked => false
  | .unstowing => false

/-- Whether the stow of a dish goes on as it is: not where a reason comes while an unpin is wanted, whatever
the phase, since the stow is then begun again (R108, R117, R118). -/
def StowRecord.goesOn (r : StowRecord) : Bool := r.phase.underWay && !r.unpinWanted

/-- One dish at the entry into STOWING: blocked, or WIND and its stow; the dishes still to claim are
gathered (R108). A dish already BLOCKED keeps its phase without an entry. R108 does not say whether one that is
BLOCKED for POSITION or BARRED, which the table of R107 does not block, gains WIND here; the model has it gain
WIND when it is unblocked (R115; log entry 31). -/
def enterStow (acc : Blocks × List DishId) (d : DishId) : Blocks × List DishId :=
  let b := acc.1
  if (b.stow d).phase = .blocked then acc
  else
    match blockedBy (b.dish d) with
    | some c => (blockDish d c b, acc.2)
    | none =>
      let b1 := setReasons d (fun r => { r with wind := true }) b
      if (b1.stow d).goesOn then (b1, acc.2)
      else
        let r := beginStow d b1
        (r.1, if r.2 then acc.2 ++ [d] else acc.2)

/-- The entry into STOWING (R108). The dishes are classed in ascending number (log entry 61). -/
def enterStowing (t : WindTrigger) (b : Blocks) : Blocks :=
  let w := b.wind
  let b1 := endSheds (stowFormations (b.modWind (fun x => { x with state := .stowing })))
  let b2 := b1.modWind (fun x => { x with
    records := x.records.map (fun r => { r with late := false })
    deadline := b1.timer (1000 * b1.settings.stowDeadline) })
  let r := allDishes.foldl enterStow (b2, [])
  let b3 := submitStows (byElevation (fun d => standingElevation (r.1.dish d)) r.2) r.1
  ((b3.trail (.windState w.state .stowing w.gust w.mean w.reading.set t)).publish .common).cause .wind

/-- On any entry into CALM: the deadline stops, and dishes blocked without a reason are let go
(R113, R115). -/
def clearBlocked (b : Blocks) : Blocks :=
  overDishes allDishes (fun d x =>
    if (x.stow d).phase = .blocked ∧ (x.dish d).reasonsEmpty then setStowPhase d .none x else x)
    (b.modWind (fun w => { w with deadline := none }))

/-- CALM from RELEASE_WAIT (R104). -/
def calmFromRelease (b : Blocks) : Blocks :=
  let b1 := changeWind .calm .release (b.modWind (fun w => { w with releaseHold := none }))
  let b2 := clearBlocked b1
  if b.wind.reading.autoRelease then
    overDishes allDishes (fun d => takeReasons d (fun r => { r with wind := false })) b2
  else b2

/-- The release hold timer started afresh (R103). -/
def startHold (b : Blocks) : Blocks :=
  b.modWind (fun w => { w with releaseHold := b.timer (1000 * w.set.releaseHold) })

/-- STOWED again from RELEASE_WAIT (R101). -/
def stowedAgain (t : WindTrigger) (b : Blocks) : Blocks :=
  changeWind .stowed t (b.modWind (fun w => { w with releaseHold := none }))

/-- What a stow trigger does in each state (R101). -/
def takeTrigger (t : WindTrigger) (b : Blocks) : Blocks :=
  match b.wind.state with
  | .calm => enterStowing t b
  | .watch => enterStowing t b
  | .stowing => b
  | .stowed => b
  | .releaseWait => stowedAgain t b

/-- A wind second without a stow trigger (R101, R103). `present` tells whether its value is present. -/
def quietSecond (present : Bool) (b : Blocks) : Blocks :=
  let w := b.wind
  match w.state with
  | .calm => match watchTrigger w with
    | some t => changeWind .watch t b
    | none => b
  | .watch => if calmAgain w then clearBlocked (changeWind .calm .hysteresis b) else b
  | .stowing => b
  | .stowed => if releaseMet w then startHold (changeWind .releaseWait .release b) else b
  | .releaseWait => if present && releaseMet w then b else startHold b

/-- The wind state at a wind second (R101, R103). -/
def evaluateWind (present : Bool) (b : Blocks) : Blocks :=
  let w := b.wind
  if w.dataKnown = false ∧ w.reading.fallback = .hold then
    if w.state = .releaseWait then startHold b else b
  else
    match stowTrigger w with
    | some t => takeTrigger t b
    | none => quietSecond present b

/-! ### Unblocking (R115) -/

/-- The cause by which a blocked dish is still blocked (R115). -/
def stillBlocked (b : Blocks) (d : DishId) : Option BlockCause :=
  let x := b.dish d
  match blockedBy x with
  | some c => some c
  | none =>
    match (b.stow d).cause with
    | some .position => if x.az.encoder = none ∨ x.el.encoder = none then some .position else none
    | some .barred =>
      if x.az.lowBar || x.az.highBar || x.el.lowBar || x.el.highBar then some .barred else none
    | some .lock => none
    | some .fault => none
    | none => none

/-- A blocked dish is looked at again (R115). Unblocked, it has BLOCK CAUSE none (log entry 60). -/
def recheckBlocked (d : DishId) (b : Blocks) : Blocks :=
  match stillBlocked b d with
  | some c => b.modStow d (fun r => { r with cause := some c })
  | none =>
    let b1 := if b.wind.state.stowing' then setReasons d (fun r => { r with wind := true }) b else b
    if (b1.dish d).reasonsEmpty then
      let b2 := setStowPhase d .none b1
      if (b2.stow d).unpinWanted then unstow d b2 else b2
    else beginStowAlone d b1

def isBlocked (b : Blocks) (d : DishId) (cs : List BlockCause) : Bool :=
  (b.stow d).phase == .blocked && cs.any (fun c => (b.stow d).cause == some c)

/-- A change of a dish's LOCK SUMMARY (R114, R115, R117). A wanted unpin is asked for again where it can have
been refused, in PINNED, or emptied by the lock stop, in PINNING (R6, R153). -/
def onLockChanged (d : DishId) (b : Blocks) : Blocks :=
  let b1 :=
    if (b.stow d).phase = .blocked then (if isBlocked b d [.lock] then recheckBlocked d b else b)
    else if blockedBy (b.dish d) = some .lock then blockEvent d .lock b else b
  let x := b1.dish d
  if (b1.stow d).unpinWanted && !x.lock.motionLocked && !x.lock.stopPending
      && (x.drive == .pinned || x.drive == .pinning) then
    requestUnpin d b1
  else b1

/-- A dish cleared of its fault (R115, R117). -/
def onCleared (d : DishId) (b : Blocks) : Blocks :=
  let b1 := if isBlocked b d [.fault] then recheckBlocked d b else b
  if (b1.stow d).unpinWanted && (b1.dish d).drive != .unpinning then requestUnpin d b1 else b1

/-- At each wind second (R115). -/
def recheckPositions (b : Blocks) : Blocks :=
  overDishes allDishes (fun d x => if isBlocked x d [.position, .barred] then recheckBlocked d x else x) b

/-! ### The wind second (R97 to R103, R115) -/

/-- The wind second. No rule orders what R101, R112 and R115 do in it; the wind state is evaluated first, then the
dishes blocked for POSITION and BARRED are looked at again, and the test for STOWED comes last (log entry 57). -/
def windSecond (b : Blocks) : Blocks :=
  let b0 := b.runTo b.wind.secondDue
  let b1 := b0.modWind (fun w => { w with secondDue := b0.clock.count + 1000 })
  let b2 := readSettings (takeSecond b1)
  let present := (b2.wind.seconds.getLast?.join).isSome
  (recheckPositions (evaluateWind present b2)).publish .wind

/-! ### The data flag (R99) -/

def dataFlag (b : Blocks) : Bool :=
  b.wind.grace.isSome || allLines.any (fun l => (b.line l).state != .silent)

/-- DATA FLAG reckoned anew (R99). -/
def reckonData (b : Blocks) : Blocks :=
  let known := dataFlag b
  if known = b.wind.dataKnown then b
  else
    let b1 := ((b.modWind (fun w => { w with dataKnown := known })).trail
      (.windData known (b.line 0).state (b.line 1).state (b.line 2).state)).cause .wind
    if b1.wind.dataTrigger then takeTrigger ((stowTrigger b1.wind).getD .data) b1 else b1

def onGraceOver (b : Blocks) : Blocks := reckonData (b.modWind (fun w => { w with grace := none }))

/-! ### The stow deadline (R113) -/

def checkLate (d : DishId) (b : Blocks) : Blocks :=
  let r := b.stow d
  if (b.dish d).reasons.wind && r.phase != .stowed && r.phase != .blocked && !r.late then
    (b.modStow d (fun x => { x with late := true })).trail (.stowLate d r.phase (b.dish d).drive)
  else b

/-- The deadline is over; the late dishes are written in ascending number (R113; log entry 61). -/
def onDeadline (b : Blocks) : Blocks :=
  overDishes allDishes checkLate (b.modWind (fun w => { w with deadline := none }))

/-! ### Reports (R111, R114, R116, R117) -/

/-- STOPPED (R111, R116). R116 does not say what a STOPPED does that finds UNSTOWING with UNPIN WANTED set,
as of an owner's stop sent in PINNING whose reason was lost again before the pins were in (R117); the model
takes no notice of it and keeps UNSTOWING until UNPINNED (log entry 31). A grant that the stow was to use
and that is still RESERVED goes back once the dish is at rest, since no stow is wanted any more (R77, R82, R110;
log entry 50). -/
def onWwStopped (d : DishId) (b : Blocks) : Blocks :=
  let r := b.stow d
  if r.phase = .unstowing ∧ r.unpinWanted = false then
    holderReturn .ww d (setStowPhase d .none (releaseDish .ww d b))
  else if r.rehand then
    handStow d (stillStow (b.dish d)) (b.modStow d (fun x => { x with rehand := false }))
  else b

/-- STOWED (R111, R114, R116). R111 has PHASE become STOWED; for a dish whose PHASE is NONE by then, as of one
blocked by a lock stop in PINNING and released before its pins are in, the model leaves NONE (log entry 31). BLOCK
CAUSE becomes none with STOWED, of which R114 says nothing (log entry 60). -/
def onWwStowed (d : DishId) (b : Blocks) : Blocks :=
  match (b.stow d).phase with
  | .claiming | .handed | .blocked | .stowed =>
    b.modStow d (fun r => { r with phase := .stowed, cause := none, rehand := false })
  | .none | .unstowing => b

/-- UNPINNED of an unpin that is still wanted ends in NONE whatever the phase; one that the dish's new reason
has overtaken changes nothing (R117). -/
def onWwUnpinned (d : DishId) (b : Blocks) : Blocks :=
  if (b.stow d).unpinWanted then
    b.modStow d (fun r => { r with unpinWanted := false, phase := .none, cause := none })
  else b

def onWwReport (d : DishId) (r : Report) (b : Blocks) : Blocks :=
  match r with
  | .ready => b
  | .arrived _ => if (b.stow d).rehand then ownerStop .ww d b else b
  | .stopped => onWwStopped d b
  | .stowed => onWwStowed d b
  | .preempted taker => if taker = .lt then blockEvent d .lock b else b
  | .faulted => blockEvent d .fault b
  | .refused x => if (b.stow d).phase = .handed then stowRefused d x b else b
  | .unpinned => onWwUnpinned d b
  | .unpinRefused _ => b

/-! ### STOW and RELEASE (R118 to R120) -/

/-- One dish named by a STOW (R117, R118). One that is BLOCKED for POSITION or BARRED is not blocked by the
table of R107, and its stow is begun again as the last line of R118 has it; where that fails, the entry is
written again (R109, R114; log entry 31). -/
def stowNamed (d : DishId) (b : Blocks) : Blocks :=
  let b1 := setReasons d (fun r => { r with manual := true }) b
  let b2 := endShed d (excuseEverywhere d .stow b1)
  match blockedBy (b2.dish d) with
  | some c =>
    let b3 := b2.modStow d (fun r => { r with unpinWanted := false })
    if (b3.stow d).phase = .blocked then b3 else blockDish d c b3
  | none => if (b2.stow d).goesOn then b2 else beginStowAlone d b2

/-- STOW; true where it is taken (R118). Its dishes are worked one after another (log entry 61). -/
def takeStow (s : SlotId) (dishes : Word) (b : Blocks) : Blocks × Bool :=
  if badDishSet dishes then (b.answer s (badField 6), false)
  else
    let ds := dishBits dishes
    let b1 := overDishes ds.toList stowNamed b
    (b1.modWind (fun w => { w with standing := w.standing ++ [⟨s, ds, ds, 0, 0⟩] }), true)

/-- What the waiting of a STOW order has lost by now (R118). -/
def stillWaiting (b : Blocks) (d : DishId) : Bool :=
  (b.stow d).phase != .stowed && (b.stow d).phase != .blocked && !(b.dish d).reasonsEmpty

def BlockCause.code : BlockCause → Nat
  | .lock => 0
  | .fault => 1
  | .position => 2
  | .barred => 3

/-- Four bits for each dish, dish 0 in the low half of the first byte (10.4). -/
def nibbles (f : DishId → Nat) : List Byte :=
  lowBytes 6 (allDishes.foldl (fun n d => n + f d * 16 ^ d.val) 0)

/-- The answer of a STOW that is done (R118, 10.4). -/
def stowAnswer (b : Blocks) (o : StandingStow) : Answer :=
  let blocked := o.dishes.toList.filter (fun d => (b.stow d).phase == .blocked)
  ⟨.done, noNotes, 0, dishSetBytes (DishSet.ofList blocked) ++ dishSetBytes o.released
    ++ nibbles (fun d =>
        if blocked.contains d then (((b.stow d).cause.map BlockCause.code).getD 15) else 15)⟩

/-- One standing STOW looked at: dishes leave its waiting set, and it is answered when none is left. A dish of the
order that has not been STOWED under it, does not stand PINNED and holds no reason has lost its reasons before
pinning, whether it was still waited for or had left the waiting set BLOCKED (R118; log entry 54). -/
def reviewStow (b : Blocks) (o : StandingStow) : StandingStow :=
  let left := o.waiting.toList.filter (fun d => !stillWaiting b d)
  let pinned := o.pinned ||| DishSet.ofList (o.dishes.toList.filter (fun d => (b.stow d).phase == .stowed))
  let lost := o.dishes.toList.filter (fun d =>
    (b.dish d).reasonsEmpty && !pinned.has d && (b.dish d).drive != .pinned)
  { o with
    waiting := o.waiting &&& ~~~(DishSet.ofList left), released := o.released ||| DishSet.ofList lost
    pinned := pinned }

/-- The standing STOW orders are looked at; those that are done are answered in the order of the list (R118; log
entry 61). -/
def reviewStows (b : Blocks) : Blocks :=
  let all := b.wind.standing.map (reviewStow b)
  let done := all.filter (fun o => o.waiting == 0)
  let b1 := b.modWind (fun w => { w with standing := all.filter (fun o => o.waiting != 0) })
  done.foldl (fun x o => x.answer o.slot (stowAnswer x o)) b1

/-- STOWING ends when no dish is moving to stow (R112). -/
def checkStowed (b : Blocks) : Blocks :=
  if b.wind.state = .stowing ∧ allDishes.any (movingToStow b) = false then changeWind .stowed .complete b
  else b

/-- One dish named by a RELEASE (R120). -/
def releaseNamed (d : DishId) (b : Blocks) : Blocks :=
  let keepWind := b.wind.state.stowing'
  let x := b.dish d
  if x.reasonsEmpty then
    (if x.drive = .pinned ∧ (b.stow d).phase = .none then unstow d b else b)
  else takeReasons d (fun r => { manual := false, wind := r.wind && keepWind }) b

/-- The refusal of an unpin of a dish among messages, as RELEASE lists it: LOCKED 1, FAULTED 2 (10.4). -/
def unpinRefusal (ms : List Message) (d : DishId) : Nat :=
  if ms.contains (.report .ww d (.unpinRefused .locked)) then 1
  else if ms.contains (.report .ww d (.unpinRefused .faulted)) then 2
  else 0

/-- RELEASE; the unpins refused at once are those whose refusals the release itself brings about (R120). Its dishes
are worked one after another (log entry 61). -/
def takeRelease (s : SlotId) (dishes : Word) (b : Blocks) : Blocks :=
  if badDishSet dishes then b.answer s (badField 6)
  else
    let ds := (dishBits dishes).toList
    let b1 := overDishes ds releaseNamed b
    let holding := ds.filter (fun d => !(b1.dish d).reasonsEmpty)
    let replies := b1.inbox.drop b.inbox.length
    let refused := ds.filter (fun d => unpinRefusal replies d != 0)
    b1.answer s ⟨.done, noNotes, 0, dishSetBytes (DishSet.ofList holding)
      ++ dishSetBytes (DishSet.ofList refused)
      ++ nibbles (fun d => if ds.contains d then unpinRefusal replies d else 0)⟩

/-- A standing STOW leaves the list: with ENDED_CUT, or without an answer (R119, R178). -/
def endStowOrder (s : SlotId) (code : Option AnswerCode) (b : Blocks) : Blocks :=
  let had := b.wind.standing.any (fun o => o.slot == s)
  let b1 := b.modWind (fun w => { w with standing := w.standing.filter (fun o => o.slot != s) })
  match had, code with
  | true, some c => b1.answer s (plainAnswer c)
  | _, _ => b1

end Sys2Proof.Machine
end

