-- ==== Sys2Proof/Machine/Handler.lean ====
section
/-! DEFINITION. The messages between the blocks, taken one after another, first in, first out
(00_scope.md, "Paths at a glance"). -/

namespace Sys2Proof.Machine

def overList (ds : List DishId) (f : DishId → Blocks → Blocks) (b : Blocks) : Blocks := overDishes ds f b

/-- A grant that a lock or a fault took away, told to its holder (R82, R150). -/
def onWwGrantGone (d : DishId) (b : Blocks) : Blocks :=
  match blockedBy (b.dish d) with
  | some c => blockEvent d c b
  | none => b

/-- One message is taken by the block that it is for. -/
def handle (m : Message) (b : Blocks) : Blocks :=
  match m with
  | .report .fp d .stopped => onFpStopped d b
  | .report .fp d r => onFpReport d r b
  | .report .ww d r => onWwReport d r b
  | .report .mc d r => onMcReport d r b
  | .report .lt d r => onLtReport d r b
  | .granted .fp ds => onFpGrants ds b
  | .granted .ww ds => overList ds onWwGranted b
  | .granted .mc ds => overList ds onMcGranted b
  | .granted .lt _ => b
  | .withdrawn .fp d => excuseEverywhere d .stow b
  | .withdrawn .mc d => onMcWithdrawn d b
  | .withdrawn .ww _ => b
  | .withdrawn .lt _ => b
  | .takenOver .fp d => excuseEverywhere d .stow b
  | .takenOver .mc d => onMcTakenOver d b
  | .takenOver .ww _ => b
  | .takenOver .lt _ => b
  | .grantGone .fp d => onFpGrantGone d b
  | .grantGone .mc d => onMcWithdrawn d b
  | .grantGone .ww d => onWwGrantGone d b
  | .grantGone .lt _ => b
  | .excuse d c => excuseEverywhere d c b
  | .lockChanged d => onLockChanged d b
  | .cleared d => onCleared d b
  | .reformRequest z => reformRequest z b
  | .admissionOver f => onAdmissionOver f b
  | .dwellOver f => onDwellOver f b

/-- Whether a change of R140 has come to a dish. -/
def shedTouched (old new : Dish) : Bool :=
  old.formation != new.formation || old.lock != new.lock || old.reasons != new.reasons
    || old.drive != new.drive

/-- What follows a change of records in the event of the change: sheds in CLAIMING are checked (R140),
standing STOWs looked at (R118), and STOWING may end (R112). -/
def tidy (old b : Blocks) : Blocks :=
  let b1 := overDishes allDishes (fun d x =>
    if shedTouched (old.dish d) (x.dish d) then recheckShed d x else x) b
  checkStowed (reviewStows b1)

/-- The messages are taken until none waits. `fuel` bounds their number (log entry 8). -/
def drain : Nat → Blocks → Blocks
  | 0, b => b
  | n + 1, b =>
    match b.inbox with
    | [] => b
    | m :: ms => drain n (tidy b (handle m { b with inbox := ms }))

/-- How many messages one command can bring about. -/
def messageFuel : Nat := 4096

/-- The blocks act until they are quiet; `old` is what they were before the command. -/
def settle (old b : Blocks) : Blocks := drain messageFuel (tidy old b)

end Sys2Proof.Machine
end

