-- ==== Sys2Proof/Machine/Layout.lean ====
section
/-! DEFINITION. The layouts that the part writes: answers, pages and trail entries (10.3 to 10.6). An
enumerated field holds the place of its value in the spec's list, which is the order of the constructors
(R193). -/

namespace Sys2Proof.Machine

def byte (n : Nat) : List Byte := lowBytes 1 n
def word (n : Nat) : List Byte := lowBytes 2 n
def long (n : Nat) : List Byte := lowBytes 4 n
def optByte (n : Option Nat) : List Byte := optBytes 1 n
def optWord (n : Option Nat) : List Byte := optBytes 2 n
def optLong (n : Option Nat) : List Byte := optBytes 4 n
def optTime (t : Option ArrayTime) : List Byte := optBytes 6 (t.map BitVec.toNat)

/-! ### Answers (10.4) -/

/-- The answer codes of 10.4. -/
def AnswerCode.code : AnswerCode → Nat
  | .done => 1
  | .endedCut => 16
  | .endedHalt => 17
  | .endedSuperseded => 18
  | .endedStow => 19
  | .endedLock => 20
  | .endedStarved => 21
  | .endedWrap => 22
  | .endedFault => 23
  | .unknownVerb => 32
  | .badField => 33
  | .noFormation => 34
  | .noLast => 35
  | .formationBusy => 36
  | .dishBusy => 37
  | .noMembers => 38
  | .provisional => 39
  | .windUnknown => 40
  | .shedding => 41
  | .timeUnset => 42
  | .trackActive => 43
  | .queueFull => 44
  | .timeOrder => 45
  | .stale => 46
  | .tableFull => 47
  | .dishFull => 48
  | .alreadyHeld => 49
  | .notHeld => 50
  | .panelLock => 51
  | .stillPresent => 52
  | .busy => 53
  | .budgetInUse => 54

/-- The refusal codes (R177, 10.4). -/
def AnswerCode.refusal (c : AnswerCode) : Bool := decide (32 ≤ c.code)

def Notes.bits (n : Notes) : Nat :=
  bit n.clamped + 2 * bit n.waved + 4 * bit n.skipped + 8 * bit n.wrapOther

/-- The 24 bytes of an answer (10.4). -/
def answerBytes (a : Answer) (time : ArrayTime) (valid : Bool) : List Byte :=
  byte a.code.code ++ byte (a.notes.bits + 128 * bit valid) ++ word a.detail ++ timeBytes time ++ fit 14 a.data

/-! ### Pages (10.3, 10.5) -/

/-- Where a page begins (8.1, 10.3, 10.5). -/
def Page.base : Page → Nat
  | .common => 0x0000
  | .dish d => 0x1100 + 128 * d.val
  | .formation f => 0x1700 + 64 * f.val
  | .wind => 0x1900
  | .power => 0x1A00
  | .zone z => 0x1B00 + 32 * z.val
  | .lockEntry e => 0x2000 + 16 * e.val

/-- The length of a page (8.1). -/
def Page.size : Page → Nat
  | .common => 256
  | .dish _ => 128
  | .formation _ => 64
  | .wind => 256
  | .power => 256
  | .zone _ => 32
  | .lockEntry _ => 16

/-- An axis block of a dish page; an axis without a profile shows no target. -/
def axisBlock (x : Axis) : List Byte :=
  optSignedBytes 4 x.encoder ++ optSignedBytes 4 (x.profile.map Profile.target) ++ signedBytes 4 x.position
    ++ signedBytes 4 x.rateDemand ++ byte (bit x.lowBar + 2 * bit x.highBar) ++ zeros 3

/-- A dish page from offset 0x02 (10.5). -/
def dishPage (d : Dish) : List Byte :=
  byte d.drive.ctorIdx ++ byte d.task.ctorIdx ++ optByte (d.formation.map Fin.val)
    ++ byte (bit d.reasons.wind + 2 * bit d.reasons.manual) ++ byte d.lock.bits
    ++ optByte (d.faultKind.map FaultKind.ctorIdx) ++ byte d.horn.ctorIdx ++ zeros 1
    ++ word d.score ++ word d.derate ++ optWord d.motionGrant ++ axisBlock d.az ++ axisBlock d.el

/-- A formation page from offset 0x02 (10.5). -/
def formationPage (m : Formation) (b : Blocks) : List Byte :=
  let lagging := DishSet.ofList (allDishes.filter (fun d => (m.mem d).lagOpen))
  byte m.state.ctorIdx ++ optByte (m.work.map Work.ctorIdx) ++ dishSetBytes m.members
    ++ dishSetBytes m.included ++ dishSetBytes m.skipped ++ dishSetBytes m.excused
    ++ optByte (m.slot.map Fin.val) ++ byte m.mode.ctorIdx ++ byte m.waveCount
    ++ optByte (m.raster.map Raster.index)
    ++ optLong (m.target.map (fun t => t.1.toNat)) ++ optSignedBytes 4 (m.target.map Prod.snd)
    ++ optByte (m.raster.map Raster.count) ++ byte m.queue.length ++ dishSetBytes lagging
    ++ optTime (m.queue.head?.map Waypoint.time) ++ zeros 2 ++ optTime m.wrapStop ++ zeros 2
    ++ optLong (if m.state = .starved then b.left m.starve else none)

/-- A line block of the wind page, 24 bytes (10.5). -/
def lineBlock (x : Line) : List Byte :=
  let f := x.lastGood
  fit 24 (byte x.state.ctorIdx ++ byte x.goodRun ++ word x.goodCount ++ word x.voidCount
    ++ optWord (f.map Frame.speed) ++ optWord (f.map Frame.direction)
    ++ optSignedBytes 2 (f.map Frame.temperature) ++ optByte (f.map (fun y => y.precipitation.ctorIdx))
    ++ optByte (f.map (fun y => y.instrument.ctorIdx)) ++ optTime (f.map Frame.time)
    ++ byte (bit (f.any Frame.valid)))

/-- A dish stow entry (10.5). -/
def stowEntry (d : Dish) (r : StowRecord) : List Byte :=
  byte (bit d.reasons.wind + 2 * bit d.reasons.manual) ++ byte r.phase.ctorIdx
    ++ optByte (r.cause.map BlockCause.code) ++ byte (bit r.late + 2 * bit r.unpinWanted)

/-- The wind page from offset 0x02 (10.5). A grace that is over has 0 left. 10.5 does not say what the places of
the slot indices show beyond the number of STANDING STOWS; the model shows 0 there (log entry 11). -/
def windPage (b : Blocks) : List Byte :=
  let w := b.wind
  fit 254 (byte w.state.ctorIdx ++ byte (bit (!w.dataKnown)) ++ byte w.reading.set.ctorIdx ++ zeros 1
    ++ word ((b.left w.grace).getD 0) ++ optWord w.seconds.getLast?.join ++ optWord w.gust ++ optWord w.mean
    ++ optWord w.direction ++ word w.seconds.length ++ word (w.seconds.filter Option.isSome).length
    ++ optLong (b.left w.releaseHold) ++ optLong (b.left w.deadline)
    ++ optSignedBytes 2 (airTemperature b) ++ byte (precipitation b).ctorIdx ++ zeros 1
    ++ allLines.flatMap (fun l => lineBlock (b.line l))
    ++ allDishes.flatMap (fun d => stowEntry (b.dish d) (b.stow d))
    ++ byte w.standing.length ++ w.standing.flatMap (fun o => byte o.slot.val))

/-- A claim of the power page; a place beyond the queue holds all ones in its dish byte (10.5). -/
def claimEntry : Option Claim → List Byte
  | some c => byte c.dish.val ++ byte c.cls.ctorIdx ++ byte c.claimant.ctorIdx ++ zeros 1 ++ word c.amount
  | none => byte 0xFF ++ zeros 5

def grantEntry (g : Option Grant) : List Byte :=
  optWord (g.map Grant.amount) ++ optByte (g.map (fun x => x.cls.ctorIdx))
    ++ optByte (g.map (fun x => x.holder.ctorIdx)) ++ optByte (g.map (fun x => x.use.ctorIdx)) ++ zeros 1

/-- The power page from offset 0x02 (10.5). -/
def powerPage (b : Blocks) : List Byte :=
  let fa := b.fa
  let st := b.settings
  let heat := heaterSum b
  fit 254 (word st.feederMax ++ word st.reserve ++ word st.deratePermille ++ word fa.requested
    ++ word (derateLimit st) ++ word fa.target ++ word fa.inForce
    ++ byte (bit (!fa.derate)) ++ byte (bit fa.held) ++ word (motionSum fa) ++ word heat
    ++ word (remainder fa - heat) ++ byte fa.queue.length ++ zeros 1
    ++ (List.range 12).flatMap (fun i => claimEntry fa.queue[i]?)
    ++ allDishes.flatMap (fun d => grantEntry fa.grants[d]))

/-- A zone page from offset 0x02 (10.5). R136 gives ARMED the values 'Set or clear', and neither R193 nor 10.5
gives their codes; the byte is 1 for set and 0 for clear (log entry 43). -/
def zonePage (z : ZoneId) (b : Blocks) : List Byte :=
  let x := b.zone z
  let d := zoneDish z
  let s := b.shed d
  let surface := if zoneClass z = .surface then
      word (b.dish d).score ++ word (b.dish d).derate
        ++ byte (bit s.onset + 2 * bit s.soft + 4 * bit s.hard) ++ byte (bit s.armed) ++ byte s.phase.ctorIdx
    else []
  fit 30 (byte d.val ++ byte (zoneClass z).ctorIdx ++ word x.rated ++ byte x.mode.ctorIdx
    ++ byte x.state.ctorIdx ++ word x.forced ++ word x.demand ++ word x.request ++ word x.grant
    ++ word x.grantedDuty ++ word x.applied ++ optLong (b.left x.tail) ++ surface)

/-- A key slot entry from offset 0x02 (10.5). -/
def keyEntry (d : DishId) (b : Blocks) : List Byte :=
  let r := b.keySlots[d]
  let p := b.panel d
  optByte (r.map (fun x => x.origin.ctorIdx)) ++ byte ((r.map (fun x => x.cls.ctorIdx)).getD 0)
    ++ byte ((r.map (fun x => x.state.code)).getD 0) ++ byte p.link.ctorIdx ++ byte p.voids
    ++ optByte (p.key.map KeyPosition.ctorIdx)
    ++ byte (bit p.readDue + 2 * bit p.takenDue + 4 * bit p.refusedFlash
        + 128 * bit (r.any LockRecord.placedValid))
    ++ byte p.lamps.bits ++ timeBytes ((r.map LockRecord.placedAt).getD 0)

/-- A pool entry from offset 0x02 (10.5). -/
def poolEntry (p : PoolId) (b : Blocks) : List Byte :=
  match b.pool[p] with
  | none => byte 0xFF ++ zeros 5 ++ byte 0xFF ++ zeros 7
  | some r =>
    byte r.origin.ctorIdx ++ byte r.dish.val ++ byte r.cls.ctorIdx ++ byte r.state.code ++ word r.tag
      ++ optByte (r.slot.map Fin.val) ++ byte (128 * bit r.placedValid) ++ timeBytes r.placedAt

def lockEntry (e : Fin 36) (b : Blocks) : List Byte :=
  if h : e.val < 12 then keyEntry ⟨e.val, h⟩ b else poolEntry ⟨e.val - 12, by omega⟩ b

/-- The part-written bytes of the common page, without EDITION: PULSE; WRITE SEQUENCE; from DROPPED COUNT
on (10.3, R168). -/
structure CommonPage where
  pulse : List Byte
  sequence : List Byte
  summary : List Byte
deriving DecidableEq, Repr

/-- The fields of the common page (R168). R168 does not say which array time a republication shows that no
pulse and no change of time brings (TW's, XM's, that of a link reset); the model shows the time of the latest
pulse or change of time (log entry 49). -/
def commonPage (p : Part) : CommonPage :=
  { pulse := word p.xm.pulse.toNat
    sequence := long p.xm.writeSequence.toNat
    summary := word p.xm.dropped ++ byte (bit p.xm.ready) ++ byte p.blocks.site.state.ctorIdx
      ++ byte p.blocks.presence.attended.ctorIdx ++ byte p.blocks.wind.state.ctorIdx
      ++ word p.blocks.fa.inForce ++ timeBytes p.xm.shownTime ++ byte (bit p.xm.shownValid) }

/-- The bytes of a page other than the common page, from offset 0x02 to its end. -/
def pageBytes (p : Page) (b : Blocks) : List Byte :=
  fit (p.size - 2) (match p with
    | .common => []
    | .dish d => dishPage (b.dish d)
    | .formation f => formationPage (b.form f) b
    | .wind => windPage b
    | .power => powerPage b
    | .zone z => zonePage z b
    | .lockEntry e => lockEntry e b)

/-! ### Trail entries (10.6) -/

/-- The kind codes (10.6). -/
def TrailEvent.kind : TrailEvent → Nat
  | .formationArrived _ _ _ _ => 1
  | .formationWave _ _ _ _ => 2
  | .memberExcused _ _ _ => 3
  | .trackStarved _ _ => 4
  | .trackLag _ _ _ => 5
  | .wrapLimit _ _ _ _ => 6
  | .dishFault _ k _ => if k = .pin then 9 else 7
  | .faultCleared _ => 8
  | .dishStowed _ => 10
  | .dishUnstowed _ => 11
  | .windState _ _ _ _ _ _ => 12
  | .windData _ _ _ _ => 13
  | .lineState _ _ _ _ => 14
  | .stowLate _ _ _ => 15
  | .stowBlocked _ _ => 16
  | .lockPlaced _ _ => 17
  | .lockEffective _ _ => 18
  | .lockRemoved _ _ _ => 19
  | .badgeRefused _ _ _ _ => 20
  | .panelState _ _ _ => 21
  | .budgetHeld _ _ _ => 22
  | .snowLevel _ _ _ _ _ => 23
  | .shedBegun _ _ _ _ => 24
  | .shedEnded _ _ _ _ => 25
  | .presence _ _ => 26
  | .settingsLoad _ _ _ => 27
  | .settings _ _ _ _ _ => 27
  | .timeSet _ _ _ _ => 28
  | .orderAbandoned _ _ _ _ => 29
  | .trailGap _ => 30

/-- Subject type and number: none 0, dish 1, formation 2, line 3, panel 4, slot 5 (10.6). A panel's
number is its address. 10.6 gives no Subject number for the type none; it is 0 here, though R193 gives all ones to an
optional field that is absent (log entry 11). -/
def TrailEvent.subject : TrailEvent → Nat × Nat
  | .formationArrived f _ _ _ => (2, f.val)
  | .formationWave f _ _ _ => (2, f.val)
  | .memberExcused f _ _ => (2, f.val)
  | .trackStarved f _ => (2, f.val)
  | .trackLag f _ _ => (2, f.val)
  | .wrapLimit f _ _ _ => (2, f.val)
  | .dishFault d _ _ => (1, d.val)
  | .faultCleared d => (1, d.val)
  | .dishStowed d => (1, d.val)
  | .dishUnstowed d => (1, d.val)
  | .windState _ _ _ _ _ _ => (0, 0)
  | .windData _ _ _ _ => (0, 0)
  | .lineState l _ _ _ => (3, l.val)
  | .stowLate d _ _ => (1, d.val)
  | .stowBlocked d _ => (1, d.val)
  | .lockPlaced m _ => (1, m.dish.val)
  | .lockEffective m _ => (1, m.dish.val)
  | .lockRemoved m _ _ => (1, m.dish.val)
  | .badgeRefused d _ _ _ => (1, d.val)
  | .panelState d _ _ => (4, d.val + 1)
  | .budgetHeld _ _ _ => (0, 0)
  | .snowLevel d _ _ _ _ => (1, d.val)
  | .shedBegun d _ _ _ => (1, d.val)
  | .shedEnded d _ _ _ => (1, d.val)
  | .presence _ _ => (0, 0)
  | .settingsLoad _ _ _ => (0, 0)
  | .settings _ _ _ _ _ => (0, 0)
  | .timeSet _ _ _ _ => (0, 0)
  | .orderAbandoned s _ _ _ => (5, s.val)
  | .trailGap _ => (0, 0)

/-- The causes of an excusal in their codes of 10.4. -/
def ExcusalCause.code : ExcusalCause → Nat
  | .lock => 1
  | .stow => 2
  | .fault => 3
  | .shed => 4
  | .score => 5

def CommitFailure.code : CommitFailure → Nat
  | .verify => 7
  | .timeout => 8

/-- Place, origin, class and tag of a lock entry's detail (10.6). -/
def lockDetail (m : LockMark) : List Byte :=
  byte m.place ++ byte m.origin.ctorIdx ++ byte m.cls.ctorIdx ++ zeros 1 ++ word m.tag

/-- The detail of an entry, before it is filled to 16 bytes (10.6). The widths that 10.6 leaves open, those of
POST NUMBER in ORDER_ABANDONED and of LAST PRESENCE in PRESENCE among them, are log entry 10. -/
def TrailEvent.detail : TrailEvent → List Byte
  | .formationArrived _ spread n index => long spread ++ byte n ++ optByte index
  | .formationWave _ n ds tc => byte n ++ dishSetBytes ds ++ long tc
  | .memberExcused _ d c => byte d.val ++ byte c.code
  | .trackStarved _ t => timeBytes t
  | .trackLag _ d lag => byte d.val ++ long lag
  | .wrapLimit _ d t v => byte d.val ++ timeBytes t ++ signedBytes 4 v
  | .dishFault _ k s => byte k.ctorIdx ++ byte s.ctorIdx
  | .faultCleared _ => []
  | .dishStowed _ => []
  | .dishUnstowed _ => []
  | .windState o n g m set t =>
      byte o.ctorIdx ++ byte n.ctorIdx ++ optWord g ++ optWord m ++ byte set.ctorIdx ++ byte t.ctorIdx
  | .windData known a b c => byte (bit (!known)) ++ byte a.ctorIdx ++ byte b.ctorIdx ++ byte c.ctorIdx
  | .lineState _ o n e => byte o.ctorIdx ++ byte n.ctorIdx ++ byte e.ctorIdx
  | .stowLate _ p s => byte p.ctorIdx ++ byte s.ctorIdx
  | .stowBlocked _ c => byte c.ctorIdx
  | .lockPlaced m s => lockDetail m ++ byte s.code
  | .lockEffective m s => lockDetail m ++ byte s.code
  | .lockRemoved m s c => lockDetail m ++ byte s.code ++ byte c.ctorIdx
  | .badgeRefused _ tag c r => word tag ++ byte c.ctorIdx ++ byte r.code
  | .panelState _ l k => byte l.ctorIdx ++ optByte (k.map KeyPosition.ctorIdx)
  | .budgetHeld t m ds => word t ++ word m ++ dishSetBytes ds
  | .snowLevel _ l v up s => byte l.ctorIdx ++ word v ++ byte (bit (!up)) ++ word s
  | .shedBegun _ e t c => signedBytes 4 e ++ signedBytes 4 t ++ byte (bit c)
  | .shedEnded _ o e s => byte o.ctorIdx ++ signedBytes 4 e ++ word s
  | .presence a w => byte a.ctorIdx ++ word w.toNat
  | .settingsLoad s c f => byte SettingsEvent.load.ctorIdx ++ byte s.ctorIdx ++ word c.toNat
      ++ optByte (f.map LoadFailure.ctorIdx)
  | .settings e o n c f => byte e.ctorIdx ++ byte o.ctorIdx ++ byte n.ctorIdx ++ word c.toNat
      ++ optByte (f.map CommitFailure.code)
  | .timeSet adjust o ov n => byte (bit adjust + 128 * bit ov) ++ timeBytes o ++ timeBytes n
  | .orderAbandoned _ v post f => byte v ++ word post.toNat ++ optByte (f.map Fin.val)
  | .trailGap n => word n

/-- The 32 bytes of a trail entry (10.6). -/
def entryBytes (seq : Word32) (e : TrailEvent) (time : ArrayTime) (valid : Bool) : List Byte :=
  long seq.toNat ++ timeBytes time ++ byte (bit valid) ++ byte e.kind ++ byte e.subject.1
    ++ byte e.subject.2 ++ fit 16 (e.detail) ++ zeros 2

/-- Entries whose writing sets the SAFETY cause (R170). -/
def TrailEvent.safety : TrailEvent → Bool
  | .stowBlocked _ _ => true
  | .stowLate _ _ _ => true
  | .dishFault _ _ _ => true
  | _ => false

end Sys2Proof.Machine
end

