-- ==== Sys2Proof/WellFormed.lean ====
section
/-! DEFINITION. Which command terms stand for something that can reach the part. -/

namespace Sys2Proof

/-- The site bus writes whole words of the 32 KiB memory, at even addresses (8.1). -/
def Outside.wellFormed : Outside → Bool
  | .memoryWord addr _ => decide (addr < 0x8000) && addr % 2 == 0
  | .amplifierReady _ _ => true

/-- The words of the memory that the site computer has for its own writing: the presence word, the
read sequence, the slate, the staging page and the free area (8.1). -/
def Outside.inSiteRegion : Outside → Bool
  | .memoryWord addr _ =>
      addr == 0x0004 || addr == 0x000C || addr == 0x000E
        || (decide (0x0100 ≤ addr) && decide (addr < 0x1100))
        || (decide (0x4000 ≤ addr) && decide (addr < 0x8000))
  | .amplifierReady _ _ => true

/-- A NUDGE write that the row REGISTER_WRITE_IGNORED stands for in every state has no value that
asks for something (R169). -/
def ignoredValue : WriteTarget → Word → Bool
  | .ident, _ => true
  | .nudge, v => v != 1 && v != 2

/-- An encoder reading is a signed position within the 32-bit field that publishes it, other than
the code for unknown (R193). -/
def readingInRange (x : Int) : Bool := decide (-2147483648 < x) && decide (x < 2147483648)

/-- Each check refuses a term that no event outside the part spells. -/
def Instr.wellFormed : Instr → Bool
  | .nudgeSweep seen => seen.all Outside.wellFormed
  | .sweepTimerExpiry seen => seen.all Outside.wellFormed
  | .pulseEvent seen => seen.all Outside.wellFormed
  | .lingerTimerExpiry seen => seen.all Outside.wellFormed
  | .presenceCheck seen => seen.all Outside.wellFormed
  | .brakeReleaseTimerExpiry _ seen => seen.all Outside.wellFormed
  | .registerWriteIgnored t v => ignoredValue t v
  | .encoderReading _ _ x => readingInRange x
  | .nvWriteCompletion c => c.readBack.length == 1024
  | .panelReply bytes _ => decide (2 ≤ bytes.length) && decide (bytes.length ≤ 9)
  | .powerOn _ => true
  | .nudgeLinkReset => true
  | .causeClear _ => true
  | .maskWrite _ => true
  | .form _ _ _ => true
  | .disband _ _ => true
  | .halt _ _ => true
  | .slew _ _ _ _ _ _ => true
  | .trackLoad _ _ _ _ => true
  | .track _ _ _ => true
  | .raster _ _ _ _ _ _ _ _ _ => true
  | .stow _ _ => true
  | .release _ _ => true
  | .meltMode _ _ _ _ _ => true
  | .lock _ _ _ _ => true
  | .unlock _ _ _ => true
  | .setBudget _ _ => true
  | .clearFault _ _ => true
  | .setTime _ _ => true
  | .adjustTime _ _ => true
  | .adoptSite _ => true
  | .commitSite _ => true
  | .commitTimerExpiry => true
  | .servoEvent _ _ => true
  | .encoderStartupTimeout _ _ => true
  | .warningTimerExpiry _ => true
  | .settleTimerExpiry _ => true
  | .settleLimitExpiry _ => true
  | .holdToBrakeExpiry _ => true
  | .pinTimerExpiry _ => true
  | .pinInSensed _ => true
  | .pinOutSensed _ => true
  | .pinSensorCeased _ _ => true
  | .limitSwitchAsserted _ _ _ => true
  | .limitSwitchCeased _ _ _ => true
  | .amplifierReadyLost _ _ => true
  | .heaterWindowStart _ => true
  | .heaterOnTimeEnd _ => true
  | .derateInputChange _ => true
  | .admissionWaitExpiry _ => true
  | .dwellTimerExpiry _ => true
  | .trackStep _ => true
  | .starvePatienceExpiry _ => true
  | .lagTimerExpiry _ _ => true
  | .lineByte _ _ _ => true
  | .assemblerGapTimeout _ => true
  | .silenceTimerExpiry _ => true
  | .graceTimerExpiry => true
  | .windSecond => true
  | .stowDeadlineExpiry => true
  | .releaseHoldExpiry => true
  | .meltStep _ => true
  | .tailTimerExpiry _ => true
  | .pedestalSlot => true
  | .replyWindowClose => true
  | .powerLoss => true

end Sys2Proof
end

