-- ==== Sys2Proof/Machine/Exchange.lean ====
section
/-! DEFINITION. The exchange side: trail, answers, pages, registers, sweeps and the link reset
(chapter 8). -/

namespace Sys2Proof.Machine

def Part.modXm (f : Exchange → Exchange) (p : Part) : Part := { p with xm := f p.xm }

def Part.modBlocks (f : Blocks → Blocks) (p : Part) : Part := { p with blocks := f p.blocks }

def Exchange.modMem (f : Memory → Memory) (x : Exchange) : Exchange := { x with mem := f x.mem }

/-! ### Registers (R169, R170, 10.2) -/

def Cause.bit : Cause → Nat
  | .answer => 0
  | .trail => 1
  | .wind => 2
  | .safety => 3
  | .lock => 4
  | .presence => 5
  | .settings => 6

def Exchange.setCause (c : Cause) (x : Exchange) : Exchange :=
  { x with cause := x.cause ||| BitVec.ofNat 7 (2 ^ c.bit) }

/-- ATTN is asserted exactly when CAUSE and MASK meet (R170). -/
def Exchange.attn (x : Exchange) : Bool := x.cause &&& x.mask != 0

/-- IDENT: family, revision, READY, settings state (R169, 10.2). -/
def Part.ident (p : Part) : Word :=
  BitVec.ofNat 16 (0x2C00 + 0x10 + 8 * bit p.xm.ready + p.blocks.site.state.ctorIdx)

/-- A write of 1 to a bit of CAUSE clears that cause (R170). -/
def clearCause (value : Word) (p : Part) : Part :=
  p.modXm (fun x => { x with cause := x.cause &&& ~~~(value.setWidth 7) })

/-- A write of MASK (R170, 10.2). -/
def writeMask (value : Word) (p : Part) : Part := p.modXm (fun x => { x with mask := value.setWidth 7 })

/-- The four registers (10.2). -/
inductive Register where
  | ident | nudge | cause | mask
deriving DecidableEq, Repr

/-- What a read of a register gives; a read has no effect (R169, R170, 10.2). -/
def Part.readRegister (p : Part) : Register → Word
  | .ident => p.ident
  | .nudge => 0
  | .cause => p.xm.cause.setWidth 16
  | .mask => p.xm.mask.setWidth 16

/-! ### The trail (R179 to R181) -/

/-- The unread count U (R179). -/
def unread (x : Exchange) : Nat :=
  let u := (x.writeSequence.setWidth 16 - x.mem.readWord 0x000C).toNat
  if 128 < u then 0 else u

/-- The mark sampled (R181). -/
def sampleMark (count : Nat) (x : Exchange) : Exchange :=
  let v := x.mem.readWord 0x000C
  if v = x.sampledRead then x
  else { x with sampledRead := v, lingerSpent := false
                linger := if unread x = 0 then none else some (count + 500) }

/-- One entry written at its position (R179 to R181); SAFETY by its kind (R170). -/
def writeEntry (level count : Nat) (e : TrailEvent) (time : ArrayTime) (valid : Bool) (x : Exchange) :
    Exchange :=
  let before := unread x
  let pos := 0x3000 + 32 * (x.writeSequence.toNat % 128)
  let x1 := { x with
    mem := x.mem.writeBytes pos (entryBytes x.writeSequence e time valid)
    writeSequence := x.writeSequence + 1
    linger := if x.linger.isNone && !x.lingerSpent then some (count + 500) else x.linger }
  let x2 := if before < level ∧ level ≤ unread x1 then x1.setCause .trail else x1
  if e.safety then x2.setCause .safety else x2

/-- An event handed to the trail writer (R179). -/
def takeEvent (level count : Nat) (e : TrailEvent) (time : ArrayTime) (valid : Bool) (x : Exchange) :
    Exchange :=
  let x0 := sampleMark count x
  if 128 ≤ unread x0 then { x0 with dropped := min 65535 (x0.dropped + 1) }
  else if x0.dropped = 0 then writeEntry level count e time valid x0
  else
    let x1 := { writeEntry level count (.trailGap x0.dropped) time valid x0 with dropped := 0 }
    if 128 ≤ unread x1 then { x1 with dropped := 1 } else writeEntry level count e time valid x1

/-- The linger timer expires (R181). -/
def lingerExpiry (count : Nat) (x : Exchange) : Exchange :=
  let x1 := sampleMark count { x with linger := none }
  if x.mem.readWord 0x000C = x.sampledRead ∧ 0 < unread x then
    { x1.setCause .trail with lingerSpent := true }
  else x1

/-! ### Answers (R176) -/

/-- An answer is written: its fields, then ANSWERED (R176). -/
def writeAnswer (s : SlotId) (a : Answer) (time : ArrayTime) (valid : Bool) (x : Exchange) : Exchange :=
  let m := x.mem.writeBytes (slotBase s + 0x68) (answerBytes a time valid)
  ({ x with mem := setSlotState s .answered m
            heldList := x.heldList.filter (fun h => h.slot != s)
            answerMarks := x.answerMarks ||| BitVec.ofNat 32 (2 ^ s.val) }).setCause .answer

/-! ### What the blocks have handed over -/

/-- One output is taken; a change of time is shown in the summary at once (R192). -/
def takeOutput (level : Nat) (c : Clock) (o : Output) (x : Exchange) : Exchange :=
  match o with
  | .trail e t v =>
    let x1 := takeEvent level c.count e t v x
    match e with
    | .timeSet _ _ _ _ => { x1 with shownTime := c.time, shownValid := c.valid }
    | _ => x1
  | .answer s a t v => writeAnswer s a t v x
  | .cause k => x.setCause k
  | .page _ => x

/-! ### Publication (R26, R70, R89, R121, R144, R165, R167, R168) -/

def Editions.get (e : Editions) : Page → Word
  | .common => e.common
  | .dish d => e.dish[d]
  | .formation f => e.formation[f]
  | .wind => e.wind
  | .power => e.power
  | .zone z => e.zone[z]
  | .lockEntry l => e.lockEntry[l]

def Editions.set (e : Editions) (p : Page) (v : Word) : Editions :=
  match p with
  | .common => { e with common := v }
  | .dish d => { e with dish := e.dish.set d v }
  | .formation f => { e with formation := e.formation.set f v }
  | .wind => { e with wind := v }
  | .power => { e with power := v }
  | .zone z => { e with zone := e.zone.set z v }
  | .lockEntry l => { e with lockEntry := e.lockEntry.set l v }

/-- The bytes that a publication leaves at a page; the two words of the common page that the site computer
writes are left alone (R168). -/
def writePage (pg : Page) (edition : Word) (p : Part) (m : Memory) : Memory :=
  match pg with
  | .common =>
    let c := commonPage p
    ((m.writeBytes 0x0000 (word16 edition ++ c.pulse)).writeBytes 0x0006 (zeros 2 ++ c.sequence)).writeBytes
      0x0010 (fit 240 c.summary)
  | pg => m.writeBytes pg.base (word16 edition ++ pageBytes pg p.blocks)

/-- One republication: EDITION odd, the fields, EDITION even (R167). -/
def publish (pg : Page) (p : Part) : Part :=
  let e := p.xm.editions.get pg + 2
  p.modXm (fun x => { x with editions := x.editions.set pg e, mem := writePage pg e p x.mem })

/-- The fields of a dish record whose change republishes its page: those of the table of R1, a timer as running
or stopped, without the axes, the inputs and the start of the move in hand (R1, R26). -/
def Dish.shown (d : Dish) : Dish :=
  let a : Axis := { encoder := none, fresh := false, profile := none, position := 0, rate := 0
                    rateDemand := 0, rateSetting := 0, softLow := 0, softHigh := 0, lowBar := false, highBar := false
                    followingCount := 0, missed := false, ampReady := false, limitLow := false
                    limitHigh := false, servoDue := 0 }
  let t := fun x : Timer => x.map (fun _ => 0)
  { d with
    az := a, el := a, pinIn := false, pinOut := false, startMode := .atReady, startAwaited := false
    warningTimer := t d.warningTimer, brakeTimer := t d.brakeTimer, settleTimer := t d.settleTimer
    settleLimit := t d.settleLimit, holdTimer := t d.holdTimer, pinTimer := t d.pinTimer }

/-- The fields of a formation record whose change republishes its page: all but the timers (R70). R44 counts a lag
watch among the TIMERS, and the page of R70 carries which watches are OPEN; the model republishes where one opens
or closes, and not for its lag timer and its written mark (log entry 55). -/
def Formation.shown (m : Formation) : Formation :=
  ({ m with admission := none, dwell := none, starve := none, trackStep := none, wrapFail := none }).mapMembers
    (fun x => { x with stage := .out, kept := none, lagTimer := none, lagWritten := false, lastLag := 0 })

/-- The fields of a zone record whose change republishes its page (R144). -/
def Zone.shown (x : Zone) : Zone := { x with tail := none, stepDue := 0 }

/-- What SET_BUDGET or an adoption may change of the values on the power page, besides what the grant event
changes that goes with it (R89). -/
def powerKey (b : Blocks) : List Nat :=
  [b.settings.feederMax, b.settings.reserve, b.settings.deratePermille, b.fa.requested]

/-- Whether a command has changed what republishes a page. The common page is republished at the events that
R168 and R192 name: TW's and XM's changes, pulses, changes of array time and link resets. -/
def pageTouched (pg : Page) (old new : Part) : Bool :=
  let o := old.blocks
  let n := new.blocks
  match pg with
  | .common => false
  | .dish d => (o.dish d).shown != (n.dish d).shown
  | .formation f => (o.form f).shown != (n.form f).shown
  | .wind => o.wind.state != n.wind.state || o.wind.dataKnown != n.wind.dataKnown
      || o.wind.records != n.wind.records || allLines.any (fun l => (o.line l).state != (n.line l).state)
  | .power => powerKey o != powerKey n
  | .zone z => (o.zone z).shown != (n.zone z).shown
      || (zoneClass z == .surface
          && (o.shed (zoneDish z) != n.shed (zoneDish z)
              || (o.dish (zoneDish z)).score != (n.dish (zoneDish z)).score))
  | .lockEntry e => lockEntry e o != lockEntry e n

/-! ### Republications of the common page (R168) -/

/-- How often TW republishes the common page for one event: once for each change of WRITE SEQUENCE or DROPPED
COUNT, so twice where a TRAIL_GAP comes before it (R168, R179). -/
def trailPublications (count : Nat) (x : Exchange) : Nat :=
  let x0 := sampleMark count x
  if 128 ≤ unread x0 then (if x0.dropped < 65535 then 1 else 0) else if x0.dropped = 0 then 1 else 2

/-- The same for outputs in order. -/
def outputPublications (level : Nat) (c : Clock) : List Output → Exchange → Nat
  | [], _ => 0
  | o :: os, x =>
    (match o with
      | .trail _ _ _ => trailPublications c.count x
      | .answer _ _ _ _ => 0
      | .cause _ => 0
      | .page _ => 0) + outputPublications level c os (takeOutput level c o x)

/-- How many of READY, the settings state and the attended state a command has changed: no command changes one
of them twice. XM republishes the common page for each, and at each change of WIND STATE and of BUDGET IN FORCE,
which hand on a mark of their own (`changeWind`, `enterStowing`, `recomputeForce`; R168). -/
def summaryChanges (old new : Part) : Nat :=
  bit (old.xm.ready != new.xm.ready) + bit (old.blocks.site.state != new.blocks.site.state)
    + bit (old.blocks.presence.attended != new.blocks.presence.attended)

/-- Every page, the common page last. -/
def allPages : List Page :=
  allDishes.map Page.dish ++ allFormations.map Page.formation ++ [.wind, .power]
    ++ allZones.map Page.zone ++ (List.finRange 36).map Page.lockEntry ++ [.common]

def markedPages (out : List Output) : List Page :=
  out.filterMap (fun o => match o with
    | .page p => some p
    | .trail _ _ _ => none
    | .answer _ _ _ _ => none
    | .cause _ => none)

/-- The part once the outputs of its blocks are taken, in the order handed, and before any page is
published. -/
def beforePages (p : Part) : Part :=
  { blocks := { p.blocks with out := [] }
    xm := p.blocks.out.foldl (fun x o => takeOutput p.blocks.settings.triggerLevel p.blocks.clock o x) p.xm }

/-- How often TW and XM republish the common page at the end of a command, besides the marks (R168). -/
def commonPublications (old p : Part) : Nat :=
  outputPublications p.blocks.settings.triggerLevel p.blocks.clock p.blocks.out p.xm
    + summaryChanges old (beforePages p)

/-- The pages that the end of a command publishes: those that a rule names once for each marking, then those
whose fields have changed once more, and the common page for TW and XM (log entry 9). So a servo event that
changes its dish record republishes the dish page twice, at the change and at its completion (R26). -/
def flushedPages (old p : Part) : List Page :=
  markedPages p.blocks.out ++ allPages.filter (fun pg => pageTouched pg old (beforePages p))
    ++ List.replicate (commonPublications old p) .common

/-- The end of a command: the outputs are taken and the pages published. -/
def flush (old : Part) (p : Part) : Part :=
  (flushedPages old p).foldl (fun x pg => publish pg x) (beforePages p)

/-- One action of a block, with everything that it brings about in the same command. -/
def run (f : Blocks → Blocks) (p : Part) : Part :=
  flush p { p with blocks := settle p.blocks (f p.blocks) }

/-! ### Outside (8.1) -/

/-- What happened outside before a command; none where a word lies outside the memory (log entry 7). -/
def seeOne (p : Part) (o : Outside) : Option Part :=
  match o with
  | .memoryWord a v =>
    if o.wellFormed then some (p.modXm (Exchange.modMem (Memory.writeWord a v))) else none
  | .amplifierReady d ax =>
    some (p.modBlocks (Blocks.modDish d (Dish.modAxis ax (fun x => { x with ampReady := true }))))

def see (seen : List Outside) (p : Part) : Option Part := seen.foldlM seeOne p

/-! ### Owners of orders (R175, R178) -/

/-- Whether a verb is one of the formation planner's (R45). -/
def OrderBody.ofFormation : OrderBody → Bool
  | .form => true
  | .disband => true
  | .halt => true
  | .slew _ _ _ _ => true
  | .trackLoad _ _ => true
  | .track _ => true
  | .raster _ _ _ _ _ _ _ => true
  | .stow => false
  | .release => false
  | .meltMode _ _ => false
  | .lock _ _ _ => false
  | .unlock _ _ => false
  | .setBudget _ => false
  | .clearFault => false
  | .setTime _ => false
  | .adjustTime _ => false
  | .adoptSite => false
  | .commitSite => false
  | .unknown _ => false

/-- The formation that the FORMATION field names (R45). -/
inductive Named where
  | explicit (f : FormationId)
  | last (f : FormationId)
  | refused (a : Answer)

def nameFormation (field : Byte) (last : Option FormationId) : Named :=
  match formationNumber field with
  | some f => .explicit f
  | none =>
    if field = 15 then
      match last with
      | some f => .last f
      | none => .refused (plainAnswer .noLast)
    else .refused (badField 4)

def Named.formation : Named → Option FormationId
  | .explicit f => some f
  | .last f => some f
  | .refused _ => none

/-- The checks that the order taker makes itself (R175). -/
def takerRefused (o : Order) (named : Named) : Option Answer :=
  match o.body with
  | .unknown _ => some (plainAnswer .unknownVerb)
  | body =>
    if o.flags ≠ 0 then some (badField 5)
    else if body.ofFormation then
      match named with
      | .refused a => some a
      | .explicit _ => none
      | .last _ => none
    else none

/-- An order handed to its owner; true where work stays in flight (R175, R176). -/
def giveOrder (s : SlotId) (o : Order) (f : FormationId) (staging : List Byte) (b : Blocks) : Blocks × Bool :=
  match o.body with
  | .form => (takeForm s f o.dishes b, false)
  | .disband => (takeDisband s f b, false)
  | .halt => (takeHalt s f b, false)
  | .slew az el wrap mode => takeSlew s f az el wrap mode b
  | .trackLoad n ps => (takeTrackLoad s f n ps b, false)
  | .track wrap => takeTrack s f wrap b
  | .raster sa se da de n dwell wrap => takeRaster s f sa se da de n dwell wrap b
  | .stow => takeStow s o.dishes b
  | .release => (takeRelease s o.dishes b, false)
  | .meltMode mode forced => (takeMeltMode s o.dishes o.classes mode forced b, false)
  | .lock d c t => takeLock s d c t b
  | .unlock d t => (takeUnlock s d t b, false)
  | .setBudget v => (takeBudget s v.toNat b, false)
  | .clearFault => (takeClearFault s o.dishes b, false)
  | .setTime t => (takeSetTime s t b, false)
  | .adjustTime x => (takeAdjustTime s x b, false)
  | .adoptSite => (takeAdopt s staging b, false)
  | .commitSite => takeCommit s b
  | .unknown _ => (b, false)

/-- The end of a held order by its owner: `code` where it is answered (R178). -/
def endOrder (h : HeldOrder) (code : Option AnswerCode) (b : Blocks) : Blocks :=
  match h.order.body with
  | .slew _ _ _ _ => endFormationOrder h.slot code b
  | .track _ => endFormationOrder h.slot code b
  | .raster _ _ _ _ _ _ _ => endFormationOrder h.slot code b
  | .stow => endStowOrder h.slot code b
  | .lock _ _ _ => endLockOrder h.slot code b
  | .commitSite => endCommitOrder h.slot code b
  | .form | .disband | .halt | .trackLoad _ _ | .release | .meltMode _ _ | .unlock _ _ | .setBudget _
  | .clearFault | .setTime _ | .adjustTime _ | .adoptSite | .unknown _ => b

/-! ### The take (R171, R174 to R176) -/

/-- The code of the last answer handed over for a slot. -/
def answeredCode (s : SlotId) (out : List Output) : Option AnswerCode :=
  out.foldl (fun acc o => match o with
    | .answer t a _ _ => if t = s then some a.code else acc
    | .trail _ _ _ => acc
    | .cause _ => acc
    | .page _ => acc) none

/-- LAST FORMATION after a take: an explicit formation, unless the order was refused (R45). -/
def nextLast (named : Named) (ofFp : Bool) (code : Option AnswerCode) (old : Option FormationId) :
    Option FormationId :=
  match named with
  | .explicit f => if ofFp && !(code.any AnswerCode.refusal) then some f else old
  | .last _ => old
  | .refused _ => old

def clearMark (s : SlotId) (marks : BitVec 32) : BitVec 32 := marks &&& ~~~(BitVec.ofNat 32 (2 ^ s.val))

/-- The staging page as the site store copies it: its 1024 bytes of the site record (R187, 10.7). -/
def stagingBytes (m : Memory) : List Byte := m.readBytes 0x4000 1024

/-- The order taker's own part of a take: the mark, EXPECTED POST, TAKEN and HELD LIST for work in flight,
LAST FORMATION (R45, R171, R174, R176). -/
def recordTake (s : SlotId) (o : Order) (named : Named) (standing : Bool) (code : Option AnswerCode)
    (x : Exchange) : Exchange :=
  let f := if o.body.ofFormation then named.formation else none
  let x1 := { x with
    answerMarks := clearMark s x.answerMarks, expectedPost := o.post + 1
    lastFormation := nextLast named o.body.ofFormation code x.lastFormation }
  if standing then
    { x1 with mem := setSlotState s .taken x1.mem, heldList := x1.heldList ++ [⟨s, o, f⟩] }
  else x1

/-- A PLACED order is taken, through its answer or its TAKEN (R174 to R176). -/
def takeOrder (s : SlotId) (o : Order) (p : Part) : Part :=
  let named := nameFormation o.formation p.xm.lastFormation
  let r : Blocks × Bool :=
    match takerRefused o named with
    | some a => (p.blocks.answer s a, false)
    | none => giveOrder s o (named.formation.getD 0) (stagingBytes p.xm.mem) p.blocks
  let x := recordTake s o named r.2 (answeredCode s r.1.out) p.xm
  flush p { blocks := settle p.blocks r.1, xm := x }

/-- The slot and the order of one order command: the site computer writes the order into its slot, and
the sweep that finds it takes it (8.8, R173 to R175). -/
def abandonSlot (h : HeldOrder) (p : Part) : Part :=
  let p1 := p.modXm (fun x => { x with heldList := x.heldList.filter (fun g => g.slot != h.slot) })
  run (fun b => (endOrder h none b).trail
    (.orderAbandoned h.slot h.order.body.verb.toNat h.order.post h.formation)) p1

def abandonHeld (s : SlotId) (p : Part) : Part :=
  match p.xm.heldList.find? (fun h => h.slot == s) with
  | some h => abandonSlot h p
  | none => p

/-- An order command (R173 to R176). While READY is clear there is no sweep, and the order only stands in
its slot. -/
def command (s : SlotId) (o : Order) (p : Part) : Part :=
  if p.xm.ready then
    let p1 := abandonHeld s p
    takeOrder s o (p1.modXm (Exchange.modMem (placeOrder s o)))
  else p.modXm (Exchange.modMem (placeOrder s o))

/-! ### Sweeps (R172 to R174) -/

/-- One held slot in the held phase (R173). -/
def sweepHeld (h : HeldOrder) (p : Part) : Part :=
  if p.xm.heldList.any (fun g => g.slot == h.slot) then
    match slotState h.slot p.xm.mem with
    | some .taken => p
    | some .cutAsked => run (endOrder h (some .endedCut)) p
    | some .placed => abandonSlot h p
    | some .empty => abandonSlot h p
    | some .answered => abandonSlot h p
    | none => abandonSlot h p
  else p

def allSlots : List SlotId := List.finRange 32

def isHeld (x : Exchange) (s : SlotId) : Bool := x.heldList.any (fun h => h.slot == s)

/-- Slots found EMPTY lose their mark (R174). -/
def sweepEmpty (s : SlotId) (x : Exchange) : Exchange :=
  if slotState s x.mem = some .empty ∧ isHeld x s = false then
    { x with answerMarks := clearMark s x.answerMarks }
  else x

/-- A slot found CUT_ASKED without a mark is answered without a take (R174). -/
def sweepCut (s : SlotId) (p : Part) : Part :=
  if slotState s p.xm.mem = some .cutAsked ∧ isHeld p.xm s = false ∧ p.xm.answerMarks.getLsbD s.val = false then
    run (fun b => b.answer s (plainAnswer .endedCut)) p
  else p

/-- The key of a candidate (R174). -/
def takeKey (x : Exchange) (s : SlotId) : Nat := ((orderAt s x.mem).post - x.expectedPost).toNat

/-- Insertion in ascending key, an equal key behind (R174). -/
def insertByKey (key : SlotId → Nat) (s : SlotId) : List SlotId → List SlotId
  | [] => [s]
  | t :: ts => if key s < key t then s :: t :: ts else t :: insertByKey key s ts

/-- The candidates in the order of their take (R174). -/
def candidates (x : Exchange) : List SlotId :=
  (allSlots.filter (fun s => slotState s x.mem == some .placed && !isHeld x s)).foldl
    (fun acc s => insertByKey (takeKey x) s acc) []

def takePlaced (s : SlotId) (p : Part) : Part := takeOrder s (orderAt s p.xm.mem) p

/-- A sweep: the held phase, then the take phase (R172 to R174). -/
def sweep (p : Part) : Part :=
  let p1 := p.xm.heldList.foldl (fun q h => sweepHeld h q) p
  let p2 := p1.modXm (fun x => allSlots.foldl (fun y s => sweepEmpty s y) x)
  let p3 := allSlots.foldl (fun q s => sweepCut s q) p2
  (candidates p3.xm).foldl (fun q s => takePlaced s q) p3

/-! ### Link reset (R69, R119, R145, R183) -/

/-- Steps 1 of the link reset, in the blocks: every held order ends as an abandonment, formations are
disbanded, STANDING STOWS emptied, lock slots dropped. What they hand to the trail writer is lost in
step 3. -/
def resetOrders (held : List HeldOrder) (b : Blocks) : Blocks :=
  let b1 := held.foldl (fun x h => endOrder h none x) b
  let b2 := dropLockSlots ((resetFormations b1).modWind (fun w => { w with standing := [] }))
  { b2 with out := b2.out.filter (fun o => match o with
      | .page _ => true
      | .trail _ _ _ => false
      | .answer _ _ _ _ => false
      | .cause _ => false) }

/-- Steps 2 to 4 (R183). The trail is emptied by its counts: R183 does not say that the bytes of its entries
are cleared, and the model leaves them (log entry 42). -/
def resetExchange (x : Exchange) : Exchange :=
  let m := allSlots.foldl (fun y s => setSlotState s .empty y) x.mem
  { x with
    mem := m.writeBytes 0x000C (zeros 4)
    heldList := [], expectedPost := 0, lastFormation := none, answerMarks := 0
    writeSequence := 0, dropped := 0, linger := none, sampledRead := 0, lingerSpent := false
    cause := 0, mask := 0 }

/-- The link reset: what its steps bring about follows, and every page is written afresh, the common page with
the array time that it showed (R183; log entry 49). -/
def linkReset (p : Part) : Part :=
  let b := resetOrders p.xm.heldList p.blocks
  let fresh := { b with out := b.out ++ allPages.map Output.page }
  flush p { blocks := settle p.blocks fresh, xm := resetExchange p.xm }

/-! ### NUDGE (R169) -/

/-- A write to NUDGE (R169). -/
def writeNudge (value : Word) (p : Part) : Part :=
  if p.xm.ready then
    if value = 1 then sweep p else if value = 2 then linkReset p else p
  else p

/-! ### Periodic events of the exchange side (R168, R171, R181, R182) -/

def sweepExpiry (p : Part) : Part :=
  let p1 := p.modBlocks (Blocks.runTo p.xm.sweepDue)
  sweep (p1.modXm (fun x => { x with sweepDue := p1.blocks.clock.count + 50 }))

/-- The pulse event (R168, R181). -/
def pulse (p : Part) : Part :=
  let p1 := p.modBlocks (Blocks.runTo p.xm.pulseDue)
  let c := p1.blocks.clock
  let p2 := p1.modXm (fun x => sampleMark c.count { x with
    pulse := x.pulse + 1, shownTime := c.time, shownValid := c.valid, pulseDue := c.count + 100 })
  run (Blocks.publish .common) p2

def onLinger (p : Part) : Part :=
  match p.xm.linger with
  | none => p
  | some n =>
    let p1 := p.modBlocks (Blocks.runTo n)
    p1.modXm (lingerExpiry p1.blocks.clock.count)

def onPresence (p : Part) : Part :=
  let p1 := p.modBlocks (Blocks.runTo p.xm.presenceDue)
  let p2 := p1.modXm (fun x => { x with presenceDue := p1.blocks.clock.count + 1000 })
  run (checkPresence (p2.xm.mem.readWord 0x0004)) p2

end Sys2Proof.Machine
end

