-- ==== Sys2Proof/Machine/PowerOn.lean ====
section
/-! DEFINITION. The part after power-on (R1, R2, R25, R44, R71, R90, R96, R106, R122, R134 to R136, R145,
R157, R166, R168 to R171, R179 to R182, R184, R185, R191), and the loss of power (R190). -/

namespace Sys2Proof.Machine

/-- An axis after power-on (R2). `PROFILE POSITION` is the encoder position at its first reading; before
it, 0 (log entry 4). -/
def freshAxis (st : Settings) (a : AxisId) (ready low high : Bool) : Axis :=
  { encoder := none, fresh := false, profile := none, position := 0, rate := 0, rateDemand := 0, rateSetting := st.rate a
    softLow := st.softLow a, softHigh := st.softHigh a, lowBar := false, highBar := false
    followingCount := 0, missed := false, ampReady := ready, limitLow := low, limitHigh := high
    servoDue := 0 }

/-- The lock summary that a key slot of origin SILENT gives (R147). -/
def silentSummary : LockSummary :=
  { motionLocked := true, heatLocked := false, stopPending := false, stowYielding := true }

/-- A dish after power-on (R1). -/
def freshDish (st : Settings) (levels : FieldLevels) (d : DishId) : Dish :=
  { drive := if levels.pinIn.has d then .pinned else .braked
    task := .none, owner := none, formation := none, reasons := ⟨false, false⟩, lock := silentSummary
    score := st.startScore, derate := derateOf st.snowReading st.startScore, motionGrant := none, faultKind := none
    horn := .idle, selector := .normal, removalMark := false, nextAction := .none
    kindsSeen := .empty, startKept := false, readyReported := false, absorbed := .empty
    pinningOwner := none, stopRequesters := .empty
    warningTimer := none, brakeTimer := none, settleTimer := none, settleLimit := none
    holdTimer := none, pinTimer := none, startMode := .atReady, startAwaited := false
    az := freshAxis st .az (levels.ampReadyAz.has d) (levels.limitLowAz.has d) (levels.limitHighAz.has d)
    el := freshAxis st .el (levels.ampReadyEl.has d) (levels.limitLowEl.has d) (levels.limitHighEl.has d)
    pinIn := levels.pinIn.has d, pinOut := levels.pinOut.has d }

/-- The feeder arbiter after power-on (R71). -/
def freshArbiter (st : Settings) (derate : Bool) : Arbiter :=
  let target := budgetTarget st st.feederMax derate
  { requested := st.feederMax, derate := derate, target := target, inForce := target, held := false
    queue := [], grants := Vector.replicate 12 none, sequence := 0 }

/-- An anemometer line after power-on (R90). -/
def freshLine : Line :=
  { fifo := [], lostSince := false, gathered := [], gapTimer := none, state := .silent, goodRun := 0
    silenceTimer := none, lastGood := none, secondSum := 0, secondCount := 0, goodCount := 0, voidCount := 0 }

def freshStow : StowRecord :=
  { phase := .none, cause := none, late := false, unpinWanted := false, rehand := false }

/-- The wind watch after power-on (R96, R106); the reading is that of the ATTENDED set (log entry 6). -/
def freshWind (st : Settings) : WindWatch :=
  { seconds := [], gust := none, mean := none, direction := none, dataKnown := true, grace := some 10000
    state := .calm, releaseHold := none, deadline := none, records := Vector.replicate 12 freshStow
    standing := [], reading := ⟨.attended, st.thresholds .attended, st.fallback, st.autoRelease⟩
    secondDue := 0 }

/-- A zone after power-on (R122). -/
def freshZone (st : Settings) (z : ZoneId) : Zone :=
  { rated := st.ratedPower (zoneClass z), mode := .auto, forced := 0, demand := 0, request := 0, grant := 0
    grantedDuty := 0, applied := 0, state := .off, tail := none, stepDue := 0 }

/-- The level sides from the start score, the shed ARMED (R134, R136). -/
def freshShed (st : Settings) : Shed :=
  { armed := true, phase := .none, onset := decide (st.onset ≤ st.startScore)
    soft := decide (st.soft ≤ st.startScore), hard := decide (st.hard ≤ st.startScore) }

/-- A key slot after power-on: a SILENT record (R145). -/
def silentRecord (d : DishId) : LockRecord :=
  { dish := d, origin := .silent, cls := .motion, tag := 0, state := .effective, placedAt := 0
    placedValid := false, slot := none }

/-- A panel after power-on (R157). -/
def freshPanel : Panel :=
  { link := .silent, voids := 3, key := none, readDue := false, takenDue := false, refusedFlash := false
    lamps := ⟨false, false, false, false⟩ }

/-- SS loads the NV RECORD, or takes the factory defaults (R184, R185). -/
def loadSite (nv : List Byte) (failures : Nat) : SiteStore :=
  let stored := (loadFailure nv).isNone
  let st := if stored then recordSettings nv else factoryDefaults
  { working := st, crc := settingsCrc st, state := if stored then .stored else .provisional
    nv := nv, commit := none, failures := failures }

/-- The blocks after power-on. -/
def freshBlocks (levels : FieldLevels) (site : SiteStore) : Blocks :=
  let st := site.working
  { clock := ⟨0, false, 0⟩, presence := ⟨.attended, 0, 0⟩, site := site
    dishes := Vector.ofFn (freshDish st levels), heaters := Vector.replicate 36 ⟨false, 0⟩
    forms := Vector.replicate 8 unusedFormation, fa := freshArbiter st levels.derate
    lines := Vector.replicate 3 freshLine, wind := freshWind st
    zones := Vector.ofFn (freshZone st), sheds := Vector.replicate 12 (freshShed st)
    meltReadings := Vector.ofFn (fun z => st.meltReading (zoneClass z))
    snowReadings := Vector.replicate 12 st.snowReading
    keySlots := Vector.ofFn (fun d => some (silentRecord d)), pool := Vector.replicate 24 none
    pedestal := ⟨Vector.replicate 12 freshPanel, 0, none, [], 0⟩
    inbox := [], out := [] }

def zeroEditions : Editions :=
  { common := 0, dish := Vector.replicate 12 0, formation := Vector.replicate 8 0, wind := 0, power := 0
    zone := Vector.replicate 36 0, lockEntry := Vector.replicate 36 0 }

/-- The exchange side after the power-on clear: every word of the memory 0, so every slot EMPTY, and
READY set once the settings have been loaded (R166, R168 to R171, R179, R181). -/
def freshExchange : Exchange :=
  { mem := [], editions := zeroEditions, ready := true, cause := 0, mask := 0, pulse := 0, shownTime := 0
    shownValid := false, heldList := [], expectedPost := 0, lastFormation := none, answerMarks := 0
    sweepDue := 50, pulseDue := 100, presenceDue := 1000, writeSequence := 0, dropped := 0, linger := none
    sampledRead := 0, lingerSpent := false }

/-- The trail entry of the load (R185). -/
def loadEvent (site : SiteStore) : TrailEvent := .settingsLoad site.state site.crc (loadFailure site.nv)

/-- Power-on: the load with its entry, then the first publication of every page (R166, R167, R185). -/
def Part.powerOn (levels : FieldLevels) (nv : List Byte) (failures : Nat) : Part :=
  let b := freshBlocks levels (loadSite nv failures)
  let x := takeEvent b.settings.triggerLevel 0 (loadEvent b.site) 0 false freshExchange
  allPages.foldl (fun p pg => publish pg p) { blocks := b, xm := x }

/-- Power-on of a part that stands as `p`: it keeps its NV RECORD alone (R184). -/
def Part.restart (levels : FieldLevels) (p : Part) : Part :=
  Part.powerOn levels p.blocks.site.nv p.blocks.site.failures

/-- Power is lost: a write in flight ends unfinished, and IDENT shows READY clear until the next settings
load has ended (R169, R190; log entry 12). -/
def Part.powerLoss (p : Part) : Part :=
  let spoilt := fun b : Blocks => if b.site.commit.isSome then { b with site := b.site.spoil } else b
  (p.modBlocks spoilt).modXm (fun x => { x with ready := false })

/-- Field inputs none of which is asserted (log entry 5). -/
def quietLevels : FieldLevels :=
  { pinIn := 0, pinOut := 0, ampReadyAz := 0, ampReadyEl := 0, limitLowAz := 0, limitHighAz := 0
    limitLowEl := 0, limitHighEl := 0, derate := false }

/-- The NV RECORD of a part in which nothing has been stored (log entry 2). -/
def blankRecord : List Byte := zeros 1024

end Sys2Proof.Machine
end

