-- ==== Sys2Proof/Machine/State.lean ====
section
/-! DEFINITION. The state of the machine, its stops, and the machine right after reset. -/

namespace Sys2Proof.Machine

/-- The part, and the commands that wait for it, first in, first out. -/
structure State where
  part : Part
  pending : List Instr
deriving DecidableEq, Repr

/-- Why the machine stops with a fault. -/
inductive Fault where
  /-- Raised by a command whose `seen` holds a site write outside the 32 KiB of the memory or at an odd
  address: the spec knows no such word (8.1). Safe: nothing goes on from it. -/
  | noSuchWord
deriving DecidableEq, Repr

/-- Why the machine refuses a command. -/
inductive Refusal where
  /-- Raised by an arm of `exec` that has no meaning yet; no arm does. Safe: nothing goes on from it. -/
  | notModelled (mnemonic : String)
deriving DecidableEq, Repr

/-- The machine right after power-on with a blank NV RECORD and no field input asserted, no command
waiting (log entries 2 and 5). -/
def State.reset : State := { part := Part.powerOn quietLevels blankRecord 0, pending := [] }

end Sys2Proof.Machine
end

