-- ==== Sys2Proof/Machine/Commands.lean ====
section
/-! DEFINITION. What the meanings of the commands share. -/

namespace Sys2Proof.Machine

abbrev Result := Host.Outcome State Fault Refusal

def State.modPart (f : Part → Part) (s : State) : State := { s with part := f s.part }

/-- A command that changes the part and nothing else. -/
def act (f : Part → Part) (s : State) : Result := .next (s.modPart f)

/-- A command before which something happened outside; it faults where a word was written that does not
exist (log entry 7). -/
def actSeen (seen : List Outside) (f : Part → Part) (s : State) : Result :=
  match see seen s.part with
  | some p => act f { s with part := p }
  | none => .fault .noSuchWord

/-- A command that one block takes, with all that it brings about. -/
def actBlocks (f : Blocks → Blocks) (s : State) : Result := act (run f) s

/-- An order command (R173 to R176). -/
def actOrder (h : OrderHead) (formation : Byte) (dishes classes : Word) (body : OrderBody) (s : State) :
    Result :=
  act (command h.slot ⟨h.post, formation, h.flags, dishes, classes, body⟩) s

/-- A periodic event of the exchange side, which has instances from the setting of READY on (R168, R171,
R182). -/
def whileReady (f : Part → Part) (p : Part) : Part := if p.xm.ready then f p else p

/-- On an empty queue one millisecond passes (R191; log entry 1). -/
def idle (s : State) : State := s.modPart (Part.modBlocks (fun b => { b with clock := b.clock.advance 1 }))

end Sys2Proof.Machine
end

