-- ==== Sys2Proof/Machine/DriveEvents.lean ====
section
/-! DEFINITION. Meanings: the events of the dish drives and of the heater outputs (chapter 1). -/

namespace Sys2Proof.Machine

/-- SERVO_EVENT (R18, R19). -/
def execServoEvent (d : DishId) (a : AxisId) (s : State) : Result := actBlocks (servo d a) s

/-- ENCODER_READING (R19). -/
def execEncoderReading (d : DishId) (a : AxisId) (position : Int) (s : State) : Result :=
  actBlocks (takeReading d a position) s

/-- ENCODER_STARTUP_TIMEOUT (R19, R20). -/
def execEncoderStartupTimeout (d : DishId) (a : AxisId) (s : State) : Result :=
  actBlocks (startupTimeout d a) s

/-- WARNING_TIMER_EXPIRY (R8, R11). -/
def execWarningTimerExpiry (d : DishId) (s : State) : Result :=
  actBlocks (fun b => b.expire (b.dish d).warningTimer (onWarningExpiry d)) s

/-- BRAKE_RELEASE_TIMER_EXPIRY (R11). -/
def execBrakeReleaseTimerExpiry (d : DishId) (seen : List Outside) (s : State) : Result :=
  actSeen seen (run (fun b => b.expire (b.dish d).brakeTimer (onBrakeReleaseExpiry d))) s

/-- SETTLE_TIMER_EXPIRY (R13). -/
def execSettleTimerExpiry (d : DishId) (s : State) : Result :=
  actBlocks (fun b => b.expire (b.dish d).settleTimer (onSettleExpiry d)) s

/-- SETTLE_LIMIT_EXPIRY (R13, R20). -/
def execSettleLimitExpiry (d : DishId) (s : State) : Result :=
  actBlocks (fun b => b.expire (b.dish d).settleLimit (faultDish d .following)) s

/-- HOLD_TO_BRAKE_EXPIRY (R13). -/
def execHoldToBrakeExpiry (d : DishId) (s : State) : Result :=
  actBlocks (fun b => b.expire (b.dish d).holdTimer (onHoldExpiry d)) s

/-- PIN_TIMER_EXPIRY (R15, R16, R20). -/
def execPinTimerExpiry (d : DishId) (s : State) : Result :=
  actBlocks (fun b => b.expire (b.dish d).pinTimer (faultDish d .pin)) s

/-- PIN_IN_SENSED (R15, R17). -/
def execPinInSensed (d : DishId) (s : State) : Result := actBlocks (onPinIn d) s

/-- PIN_OUT_SENSED (R16, R17). -/
def execPinOutSensed (d : DishId) (s : State) : Result := actBlocks (onPinOut d) s

/-- PIN_SENSOR_CEASED (R17). -/
def execPinSensorCeased (d : DishId) (sensor : PinSensor) (s : State) : Result :=
  actBlocks (onPinCeased d sensor) s

/-- LIMIT_SWITCH_ASSERTED (R20). -/
def execLimitSwitchAsserted (d : DishId) (a : AxisId) (side : Side) (s : State) : Result :=
  actBlocks (onLimit d a side) s

/-- LIMIT_SWITCH_CEASED (R24). -/
def execLimitSwitchCeased (d : DishId) (a : AxisId) (side : Side) (s : State) : Result :=
  actBlocks (onLimitCeased d a side) s

/-- AMPLIFIER_READY_LOST (R20). -/
def execAmplifierReadyLost (d : DishId) (a : AxisId) (s : State) : Result := actBlocks (onAmplifierLost d a) s

/-- HEATER_WINDOW_START (R25). -/
def execHeaterWindowStart (z : ZoneId) (s : State) : Result := actBlocks (beginWindow z) s

/-- HEATER_ON_TIME_END (R25). -/
def execHeaterOnTimeEnd (z : ZoneId) (s : State) : Result := actBlocks (endOnTime z) s

end Sys2Proof.Machine
end

