-- ==== Sys2Proof/Machine/Orders.lean ====
section
/-! DEFINITION. Meanings: the orders. A field that a verb does not carry stands as 0 in the slot (10.4). -/

namespace Sys2Proof.Machine

/-- FORM (R46). -/
def execForm (h : OrderHead) (formation : Byte) (dishes : Word) (s : State) : Result :=
  actOrder h formation dishes 0 .form s

/-- DISBAND (R69). -/
def execDisband (h : OrderHead) (formation : Byte) (s : State) : Result := actOrder h formation 0 0 .disband s

/-- HALT (R69). -/
def execHalt (h : OrderHead) (formation : Byte) (s : State) : Result := actOrder h formation 0 0 .halt s

/-- SLEW (R47 to R60). -/
def execSlew (h : OrderHead) (formation : Byte) (skyAz el : Word32) (wrap mode : Word) (s : State) : Result :=
  actOrder h formation 0 0 (.slew skyAz el wrap mode) s

/-- TRACK_LOAD (R62). -/
def execTrackLoad (h : OrderHead) (formation : Byte) (count : Word) (points : Vector RawWaypoint 6)
    (s : State) : Result := actOrder h formation 0 0 (.trackLoad count points) s

/-- TRACK (R47, R63). -/
def execTrack (h : OrderHead) (formation : Byte) (wrap : Word) (s : State) : Result :=
  actOrder h formation 0 0 (.track wrap) s

/-- RASTER (R47, R68). -/
def execRaster (h : OrderHead) (formation : Byte) (startAz startEl stepAz stepEl : Word32) (count : Word)
    (dwell : Word32) (wrap : Word) (s : State) : Result :=
  actOrder h formation 0 0 (.raster startAz startEl stepAz stepEl count dwell wrap) s

/-- STOW (R118). -/
def execStow (h : OrderHead) (dishes : Word) (s : State) : Result := actOrder h 0 dishes 0 .stow s

/-- RELEASE (R120). -/
def execRelease (h : OrderHead) (dishes : Word) (s : State) : Result := actOrder h 0 dishes 0 .release s

/-- MELT_MODE (R142). -/
def execMeltMode (h : OrderHead) (dishes classes mode forced : Word) (s : State) : Result :=
  actOrder h 0 dishes classes (.meltMode mode forced) s

/-- LOCK (R151). -/
def execLock (h : OrderHead) (dish cls tag : Word) (s : State) : Result :=
  actOrder h 0 0 0 (.lock dish cls tag) s

/-- UNLOCK (R154). -/
def execUnlock (h : OrderHead) (dish tag : Word) (s : State) : Result := actOrder h 0 0 0 (.unlock dish tag) s

/-- SET_BUDGET (R86). -/
def execSetBudget (h : OrderHead) (budget : Word) (s : State) : Result :=
  actOrder h 0 0 0 (.setBudget budget) s

/-- CLEAR_FAULT (R23). -/
def execClearFault (h : OrderHead) (dishes : Word) (s : State) : Result := actOrder h 0 dishes 0 .clearFault s

/-- SET_TIME (R191). -/
def execSetTime (h : OrderHead) (time : ArrayTime) (s : State) : Result := actOrder h 0 0 0 (.setTime time) s

/-- ADJUST_TIME (R192). -/
def execAdjustTime (h : OrderHead) (offset : Word32) (s : State) : Result :=
  actOrder h 0 0 0 (.adjustTime offset) s

/-- ADOPT_SITE (R187). -/
def execAdoptSite (h : OrderHead) (s : State) : Result := actOrder h 0 0 0 .adoptSite s

/-- COMMIT_SITE (R189). -/
def execCommitSite (h : OrderHead) (s : State) : Result := actOrder h 0 0 0 .commitSite s

/-- NV_WRITE_COMPLETION (R189). -/
def execNvWriteCompletion (completion : NvCompletion) (s : State) : Result :=
  actBlocks (onCompletion completion) s

/-- COMMIT_TIMER_EXPIRY (R189). -/
def execCommitTimerExpiry (s : State) : Result := actBlocks onCommitTimer s

end Sys2Proof.Machine
end

