-- ==== Sys2Proof/Machine/PlannerEvents.lean ====
section
/-! DEFINITION. Meanings: the events of the feeder arbiter and the formation planner (chapters 3, 4). -/

namespace Sys2Proof.Machine

/-- DERATE_INPUT_CHANGE (R74). -/
def execDerateInputChange (asserted : Bool) (s : State) : Result := actBlocks (takeDerate asserted) s

/-- ADMISSION_WAIT_EXPIRY (R52). -/
def execAdmissionWaitExpiry (f : FormationId) (s : State) : Result :=
  actBlocks (fun b => b.expire (b.form f).admission (onAdmissionOver f)) s

/-- DWELL_TIMER_EXPIRY (R68). -/
def execDwellTimerExpiry (f : FormationId) (s : State) : Result :=
  actBlocks (fun b => b.expire (b.form f).dwell (onDwellOver f)) s

/-- TRACK_STEP (R64). -/
def execTrackStep (f : FormationId) (s : State) : Result := actBlocks (onTrackStep f) s

/-- STARVE_PATIENCE_EXPIRY (R64). -/
def execStarvePatienceExpiry (f : FormationId) (s : State) : Result :=
  actBlocks (fun b => b.expire (b.form f).starve (onStarveOver f)) s

/-- LAG_TIMER_EXPIRY (R66). -/
def execLagTimerExpiry (f : FormationId) (d : DishId) (s : State) : Result :=
  actBlocks (fun b => b.expire ((b.form f).mem d).lagTimer (onLagOver f d)) s

end Sys2Proof.Machine
end

