-- ==== Sys2Proof/Machine/Registers.lean ====
section
/-! DEFINITION. Meanings: power, registers, and the timers of the exchange side (R166 to R183, R190). -/

namespace Sys2Proof.Machine

/-- POWER_ON (R166, R185). -/
def execPowerOn (levels : FieldLevels) (s : State) : Result := act (Part.restart levels) s

/-- POWER_LOSS (R190). -/
def execPowerLoss (s : State) : Result := act Part.powerLoss s

/-- NUDGE_SWEEP: a write of 1 to NUDGE (R169, R172). -/
def execNudgeSweep (seen : List Outside) (s : State) : Result := actSeen seen (writeNudge 1) s

/-- NUDGE_LINK_RESET: a write of 2 to NUDGE (R169, R183). -/
def execNudgeLinkReset (s : State) : Result := act (writeNudge 2) s

/-- CAUSE_CLEAR (R170). -/
def execCauseClear (value : Word) (s : State) : Result := act (clearCause value) s

/-- MASK_WRITE (R170). -/
def execMaskWrite (value : Word) (s : State) : Result := act (writeMask value) s

/-- REGISTER_WRITE_IGNORED: a write to IDENT, or to NUDGE (R169). -/
def execRegisterWriteIgnored (target : WriteTarget) (value : Word) (s : State) : Result :=
  match target with
  | .ident => act id s
  | .nudge => act (writeNudge value) s

/-- SWEEP_TIMER_EXPIRY (R171, R172). -/
def execSweepTimerExpiry (seen : List Outside) (s : State) : Result := actSeen seen (whileReady sweepExpiry) s

/-- PULSE_EVENT (R168, R181). -/
def execPulseEvent (seen : List Outside) (s : State) : Result := actSeen seen (whileReady pulse) s

/-- LINGER_TIMER_EXPIRY (R181). -/
def execLingerTimerExpiry (seen : List Outside) (s : State) : Result := actSeen seen onLinger s

/-- PRESENCE_CHECK (R182). -/
def execPresenceCheck (seen : List Outside) (s : State) : Result := actSeen seen (whileReady onPresence) s

end Sys2Proof.Machine
end

