-- ==== Sys2Proof/Machine/ShelterEvents.lean ====
section
/-! DEFINITION. Meanings: the events of the melt controller and the pedestal line (chapters 6, 7). -/

namespace Sys2Proof.Machine

/-- MELT_STEP (R123). -/
def execMeltStep (z : ZoneId) (s : State) : Result := actBlocks (meltStep z) s

/-- TAIL_TIMER_EXPIRY (R130). -/
def execTailTimerExpiry (z : ZoneId) (s : State) : Result :=
  actBlocks (fun b => b.expire (b.zone z).tail (onTailOver z)) s

/-- PEDESTAL_SLOT (R158). -/
def execPedestalSlot (s : State) : Result := actBlocks pedestalSlot s

/-- REPLY_WINDOW_CLOSE (R159). -/
def execReplyWindowClose (s : State) : Result := actBlocks closeWindow s

/-- PANEL_REPLY (R159, R161). -/
def execPanelReply (bytes : List Byte) (framing : Bool) (s : State) : Result :=
  actBlocks (onReply bytes framing) s

end Sys2Proof.Machine
end

