-- ==== Sys2Proof/Machine/WeatherEvents.lean ====
section
/-! DEFINITION. Meanings: the events of the anemometer lines and the wind watch (chapter 5). The data flag
is reckoned anew at each change of a line state (R99). -/

namespace Sys2Proof.Machine

/-- LINE_BYTE (R91, R92). -/
def execLineByte (l : LineId) (value : Byte) (framing : Bool) (s : State) : Result :=
  actBlocks (fun b => reckonData (takeByte l value framing b)) s

/-- ASSEMBLER_GAP_TIMEOUT (R92). -/
def execAssemblerGapTimeout (l : LineId) (s : State) : Result :=
  actBlocks (fun b => b.expire (b.line l).gapTimer (fun x => reckonData (onGap l x))) s

/-- SILENCE_TIMER_EXPIRY (R94). -/
def execSilenceTimerExpiry (l : LineId) (s : State) : Result :=
  actBlocks (fun b => b.expire (b.line l).silenceTimer (fun x => reckonData (onSilence l x))) s

/-- GRACE_TIMER_EXPIRY (R99). -/
def execGraceTimerExpiry (s : State) : Result := actBlocks (fun b => b.expire b.wind.grace onGraceOver) s

/-- WIND_SECOND (R97 to R103). -/
def execWindSecond (s : State) : Result := actBlocks windSecond s

/-- STOW_DEADLINE_EXPIRY (R113). -/
def execStowDeadlineExpiry (s : State) : Result := actBlocks (fun b => b.expire b.wind.deadline onDeadline) s

/-- RELEASE_HOLD_EXPIRY (R103, R104). -/
def execReleaseHoldExpiry (s : State) : Result :=
  actBlocks (fun b => b.expire b.wind.releaseHold calmFromRelease) s

end Sys2Proof.Machine
end

