-- ==== Sys2Proof/Machine/Dispatch.lean ====
section
/-! DEFINITION. One arm for each command. -/

namespace Sys2Proof.Machine

def exec (i : Instr) (s : State) : Host.Outcome State Fault Refusal :=
  match i with
  | .powerOn levels => Sys2Proof.Machine.execPowerOn levels s
  | .nudgeSweep seen => Sys2Proof.Machine.execNudgeSweep seen s
  | .nudgeLinkReset => Sys2Proof.Machine.execNudgeLinkReset s
  | .causeClear value => Sys2Proof.Machine.execCauseClear value s
  | .maskWrite value => Sys2Proof.Machine.execMaskWrite value s
  | .registerWriteIgnored target value => Sys2Proof.Machine.execRegisterWriteIgnored target value s
  | .sweepTimerExpiry seen => Sys2Proof.Machine.execSweepTimerExpiry seen s
  | .form h formation dishes => Sys2Proof.Machine.execForm h formation dishes s
  | .disband h formation => Sys2Proof.Machine.execDisband h formation s
  | .halt h formation => Sys2Proof.Machine.execHalt h formation s
  | .slew h formation skyAz el wrap mode => Sys2Proof.Machine.execSlew h formation skyAz el wrap mode s
  | .trackLoad h formation count points => Sys2Proof.Machine.execTrackLoad h formation count points s
  | .track h formation wrap => Sys2Proof.Machine.execTrack h formation wrap s
  | .raster h formation startAz startEl stepAz stepEl count dwell wrap => Sys2Proof.Machine.execRaster h formation startAz startEl stepAz stepEl count dwell wrap s
  | .stow h dishes => Sys2Proof.Machine.execStow h dishes s
  | .release h dishes => Sys2Proof.Machine.execRelease h dishes s
  | .meltMode h dishes classes mode forced => Sys2Proof.Machine.execMeltMode h dishes classes mode forced s
  | .lock h dish cls tag => Sys2Proof.Machine.execLock h dish cls tag s
  | .unlock h dish tag => Sys2Proof.Machine.execUnlock h dish tag s
  | .setBudget h budget => Sys2Proof.Machine.execSetBudget h budget s
  | .clearFault h dishes => Sys2Proof.Machine.execClearFault h dishes s
  | .setTime h time => Sys2Proof.Machine.execSetTime h time s
  | .adjustTime h offset => Sys2Proof.Machine.execAdjustTime h offset s
  | .adoptSite h => Sys2Proof.Machine.execAdoptSite h s
  | .commitSite h => Sys2Proof.Machine.execCommitSite h s
  | .nvWriteCompletion completion => Sys2Proof.Machine.execNvWriteCompletion completion s
  | .commitTimerExpiry => Sys2Proof.Machine.execCommitTimerExpiry s
  | .pulseEvent seen => Sys2Proof.Machine.execPulseEvent seen s
  | .lingerTimerExpiry seen => Sys2Proof.Machine.execLingerTimerExpiry seen s
  | .presenceCheck seen => Sys2Proof.Machine.execPresenceCheck seen s
  | .servoEvent d a => Sys2Proof.Machine.execServoEvent d a s
  | .encoderReading d a position => Sys2Proof.Machine.execEncoderReading d a position s
  | .encoderStartupTimeout d a => Sys2Proof.Machine.execEncoderStartupTimeout d a s
  | .warningTimerExpiry d => Sys2Proof.Machine.execWarningTimerExpiry d s
  | .brakeReleaseTimerExpiry d seen => Sys2Proof.Machine.execBrakeReleaseTimerExpiry d seen s
  | .settleTimerExpiry d => Sys2Proof.Machine.execSettleTimerExpiry d s
  | .settleLimitExpiry d => Sys2Proof.Machine.execSettleLimitExpiry d s
  | .holdToBrakeExpiry d => Sys2Proof.Machine.execHoldToBrakeExpiry d s
  | .pinTimerExpiry d => Sys2Proof.Machine.execPinTimerExpiry d s
  | .pinInSensed d => Sys2Proof.Machine.execPinInSensed d s
  | .pinOutSensed d => Sys2Proof.Machine.execPinOutSensed d s
  | .pinSensorCeased d sensor => Sys2Proof.Machine.execPinSensorCeased d sensor s
  | .limitSwitchAsserted d a side => Sys2Proof.Machine.execLimitSwitchAsserted d a side s
  | .limitSwitchCeased d a side => Sys2Proof.Machine.execLimitSwitchCeased d a side s
  | .amplifierReadyLost d a => Sys2Proof.Machine.execAmplifierReadyLost d a s
  | .heaterWindowStart z => Sys2Proof.Machine.execHeaterWindowStart z s
  | .heaterOnTimeEnd z => Sys2Proof.Machine.execHeaterOnTimeEnd z s
  | .derateInputChange asserted => Sys2Proof.Machine.execDerateInputChange asserted s
  | .admissionWaitExpiry f => Sys2Proof.Machine.execAdmissionWaitExpiry f s
  | .dwellTimerExpiry f => Sys2Proof.Machine.execDwellTimerExpiry f s
  | .trackStep f => Sys2Proof.Machine.execTrackStep f s
  | .starvePatienceExpiry f => Sys2Proof.Machine.execStarvePatienceExpiry f s
  | .lagTimerExpiry f d => Sys2Proof.Machine.execLagTimerExpiry f d s
  | .lineByte l value framing => Sys2Proof.Machine.execLineByte l value framing s
  | .assemblerGapTimeout l => Sys2Proof.Machine.execAssemblerGapTimeout l s
  | .silenceTimerExpiry l => Sys2Proof.Machine.execSilenceTimerExpiry l s
  | .graceTimerExpiry => Sys2Proof.Machine.execGraceTimerExpiry s
  | .windSecond => Sys2Proof.Machine.execWindSecond s
  | .stowDeadlineExpiry => Sys2Proof.Machine.execStowDeadlineExpiry s
  | .releaseHoldExpiry => Sys2Proof.Machine.execReleaseHoldExpiry s
  | .meltStep z => Sys2Proof.Machine.execMeltStep z s
  | .tailTimerExpiry z => Sys2Proof.Machine.execTailTimerExpiry z s
  | .pedestalSlot => Sys2Proof.Machine.execPedestalSlot s
  | .replyWindowClose => Sys2Proof.Machine.execReplyWindowClose s
  | .panelReply bytes framing => Sys2Proof.Machine.execPanelReply bytes framing s
  | .powerLoss => Sys2Proof.Machine.execPowerLoss s

end Sys2Proof.Machine
end

