-- ==== Sys2Proof/Safety.lean ====
section
/-! DEFINITION. The notions in which claims are stated: what a command leaves, a part at rest, and who
writes which bytes of the exchange memory. -/

namespace Sys2Proof

/-- What happened outside before a command. -/
def Instr.seen : Instr → List Outside
  | .nudgeSweep seen => seen
  | .sweepTimerExpiry seen => seen
  | .pulseEvent seen => seen
  | .lingerTimerExpiry seen => seen
  | .presenceCheck seen => seen
  | .brakeReleaseTimerExpiry _ seen => seen
  | _ => []

namespace Machine

/-! ### Who writes which bytes (8.1) -/

/-- Whether a publication of the page writes the byte at an address. Of the common page the part leaves
the presence word and the read sequence to the site computer (R168). -/
def Page.owns (pg : Page) (a : Nat) : Bool :=
  match pg with
  | .common => decide (a < 0x0004) || (decide (0x0006 ≤ a) && decide (a < 0x000C))
      || (decide (0x0010 ≤ a) && decide (a < 0x0100))
  | pg => decide (pg.base ≤ a) && decide (a < pg.base + pg.size)

/-- The STATE word of a slot, or its answer (10.4): what the part writes of a slot. -/
def inAnswerOrState (a : Nat) : Bool :=
  decide (0x0100 ≤ a) && decide (a < 0x1100) && (decide (a % 128 < 2) || decide (0x68 ≤ a % 128))

/-- The trail (8.1). -/
def inTrail (a : Nat) : Bool := decide (0x3000 ≤ a) && decide (a < 0x4000)

/-- The presence word, the staging page and the free area: what the site computer alone writes after
power-on (R166, R168). -/
def inSiteArea (a : Nat) : Bool :=
  decide (a = 0x0004) || decide (a = 0x0005) || (decide (0x4000 ≤ a) && decide (a < 0x8000))

/-! ### What a command leaves -/

/-- The exchange side is the same but for publications of these pages. -/
def SameButPages (pages : List Page) (x y : Exchange) : Prop :=
  y = { x with mem := y.mem, editions := y.editions }
    ∧ (∀ pg, pg ∉ pages → y.editions.get pg = x.editions.get pg)
    ∧ (∀ a, (∀ pg ∈ pages, pg.owns a = false) → y.mem.read a = x.mem.read a)

/-- What the trail writer, the order taker and the registers make of outputs, in order. -/
def takeOutputs (b : Blocks) (outs : List Output) (x : Exchange) : Exchange :=
  outs.foldl (fun y o => takeOutput b.settings.triggerLevel b.clock o y) x

/-- The command answers a next state with the queue as it was, with exactly these blocks, and with the
exchange side `x` once it has taken exactly these outputs, but for publications of these pages. -/
def Leaves (r : Result) (s : State) (b : Blocks) (x : Exchange) (outs : List Output) (pages : List Page) :
    Prop :=
  ∃ t : State, r = .next t ∧ t.pending = s.pending ∧ t.part.blocks = b
    ∧ SameButPages pages (takeOutputs b outs x) t.part.xm

/-- A page holds its EDITION and then the fields that blocks `b` give it; of the common page, what the part
writes (R167, R168). -/
def Holds (p : Part) (pg : Page) (b : Blocks) : Prop :=
  let edition := word16 (p.xm.editions.get pg)
  match pg with
  | .common =>
    let c := commonPage { p with blocks := b }
    p.xm.mem.readBytes 0x0000 4 = edition ++ c.pulse ∧ p.xm.mem.readBytes 0x0006 6 = zeros 2 ++ c.sequence
      ∧ p.xm.mem.readBytes 0x0010 240 = fit 240 c.summary
  | pg => p.xm.mem.readBytes pg.base pg.size = edition ++ pageBytes pg b

/-- A page shows its block as it stands (R167). -/
def Shows (p : Part) (pg : Page) : Prop := Holds p pg p.blocks

/-- A page shows its block as it stood at some moment, and nothing has changed since whose change republishes the
page (R26, R70, R89, R121, R144, R165). -/
def UpToDate (p : Part) (pg : Page) : Prop :=
  ∃ b : Blocks, Holds p pg b ∧ pageTouched pg { p with blocks := b } p = false

/-- A page reads as before, its EDITION too. -/
def SamePage (pg : Page) (x y : Exchange) : Prop :=
  y.editions.get pg = x.editions.get pg ∧ ∀ a, pg.owns a = true → y.mem.read a = x.mem.read a

/-! ### A part at rest -/

/-- Nothing that one block does now makes another block act later in the same command: no message waits,
no STOW order stands, WW is not waiting for stows to end, and no shed claim waits (R112, R118, R140). -/
abbrev Blocks.Quiet (b : Blocks) : Prop :=
  b.inbox = [] ∧ b.out = [] ∧ b.wind.standing = [] ∧ b.wind.state ≠ .stowing
    ∧ ∀ d, (b.shed d).phase ≠ .claiming

/-- The same, but WW may be STOWING where a dish other than `skip` is moving to stow, so that STOWING goes on
(R112). -/
abbrev Blocks.QuietBut (skip : Option DishId) (b : Blocks) : Prop :=
  b.inbox = [] ∧ b.out = [] ∧ b.wind.standing = []
    ∧ (b.wind.state = .stowing → ∃ e, some e ≠ skip ∧ movingToStow b e = true)
    ∧ ∀ d, (b.shed d).phase ≠ .claiming

/-- Where every zone asks for nothing and has nothing, and the budget in force follows from the target and
the motion held, a grant event moves no heat and no force (R73, R83). -/
abbrev Blocks.HeatQuiet (b : Blocks) : Prop :=
  (∀ z, (b.zone z).request = 0 ∧ (b.zone z).grant = 0)
    ∧ b.fa.inForce = max b.fa.target (motionSum b.fa)
    ∧ b.fa.held = decide (b.fa.target < motionSum b.fa)

/-! ### The return of a motion grant (R73, R79, R82) -/

/-- A dish without its motion grant, after a grant event that has nothing to give: the budget in force and HELD
follow what motion still holds. -/
def Blocks.withoutGrant (d : DishId) (b : Blocks) : Blocks :=
  let fa := { b.fa with grants := b.fa.grants.set d none }
  { b.modDish d (fun x => { x with motionGrant := none }) with
    fa := { fa with inForce := max fa.target (motionSum fa), held := decide (fa.target < motionSum fa) } }

/-- What such a return publishes: the common page where the budget in force falls, then the power page. -/
def returnOutputs (d : DishId) (b : Blocks) : List Output :=
  (if (b.withoutGrant d).fa.inForce = b.fa.inForce then [] else [.page .common]) ++ [.page .power]

/-- Whether a dish that comes to rest has a grant to give back (R82). -/
def usesGrant (d : DishId) (b : Blocks) : Bool := b.fa.grants[d].any (fun g => g.use == .inUse)

/-- Nothing waits for what the dish gives back: no claim, no heat, and no move held for the dish. -/
abbrev ReturnsQuietly (d : DishId) (b : Blocks) : Prop :=
  b.HeatQuiet ∧ b.fa.queue = [] ∧ (b.dish d).nextAction = .none

/-! ### Orders -/

/-- READY is set, the slot is not held, and OT's own checks pass the order (R175). -/
abbrev Takeable (s : State) (slot : SlotId) (o : Order) : Prop :=
  s.part.xm.ready = true ∧ (∀ h ∈ s.part.xm.heldList, h.slot ≠ slot)
    ∧ takerRefused o (nameFormation o.formation s.part.xm.lastFormation) = none

/-- The exchange side at the take of an order that stands in its slot: EXPECTED POST, the mark and LAST
FORMATION, and for work in flight TAKEN and HELD LIST (R45, R171, R174, R176). -/
def takenIn (slot : SlotId) (o : Order) (standing : Bool) (code : Option AnswerCode) (x : Exchange) : Exchange :=
  recordTake slot o (nameFormation o.formation x.lastFormation) standing code
    { x with mem := placeOrder slot o x.mem }

/-- The order that an order command carries (10.4). -/
def orderWith (h : OrderHead) (formation : Byte) (dishes classes : Word) (body : OrderBody) : Order :=
  ⟨h.post, formation, h.flags, dishes, classes, body⟩

/-- The slot and the order of an order command. -/
def orderOf : Instr → Option (SlotId × Order)
  | .form h f ds => some (h.slot, orderWith h f ds 0 .form)
  | .disband h f => some (h.slot, orderWith h f 0 0 .disband)
  | .halt h f => some (h.slot, orderWith h f 0 0 .halt)
  | .slew h f az el wrap mode => some (h.slot, orderWith h f 0 0 (.slew az el wrap mode))
  | .trackLoad h f n ps => some (h.slot, orderWith h f 0 0 (.trackLoad n ps))
  | .track h f wrap => some (h.slot, orderWith h f 0 0 (.track wrap))
  | .raster h f sa se da de n dwell wrap => some (h.slot, orderWith h f 0 0 (.raster sa se da de n dwell wrap))
  | .stow h ds => some (h.slot, orderWith h 0 ds 0 .stow)
  | .release h ds => some (h.slot, orderWith h 0 ds 0 .release)
  | .meltMode h ds cs mode forced => some (h.slot, orderWith h 0 ds cs (.meltMode mode forced))
  | .lock h d c t => some (h.slot, orderWith h 0 0 0 (.lock d c t))
  | .unlock h d t => some (h.slot, orderWith h 0 0 0 (.unlock d t))
  | .setBudget h v => some (h.slot, orderWith h 0 0 0 (.setBudget v))
  | .clearFault h ds => some (h.slot, orderWith h 0 ds 0 .clearFault)
  | .setTime h t => some (h.slot, orderWith h 0 0 0 (.setTime t))
  | .adjustTime h o => some (h.slot, orderWith h 0 0 0 (.adjustTime o))
  | .adoptSite h => some (h.slot, orderWith h 0 0 0 .adoptSite)
  | .commitSite h => some (h.slot, orderWith h 0 0 0 .commitSite)
  | _ => none

/-- The order is answered in the event of its take: the blocks are `b`, and besides `outs` the slot takes
the answer `a` (R176). -/
def Answers (r : Result) (s : State) (slot : SlotId) (o : Order) (a : Answer) (b : Blocks)
    (before after : List Output) (pages : List Page) : Prop :=
  Leaves r s b (takenIn slot o false (some a.code) s.part.xm)
    (before ++ [.answer slot a b.clock.time b.clock.valid] ++ after) pages

/-- The order is taken with work in flight (R176). -/
def Stands (r : Result) (s : State) (slot : SlotId) (o : Order) (b : Blocks) (outs : List Output)
    (pages : List Page) : Prop :=
  Leaves r s b (takenIn slot o true none s.part.xm) outs pages

/-! ### Records after an event -/

/-- A dish that enters FAULTED, with its first fault event, but for its motion grant (R21). -/
def Dish.faulted (k : FaultKind) (x : Dish) : Dish :=
  { x with
    drive := .faulted, faultKind := some k, kindsSeen := FaultKinds.empty.add k, nextAction := .none
    task := .none, owner := none, stopRequesters := .empty, pinningOwner := none
    warningTimer := none, brakeTimer := none, settleTimer := none, settleLimit := none, holdTimer := none
    pinTimer := none
    az := { x.az with profile := none, rate := 0, rateDemand := 0, followingCount := 0 }
    el := { x.el with profile := none, rate := 0, rateDemand := 0, followingCount := 0 } }

/-- The wind watch is stowing the dish, and at most it holds power for it; no block claims power or waits for the
dish to stop (R106, R111). -/
abbrev StowedByWatch (b : Blocks) (d : DishId) : Prop :=
  (b.dish d).owner = some .ww ∧ (b.dish d).nextAction = .none ∧ (b.dish d).stopRequesters = .empty
    ∧ b.fa.queue = [] ∧ (b.stow d).phase = .handed ∧ (b.dish d).reasonsEmpty = false
    ∧ b.fa.grants[d].all (fun g => g.holder == .ww) = true ∧ (b.fa.grants[d].isSome = true → b.HeatQuiet)

/-- No block owns the dish, holds power for it, claims power or waits for it to stop. -/
abbrev Unclaimed (b : Blocks) (d : DishId) : Prop :=
  (b.dish d).owner = none ∧ (b.dish d).nextAction = .none ∧ (b.dish d).stopRequesters = .empty
    ∧ b.fa.grants[d] = none ∧ b.fa.queue = []

/-- A formation whose work is over: IDLE, without work, timers or moves in hand (R55, R64). -/
def Formation.ended (m : Formation) : Formation :=
  { m with
    state := .idle, work := none, target := none, slot := none, raster := none, admission := none
    dwell := none, starve := none, trackStep := none
    member := m.member.map (fun k => { k with
      wrapAz := none, lagOpen := false, lagTimer := none, lagWritten := false, stage := .out, kept := none }) }

/-! ### A formation of one dish at its admission -/

/-- Formation `f` is IDLE with dish `d` alone, which is eligible and whose plan `p` for the order moves an
axis, and no power is free for the claim (R47 to R51, R80). -/
abbrev CanAdmitOne (b : Blocks) (f : FormationId) (d : DishId) (o : WorkOrder) (p : PlanResult) : Prop :=
  (b.form f).state = .idle ∧ (b.form f).members = DishSet.single d
    ∧ ineligible (b.snowReading d).hard (b.dish d) = none
    ∧ plan b.settings (b.dish d) (.sky o.skyAz o.wrap) o.el (watchFloorNow b) = .ok p
    ∧ (p.az.moves || p.el.moves) = true
    ∧ barRefused (b.dish d).az p.az = false ∧ barRefused (b.dish d).el p.el = false
    ∧ b.site.state ≠ .provisional ∧ (b.wind.state = .calm ∨ b.wind.state = .watch)
    ∧ b.wind.dataKnown = true
    ∧ b.fa.queue = [] ∧ b.fa.grants[d] = none ∧ remainder b.fa = 0
    ∧ 0 < b.settings.azPeak ∧ 0 < b.settings.elPeak ∧ 0 < b.settings.admissionWait

/-- The order stands, its formation is ADMITTING with the dish planned, and the claim for the axes that
move waits alone in the queue; every other record is as it was. -/
def AdmitsOne (r : Result) (s : State) (slot : SlotId) (ord : Order) (f : FormationId) (d : DishId)
    (o : WorkOrder) (p : PlanResult) : Prop :=
  let b := s.part.blocks
  ∃ t : State, r = .next t ∧ t.pending = s.pending
    ∧ t.part.blocks = { b with
        forms := b.forms.set f (t.part.blocks.form f)
        fa := { b.fa with
          queue := [makeClaim b d .fp .move p.az.moves p.el.moves], sequence := b.fa.sequence + 1 } }
    ∧ (t.part.blocks.form f).state = .admitting ∧ (t.part.blocks.form f).work = some o.work
    ∧ (t.part.blocks.form f).slot = some slot ∧ (t.part.blocks.form f).target = some (o.skyAz, o.el)
    ∧ (t.part.blocks.form f).mode = o.mode ∧ (t.part.blocks.form f).wrap = o.wrap
    ∧ (t.part.blocks.form f).raster = o.raster
    ∧ (t.part.blocks.form f).members = DishSet.single d ∧ (t.part.blocks.form f).included = DishSet.single d
    ∧ (t.part.blocks.form f).skipped = 0 ∧ (t.part.blocks.form f).excused = 0
    ∧ (t.part.blocks.form f).waveCount = 0
    ∧ (t.part.blocks.form f).notes = ⟨p.clamped, false, false, p.wrapOther⟩
    ∧ ((t.part.blocks.form f).mem d).stage = .claiming
    ∧ ((t.part.blocks.form f).mem d).wrapAz = some p.az.target
    ∧ SameButPages [.formation f, .power] (takenIn slot ord true none s.part.xm) t.part.xm

/-! ### Invariants -/

/-- What every command finds and leaves: the memory in its canonical form, every EDITION even, and every
output taken. -/
def Part.Settled (p : Part) : Prop :=
  Memory.wf p.xm.mem = true ∧ (∀ pg, (p.xm.editions.get pg).toNat % 2 = 0) ∧ p.blocks.out = []

/-- The lock view shows the lock table (R165). -/
def Part.LockViewTrue (p : Part) : Prop := ∀ e, Shows p (.lockEntry e)

end Machine

end Sys2Proof
end

