-- ==== Sys2Proof/Certificates/Slice0/Obligations.lean ====
section
/-! DEFINITION. The statements for the provers. -/

section

open Sys2Proof Sys2Proof.Machine

/-! ### Steps, power and registers -/

/-- A step takes the command at the front of the queue and runs it with the rest of the queue; on an
empty queue one millisecond passes (log entry 1). -/
def Obligations.AStepTakesTheCommandInFront : Prop :=
  (∀ (c : Instr) (rest : List Instr) (s : State),
    step { s with pending := c :: rest } = exec c { s with pending := rest })
  ∧ ∀ p : Part, step ⟨p, []⟩ = .next ⟨{ p with blocks := { p.blocks with
      clock := ⟨p.blocks.clock.time + 1, p.blocks.clock.valid, p.blocks.clock.count + 1⟩ } }, []⟩

/-- Every command whose outside writes are words of the memory answers a next state with the queue as it
was; any other faults (log entry 7). -/
def Obligations.EveryCommandAnswersANextState : Prop :=
  ∀ (c : Instr) (s : State),
    (c.seen.all Outside.wellFormed = true → ∃ t, exec c s = .next t ∧ t.pending = s.pending)
    ∧ (c.seen.all Outside.wellFormed = false → exec c s = .fault .noSuchWord)

/-- POWER_ON clears the memory and puts every block in its state after power-on; the NV RECORD is kept
(R1, R44, R71, R90, R96, R122, R147, R166, R170, R171, R179, R184, R185, R191). Two clauses are the model's
choice: that every page's EDITION is 2, one publication of each page (log entry 9), and that CAUSE is 0 only
where the trigger level is not 1, since the LOAD entry counts toward it (log entry 14). -/
def Obligations.PowerOnMakesAFreshPart : Prop :=
  ∀ (levels : FieldLevels) (s : State), ∃ t, exec (.powerOn levels) s = .next t
    ∧ t.pending = s.pending
    ∧ (∀ slot, slotState slot t.part.xm.mem = some .empty)
    ∧ (∀ a, inSiteArea a = true → t.part.xm.mem.read a = 0) ∧ t.part.xm.mem.readWord 0x000C = 0
    ∧ (∀ pg, t.part.xm.editions.get pg = 2)
    ∧ t.part.xm.ready = true ∧ t.part.xm.mask = 0 ∧ t.part.xm.heldList = [] ∧ t.part.xm.expectedPost = 0
    ∧ t.part.xm.lastFormation = none ∧ t.part.xm.answerMarks = 0 ∧ t.part.xm.pulse = 0
    ∧ t.part.xm.dropped = 0
    ∧ (t.part.blocks.settings.triggerLevel ≠ 1 → t.part.xm.cause = 0)
    ∧ t.part.blocks.clock = ⟨0, false, 0⟩
    ∧ t.part.blocks.site.nv = s.part.blocks.site.nv ∧ t.part.blocks.site.commit = none
    ∧ t.part.blocks.site.state
        = (if (loadFailure s.part.blocks.site.nv).isNone then .stored else .provisional)
    ∧ (∀ d, (t.part.blocks.dish d).drive = (if levels.pinIn.has d then .pinned else .braked)
        ∧ (t.part.blocks.dish d).task = .none ∧ (t.part.blocks.dish d).owner = none
        ∧ (t.part.blocks.dish d).formation = none ∧ (t.part.blocks.dish d).reasons = ⟨false, false⟩
        ∧ (t.part.blocks.dish d).lock = ⟨true, false, false, true⟩
        ∧ (t.part.blocks.dish d).nextAction = .none ∧ (t.part.blocks.dish d).motionGrant = none
        ∧ (t.part.blocks.dish d).score = t.part.blocks.settings.startScore)
    ∧ (∀ f, t.part.blocks.form f = unusedFormation)
    ∧ t.part.blocks.fa.requested = t.part.blocks.settings.feederMax ∧ t.part.blocks.fa.queue = []
    ∧ t.part.blocks.wind.state = .calm ∧ t.part.blocks.wind.dataKnown = true
    ∧ (∀ l, (t.part.blocks.line l).state = .silent)
    ∧ (∀ z, (t.part.blocks.zone z).state = .off ∧ (t.part.blocks.zone z).mode = .auto)

/-- POWER_LOSS ends a write in flight unfinished, with a record of free contents, and READY is clear
(R190; the rest is the model's, log entries 3 and 12). -/
def Obligations.PowerLossEndsAWriteAndClearsReady : Prop :=
  ∀ s : State, exec .powerLoss s = .next { s with part :=
    { blocks := if s.part.blocks.site.commit = none then s.part.blocks else
        { s.part.blocks with site := { s.part.blocks.site with
            commit := none, failures := s.part.blocks.site.failures + 1
            nv := (List.range 1024).map (Config.freeNvByte s.part.blocks.site.failures) } }
      xm := { s.part.xm with ready := false } } }

/-- A write of CAUSE clears the causes whose bits are 1, a write of MASK is held, a write to IDENT or of
another value to NUDGE is ignored, as is any write to NUDGE while READY is clear; ATTN is asserted exactly
when CAUSE and MASK meet (R169, R170). -/
def Obligations.ARegisterWriteChangesItsRegisterAlone : Prop :=
  ∀ (v : Word) (s : State),
    (∃ c, exec (.causeClear v) s = .next { s with part := { s.part with xm := { s.part.xm with cause := c } } }
      ∧ ∀ i, i < 7 → c.getLsbD i = (s.part.xm.cause.getLsbD i && !v.getLsbD i))
    ∧ (∃ m, exec (.maskWrite v) s = .next { s with part := { s.part with xm := { s.part.xm with mask := m } } }
      ∧ ∀ i, i < 7 → m.getLsbD i = v.getLsbD i)
    ∧ exec (.registerWriteIgnored .ident v) s = .next s
    ∧ (s.part.xm.ready = false ∨ (v ≠ 1 ∧ v ≠ 2) → exec (.registerWriteIgnored .nudge v) s = .next s)
    ∧ (s.part.xm.ready = false → exec .nudgeLinkReset s = .next s)
    ∧ (s.part.xm.attn = true ↔ ∃ i, i < 7 ∧ s.part.xm.cause.getLsbD i = true ∧ s.part.xm.mask.getLsbD i = true)

/-! ### Events of the exchange side -/

/-- A sweep at a write of 1 to NUDGE, and at the sweep timer, which runs on by 50 ms (R171, R172). It clears the
marks of EMPTY slots. Where every held order is TAKEN and nothing is to be taken or cut, that is all. A PLACED slot
that is not held, the only candidate, is taken as its order command takes it; a CUT_ASKED slot that is not held
and whose mark is clear is answered ENDED_CUT without a take (R174). A held order whose slot is CUT_ASKED is ended by its
owner and answered ENDED_CUT: a STOW leaves STANDING STOWS (R119), the work of a formation that has no dish in
hand is over (R61), a COMMIT_SITE writes on without its slot (R190), the PENDING record of a LOCK goes (R155).
One whose slot is EMPTY, ANSWERED or in no state is ended without an answer, with ORDER_ABANDONED, and a LOCK
keeps its record without its slot; one whose slot is PLACED is too, and the slot is then taken (R173, R178).
The leg index in the answer of work without a raster is all ones, as an optional field that is none (R193); that the
index is such a field, and that WRAP STOP goes with the queue, is the model's choice (log entries 11 and 40). -/
def Obligations.ASweepServesTheSlots : Prop :=
  ∀ (seen : List Outside) (s : State) (p : Part) (m : BitVec 32), see seen s.part = some p → p.xm.ready = true →
    let b := p.blocks
    let x : Exchange := { p.xm with answerMarks := m }
    let sweeps := exec (.nudgeSweep seen) s
    let state (slot : SlotId) := slotState slot p.xm.mem
    let passed (slot : SlotId) : Prop := state slot ≠ some .placed
      ∧ (state slot = some .cutAsked → p.xm.answerMarks.getLsbD slot.val = true)
    let cut : Answer := ⟨.endedCut, noNotes, 0, []⟩
    let answered (slot : SlotId) (a : Answer) : List Output := [.answer slot a b.clock.time b.clock.valid]
    (∀ slot : SlotId, m.getLsbD slot.val
      = (p.xm.answerMarks.getLsbD slot.val && state slot != some .empty)) →
    exec (.sweepTimerExpiry seen) s = exec (.nudgeSweep []) { s with part :=
      { blocks := b.runTo p.xm.sweepDue
        xm := { p.xm with sweepDue := max b.clock.count p.xm.sweepDue + 50 } } }
    ∧ ((∀ h ∈ p.xm.heldList, state h.slot = some .taken) →
      ((∀ slot, passed slot) → sweeps = .next { s with part := { p with xm := x } })
      ∧ ∀ slot, (∀ k, k ≠ slot → passed k) →
        (∀ (c : Instr) (o : Order) (before : Memory), state slot = some .placed → orderOf c = some (slot, o) →
          p.xm.mem = placeOrder slot o before →
          sweeps = exec c { s with part := { p with xm := { x with mem := before } } })
        ∧ (state slot = some .cutAsked → p.xm.answerMarks.getLsbD slot.val = false → b.Quiet →
          Leaves sweeps s b x (answered slot cut) []))
    ∧ ∀ h : HeldOrder, p.xm.heldList = [h] → (∀ k, k ≠ h.slot → passed k) →
      let ended (ifCut : Blocks) (entries : List Output) (a : Answer) (ifLost : Blocks) (pages : List Page) : Prop :=
        let lost : List Output := [.trail (.orderAbandoned h.slot h.order.body.verb.toNat h.order.post h.formation)
          b.clock.time b.clock.valid]
        (state h.slot = some .cutAsked → Leaves sweeps s ifCut x (entries ++ answered h.slot a) pages)
        ∧ (state h.slot = some .empty ∨ state h.slot = some .answered ∨ state h.slot = none →
          Leaves sweeps s ifLost { x with heldList := [] } lost (.common :: pages))
        ∧ (state h.slot = some .placed → ∃ q : Part, q.blocks = ifLost
          ∧ SameButPages (.common :: pages) (takeOutputs ifLost lost { x with heldList := [] }) q.xm
          ∧ sweeps = .next { s with part := takeOrder h.slot (orderAt h.slot p.xm.mem) q })
      (∀ o : StandingStow, h.order.body = .stow → b.wind.standing = [o] → o.slot = h.slot →
        let b' := b.modWind (fun w => { w with standing := [] })
        b'.Quiet → ended b' [] cut b' [])
      ∧ (∀ f : FormationId, b.Quiet →
        (∃ az el wrap mode, h.order.body = .slew az el wrap mode) ∨ (∃ wrap, h.order.body = .track wrap)
          ∨ (∃ az el da de n dwell wrap, h.order.body = .raster az el da de n dwell wrap) →
        (b.form f).state.working = true → (b.form f).slot = some h.slot → (b.form f).stopping = 0 →
        (∀ k, k ≠ f → (b.form k).slot ≠ some h.slot) → (∀ k, (b.form k).pendingWork = none) →
        (b.form f).disbandPending = false → (∀ d, (b.dish d).worksForFp = false) →
        b.fa.queue = [] → (∀ d : DishId, b.fa.grants[d] = none) →
        let k := b.form f
        let b' := b.modForm f (fun k => { k.ended with queue := [], wrapStop := none, wrapFail := none })
        ended b' [] ⟨.endedCut, k.notes, 0, lowBytes 2 k.skipped.toNat ++ lowBytes 2 k.excused.toNat
          ++ lowBytes 1 k.waveCount ++ optBytes 1 (k.raster.map Raster.index) ++ lowBytes 4 0⟩ b' [.formation f])
      ∧ (∀ c : Commit, b.Quiet → h.order.body = .commitSite → b.site.commit = some c → c.slot = some h.slot →
        let b' : Blocks := { b with site := { b.site with commit := some { c with slot := none } } }
        ended b' [] cut b' [])
      ∧ ∀ (dish cls tag : Word) (k : PoolId) (r : LockRecord), h.order.body = .lock dish cls tag → b.Quiet →
        b.pool[k] = some r → r.slot = some h.slot → r.origin = .order → r.cls = .motion → r.state = .waiting →
        (∀ (q : PoolId) (y : LockRecord), b.pool[q] = some y → q ≠ k → y.dish ≠ r.dish ∧ y.slot ≠ some h.slot) →
        b.keySlots[r.dish] = none → (b.dish r.dish).drive = .stopping → (b.dish r.dish).task = .lockStop →
        (b.dish r.dish).lock = ⟨false, false, true, false⟩ → (b.stow r.dish).phase = .none →
        (b.stow r.dish).unpinWanted = false → b.fa.queue = [] → (∀ d : DishId, b.fa.grants[d] = none) →
        ended
          { b.modDish r.dish (fun y => { y with lock := ⟨false, false, false, false⟩, removalMark := true }) with
            pool := b.pool.set k none }
          [.trail (.lockRemoved ⟨r.dish, 12 + k.val, .order, .motion, r.tag⟩ .waiting .cut) b.clock.time
            b.clock.valid, .cause .lock]
          cut { b with pool := b.pool.set k (some { r with slot := none }) }
          [.dish r.dish, .lockEntry ⟨12 + k.val, by omega⟩, .common]

/-- A link reset of any part empties HELD LIST, EXPECTED POST, LAST FORMATION and MASK, leaves READY, the
presence word, the staging page and the free area; where no order is held, no formation used and nothing
waits, it leaves the blocks as they stand, every slot EMPTY, CAUSE empty and the trail empty
(R166, R167, R169, R183). That EDITION then rises by exactly 2 on every page, one publication of each, is the
model's choice (log entry 9). -/
def Obligations.ALinkResetEmptiesTheSlate : Prop :=
  ∀ s : State, s.part.xm.ready = true →
    ∃ t, exec .nudgeLinkReset s = .next t ∧ t.pending = s.pending
      ∧ t.part.xm.heldList = [] ∧ t.part.xm.expectedPost = 0 ∧ t.part.xm.lastFormation = none
      ∧ t.part.xm.mask = 0 ∧ t.part.xm.ready = true ∧ t.part.blocks.wind.standing = []
      ∧ (∀ a, inSiteArea a = true → t.part.xm.mem.read a = s.part.xm.mem.read a)
      ∧ (s.part.blocks.Quiet → s.part.xm.heldList = [] →
          (∀ f, s.part.blocks.form f = unusedFormation) →
          (∀ (k : PoolId) (r : LockRecord), s.part.blocks.pool[k] = some r → r.slot = none) →
          t.part.blocks = s.part.blocks ∧ (∀ slot, slotState slot t.part.xm.mem = some .empty)
          ∧ t.part.xm.cause = 0 ∧ t.part.xm.answerMarks = 0 ∧ t.part.xm.writeSequence = 0
          ∧ t.part.xm.dropped = 0 ∧ t.part.xm.mem.readWord 0x000C = 0 ∧ t.part.xm.linger = none
          ∧ (∀ pg, t.part.xm.editions.get pg = s.part.xm.editions.get pg + 2))

/-- The pulse event advances PULSE, shows the array time, samples the read mark and republishes the
common page with its fields as they then stand. A linger timer expires: a mark that has moved restarts or stops it; otherwise, with entries
unread, the TRAIL cause is set and the timer stays stopped (R168, R181). -/
def Obligations.ThePulseAndTheLingerWatchTheReadMark : Prop :=
  (∀ (seen : List Outside) (s : State) (p : Part), see seen s.part = some p → p.xm.ready = true →
    p.blocks.Quiet →
    let b := p.blocks.runTo p.xm.pulseDue
    Leaves (exec (.pulseEvent seen) s) s b
      (sampleMark b.clock.count { p.xm with
        pulse := p.xm.pulse + 1, shownTime := b.clock.time, shownValid := b.clock.valid
        pulseDue := b.clock.count + 100 }) [] [.common]
    ∧ ∀ t, exec (.pulseEvent seen) s = .next t → Shows t.part .common)
  ∧ ∀ (seen : List Outside) (s : State) (p : Part) (n : Nat), see seen s.part = some p →
    p.xm.linger = some n →
    let b := p.blocks.runTo n
    let v := p.xm.mem.readWord 0x000C
    exec (.lingerTimerExpiry seen) s = .next { s with part :=
      { blocks := b
        xm :=
          if v ≠ p.xm.sampledRead then
            { p.xm with sampledRead := v, lingerSpent := false
                        linger := if unread p.xm = 0 then none else some (b.clock.count + 500) }
          else if 0 < unread p.xm then
            { p.xm with linger := none, lingerSpent := true, cause := p.xm.cause ||| 2 }
          else { p.xm with linger := none } } }

/-- The presence check: a changed word is present, a word unchanged for the timeout is absence; a change of
the attended state writes PRESENCE and sets its cause (R182). -/
def Obligations.ThePresenceCheckWatchesTheWord : Prop :=
  ∀ (seen : List Outside) (s : State) (p : Part), see seen s.part = some p → p.xm.ready = true →
    p.blocks.Quiet →
    let b := p.blocks.runTo p.xm.presenceDue
    let w := p.xm.mem.readWord 0x0004
    let old := b.presence
    let n := if w ≠ old.last then 0 else old.unchanged + 1000
    let new : Attended := if w ≠ old.last then .attended
      else if 1000 * b.settings.presenceTimeout ≤ n then .unattended else old.attended
    Leaves (exec (.presenceCheck seen) s) s { b with presence := ⟨new, w, n⟩ }
      { p.xm with presenceDue := b.clock.count + 1000 }
      (if new = old.attended then []
       else [.trail (.presence new w) b.clock.time b.clock.valid, .cause .presence])
      [.common]

/-! ### Orders of the formation planner -/

/-- FORM gives a formation that is UNUSED or IDLE its members, and their FORMATION fields follow (R44,
R46). -/
def Obligations.FormTakesItsDishes : Prop :=
  ∀ (h : OrderHead) (formation : Byte) (f : FormationId) (dishes : Word) (s : State),
    let b := s.part.blocks
    let o := orderWith h formation dishes 0 .form
    formationNumber formation = some f → Takeable s h.slot o → b.Quiet →
    ((b.form f).state = .unused ∨ (b.form f).state = .idle) → badDishSet dishes = false →
    (∀ d, (dishBits dishes).has d = true →
      ((b.dish d).formation = none ∨ (b.dish d).formation = some f) ∧ (b.dish d).task ≠ .shed) →
    Answers (exec (.form h formation dishes) s) s h.slot o ⟨.done, noNotes, 0, []⟩
      { b with
        dishes := Vector.ofFn (fun d : Fin 12 => { b.dish d with
          formation := if (dishBits dishes).has d then some f
            else if (b.form f).members.has d then none else (b.dish d).formation })
        forms := b.forms.set f { b.form f with state := .idle, members := dishBits dishes } }
      [] [] (.formation f :: allDishes.map Page.dish)

/-- DISBAND of an IDLE formation makes it UNUSED and frees its dishes; HALT of an IDLE formation empties
its waypoint queue (R46, R60). That DISBAND gives the fields which R46 does not name their values after
power-on is the model's choice (log entry 29), and so is the end of WRAP STOP with the queue (log entry 40). -/
def Obligations.DisbandAndHaltOfAnIdleFormation : Prop :=
  ∀ (h : OrderHead) (formation : Byte) (f : FormationId) (s : State),
    let b := s.part.blocks
    formationNumber formation = some f → b.Quiet → (b.form f).state = .idle →
    (Takeable s h.slot (orderWith h formation 0 0 .disband) →
      Answers (exec (.disband h formation) s) s h.slot (orderWith h formation 0 0 .disband)
        ⟨.done, noNotes, 0, []⟩
        { b with
          dishes := Vector.ofFn (fun d : Fin 12 => { b.dish d with
            formation := if (b.form f).members.has d then none else (b.dish d).formation })
          forms := b.forms.set f unusedFormation }
        [] [] (.formation f :: allDishes.map Page.dish))
    ∧ (Takeable s h.slot (orderWith h formation 0 0 .halt) →
      Answers (exec (.halt h formation) s) s h.slot (orderWith h formation 0 0 .halt)
        ⟨.done, noNotes, 0, []⟩
        { b with forms := b.forms.set f { b.form f with queue := [], wrapStop := none, wrapFail := none } }
        [] [] [.formation f])

/-- A SLEW or a RASTER of a formation of one eligible dish becomes its work in hand: ADMITTING, the dish planned
with a wrap position, its claim queued, the slot TAKEN (R47 to R51, R68). That a bar refuses an axis only where it
moves is the model's choice (log entry 59). -/
def Obligations.ASlewOrRasterIsTakenInHand : Prop :=
  ∀ (h : OrderHead) (formation : Byte) (f : FormationId) (d : DishId) (az el : Word32) (wrap : Word)
    (pref : WrapPreference) (p : PlanResult) (s : State),
    let b := s.part.blocks
    formationNumber formation = some f → b.Quiet → b.HeatQuiet → az.toNat ≤ 359999 → readWrap wrap = some pref →
    (∀ (mode : Word) (m : ArrivalMode), readMode mode = some m →
      let wo : WorkOrder := ⟨.slew, az.toNat, el.toInt, pref, m, none⟩
      let o := orderWith h formation 0 0 (.slew az el wrap mode)
      CanAdmitOne b f d wo p → Takeable s h.slot o →
      AdmitsOne (exec (.slew h formation az el wrap mode) s) s h.slot o f d wo p)
    ∧ (∀ (stepAz stepEl dwell : Word32) (count : Word),
      let r : Raster := ⟨az.toNat, el.toInt, stepAz.toInt, stepEl.toInt, count.toNat, 0, dwell.toNat⟩
      let wo : WorkOrder := ⟨.raster, az.toNat, el.toInt, pref, .joint, some r⟩
      let o := orderWith h formation 0 0 (.raster az el stepAz stepEl count dwell wrap)
      stepAz.toInt.natAbs ≤ 540000 → stepEl.toInt.natAbs ≤ 90000 → 1 ≤ count.toNat → count.toNat ≤ 64 →
      dwell.toNat ≤ 600000 → rasterFault b.settings r [(d, p)] = none →
      CanAdmitOne b f d wo p → Takeable s h.slot o →
      AdmitsOne (exec (.raster h formation az el stepAz stepEl count dwell wrap) s) s h.slot o f d wo p)

/-- A TRACK of a formation of one eligible dish becomes its work in hand, aimed at the head of the queue once
waypoints that are past are removed; the head takes the wrap position chosen (R41, R47 to R51, R63). That a bar
refuses an axis only where it moves is the model's choice (log entry 59). -/
def Obligations.ATrackIsTakenInHand : Prop :=
  ∀ (h : OrderHead) (formation : Byte) (f : FormationId) (d : DishId) (wrap : Word) (pref : WrapPreference)
    (p : PlanResult) (w : Waypoint) (ws : List Waypoint) (s : State),
    let b := s.part.blocks
    let wo : WorkOrder := ⟨.track, w.skyAz, w.el, pref, .joint, none⟩
    let o := orderWith h formation 0 0 (.track wrap)
    formationNumber formation = some f → b.Quiet → b.HeatQuiet → readWrap wrap = some pref →
    pruneQueue b.clock.time.toNat (b.form f).queue = w :: ws → b.clock.valid = true →
    (∃ x ∈ (b.form f).queue, b.clock.time.toNat < x.time.toNat) →
    CanAdmitOne b f d wo p → Takeable s h.slot o →
    AdmitsOne (exec (.track h formation wrap) s) s h.slot o f d wo p
      ∧ ∃ t, exec (.track h formation wrap) s = .next t
        ∧ (t.part.blocks.form f).queue.head?.map (fun x => (x.time, x.skyAz, x.el, x.unwrapped[d]))
          = some (w.time, w.skyAz, w.el, some p.az.target)

/-- A TRACK_LOAD that passes its checks appends the waypoints that it counts, elevations clamped, to the
queue of a formation without a track in hand (R62). -/
def Obligations.ATrackLoadExtendsTheQueue : Prop :=
  ∀ (h : OrderHead) (formation : Byte) (f : FormationId) (count : Word) (points : Vector RawWaypoint 6)
    (s : State),
    let b := s.part.blocks
    let o := orderWith h formation 0 0 (.trackLoad count points)
    let ps := points.toList.take count.toNat
    formationNumber formation = some f → Takeable s h.slot o → b.Quiet →
    (b.form f).state ≠ .unused → (b.form f).state ≠ .starved → (b.form f).work ≠ some .track →
    1 ≤ count.toNat → count.toNat ≤ 6 → (∀ q ∈ ps, q.skyAz.toNat ≤ 359999) → b.clock.valid = true →
    (((b.form f).queue.map (fun w => w.time.toNat)).getLast?.toList ++ ps.map (fun q => q.time.toNat)).Pairwise (· < ·) →
    (∃ q ∈ ps, b.clock.time.toNat < q.time.toNat) →
    (b.form f).queue.length + count.toNat ≤ 32 →
    Answers (exec (.trackLoad h formation count points) s) s h.slot o
      ⟨.done, ⟨ps.any (fun q => decide (q.el.toInt < b.settings.elMin) || decide (90000 < q.el.toInt)),
        false, false, false⟩, 0, []⟩
      (b.modForm f (fun m => { m with queue := m.queue ++ ps.map (fun q =>
        { time := q.time, skyAz := q.skyAz.toNat, el := min 90000 (max b.settings.elMin q.el.toInt)
          unwrapped := Vector.replicate 12 none }) }))
      [] [] [.formation f]

/-! ### Orders of the other blocks -/

/-- STOW of one free dish adds MANUAL, claims the elevation's peak power behind no other claim, and stands in
STANDING STOWS (R75, R109, R118). That a BLOCK CAUSE still in the record goes is the model's choice (log entry 60).
-/
def Obligations.AStowOfAFreeDishClaims : Prop :=
  ∀ (h : OrderHead) (dishes : Word) (d : DishId) (p : PlanResult) (s : State),
    let b := s.part.blocks
    let o := orderWith h 0 dishes 0 .stow
    badDishSet dishes = false → dishBits dishes = DishSet.single d → Takeable s h.slot o → b.Quiet → b.HeatQuiet →
    (∀ f, excusable (b.form f) d = false ∧ ((b.form f).mem d).kept = none) →
    (b.shed d).phase = .none → blockedBy (b.dish d) = none → (b.stow d).phase = .none →
    (b.dish d).drive ≠ .pinned → (b.dish d).drive ≠ .pinning →
    plan b.settings (b.dish d) .stay 90000 none = .ok p → p.el.moves = true →
    b.fa.queue = [] → b.fa.grants[d] = none → remainder b.fa = 0 → 0 < b.settings.elPeak →
    Stands (exec (.stow h dishes) s) s h.slot o
      ((((b.modDish d (fun x => { x with reasons := { x.reasons with manual := true } })).modStow d
          (fun r => { r with phase := .claiming, cause := none, unpinWanted := false, rehand := false })).modFa
          (fun fa => { fa with
            queue := [⟨d, .ww, .stow, false, true, b.settings.elPeak, b.settings.azPeak, b.settings.elPeak,
              fa.sequence⟩]
            sequence := fa.sequence + 1 })).modWind
          (fun w => { w with standing := [⟨h.slot, DishSet.single d, DishSet.single d, 0, 0⟩] }))
      [.page .power] [.dish d, .wind, .power]

/-- RELEASE of one dish PINNED under MANUAL takes its reason, and the dish, held by no lock, is unpinned
(R16, R116, R120). That the four refusal bits of a dish that was not refused are 0 in the answer data is the model's
choice (log entry 11). -/
def Obligations.AReleaseUnpinsAStowedDish : Prop :=
  ∀ (h : OrderHead) (dishes : Word) (d : DishId) (s : State),
    let b := s.part.blocks
    let o := orderWith h 0 dishes 0 .release
    badDishSet dishes = false → dishBits dishes = DishSet.single d → Takeable s h.slot o → b.Quiet →
    (b.dish d).drive = .pinned → (b.dish d).reasons = ⟨false, true⟩ → (b.stow d).phase = .stowed →
    (b.dish d).lock.motionLocked = false → (b.dish d).lock.stopPending = false →
    Answers (exec (.release h dishes) s) s h.slot o
      ⟨.done, noNotes, 0, [0, 0, 0, 0, 0, 0, 0, 0, 0, 0]⟩
      ((b.modDish d (fun x => { x with
          drive := .unpinning, reasons := ⟨false, false⟩, pinningOwner := none
          pinTimer := some (b.clock.count + b.settings.pinTime)
          az := { x.az with profile := none, rate := 0, rateDemand := 0, followingCount := 0 }
          el := { x.el with profile := none, rate := 0, rateDemand := 0, followingCount := 0 } })).modStow d
        (fun r => { r with phase := .unstowing, unpinWanted := true, rehand := false }))
      [] [] [.dish d, .wind]

/-- MELT_MODE OFF of zones that are OFF and ask for nothing sets their mode and takes their demand; the
other zones stay (R125, R126, R142). That bits 3 to 15 of the class set name nothing beside a named class, and the order
is answered DONE, is the model's choice (log entry 39). -/
def Obligations.MeltModeOffTakesTheDemand : Prop :=
  ∀ (h : OrderHead) (dishes classes forced : Word) (s : State),
    let b := s.part.blocks
    let o := orderWith h 0 dishes classes (.meltMode 0 forced)
    dishes ≠ 0 → dishes.toNat < 4096 → (classBits classes).isEmpty = false → Takeable s h.slot o → b.Quiet →
    (∀ z ∈ namedZones dishes classes, (b.zone z).state = .off ∧ (b.zone z).request = 0) →
    (∀ z ∈ namedZones dishes classes, 0 < (b.meltReading z).startValue) →
    Answers (exec (.meltMode h dishes classes 0 forced) s) s h.slot o
      ⟨.done, noNotes, 0, [0, 0, 0, 0, 0]⟩
      { b with zones := Vector.ofFn (fun z : Fin 36 =>
          if (dishBits dishes).has (zoneDish z) ∧ zoneClass z ∈ classBits classes then
            { b.zone z with mode := .off, demand := 0 }
          else b.zone z) }
      [] [] (allZones.map Page.zone)

/-- A LOCK of class MOTION on a BRAKED dish that holds no record takes the lowest free pool record and is
EFFECTIVE at once (R146 to R148, R154). -/
def Obligations.ALockOfABrakedDishIsEffective : Prop :=
  ∀ (h : OrderHead) (d : DishId) (tag : Word) (k : PoolId) (s : State),
    let b := s.part.blocks
    let o := orderWith h 0 0 0 (.lock (BitVec.ofNat 16 d.val) 0 tag)
    let r : LockRecord := ⟨d, .order, .motion, tag.toNat, .effective, b.clock.time, b.clock.valid, none⟩
    let m : LockMark := ⟨d, 12 + k.val, .order, .motion, tag.toNat⟩
    let at_ (e : Output) : List Output := [e, .cause .lock]
    tag ≠ 0 → Takeable s h.slot o → b.Quiet →
    (∀ q : PoolId, q < k → b.pool[q].isSome = true) → b.pool[k] = none →
    b.keySlots[d] = none → (∀ (q : PoolId) (x : LockRecord), b.pool[q] = some x → x.dish ≠ d) →
    (b.dish d).drive = .braked → (b.dish d).task = .none → (b.dish d).formation = none →
    (b.dish d).reasons = ⟨false, false⟩ → (b.dish d).lock = ⟨false, false, false, false⟩ →
    (b.stow d).phase = .none → (b.stow d).unpinWanted = false →
    b.fa.queue = [] → (∀ e : DishId, b.fa.grants[e] = none) →
    Answers (exec (.lock h (BitVec.ofNat 16 d.val) 0 tag) s) s h.slot o
      ⟨.done, noNotes, 0, [BitVec.ofNat 8 k.val, 0]⟩
      { b.modDish d (fun x => { x with lock := ⟨true, false, false, false⟩ }) with pool := b.pool.set k (some r) }
      (at_ (.trail (.lockPlaced m .effective) b.clock.time b.clock.valid)
        ++ at_ (.trail (.lockEffective m .braked) b.clock.time b.clock.valid))
      [] [.dish d, .lockEntry ⟨12 + k.val, by omega⟩, .common]

/-- UNLOCK of the one record of a BRAKED dish, an EFFECTIVE ORDER record of class MOTION, frees it and sets
the dish's LOCK-REMOVAL MARK (R147, R153, R156). -/
def Obligations.AnUnlockFreesItsRecord : Prop :=
  ∀ (h : OrderHead) (d : DishId) (tag : Word) (k : PoolId) (r : LockRecord) (s : State),
    let b := s.part.blocks
    let o := orderWith h 0 0 0 (.unlock (BitVec.ofNat 16 d.val) tag)
    tag ≠ 0 → Takeable s h.slot o → b.Quiet →
    b.pool[k] = some r → r.dish = d → r.origin = .order → r.cls = .motion → r.tag = tag.toNat →
    r.state = .effective → r.slot = none →
    b.keySlots[d] = none → (∀ (q : PoolId) (x : LockRecord), b.pool[q] = some x → q ≠ k → x.dish ≠ d) →
    (b.dish d).drive = .braked → (b.dish d).task = .none → (b.dish d).lock = ⟨true, false, false, false⟩ →
    (b.stow d).phase = .none → (b.stow d).unpinWanted = false →
    b.fa.queue = [] → (∀ e : DishId, b.fa.grants[e] = none) →
    Answers (exec (.unlock h (BitVec.ofNat 16 d.val) tag) s) s h.slot o ⟨.done, noNotes, 0, [1, 0]⟩
      { b.modDish d (fun x => { x with lock := ⟨false, false, false, false⟩, removalMark := true }) with
        pool := b.pool.set k none }
      [.trail (.lockRemoved ⟨d, 12 + k.val, .order, .motion, tag.toNat⟩ .effective .unlock) b.clock.time
        b.clock.valid, .cause .lock]
      [] [.dish d, .lockEntry ⟨12 + k.val, by omega⟩, .common]

/-- With no motion held, no claim queued and no heat, SET_BUDGET and a change of the derate input set the
target by R72, and the budget in force follows it (R72 to R74, R86). That the last answer byte is 0 for HELD
clear is the model's choice (log entry 43). -/
def Obligations.TheBudgetFollowsItsOrderAndInput : Prop :=
  ∀ s : State, let b := s.part.blocks
    b.Quiet → b.HeatQuiet → b.fa.queue = [] → (∀ e : DishId, b.fa.grants[e] = none) →
    (∀ (h : OrderHead) (value : Word),
      let o := orderWith h 0 0 0 (.setBudget value)
      let v := min value.toNat b.settings.feederMax
      let t := (if b.fa.derate then
          min (min v b.settings.feederMax) (b.settings.feederMax * b.settings.deratePermille / 1000)
        else min v b.settings.feederMax) - b.settings.reserve
      Takeable s h.slot o →
      Answers (exec (.setBudget h value) s) s h.slot o
        ⟨.done, ⟨decide (v < value.toNat), false, false, false⟩, 0,
          lowBytes 2 v ++ lowBytes 2 t ++ lowBytes 2 t ++ [0]⟩
        (b.modFa (fun fa => { fa with requested := v, target := t, inForce := t, held := false }))
        (if t = b.fa.target then [] else [.page .common, .page .power]) [] [.power, .common])
    ∧ (∀ level : Bool, level ≠ b.fa.derate →
      let least := min b.fa.requested b.settings.feederMax
      let t := (if level then min least (b.settings.feederMax * b.settings.deratePermille / 1000) else least)
        - b.settings.reserve
      Leaves (exec (.derateInputChange level) s) s
        (b.modFa (fun fa => { fa with derate := level, target := t, inForce := t, held := false }))
        s.part.xm (.page .power :: if t = b.fa.target then [] else [.page .common, .page .power])
        [.power, .common])

/-- CLEAR_FAULT of one FAULTED dish whose conditions are gone puts it in PINNED or BRAKED by its pin
sensor, with a bar on the side of a switch still asserted after a LIMIT fault (R22 to R24). That bits 12 to 15
of the dish set name no dish and are not refused is the model's choice (log entry 39). -/
def Obligations.ClearFaultClearsAFaultedDish : Prop :=
  ∀ (h : OrderHead) (dishes : Word) (d : DishId) (k : FaultKind) (s : State),
    let b := s.part.blocks
    let o := orderWith h 0 dishes 0 .clearFault
    let idle (x : Axis) : Axis := { x with
      profile := none, rate := 0, rateDemand := 0, followingCount := 0
      lowBar := x.lowBar || (k == .limit && x.limitLow && !x.limitHigh)
      highBar := x.highBar || (k == .limit && x.limitHigh && !x.limitLow) }
    dishBits dishes = DishSet.single d → Takeable s h.slot o → b.Quiet → (b.dish d).drive = .faulted →
    (b.dish d).faultKind = some k →
    ((b.dish d).kindsSeen.encoder = true → (b.dish d).az.missed = false ∧ (b.dish d).el.missed = false) →
    ((b.dish d).kindsSeen.limit = true →
      ((b.dish d).az.limitLow && (b.dish d).az.limitHigh) = false
      ∧ ((b.dish d).el.limitLow && (b.dish d).el.limitHigh) = false) →
    ((b.dish d).kindsSeen.amplifier = true → (b.dish d).az.ampReady = true ∧ (b.dish d).el.ampReady = true) →
    ((b.dish d).kindsSeen.pin = true → (b.dish d).pinIn ≠ (b.dish d).pinOut) →
    (b.stow d).phase ≠ .blocked → (b.stow d).unpinWanted = false →
    Answers (exec (.clearFault h dishes) s) s h.slot o ⟨.done, noNotes, 0, lowBytes 2 (2 ^ d.val)⟩
      (b.modDish d (fun x => { x with
        drive := if x.pinIn then .pinned else .braked, faultKind := none
        kindsSeen := ⟨false, false, false, false, false⟩
        pinningOwner := if x.pinIn then x.pinningOwner else none, az := idle x.az, el := idle x.el }))
      [.trail (.faultCleared d) b.clock.time b.clock.valid] [] [.dish d, .common]

/-- SET_TIME with no formation in TRACKING or STARVED, and ADJUST_TIME by at most 1000 ms while array time is
valid, set the time, move the start of every SLEW and STOP profile and every arrival with it, and write
TIME_SET (R191, R192). That the byte of the old VALID in the answers is 1 for true and 0 for false is the model's
choice (log entry 43). -/
def Obligations.AChangeOfTimeMovesWhatIsUnderWay : Prop :=
  ∀ (h : OrderHead) (s : State), let b := s.part.blocks
    let shift (c : ArrayTime) (x : Axis) : Axis := { x with profile := x.profile.map (fun p =>
      { p with startInstant := if p.kind = .follow then p.startInstant else p.startInstant + c }) }
    let after (new : ArrayTime) : Blocks := { b with
      clock := ⟨new, true, b.clock.count⟩
      dishes := b.dishes.map (fun x => { x with
        az := shift (new - b.clock.time) x.az, el := shift (new - b.clock.time) x.el })
      forms := b.forms.map (fun m => { m with member := m.member.map (fun k =>
        { k with arrival := k.arrival.map (fun t => t + (new - b.clock.time)) }) }) }
    b.Quiet →
    (∀ new : ArrayTime,
      let o := orderWith h 0 0 0 (.setTime new)
      Takeable s h.slot o → (∀ f, (b.form f).state ≠ .tracking ∧ (b.form f).state ≠ .starved) →
      Answers (exec (.setTime h new) s) s h.slot o
        ⟨.done, noNotes, 0, lowBytes 6 b.clock.time.toNat ++ [if b.clock.valid then 1 else 0]⟩ (after new)
        [.trail (.timeSet false b.clock.time b.clock.valid new) new true, .page .common] []
        (.common :: allFormations.map Page.formation))
    ∧ (∀ offset : Word32,
      let o := orderWith h 0 0 0 (.adjustTime offset)
      let old : Int := b.clock.time.toNat
      let new := max 0 (old + offset.toInt)
      Takeable s h.slot o → offset.toInt.natAbs ≤ 1000 → b.clock.valid = true →
      Answers (exec (.adjustTime h offset) s) s h.slot o
        ⟨.done, ⟨decide (old + offset.toInt < 0), false, false, false⟩, 0,
          lowBytes 6 b.clock.time.toNat ++ [1, 0] ++ signedBytes 4 (new - old)⟩ (after (BitVec.ofInt 48 new))
        [.trail (.timeSet true b.clock.time true (BitVec.ofInt 48 new)) (BitVec.ofInt 48 new) true,
          .page .common] []
        (.common :: allFormations.map Page.formation))

/-- ADOPT_SITE while COMMIT is WRITING is refused BUSY. Of a staging page that passes the checks of the page
itself, one whose FEEDER MAX less RESERVE is below MOTION SUM is refused BUDGET_IN_USE, and, where nothing holds
power, one whose RESERVE is at most its FEEDER MAX puts its settings in force, with the soft limits and the
budget (R87, R186 to R188). -/
def Obligations.AdoptSitePutsTheStagingPageInForce : Prop :=
  ∀ (h : OrderHead) (s : State),
    let b := s.part.blocks
    let o := orderWith h 0 0 0 .adoptSite
    let bytes := s.part.xm.mem.readBytes 0x4000 1024
    let st := recordSettings bytes
    let limits (x : Dish) : Dish := { x with
      az := { x.az with softLow := st.wrapMin, softHigh := st.wrapMax }
      el := { x.el with softLow := st.elMin, softHigh := 90000 } }
    let t := budgetTarget st b.fa.requested b.fa.derate
    let refused (code : AnswerCode) : Prop :=
      Answers (exec (.adoptSite h) s) s h.slot o ⟨code, noNotes, 0, []⟩ b [] [] []
    Takeable s h.slot o → b.Quiet →
    (b.site.commit.isSome = true → refused .busy)
    ∧ (b.site.commit = none → stagingFault bytes = none → st.feederMax < st.reserve + motionSum b.fa →
      refused .budgetInUse)
    ∧ (b.HeatQuiet → b.fa.queue = [] → (∀ e : DishId, b.fa.grants[e] = none) → b.site.commit = none →
      stagingFault bytes = none → st.reserve ≤ st.feederMax →
    Answers (exec (.adoptSite h) s) s h.slot o ⟨.done, noNotes, 0, lowBytes 2 (settingsCrc st).toNat⟩
      { b with
        site := { b.site with working := st, crc := settingsCrc st, state := .adopted }
        dishes := b.dishes.map limits
        fa := { b.fa with target := t, inForce := t, held := false } }
      ((if t = b.fa.target then [] else [.page .common])
        ++ [.page .power, .trail (.settings .adopt b.site.state .adopted (settingsCrc st) none) b.clock.time
          b.clock.valid] ++ (if b.site.state = .adopted then [] else [.cause .settings]))
      [] [.power, .common])

/-- COMMIT_SITE while COMMIT is IDLE begins a write of a snapshot of the working settings, and its order
stands. The end of a write: verified by its read-back, failed by a different one, or failed by the
completion timer; the completion of another write, which ended in TIMEOUT before, is ignored (R186, R189; the
record after a failure is free, log entry 3; how a write is named is the model's, log entry 41). -/
def Obligations.ACommitBeginsAWriteThatEndsByReadBackOrTimer : Prop :=
  (∀ (h : OrderHead) (s : State),
    let b := s.part.blocks
    let o := orderWith h 0 0 0 .commitSite
    Takeable s h.slot o → b.Quiet → b.site.commit = none →
    Stands (exec (.commitSite h) s) s h.slot o
      { b with site := { b.site with
          commit := some ⟨siteRecord b.site.working, some h.slot, b.clock.count + 1000⟩ } } [] [])
  ∧ ∀ (s : State) (c : Commit), let b := s.part.blocks
    let answered (x : Blocks) (a : Answer) : List Output := match c.slot with
      | some slot => [.answer slot a x.clock.time x.clock.valid]
      | none => []
    let failed (x : Blocks) (k : CommitFailure) (detail : Nat) (r : Result) : Prop :=
      let new : SettingsState := if b.site.state = .provisional then .provisional else .adopted
      Leaves r s { x with site := { b.site with
          commit := none, state := new, failures := b.site.failures + 1
          nv := (List.range 1024).map (Config.freeNvByte b.site.failures) } }
        s.part.xm
        ([.trail (.settings .commitFailed b.site.state new b.site.crc (some k)) x.clock.time x.clock.valid,
          .cause .settings] ++ answered x ⟨.endedFault, noNotes, detail, []⟩)
        [.common]
    b.Quiet → b.site.commit = some c →
    Leaves (exec (.nvWriteCompletion ⟨b.site.failures, c.snapshot⟩) s) s
      { b with site := { b.site with commit := none, state := .stored, nv := c.snapshot } } s.part.xm
      ([.trail (.settings .commitDone b.site.state .stored b.site.crc none) b.clock.time b.clock.valid,
        .cause .settings] ++ answered b ⟨.done, noNotes, 0, c.snapshot.drop 1022⟩) [.common]
    ∧ (∀ readBack, readBack ≠ c.snapshot →
      failed b .verify 7 (exec (.nvWriteCompletion ⟨b.site.failures, readBack⟩) s))
    ∧ (∀ write readBack, write ≠ b.site.failures →
      Leaves (exec (.nvWriteCompletion ⟨write, readBack⟩) s) s b s.part.xm [] [])
    ∧ failed (b.runTo c.timer) .timeout 8 (exec .commitTimerExpiry s)

/-! ### Events of the dish drives -/

/-- A servo event of an axis on a SLEW profile that is not over: the rate and the position of R12, the
demand of R18, and the reading taken (R12, R18, R19, R26). That the demand takes PROFILE RATE without a sign
in a slew of either direction, and that V of its clamp is the rate setting of the move last taken, is the
model's choice (log entry 18). -/
def Obligations.TheServoFollowsASlewProfile : Prop :=
  ∀ (d : DishId) (a : AxisId) (p : Profile) (enc : Int) (s : State),
    let b := s.part.blocks.runTo ((s.part.blocks.dish d).axis a).servoDue
    let x := (s.part.blocks.dish d).axis a
    let e := (b.clock.time - p.startInstant).toNat
    let rate := min p.v (min (p.a * e / 1000) (p.a * (p.duration - e) / 1000))
    let travelled := p.travelled + rate
    let position := p.start + p.dir * min ((p.target - p.start).natAbs : Int) (travelled / 100)
    let bound : Int := (11 * x.rateSetting / 10 : Nat)
    let demand := (rate : Int) + ((position - enc) * b.settings.loopGain).tdiv 1000
    s.part.blocks.Quiet → (b.dish d).drive = .moving → x.profile = some p → p.kind = .slew → p.ended = false →
    x.encoder = some enc → x.fresh = true → e < p.duration →
    (position - enc).natAbs ≤ b.settings.followLimit →
    Leaves (exec (.servoEvent d a) s) s
      (b.modDish d (Dish.modAxis a (fun y => { y with
        rate := rate, position := position, profile := some { p with travelled := travelled }
        rateDemand := max (-bound) (min bound demand), followingCount := 0, fresh := false, missed := false
        servoDue := b.clock.count + 10 })))
      s.part.xm [.page (.dish d)] [.dish d]

/-- An encoder reading sets the position and READING FRESH, and the first one the profile position; a limit
switch that ceases, and a pin-out sensor that ceases, clear their level, the switch its bar too (R17, R19,
R24). -/
def Obligations.LevelsAndReadingsAreTaken : Prop :=
  ∀ (d : DishId) (a : AxisId) (s : State), let b := s.part.blocks
    b.Quiet →
    (∀ x : Int, Leaves (exec (.encoderReading d a x) s) s
      (b.modDish d (Dish.modAxis a (fun y => { y with
        encoder := some x, fresh := true, position := if y.encoder = none then x else y.position })))
      s.part.xm [] [])
    ∧ Leaves (exec (.limitSwitchCeased d a .low) s) s
      (b.modDish d (Dish.modAxis a (fun y => { y with limitLow := false, lowBar := false }))) s.part.xm [] []
    ∧ Leaves (exec (.limitSwitchCeased d a .high) s) s
      (b.modDish d (Dish.modAxis a (fun y => { y with limitHigh := false, highBar := false }))) s.part.xm [] []
    ∧ Leaves (exec (.pinSensorCeased d .pinOut) s) s
      (b.modDish d (fun y => { y with pinOut := false })) s.part.xm [] []

/-- What puts a dish into FAULTED, each with its kind: no first reading within 1000 ms, the settle limit, the pin
timer, a limit switch, an amplifier lost in motion, the pins of a pinned dish (R13, R15, R17, R19 to R21). Of a
dish that no block owns nothing else follows. One that the wind watch is stowing has its grant returned, whatever
its use, and the watch, told FAULTED, has the stow BLOCKED for FAULT, with its entry (R82, R114). -/
def Obligations.AFaultPutsADishInFaulted : Prop :=
  ∀ (d : DishId) (s : State), let b := s.part.blocks
    let falls (r : Result) (k : FaultKind) (b' : Blocks) (f : Dish → Dish) : Prop :=
      let gone := b'.modDish d (fun x => (f x).faulted k)
      let entry (e : TrailEvent) : List Output := [.trail e b'.clock.time b'.clock.valid]
      let fault := entry (.dishFault d k (b.dish d).drive)
      (Unclaimed b d → Leaves r s gone s.part.xm fault [.dish d, .common])
      ∧ (StowedByWatch b d →
        Leaves r s
          ((if b.fa.grants[d].isSome then gone.withoutGrant d else gone).modStow d (fun y => { y with
            phase := .blocked, cause := some .fault, rehand := false }))
          s.part.xm
          (fault ++ (if b.fa.grants[d].isSome then returnOutputs d b else [])
            ++ entry (.stowBlocked d .fault)) [.dish d, .wind, .power, .common])
    b.QuietBut (some d) →
    (∀ a, (b.dish d).drive = .braked → ((b.dish d).axis a).encoder = none →
      falls (exec (.encoderStartupTimeout d a) s) .encoder (b.runTo 1000) id)
    ∧ (∀ n, (b.dish d).drive = .settling → (b.dish d).settleLimit = some n →
      falls (exec (.settleLimitExpiry d) s) .following (b.runTo n) id)
    ∧ (∀ n, (b.dish d).drive = .pinning → (b.dish d).pinTimer = some n →
      falls (exec (.pinTimerExpiry d) s) .pin (b.runTo n) (fun x => { x with absorbed := .empty }))
    ∧ (∀ a side, (b.dish d).drive = .braked → ((b.dish d).axis a).limit side = false →
      falls (exec (.limitSwitchAsserted d a side) s) .limit b (Dish.modAxis a (Axis.setLimit side true)))
    ∧ (∀ a, (b.dish d).drive = .moving → ((b.dish d).axis a).ampReady = true →
      falls (exec (.amplifierReadyLost d a) s) .amplifier b
        (Dish.modAxis a (fun y => { y with ampReady := false })))
    ∧ ((b.dish d).drive = .pinned → (b.dish d).pinIn = true →
      falls (exec (.pinSensorCeased d .pinIn) s) .pin b (fun x => { x with pinIn := false }))

/-- The warning ends: the horn is silent, the brakes are released, and the servo holds a slewing axis at
the start of its profile (R8, R10, R11). What position an axis without a profile has (its encoder's) and one
with a FOLLOW profile (the one it had) is the model's choice, since R11 gives START POSITION only (log entry
19). -/
def Obligations.AWarningEndsInReleasing : Prop :=
  ∀ (d : DishId) (n : Nat) (s : State),
    let b := s.part.blocks.runTo n
    let hold (x : Axis) : Axis := { x with
      rate := 0
      position := match x.profile with
        | some p => if p.kind = .slew then p.start else x.position
        | none => x.encoder.getD x.position }
    s.part.blocks.Quiet → (s.part.blocks.dish d).drive = .warning →
    (s.part.blocks.dish d).warningTimer = some n →
    Leaves (exec (.warningTimerExpiry d) s) s
      (b.modDish d (fun x => { x with
        drive := .releasing, horn := .idle, removalMark := false, warningTimer := none, pinningOwner := none
        brakeTimer := some (b.clock.count + b.settings.brakeRelease), az := hold x.az, el := hold x.el }))
      s.part.xm [] [.dish d]

/-- The brakes are off and both amplifiers ready: a move of the wind watch or the melt controller with
START MODE AT_READY starts, and its profiles begin at that instant (R11, R12). -/
def Obligations.AReadyDishStartsItsMove : Prop :=
  ∀ (d : DishId) (n : Nat) (seen : List Outside) (s : State) (p : Part),
    let b := p.blocks.runTo n
    let begin_ (x : Axis) : Axis := { x with
      rate := 0, profile := x.profile.map (fun q => { q with startInstant := b.clock.time, travelled := 0 }) }
    see seen s.part = some p → p.blocks.Quiet → (p.blocks.dish d).drive = .releasing →
    (p.blocks.dish d).brakeTimer = some n → (p.blocks.dish d).az.ampReady = true →
    (p.blocks.dish d).el.ampReady = true → (p.blocks.dish d).task ≠ .none →
    (p.blocks.dish d).startMode = .atReady →
    ((p.blocks.dish d).owner = some .ww ∨ (p.blocks.dish d).owner = some .mc) →
    Leaves (exec (.brakeReleaseTimerExpiry d seen) s) s
      (b.modDish d (fun x => { x with
        drive := .moving, startKept := false, readyReported := false, brakeTimer := none, pinningOwner := none
        az := begin_ x.az, el := begin_ x.el }))
      p.xm [] [.dish d]

/-- A dish that has settled holds, or under a stow of the wind watch has its pins driven in, or under the
shed tilt of the melt controller is released with the tilt's SHED_ENDED; a held dish that no block owns brakes
when the hold-to-brake time is over. A motion grant in use goes back, with a grant event, where the dish holds or
brakes; it stays while the pins go in, and a RESERVED one stays in any case (R6, R7, R13, R15, R73, R79, R82,
R139). That SHED_ENDED carries ENCODER POSITION as the elevation is the model's choice (log entry 47). -/
def Obligations.ASettledDishHoldsOrPins : Prop :=
  ∀ (d : DishId) (n : Nat) (s : State),
    let b := s.part.blocks.runTo n
    let off (x : Axis) : Axis := { x with profile := none, rate := 0, rateDemand := 0, followingCount := 0 }
    let given := usesGrant d b
    let back (x : Blocks) : Blocks := if given then x.withoutGrant d else x
    let outs : List Output := if given then returnOutputs d b else []
    s.part.blocks.QuietBut none → (given = true → ReturnsQuietly d b) →
    ((b.dish d).drive = .settling → (b.dish d).settleTimer = some n → (b.dish d).task = .none →
      (b.dish d).owner = none →
      Leaves (exec (.settleTimerExpiry d) s) s
        (back (b.modDish d (fun x => { x with
          drive := .holding, settleTimer := none, settleLimit := none, pinningOwner := none
          holdTimer := some (b.clock.count + b.settings.holdToBrake) })))
        s.part.xm outs [.dish d, .power, .common])
    ∧ ((b.dish d).drive = .settling → (b.dish d).settleTimer = some n → (b.dish d).task = .stow →
      (b.dish d).owner = some .ww → (b.stow d).rehand = false →
      Leaves (exec (.settleTimerExpiry d) s) s
        (b.modDish d (fun x => { x with
          drive := .pinning, settleTimer := none, settleLimit := none, pinningOwner := some .ww
          pinTimer := some (b.clock.count + b.settings.pinTime), az := off x.az, el := off x.el }))
        s.part.xm [] [.dish d])
    ∧ (∀ el : Int, (b.dish d).drive = .settling → (b.dish d).settleTimer = some n → (b.dish d).task = .shed →
      (b.dish d).owner = some .mc → (b.shed d).phase = .handed → (b.dish d).el.encoder = some el →
      Leaves (exec (.settleTimerExpiry d) s) s
        (back ((b.modDish d (fun x => { x with
          drive := .holding, settleTimer := none, settleLimit := none, pinningOwner := none, task := .none
          owner := none, startAwaited := false
          holdTimer := some (b.clock.count + b.settings.holdToBrake)
          az := if x.startAwaited then { x.az with profile := none, rate := 0 } else x.az
          el := if x.startAwaited then { x.el with profile := none, rate := 0 } else x.el })).modShed d
          (fun r => { r with phase := .none })))
        s.part.xm (outs ++ [.trail (.shedEnded d .arrived el (b.dish d).score) b.clock.time b.clock.valid])
        [.dish d, .zone (zoneOf d .surface), .power, .common])
    ∧ ((b.dish d).drive = .holding → (b.dish d).holdTimer = some n → (b.dish d).task = .none →
      (b.dish d).stopRequesters = .empty → (b.dish d).nextAction = .none →
      Leaves (exec (.holdToBrakeExpiry d) s) s
        (back (b.modDish d (fun x => { x with
          drive := .braked, holdTimer := none, startAwaited := false, pinningOwner := none
          az := off x.az, el := off x.el })))
        s.part.xm outs [.dish d, .power, .common])

/-- The pins of a stow are in: PINNED, DISH_STOWED, the motion grant in use given back with a grant event, and the
stow record STOWED. The pins are out: BRAKED, DISH_UNSTOWED, TASK NONE, a grant in use given back too, and the unpin
is done with (R15 to R17, R73, R79, R82, R111, R117). That a BLOCK CAUSE still in the record goes with STOWED and
with UNPINNED is the model's choice (log entries 31 and 60). -/
def Obligations.ThePinsGoInAndOut : Prop :=
  ∀ (d : DishId) (s : State), let b := s.part.blocks
    let off (x : Axis) : Axis := { x with profile := none, rate := 0, rateDemand := 0, followingCount := 0 }
    let given := usesGrant d b
    let back (x : Blocks) : Blocks := if given then x.withoutGrant d else x
    let outs : List Output := if given then returnOutputs d b else []
    b.QuietBut (some d) → (given = true → ReturnsQuietly d b) →
    (b.dish d).stopRequesters = .empty → (b.dish d).nextAction = .none → (b.dish d).task = .stow →
    ((b.dish d).drive = .pinning → (b.dish d).pinIn = false → (b.dish d).owner = some .ww →
      (b.dish d).absorbed = .empty → (b.stow d).phase = .handed →
      Leaves (exec (.pinInSensed d) s) s
        (back ((b.modDish d (fun x => { x with
          drive := .pinned, pinIn := true, pinTimer := none, az := off x.az, el := off x.el })).modStow d
          (fun r => { r with phase := .stowed, cause := none, rehand := false })))
        s.part.xm ([.trail (.dishStowed d) b.clock.time b.clock.valid] ++ outs) [.dish d, .wind, .power, .common])
    ∧ ((b.dish d).drive = .unpinning → (b.dish d).pinOut = false → (b.stow d).phase = .unstowing →
      (b.stow d).unpinWanted = true →
      Leaves (exec (.pinOutSensed d) s) s
        (back ((b.modDish d (fun x => { x with
          drive := .braked, pinOut := true, pinTimer := none, task := .none, owner := none
          pinningOwner := none, az := off x.az, el := off x.el })).modStow d
          (fun r => { r with phase := .none, cause := none, unpinWanted := false })))
        s.part.xm ([.trail (.dishUnstowed d) b.clock.time b.clock.valid] ++ outs) [.dish d, .wind, .power, .common])

/-- A move of task STOW that replaces the move of a dish in WARNING with the selector NORMAL shortens the
warning where the LOCK-REMOVAL MARK is clear and the stow warning time is less than the time left; the horn
does not restart (R9). -/
def Obligations.AStowMoveShortensAWarning : Prop :=
  ∀ (d : DishId) (m : Move) (n : Nat) (b : Blocks),
    let x := b.dish d
    let y := (acceptMove d m b).dish d
    x.drive = .warning → x.selector = .normal → x.warningTimer = some n → m.task = .stow →
    y.drive = .warning ∧ y.task = .stow ∧ y.owner = some m.owner ∧ y.horn = x.horn
    ∧ y.removalMark = x.removalMark
    ∧ (x.removalMark = false → b.settings.stowWarning < n - b.clock.count →
      y.warningTimer = some (b.clock.count + b.settings.stowWarning) ∧ y.selector = .stow)
    ∧ (x.removalMark = false → n - b.clock.count ≤ b.settings.stowWarning →
      y.warningTimer = some n ∧ y.selector = .stow)
    ∧ (x.removalMark = true → y.warningTimer = some n ∧ y.selector = .normal)

/-- The changes of the pin sensors that make a fault of kind PIN, those of a BRAKED dish that make none,
and a dish that starts PINNED with both sensors asserted (R17). -/
def Obligations.ThePinSensorsFaultADish : Prop :=
  ∀ (d : DishId) (b : Blocks),
    let x := b.dish d
    let falls (c : Blocks) : Prop := (c.dish d).drive = .faulted ∧ (c.dish d).faultKind = some .pin
    (x.pinIn = false → x.drive ≠ .pinning → x.drive ≠ .pinned → x.drive ≠ .faulted → falls (onPinIn d b))
    ∧ (x.pinIn = true → x.drive = .pinned → falls (onPinCeased d .pinIn b))
    ∧ (x.pinOut = false → x.drive = .pinned → falls (onPinOut d b))
    ∧ (x.drive = .braked → onPinCeased d .pinOut b = b.modDish d (fun y => { y with pinOut := false }))
    ∧ ∀ (st : Settings) (levels : FieldLevels), levels.pinIn.has d = true → levels.pinOut.has d = true →
      (freshDish st levels d).drive = .pinned ∧ (freshDish st levels d).pinIn = true
        ∧ (freshDish st levels d).pinOut = true

/-- The window of zone z begins 250 z ms into each 10 s of the running count and turns the output on for
its applied duty of the 10 s; an output that is on turns off when that time has passed (R25). -/
def Obligations.TheHeaterOutputsFollowTheirDuty : Prop :=
  ∀ (z : ZoneId) (s : State), s.part.blocks.Quiet →
    (∃ n, s.part.blocks.clock.count ≤ n ∧ n < s.part.blocks.clock.count + 10000 ∧ n % 10000 = 250 * z.val
      ∧ Leaves (exec (.heaterWindowStart z) s) s
        ((s.part.blocks.runTo n).modHeater z (fun _ => ⟨decide (0 < (s.part.blocks.zone z).applied), n⟩))
        s.part.xm [] [])
    ∧ ((s.part.blocks.heater z).on = true →
      Leaves (exec (.heaterOnTimeEnd z) s) s
        ((s.part.blocks.runTo ((s.part.blocks.heater z).windowStart + 10 * (s.part.blocks.zone z).applied)).modHeater
          z (fun x => { x with on := false }))
        s.part.xm [] [])

/-! ### Events of the formation planner -/

/-- The admission wait is over: with no member granted the timer is stopped and nothing else; the one
granted member of a JOINT admission, BRAKED and owned by no block, forms the first wave, and its dish
warns (R8, R52, R53, R81). -/
def Obligations.TheAdmissionWaitFormsTheFirstWave : Prop :=
  ∀ (f : FormationId) (n : Nat) (s : State),
    let b := s.part.blocks.runTo n
    s.part.blocks.Quiet → (b.form f).state = .admitting → (b.form f).admission = some n →
    (b.form f).mode = .joint → (b.form f).waveCount = 0 →
    (∀ d ∈ (b.form f).active, ((b.form f).mem d).stage = .claiming ∨ ((b.form f).mem d).stage = .granted) →
    ((b.form f).grantedMembers = [] → (b.form f).active ≠ [] →
      Leaves (exec (.admissionWaitExpiry f) s) s (b.modForm f (fun m => { m with admission := none }))
        s.part.xm [] [])
    ∧ (∀ (d : DishId) (p : PlanResult) (g : Grant), (b.form f).grantedMembers = [d] →
      ((b.form f).mem d).plan = some p → ((b.form f).mem d).arrival = none →
      (p.az.moves || p.el.moves) = true → (∀ k, (b.form k).state ≠ .halting) →
      b.fa.grants[d] = some g →
      g.amount = (if (stretch p.minTime p.az).moves then g.azPeak else 0)
        + (if (stretch p.minTime p.el).moves then g.elPeak else 0) →
      (b.dish d).motionGrant = some g.amount →
      let mv : Move := ⟨.fp, .formation, stretch p.minTime p.az, stretch p.minTime p.el, .onStart⟩
      checkMove (b.dish d) mv = none → (b.dish d).drive = .braked → (b.dish d).owner = none →
      Leaves (exec (.admissionWaitExpiry f) s) s
        (((b.modForm f (fun m => { (m.modMember d (fun k => { k with stage := .handed 1, kept := none })) with
            waveCount := 1, state := .moving, admission := none })).modDish d (fun x => { x with
            drive := .warning, task := .formation, owner := some .fp, startMode := .onStart
            pinningOwner := none, horn := .busy, selector := .normal
            warningTimer := some (b.clock.count + b.settings.normalWarning)
            az := { x.az with profile := mv.az.profile, rateSetting := mv.az.rateSetting }
            el := { x.el with profile := mv.el.profile, rateSetting := mv.el.rateSetting } })).modFa
            (fun fa => { fa with grants := fa.grants.set d (some { g with use := .inUse }) }))
        s.part.xm [] [.formation f, .dish d])

/-- The last dwell of a RASTER, or the starve patience, is over: the order is answered DONE or
ENDED_STARVED with its data, the formation is IDLE, and its held dishes are released (R7, R55, R64,
R68). The leg index of a TRACK, which has no raster, is all ones in the answer, as an optional field that is none
(R193); that the index is such a field is the model's choice (log entry 11). The spread in the answer of the RASTER is
formed from the arrivals at that moment, which is the model's choice too (log entry 37), and so is the end of WRAP
STOP with the queue (log entry 40). -/
def Obligations.TheWorkEndsAndItsDishesAreReleased : Prop :=
  ∀ (f : FormationId) (n : Nat) (slot : SlotId) (s : State),
    let b := s.part.blocks.runTo n
    let m := b.form f
    let free (d : DishId) (x : Dish) : Dish :=
      if (m.members.has d || m.included.has d) = true ∧ x.owner = some .fp then
        { x with task := .none, owner := none, holdTimer := some (b.clock.count + b.settings.holdToBrake) }
      else x
    let data (index : Option Nat) (spread : Nat) : List Byte :=
      lowBytes 2 m.skipped.toNat ++ lowBytes 2 m.excused.toNat ++ lowBytes 1 m.waveCount
        ++ optBytes 1 index ++ lowBytes 4 spread
    s.part.blocks.Quiet → m.slot = some slot →
    (∀ d, (b.dish d).owner = some .fp → (b.dish d).drive = .holding ∧ (b.dish d).startAwaited = false) →
    (∀ r : Raster, m.state = .dwelling → m.dwell = some n → m.raster = some r → r.count ≤ r.index + 1 →
      Leaves (exec (.dwellTimerExpiry f) s) s
        ({ b with dishes := Vector.ofFn (fun d : Fin 12 => free d (b.dish d)) }.modForm f
          (fun k => k.ended)) s.part.xm
        [.answer slot ⟨.done, m.notes, 0, data (some r.index) (spreadOf b.clock.time m.arrivals)⟩ b.clock.time b.clock.valid]
        (.formation f :: allDishes.map Page.dish))
    ∧ (m.state = .starved → m.starve = some n →
      Leaves (exec (.starvePatienceExpiry f) s) s
        ({ b with dishes := Vector.ofFn (fun d : Fin 12 => free d (b.dish d)) }.modForm f
          (fun k => { k.ended with queue := [], wrapStop := none, wrapFail := none })) s.part.xm
        [.answer slot ⟨.endedStarved, m.notes, 0, data (m.raster.map Raster.index) 0⟩ b.clock.time b.clock.valid]
        (.formation f :: allDishes.map Page.dish))

/-- A track step of one following member gives its follow profiles the pointing interpolated between its
waypoints and notes its lag; a lag timer that expires writes TRACK_LAG (R42, R64, R66). -/
def Obligations.ATrackStepGivesThePointing : Prop :=
  ∀ (f : FormationId) (d : DishId) (n : Nat) (s : State),
    let b := s.part.blocks.runTo n
    let m := b.form f
    s.part.blocks.Quiet →
    (∀ (w0 w1 : Waypoint) (az0 az1 az el encAz encEl : Int) (pAz pEl : Profile),
      m.state = .tracking → m.trackStep = some n → m.active = [d] → (m.mem d).stage = .following →
      (m.mem d).lagOpen = false → m.wrapStop = none → m.queue = [w0, w1] →
      w0.time.toNat ≤ b.clock.time.toNat → b.clock.time.toNat < w1.time.toNat →
      w0.unwrapped[d] = some az0 → w1.unwrapped[d] = some az1 → b.wind.state = .calm →
      az = az0 + ((az1 - az0) * ((b.clock.time.toNat : Int) - w0.time.toNat)).tdiv
        ((w1.time.toNat : Int) - w0.time.toNat) →
      el = w0.el + ((w1.el - w0.el) * ((b.clock.time.toNat : Int) - w0.time.toNat)).tdiv
        ((w1.time.toNat : Int) - w0.time.toNat) →
      (b.dish d).az.profile = some pAz → (b.dish d).el.profile = some pEl → pAz.kind = .follow →
      pEl.kind = .follow → pAz.finishing = false → pEl.finishing = false →
      pAz.allows az = true → pEl.allows el = true →
      (b.dish d).az.encoder = some encAz → (b.dish d).el.encoder = some encEl →
      max (az - encAz).natAbs (el - encEl).natAbs ≤ b.settings.lagLimit →
      Leaves (exec (.trackStep f) s) s
        ((b.modForm f (fun k => { (k.modMember d (fun y => { y with
            lastLag := max (az - encAz).natAbs (el - encEl).natAbs })) with
            trackStep := some (b.clock.count + 10) })).modDish d (fun x => { x with
            az := { x.az with profile := some { pAz with target := az } }
            el := { x.el with profile := some { pEl with target := el } } }))
        s.part.xm [] [])
    ∧ ((m.mem d).lagTimer = some n →
      Leaves (exec (.lagTimerExpiry f d) s) s
        (b.modMember f d (fun k => { k with lagTimer := none, lagWritten := true })) s.part.xm
        [.trail (.trackLag f d (m.mem d).lastLag) b.clock.time b.clock.valid] [.common])

/-! ### Events of the anemometer lines and the wind watch -/

/-- A byte on a line whose FIFO is empty: in HUNT a lead value begins a frame and another value is
discarded; in COLLECT a byte is gathered; the ninth byte of a good frame on an OK line makes it the last
good frame, counts its usable speed and restarts the silence timer (R91 to R94). -/
def Obligations.AByteIsAssembledIntoAFrame : Prop :=
  ∀ (l : LineId) (value : Byte) (s : State), let b := s.part.blocks
    let x := b.line l
    b.Quiet → b.wind.dataKnown = dataFlag b → x.fifo = [] → x.lostSince = false →
    (x.gathered = [] → value ≠ 0xA7 → Leaves (exec (.lineByte l value false) s) s b s.part.xm [] [])
    ∧ (x.gathered = [] → Leaves (exec (.lineByte l 0xA7 false) s) s
        (b.modLine l (fun y => { y with gathered := [0xA7], gapTimer := some (b.clock.count + 20) }))
        s.part.xm [] [])
    ∧ (x.gathered ≠ [] → x.gathered.length < 8 → Leaves (exec (.lineByte l value false) s) s
        (b.modLine l (fun y => { y with
          gathered := y.gathered ++ [value], gapTimer := some (b.clock.count + 20) }))
        s.part.xm [] [])
    ∧ (∀ f : Frame, x.gathered.length = 8 → readFrame (x.gathered ++ [value]) b.clock = some f →
        x.state = .ok →
        Leaves (exec (.lineByte l value false) s) s
          (b.modLine l (fun y => { y with
            gathered := [], gapTimer := none, lastGood := some f, goodCount := min (y.goodCount + 1) 65535
            silenceTimer := some (b.clock.count + 2000), goodRun := min 8 (y.goodRun + 1)
            secondSum := if f.instrument = .degraded then y.secondSum else y.secondSum + f.speed
            secondCount := if f.instrument = .degraded then y.secondCount else y.secondCount + 1 }))
          s.part.xm [] [])

/-- How a good frame is read, and what it gives its line: an OVERRANGE frame and a SPEED above 6000 are
taken as 6000, the temperature is clamped, the frame becomes the last good one with its arrival time, and
its speed is counted unless the instrument is DEGRADED (R93, 10.8). -/
def Obligations.AGoodFrameIsReadAndCounted : Prop :=
  ∀ (l : LineId) (s0 s1 d0 d1 t0 t1 status check : Byte) (f : Frame) (b : Blocks),
    let x := b.line l
    let y := (goodFrame l f b).line l
    readFrame [0xA7, s0, s1, d0, d1, t0, t1, status, check] b.clock = some f →
    f.speed = (if f.instrument = .overrange then 6000 else min 6000 (s0.toNat + 256 * s1.toNat))
    ∧ f.temperature = max (-500) (min 500 (t1 ++ t0).toInt)
    ∧ f.direction = d0.toNat + 256 * d1.toNat
    ∧ f.precipitation.ctorIdx = status.toNat % 4 ∧ f.instrument.ctorIdx = status.toNat / 4 % 4
    ∧ f.time = b.clock.time ∧ f.valid = b.clock.valid ∧ y.lastGood = some f
    ∧ (f.instrument = .ok ∨ f.instrument = .overrange →
      y.secondSum = x.secondSum + f.speed ∧ y.secondCount = x.secondCount + 1)
    ∧ (f.instrument = .degraded → y.secondSum = x.secondSum ∧ y.secondCount = x.secondCount)
    ∧ y.goodCount = min (x.goodCount + 1) 65535

/-- Twenty ms without a byte make a frame void, and an OK line SUSPECT; two seconds without a good frame
make a line SILENT, and while another line contributes the data flag stays KNOWN (R92, R94, R99). -/
def Obligations.ALineThatStopsIsSuspectThenSilent : Prop :=
  ∀ (l : LineId) (n : Nat) (s : State),
    let b := s.part.blocks.runTo n
    let x := b.line l
    s.part.blocks.Quiet → b.wind.dataKnown = true →
    (x.gathered ≠ [] → x.gapTimer = some n → x.state = .ok →
      Leaves (exec (.assemblerGapTimeout l) s) s
        (b.modLine l (fun y => { y with
          gathered := [], gapTimer := none, voidCount := min (y.voidCount + 1) 65535, goodRun := 0
          state := .suspect }))
        s.part.xm [.trail (.lineState l .ok .suspect .void) b.clock.time b.clock.valid] [.wind, .common])
    ∧ (x.silenceTimer = some n → x.state ≠ .silent → (∃ k, k ≠ l ∧ (b.line k).state ≠ .silent) →
      Leaves (exec (.silenceTimerExpiry l) s) s
        (b.modLine l (fun y => { y with
          silenceTimer := none, goodRun := 0, secondSum := 0, secondCount := 0, state := .silent }))
        s.part.xm [.trail (.lineState l x.state .silent .silence) b.clock.time b.clock.valid]
        [.wind, .common])

/-- The start grace is over: while a line contributes the flag stays KNOWN; with every line SILENT it is
UNKNOWN, with its entry and its cause, and under fallback HOLD nothing follows (R99). -/
def Obligations.TheGraceEndsByTheLines : Prop :=
  ∀ (n : Nat) (s : State),
    let b := s.part.blocks.runTo n
    s.part.blocks.Quiet → b.wind.grace = some n → b.wind.dataKnown = true →
    ((∃ l, (b.line l).state ≠ .silent) →
      Leaves (exec .graceTimerExpiry s) s (b.modWind (fun w => { w with grace := none })) s.part.xm [] [])
    ∧ ((∀ l, (b.line l).state = .silent) → b.wind.reading.fallback = .hold →
      Leaves (exec .graceTimerExpiry s) s (b.modWind (fun w => { w with grace := none, dataKnown := false }))
        s.part.xm [.trail (.windData false .silent .silent .silent) b.clock.time b.clock.valid, .cause .wind]
        [.wind, .common])

/-- A wind second: the largest line mean joins the list of 600, GUST and MEAN are the truncated means of its last
three and of all its present values, and the line sums start afresh. In CALM without a trigger that is all. In CALM
or WATCH a stow trigger enters STOWING: a dish that cannot stow is BLOCKED with its cause and its entry, every other
holds WIND, and those not stowed claim the EL peak power by ascending elevation; the deadline starts, and where none
has to move the state is STOWED at once. A dish already BLOCKED keeps its phase without an entry, and one that FP
still owns, excused and stopping, is released (R59, R76, R97, R98, R100, R101, R105, R107 to R109, R112, R113). That
a dish BLOCKED for POSITION, or for a cause that has gone, gains no WIND is the model's choice (log entry 31). So is
that a claiming dish has BLOCK CAUSE none (log entry 60), and that the dishes are classed, and their entries
written, in ascending number (log entry 61). -/
def Obligations.AWindSecondMayEnterStowing : Prop :=
  ∀ s : State,
    let b := s.part.blocks.runTo s.part.blocks.wind.secondDue
    let means := allLines.filterMap (fun l => (lineMean (b.line l)).map (fun m => (l, m)))
    let st := b.settings
    let mean (l : List (Option Nat)) : Option Nat :=
      let ps := l.filterMap id
      if ps = [] then none else some (ps.sum / ps.length)
    ∀ (value : Option Nat) (list : List (Option Nat)) (direction : Option Nat),
      ((value = none ∧ means = [] ∧ direction = none)
        ∨ ∃ l m, value = some m ∧ (l, m) ∈ means ∧ (∀ q ∈ means, q.2 ≤ m ∧ (q.2 = m → l ≤ q.1))
          ∧ direction = (b.line l).lastGood.map Frame.direction) →
      list = (b.wind.seconds ++ [value]).drop (b.wind.seconds.length + 1 - 600) →
      let w : WindWatch := { b.wind with
        seconds := list, gust := mean (list.drop (list.length - 3)), mean := mean list, direction := direction
        secondDue := b.clock.count + 1000
        reading := ⟨b.presence.attended, st.thresholds b.presence.attended, st.fallback, st.autoRelease⟩ }
      let lines := b.lines.map (fun x => { x with secondSum := 0, secondCount := 0 })
      s.part.blocks.Quiet → b.wind.dataKnown = true →
      (b.wind.state = .calm → stowTrigger w = none → watchTrigger w = none →
        (∀ d, isBlocked b d [.position, .barred] = false) →
        Leaves (exec .windSecond s) s { b with wind := w, lines := lines } s.part.xm [.page .wind] [.wind])
      ∧ ∀ (trigger : WindTrigger) (moving : List DishId) (plans : DishId → PlanResult),
        let held (d : DishId) : Option BlockCause :=
          let x := b.dish d
          if x.drive = .faulted then some .fault
          else if x.lock.stopPending = true ∨ x.task = .lockStop then some .lock
          else if x.lock.motionLocked = true ∧ x.lock.stowYielding = false then some .lock
          else none
        let elevation (d : DishId) : Int := (b.dish d).el.encoder.getD 0
        let entry (old new : WindState) (t : WindTrigger) : List Output :=
          [.trail (.windState old new w.gust w.mean b.presence.attended t) b.clock.time b.clock.valid,
            .page .common, .cause .wind]
        let freed (x : Dish) : Dish := if x.owner = some .fp then { x with task := .none, owner := none } else x
        (b.wind.state = .calm ∨ b.wind.state = .watch) → stowTrigger w = some trigger →
        (∀ f, (b.form f).state = .unused ∨ (b.form f).state = .idle) → (∀ d, (b.shed d).phase = .none) →
        (∀ d, (b.dish d).owner = some .fp → (b.dish d).drive = .stopping ∧ (b.dish d).task = .formation) →
        b.HeatQuiet → b.fa.queue = [] → remainder b.fa = 0 → 0 < st.elPeak →
        (∀ d : DishId, b.fa.grants[d].map Grant.holder ≠ some .ww) →
        (∀ d, (b.stow d).phase = .none
          ∨ ((b.stow d).phase = .stowed ∧ (held d = none → (b.stow d).unpinWanted = false))
          ∨ ((b.stow d).phase = .blocked ∧ ((b.stow d).cause = some .lock ∨ (b.stow d).cause = some .fault
            ∨ ((b.stow d).cause = some .position ∧ held d = none ∧ (b.dish d).el.encoder = none)))) →
        moving.Pairwise (fun d e => elevation d < elevation e ∨ (elevation d = elevation e ∧ d < e)) →
        (∀ d, d ∈ moving ↔ held d = none ∧ (b.stow d).phase = .none) →
        (∀ d ∈ moving, (b.dish d).drive ≠ .pinned ∧ (b.dish d).drive ≠ .pinning ∧ b.fa.grants[d] = none
          ∧ plan st (b.dish d) .stay 90000 none = .ok (plans d) ∧ (plans d).el.moves = true) →
        Leaves (exec .windSecond s) s
          { b with
            lines := lines
            dishes := Vector.ofFn (fun d : Fin 12 => if held d = none ∧ (b.stow d).phase ≠ .blocked then
              { freed (b.dish d) with reasons := { (b.dish d).reasons with wind := true } }
              else freed (b.dish d))
            wind := { w with
              state := if moving = [] then .stowed else .stowing
              deadline := some (b.clock.count + 1000 * st.stowDeadline)
              records := Vector.ofFn (fun d : Fin 12 =>
                let r := b.stow d
                if r.phase = .blocked then { r with late := false }
                else if (held d).isSome = true then
                  { r with phase := .blocked, cause := held d, rehand := false, late := false }
                else if r.phase = .stowed then { r with late := false }
                else ⟨.claiming, none, false, false, false⟩) }
            fa := { b.fa with
              queue := (List.range moving.length).zipWith (fun i d =>
                ⟨d, .ww, .stow, false, true, st.elPeak, st.azPeak, st.elPeak, b.fa.sequence + i⟩) moving
              sequence := b.fa.sequence + moving.length } }
          s.part.xm
          ((allDishes.filter (fun d => (held d).isSome && (b.stow d).phase != .blocked)).map (fun d =>
              .trail (.stowBlocked d ((held d).getD .lock)) b.clock.time b.clock.valid)
            ++ (if moving = [] then [] else [.page .power]) ++ entry b.wind.state .stowing trigger
            ++ [.page .wind] ++ (if moving = [] then entry .stowing .stowed .complete else []))
          ([.wind, .power, .common] ++ allDishes.map Page.dish)

/-- The stow deadline: every dish that holds WIND and is neither STOWED nor BLOCKED nor already marked is late, with
its entry, in STOWING too while a dish is moving to stow. The release hold: without auto release the state becomes
CALM and the reasons stay (R103 to R105, R113). That the late dishes are written in ascending number is the model's
choice (log entry 61). -/
def Obligations.TheDeadlineAndTheReleaseHold : Prop :=
  ∀ (n : Nat) (s : State),
    let b := s.part.blocks.runTo n
    let late (d : DishId) : Bool := (b.dish d).reasons.wind && (b.stow d).phase != .stowed
      && (b.stow d).phase != .blocked && !(b.stow d).late
    s.part.blocks.QuietBut none →
    (b.wind.deadline = some n →
      Leaves (exec .stowDeadlineExpiry s) s
        (b.modWind (fun w => { w with
          deadline := none
          records := Vector.ofFn (fun d : Fin 12 =>
            if late d then { b.stow d with late := true } else b.stow d) }))
        s.part.xm
        ((allDishes.filter late).map (fun d =>
          .trail (.stowLate d (b.stow d).phase (b.dish d).drive) b.clock.time b.clock.valid))
        [.wind, .common])
    ∧ (b.wind.releaseHold = some n → b.wind.state = .releaseWait → b.wind.reading.autoRelease = false →
      (∀ d, (b.stow d).phase = .blocked → (b.dish d).reasonsEmpty = false) →
      Leaves (exec .releaseHoldExpiry s) s
        (b.modWind (fun w => { w with state := .calm, releaseHold := none, deadline := none })) s.part.xm
        [.trail (.windState .releaseWait .calm b.wind.gust b.wind.mean b.wind.reading.set .release)
          b.clock.time b.clock.valid, .page .common, .cause .wind]
        [.wind, .common])

/-! ### Events of the melt controller and the pedestal line -/

/-- A melt step of a zone whose rated power and REQUEST stay: DEMAND by R125, and STATE, APPLIED DUTY and the
tail timer by R128 to R130, from every state. On a SURFACE zone the score follows by R133, a level side that
changes writes SNOW_LEVEL, the derate factor follows by R135, ARMED is set below the shed clear level, and a
tilt of an armed dish begins by R137, its claim waiting where no power is left (R123, R125, R126, R128 to
R130, R132 to R137). -/
def Obligations.AMeltStepFollowsItsTarget : Prop :=
  ∀ (z : ZoneId) (s : State),
    let b := s.part.blocks.runTo (s.part.blocks.zone z).stepDue
    let x := b.zone z
    let d := zoneDish z
    let st := b.settings
    let snow := if zoneClass z = .surface then st.snowReading else b.snowReading d
    let demand := demandOf (st.meltReading (zoneClass z)) snow.onset x (zoneClass z) (airTemperature b)
      (precipitation b) (b.dish d).score
    let target := min demand x.grantedDuty
    let next : ZoneState × Nat × Timer := match x.state with
      | .off => if st.startValue ≤ target then (.running, st.startValue, none) else (.off, x.applied, x.tail)
      | .running =>
        if st.stopValue ≤ target then
          (.running, if x.applied < target then min target (x.applied + st.upStep)
            else if target < x.applied then max target (x.applied - st.downStep) else x.applied, x.tail)
        else if st.stopValue ≤ x.grantedDuty then
          (.tailing, st.stopValue, some (b.clock.count + 1000 * st.stopTime))
        else (.off, 0, none)
      | .tailing =>
        if x.grantedDuty < st.stopValue then (.off, 0, none)
        else if st.startValue ≤ target then (.running, st.startValue, none)
        else (.tailing, st.stopValue, x.tail)
      | .cut => (.cut, x.applied, x.tail)
    let same : Bool := x.state == .cut || (x.state == .off && next.1 == .off)
    let request :=
      if next.1 = .cut then 0
      else if st.startValue ≤ demand ∨ (next.1 = .running ∧ st.stopValue ≤ demand) then
        (x.rated * demand + 999) / 1000
      else if next.1 = .tailing then (x.rated * st.stopValue + 999) / 1000
      else 0
    let stepped : Blocks := { (b.modZone z (fun y => { y with
          demand := demand, state := next.1, applied := next.2.1, tail := next.2.2
          stepDue := b.clock.count + 1000 })).modHeater z
        (fun o => if same then o else { o with
          on := o.on && decide (0 < next.2.1) && decide (b.clock.count - o.windowStart < 10 * next.2.1) }) with
      meltReadings := b.meltReadings.set z (st.meltReading (zoneClass z)) }
    s.part.blocks.Quiet → x.rated = st.ratedPower (zoneClass z) → x.request = request →
    (zoneClass z ≠ .surface → Leaves (exec (.meltStep z) s) s stepped s.part.xm [] [.zone z])
    ∧ (zoneClass z = .surface →
      let temperature := airTemperature b
      let score : Nat := (max 0 (min 10000 (((b.dish d).score : Int)
        + (if temperature.any (fun t => decide (t ≤ 10)) = true ∧ precipitation b = .snow
            then (st.accumulation : Int) else 0)
        - (st.removal * next.2.1 / 1000 : Nat)
        - (if temperature.any (fun t => decide (30 ≤ t)) = true then (st.thaw : Int) else 0)))).toNat
      let side (level : SnowLevel) (value : Nat) (was : Bool) : List Output :=
        if decide (value ≤ score) = was then []
        else [.trail (.snowLevel d level value (decide (value ≤ score)) score) b.clock.time b.clock.valid]
      let derate := if score < snow.soft then 1000
        else if score < snow.hard then 1000 - 500 * (score - snow.soft) / (snow.hard - snow.soft) else 500
      let armed := (b.shed d).armed || decide (score < st.shedClear)
      let scored : Blocks := { (stepped.modDish d (fun y => { y with score := score, derate := derate })).modShed d
          (fun _ => ⟨armed, (b.shed d).phase, decide (snow.onset ≤ score), decide (snow.soft ≤ score),
            decide (snow.hard ≤ score)⟩) with
        snowReadings := b.snowReadings.set d st.snowReading }
      let outs := side .onset snow.onset (b.shed d).onset ++ side .soft snow.soft (b.shed d).soft
        ++ side .hard snow.hard (b.shed d).hard
      let y := b.dish d
      let tilts : Bool := snow.autoShed && armed && (b.shed d).phase == .none
        && decide (snow.shedThreshold ≤ score) && y.task == .none && y.formation == none
        && !y.lock.motionLocked && !y.lock.stopPending && (y.drive == .braked || y.drive == .holding)
        && y.reasons == ⟨false, false⟩ && b.wind.state == .calm
      (tilts = false → Leaves (exec (.meltStep z) s) s scored s.part.xm outs [.zone z, .dish d, .common])
      ∧ ∀ p : PlanResult, tilts = true →
        plan st (scored.dish d) .stay snow.shedElevation none = .ok p → p.el.moves = true →
        b.fa.queue = [] → b.HeatQuiet → b.fa.grants[d] = none → remainder b.fa = 0 → 0 < st.elPeak →
        Leaves (exec (.meltStep z) s) s
          ((scored.modShed d (fun r => { r with phase := .claiming })).modFa (fun fa => { fa with
            queue := [⟨d, .mc, .shed, false, true, st.elPeak, st.azPeak, st.elPeak, fa.sequence⟩]
            sequence := fa.sequence + 1 }))
          s.part.xm (outs ++ [.page .power]) [.zone z, .dish d, .power, .common])

/-- The tail of a zone is over: it is OFF and asks for nothing, and where no other zone asks for heat the
grant it had goes (R83, R84, R126, R130). -/
def Obligations.ATailEndsInOff : Prop :=
  ∀ (z : ZoneId) (n : Nat) (s : State),
    let b := s.part.blocks.runTo n
    s.part.blocks.Quiet → (b.zone z).state = .tailing → (b.zone z).tail = some n →
    (b.zone z).demand < (b.meltReading z).startValue → (b.zone z).request ≠ 0 → (b.zone z).grant ≠ 0 →
    (∀ y, y ≠ z → (b.zone y).request = 0 ∧ (b.zone y).grant = 0) → b.fa.queue = [] →
    b.fa.inForce = max b.fa.target (motionSum b.fa) → b.fa.held = decide (b.fa.target < motionSum b.fa) →
    Leaves (exec (.tailTimerExpiry z) s) s
      ((b.modZone z (fun y => { y with
        state := .off, tail := none, applied := 0, request := 0, grant := 0, grantedDuty := 0 })).modHeater z
        (fun o => { o with on := false })) s.part.xm [.page .power] [.zone z, .power]

/-- The slot event with no window open: the panel named by NEXT PANEL is asked TAKEN, EVENT or STATUS, in
that order of preference, with its lamps, and the window opens for 5 ms (R158, R164, R196). -/
def Obligations.APedestalSlotServesTheNextPanel : Prop :=
  ∀ s : State,
    let b := s.part.blocks.runTo s.part.blocks.pedestal.slotDue
    let d := b.pedestal.next
    let p := b.panel d
    let kind : RequestKind := if p.takenDue then .taken else if p.readDue then .event else .status
    let lamps : Lamps :=
      { moving := !((b.dish d).drive == .braked || (b.dish d).drive == .pinned || (b.dish d).drive == .faulted)
        locked := (recordsOf b d).any (fun r => r.origin == .key || r.origin == .order || r.origin == .badge)
        stowed := (b.dish d).drive == .pinned
        refused := p.refusedFlash }
    s.part.blocks.Quiet → s.part.blocks.pedestal.exchange = none →
    Leaves (exec .pedestalSlot s) s
      { b.modPanel d (fun x => { x with lamps := lamps, takenDue := false }) with
        pedestal := { (b.modPanel d (fun x => { x with lamps := lamps, takenDue := false })).pedestal with
          next := d + 1, slotDue := b.clock.count + 20, sent := requestFrame d kind lamps
          exchange := some ⟨d, kind, lamps.refused, b.clock.count + 5⟩ } }
      s.part.xm [] [.lockEntry ⟨d.val, by omega⟩]

/-- The window closes without a good reply: the void count rises to at most 3. A good status reply of a
panel that is heard and whose key slot agrees takes the key, clears the count and notes an event that waits;
with a KEY of HOLD or ISOLATE and an empty key slot it places a KEY record, which cuts the heat where its class
is FULL, and with RUN it removes the KEY record of class MOTION. A good event reply with a badge lock places a BADGE record, and where the dish has three records it is
refused with its entry and the REFUSED lamp (R131, R146 to R148, R153, R159 to R163, R196). -/
def Obligations.AReplyWindowClosesOrHearsItsPanel : Prop :=
  ∀ (x : PanelExchange) (s : State), let b := s.part.blocks
    let p := b.panel x.panel
    let e : Page := .lockEntry ⟨x.panel.val, by omega⟩
    b.Quiet → b.pedestal.exchange = some x →
    ((p.link = .silent ∨ p.voids < 2) →
      let b1 := b.runTo x.window
      Leaves (exec .replyWindowClose s) s
        { b1 with pedestal := { (b1.modPanel x.panel (fun q => { q with voids := min 3 (q.voids + 1) })).pedestal with
            exchange := none } }
        s.part.xm [] [e])
    ∧ (∀ (key flags : Byte) (k : KeyPosition),
      let body : List Byte := [BitVec.ofNat 8 (x.panel.val + 1), 0x81, key, flags]
      b.clock.count ≤ x.window → x.kind ≠ .event → readKey key = some k → p.link = .online →
      slotMatches b.keySlots[x.panel] (wantedClass k) = true →
      Leaves (exec (.panelReply (body ++ [crc8 body]) false) s) s
        { b with pedestal := { (b.modPanel x.panel (fun q => { q with
              voids := 0, key := some k, readDue := flags.getLsbD 0
              refusedFlash := q.refusedFlash && !x.refusedCarried })).pedestal with exchange := none } }
        s.part.xm [] [e])
    ∧ (∀ (key flags : Byte) (k : KeyPosition) (c : LockClass),
      let d := x.panel
      let body : List Byte := [BitVec.ofNat 8 (d.val + 1), 0x81, key, flags]
      let heard : Blocks := { b with pedestal := { (b.modPanel d (fun q => { q with
          voids := 0, key := some k, readDue := flags.getLsbD 0
          refusedFlash := q.refusedFlash && !x.refusedCarried })).pedestal with exchange := none } }
      let m : LockMark := ⟨d, d.val, .key, c, 0⟩
      let cut (z : ZoneId) : Bool := c == .full && zoneDish z == d
      let at_ (o : TrailEvent) : List Output := [.trail o b.clock.time b.clock.valid, .cause .lock]
      b.clock.count ≤ x.window → x.kind ≠ .event → p.link = .online → readKey key = some k →
      b.HeatQuiet → (∀ (q : PoolId) (r : LockRecord), b.pool[q] = some r → r.dish ≠ d) →
      (b.dish d).drive = .braked → (b.dish d).task = .none → (b.dish d).formation = none →
      (b.stow d).phase = .none → (b.stow d).unpinWanted = false →
      b.fa.queue = [] → (∀ i : DishId, b.fa.grants[i] = none) →
      ((k = .hold ∧ c = .motion) ∨ (k = .isolate ∧ c = .full) → b.keySlots[d] = none →
        (b.dish d).lock = ⟨false, false, false, false⟩ →
        Leaves (exec (.panelReply (body ++ [crc8 body]) false) s) s
          { heard.modDish d (fun y => { y with lock := ⟨true, c == .full, false, false⟩ }) with
            keySlots := b.keySlots.set d
              (some ⟨d, .key, c, 0, .effective, b.clock.time, b.clock.valid, none⟩)
            zones := Vector.ofFn (fun z : Fin 36 => if cut z then
              { b.zone z with state := .cut, applied := 0, tail := none } else b.zone z)
            heaters := Vector.ofFn (fun z : Fin 36 => if cut z then { b.heater z with on := false }
              else b.heater z) }
          s.part.xm (at_ (.lockPlaced m .effective) ++ at_ (.lockEffective m .braked))
          ([.dish d, e, .common] ++ allZones.map Page.zone))
      ∧ (∀ r : LockRecord, k = .run → b.keySlots[d] = some r → r.dish = d → r.origin = .key → r.cls = .motion →
        c = .motion → r.tag = 0 → r.state = .effective → (b.dish d).lock = ⟨true, false, false, false⟩ →
        Leaves (exec (.panelReply (body ++ [crc8 body]) false) s) s
          { heard.modDish d (fun y => { y with lock := ⟨false, false, false, false⟩, removalMark := true }) with
            keySlots := b.keySlots.set d none }
          s.part.xm (at_ (.lockRemoved m .effective .key)) [.dish d, e, .common]))
    ∧ (∀ (key flags t0 t1 : Byte) (k : KeyPosition),
      let d := x.panel
      let tag := t0.toNat + 256 * t1.toNat
      let body : List Byte := [BitVec.ofNat 8 (d.val + 1), 0x82, key, flags, 1, 0, t0, t1]
      let heard (flash : Bool) : Blocks := { b with pedestal := { (b.modPanel d (fun q => { q with
          voids := 0, key := some k, readDue := false, takenDue := true
          refusedFlash := flash && !x.refusedCarried })).pedestal with exchange := none } }
      let mine := allPool.filterMap (fun j => b.pool[j].filter (fun r => r.dish == d))
      b.clock.count ≤ x.window → x.kind = .event → p.link = .online → readKey key = some k → tag ≠ 0 →
      slotMatches b.keySlots[d] (wantedClass k) = true →
      (∀ r ∈ mine, ¬ (r.origin = .badge ∧ r.tag = tag)) →
      (3 ≤ mine.length → Leaves (exec (.panelReply (body ++ [crc8 body]) false) s) s (heard true) s.part.xm
        [.trail (.badgeRefused d tag .motion .dishFull) b.clock.time b.clock.valid] [e, .common])
      ∧ (∀ j : PoolId, mine = [] → (∀ i : PoolId, i < j → b.pool[i].isSome = true) → b.pool[j] = none →
        b.keySlots[d] = none → (b.dish d).drive = .braked → (b.dish d).task = .none →
        (b.dish d).formation = none → (b.dish d).lock = ⟨false, false, false, false⟩ →
        (b.stow d).phase = .none → (b.stow d).unpinWanted = false →
        b.fa.queue = [] → (∀ i : DishId, b.fa.grants[i] = none) →
        let m : LockMark := ⟨d, 12 + j.val, .badge, .motion, tag⟩
        let at_ (o : TrailEvent) : List Output := [.trail o b.clock.time b.clock.valid, .cause .lock]
        Leaves (exec (.panelReply (body ++ [crc8 body]) false) s) s
          { (heard p.refusedFlash).modDish d (fun y => { y with lock := ⟨true, false, false, false⟩ }) with
            pool := b.pool.set j
              (some ⟨d, .badge, .motion, tag, .effective, b.clock.time, b.clock.valid, none⟩) }
          s.part.xm (at_ (.lockPlaced m .effective) ++ at_ (.lockEffective m .braked))
          [.dish d, e, .lockEntry ⟨12 + j.val, by omega⟩, .common]))

/-! ### Statements about the whole machine -/

/-- Every step leaves the memory in its canonical form, every EDITION even and every output taken, where it
finds them so (R167). -/
def Obligations.EveryStepKeepsThePartSettled : Prop :=
  ∀ s t : State, s.part.Settled → step s = .next t → t.part.Settled

/-- Right after reset the part is settled and every page shows its block, so that the lock view shows the lock table
(R165 to R168). `State.reset`
is the model's choice in the NV RECORD (log entry 2) and in the levels of the field inputs (log entry 5). -/
def Obligations.TheResetStateIsSettled : Prop :=
  State.reset.part.Settled ∧ State.reset.part.LockViewTrue ∧ (∀ pg, Shows State.reset.part pg)
    ∧ State.reset.pending = []

/-- The pages show their blocks, unless the site computer writes outside its own words. The lock view shows the lock
table after every step that finds it so (R165 to R167). A dish, formation, wind, power or zone page, and a lock entry,
that is up to date before a step is so after it: no field whose change republishes the page changes without a
republication (R26, R70, R89, R121, R144). Where a command that is no sweep, and no order for a slot that is held, leaves a page other
than it was, the common page among them, the page shows its block as the command leaves it, and so does every page that such a
change has touched (R167, R168). Which changes republish a page, and that a page is rewritten at the end of the
command, is in part the model's choice (log entries 9 and 55). -/
def Obligations.TheLockViewShowsTheLockTable : Prop :=
  let siteWords (c : Instr) : Prop := c.seen.all Outside.inSiteRegion = true
  (∀ s t : State, s.part.LockViewTrue → (∀ c rest, s.pending = c :: rest → siteWords c) → step s = .next t →
    t.part.LockViewTrue)
  ∧ (∀ (pg : Page) (s t : State), pg ≠ .common → UpToDate s.part pg →
    (∀ c rest, s.pending = c :: rest → siteWords c) → step s = .next t → UpToDate t.part pg)
  ∧ ∀ (pg : Page) (c : Instr) (s t : State), siteWords c → (∀ seen, c ≠ .nudgeSweep seen) →
    (∀ seen, c ≠ .sweepTimerExpiry seen) → c ≠ .registerWriteIgnored .nudge 1 →
    (∀ slot o, orderOf c = some (slot, o) → ∀ h ∈ s.part.xm.heldList, h.slot ≠ slot) → exec c s = .next t →
    (SamePage pg s.part.xm t.part.xm ∨ Shows t.part pg)
      ∧ (pageTouched pg s.part t.part = true → Shows t.part pg)

/-- No command but POWER_ON writes the presence word, the staging page or the free area: after a step they
are what the site computer's own writes, which the command carries, have left there, and without such writes
what they were (8.1, R166, R168). -/
def Obligations.ThePartLeavesTheSiteAreaAlone : Prop :=
  ∀ s t : State, (∀ levels rest, s.pending ≠ .powerOn levels :: rest) → step s = .next t →
    (∀ c rest, s.pending = c :: rest → ∃ p : Part, see c.seen s.part = some p
      ∧ ∀ a, inSiteArea a = true → t.part.xm.mem.read a = p.xm.mem.read a)
    ∧ ((∀ c rest, s.pending = c :: rest → ∀ o ∈ c.seen, ∃ d a, o = .amplifierReady d a) →
      ∀ a, inSiteArea a = true → t.part.xm.mem.read a = s.part.xm.mem.read a)

/-- A set cause stays set, and MASK holds its value, through every command but the writes of their
registers, the link reset and power-on (R170). -/
def Obligations.ACauseStaysSetUntilItIsCleared : Prop :=
  ∀ (c : Instr) (s t : State), exec c s = .next t →
    (∀ v, c ≠ .causeClear v) → c ≠ .nudgeLinkReset → c ≠ .registerWriteIgnored .nudge 2 →
    (∀ levels, c ≠ .powerOn levels) →
    (∀ i, s.part.xm.cause.getLsbD i = true → t.part.xm.cause.getLsbD i = true)
    ∧ ((∀ v, c ≠ .maskWrite v) → t.part.xm.mask = s.part.xm.mask)

/-- Every order that is taken sets EXPECTED POST to its post number + 1 and leaves its slot TAKEN and held,
or ANSWERED and not held (R171, R174, R176). -/
def Obligations.ATakenOrderStandsOrIsAnswered : Prop :=
  ∀ (c : Instr) (slot : SlotId) (o : Order) (s : State), orderOf c = some (slot, o) →
    s.part.xm.ready = true →
    ∃ t, exec c s = .next t ∧ t.part.xm.expectedPost = o.post + 1
      ∧ ((slotState slot t.part.xm.mem = some .taken ∧ ∃ h ∈ t.part.xm.heldList, h.slot = slot ∧ h.order = o)
        ∨ (slotState slot t.part.xm.mem = some .answered ∧ ∀ h ∈ t.part.xm.heldList, h.slot ≠ slot))

/-- An order that the order taker refuses itself is answered at once with the first failing check, and no
block changes: FLAGS other than 0, then for a verb of the formation planner a FORMATION field of 8 to 14,
or 15 with no last formation. So is a LOCK that the pool cannot take: a record of the same origin and tag,
then three records of the dish, then a full pool. The first check of all is the verb: a PLACED slot whose code names
no order is answered UNKNOWN_VERB by the sweep that takes it, whatever its FLAGS (R45, R146, R154, R174, R175). -/
def Obligations.ARefusedOrderChangesNoBlock : Prop :=
  (∀ (c : Instr) (slot : SlotId) (o : Order) (s : State), orderOf c = some (slot, o) →
    s.part.xm.ready = true → (∀ h ∈ s.part.xm.heldList, h.slot ≠ slot) → s.part.blocks.Quiet →
    (o.flags ≠ 0 → Answers (exec c s) s slot o ⟨.badField, noNotes, 5, []⟩ s.part.blocks [] [] [])
    ∧ (o.flags = 0 → o.body.ofFormation = true → 8 ≤ o.formation.toNat → o.formation ≠ 15 →
      Answers (exec c s) s slot o ⟨.badField, noNotes, 4, []⟩ s.part.blocks [] [] [])
    ∧ (o.flags = 0 → o.body.ofFormation = true → o.formation = 15 → s.part.xm.lastFormation = none →
      Answers (exec c s) s slot o ⟨.noLast, noNotes, 0, []⟩ s.part.blocks [] [] []))
  ∧ (∀ (seen : List Outside) (s : State) (p : Part) (m : BitVec 32) (slot : SlotId) (v : Word),
    see seen s.part = some p → p.xm.ready = true → p.blocks.Quiet →
    let state (k : SlotId) := slotState k p.xm.mem
    let o := orderAt slot p.xm.mem
    (∀ k : SlotId, m.getLsbD k.val = (p.xm.answerMarks.getLsbD k.val && state k != some .empty)) →
    (∀ h ∈ p.xm.heldList, state h.slot = some .taken) →
    (∀ k, k ≠ slot → state k ≠ some .placed
      ∧ (state k = some .cutAsked → p.xm.answerMarks.getLsbD k.val = true)) →
    state slot = some .placed → o.body = .unknown v →
    Leaves (exec (.nudgeSweep seen) s) s p.blocks
      { p.xm with answerMarks := clearMark slot m, expectedPost := o.post + 1 }
      [.answer slot ⟨.unknownVerb, noNotes, 0, []⟩ p.blocks.clock.time p.blocks.clock.valid] [])
  ∧ ∀ (h : OrderHead) (d : DishId) (cls tag : Word) (s : State), let b := s.part.blocks
    let o := orderWith h 0 0 0 (.lock (BitVec.ofNat 16 d.val) cls tag)
    let refused (code : AnswerCode) : Prop :=
      Answers (exec (.lock h (BitVec.ofNat 16 d.val) cls tag) s) s h.slot o ⟨code, noNotes, 0, []⟩ b [] [] []
    let mine := allPool.filterMap (fun k => b.pool[k].filter (fun r => r.dish == d))
    let same := mine.any (fun r => r.origin == .order && r.tag == tag.toNat)
    tag ≠ 0 → cls.toNat ≤ 2 → Takeable s h.slot o → b.Quiet →
    (same = true → refused .alreadyHeld)
    ∧ (same = false → 3 ≤ mine.length → refused .dishFull)
    ∧ (same = false → mine.length < 3 → (∀ k : PoolId, b.pool[k].isSome = true) → refused .tableFull)

/-- The order that the order taker copies from a slot is the order that the site computer placed there, for
every order of every verb, and the slot shows PLACED (10.4, R175, R194). -/
def Obligations.TheOrderCopiedIsTheOrderPlaced : Prop :=
  (∀ o : Order, o.body.wellFormed = true → readOrder (orderBytes o) = o)
  ∧ ∀ (slot : SlotId) (o : Order) (m : Memory), o.body.wellFormed = true →
    orderAt slot (placeOrder slot o m) = o ∧ slotState slot (placeOrder slot o m) = some .placed

/-- The candidates of a sweep are the PLACED slots that are not held, each once, in ascending order of
(POST NUMBER - EXPECTED POST) modulo 65536, equal keys in ascending slot index (R174). -/
def Obligations.TheSweepTakesInKeyOrder : Prop :=
  ∀ x : Exchange,
    let key (slot : SlotId) : Nat := ((orderAt slot x.mem).post - x.expectedPost).toNat
    (candidates x).Pairwise (fun a b => key a < key b ∨ (key a = key b ∧ a < b))
    ∧ ∀ slot, slot ∈ candidates x ↔
        slotState slot x.mem = some .placed ∧ ∀ h ∈ x.heldList, h.slot ≠ slot

/-- An event handed to the trail writer changes no entry that is unread: only the position of a read entry is
written, and with 128 unread entries nothing is written and one more event is counted lost (R179). The bytes of an
entry that 10.6 leaves open are the model's choice (log entries 10 and 11). -/
def Obligations.TheTrailKeepsItsUnreadEntries : Prop :=
  ∀ (level count : Nat) (e : TrailEvent) (time : ArrayTime) (valid : Bool) (x : Exchange),
    let y := takeEvent level count e time valid x
    (∀ k, k < unread x →
      y.mem.readBytes (0x3000 + 32 * ((x.writeSequence.toNat + 2 ^ 32 - 1 - k) % 128)) 32
        = x.mem.readBytes (0x3000 + 32 * ((x.writeSequence.toNat + 2 ^ 32 - 1 - k) % 128)) 32)
    ∧ (unread x = 128 → y.mem = x.mem ∧ y.writeSequence = x.writeSequence
        ∧ y.dropped = min 65535 (x.dropped + 1))
    ∧ (unread x < 128 → x.dropped = 0 → y.writeSequence = x.writeSequence + 1 ∧ y.dropped = 0
        ∧ y.mem.readBytes (0x3000 + 32 * (x.writeSequence.toNat % 128)) 32
          = entryBytes x.writeSequence e time valid)

/-- After a grant event the motion grants and the heater grants together lie within BUDGET IN FORCE, which
is the larger of the target and what motion held before it (R73, R80, R83). -/
def Obligations.AGrantEventKeepsWithinTheBudget : Prop :=
  ∀ b : Blocks, let b' := grantEvent b
    b'.fa.inForce = max b.fa.target (motionSum b.fa) ∧ motionSum b.fa ≤ motionSum b'.fa
    ∧ motionSum b'.fa + heaterSum b' ≤ b'.fa.inForce

/-- The floor square root; an axis stretched to the common duration of its wave never takes longer than
that, goes to the same target, and no faster than before; the unwrapped azimuth of the next waypoint is a
value of its sky azimuth within 180000 of the one before, the larger where two are (R33, R35, R36, R41). -/
def Obligations.ThePlannerKeepsItsBounds : Prop :=
  (∀ n : Nat, isqrt n * isqrt n ≤ n ∧ n < (isqrt n + 1) * (isqrt n + 1))
  ∧ (∀ (tc : Nat) (m : AxisMove), m.duration ≤ tc → m.v = m.vDer →
    (stretch tc m).duration ≤ tc ∧ (stretch tc m).target = m.target ∧ (stretch tc m).start = m.start
    ∧ (stretch tc m).v ≤ m.v ∧ (stretch tc m).a = m.a)
  ∧ ∀ u a : Int, (∃ k : Int, unwrapNext u a = a + 360000 * k)
    ∧ -180000 < unwrapNext u a - u ∧ unwrapNext u a - u ≤ 180000

/-- The bounds of the two functions: the score that a melt step gives is at most 10000, whatever it was; the
derate factor of R135 lies in 500 to 1000 where the hard level is above the soft level, and does not rise with the
score. Settings that pass the checks of R187 have those levels apart and a start score of at most 10000, and so
power-on starts every SCORE and DERATE within its range (R133, R135, R185, R187). Nothing is said here of the
states that a run reaches. -/
def Obligations.TheScoreAndDerateFunctionsAreBounded : Prop :=
  (∀ (st : Settings) (score applied : Nat) (temp : Option Int) (precip : Precipitation),
    nextScore st score applied temp precip ≤ 10000)
  ∧ (∀ (r : SnowReading) (x y : Nat), r.soft < r.hard → x ≤ y →
    500 ≤ derateOf r y ∧ derateOf r y ≤ derateOf r x ∧ derateOf r x ≤ 1000)
  ∧ (∀ st : Settings, settingFault st = none → st.soft < st.hard ∧ st.startScore ≤ 10000)
  ∧ ∀ (levels : FieldLevels) (s t : State), exec (.powerOn levels) s = .next t →
    ∀ d, (t.part.blocks.dish d).score ≤ 10000 ∧ 500 ≤ (t.part.blocks.dish d).derate
      ∧ (t.part.blocks.dish d).derate ≤ 1000

end
end

