-- ==== Sys2Proof/Laws/Memory.lean ====
section
/-! SUPPORT. The laws of the exchange memory: a byte read after a write, and the canonical form. -/

namespace Sys2Proof.Machine

/-! ### Reading -/

theorem Memory.read_append_of_mem {a : Nat} {m1 m2 : Memory} (h : ∃ c ∈ m1, c.1 = a) :
    Memory.read a (m1 ++ m2) = Memory.read a m1 := by
  induction m1 with
  | nil => simp at h
  | cons c m ih =>
    obtain ⟨b, v⟩ := c
    by_cases hab : a = b
    · simp [Memory.read, hab]
    · have h' : ∃ c ∈ m, c.1 = a := by
        obtain ⟨c, hc, hca⟩ := h
        rcases List.mem_cons.mp hc with rfl | hc
        · exact absurd hca.symm hab
        · exact ⟨c, hc, hca⟩
      simp [Memory.read, hab, ih h']

theorem Memory.read_append_of_not_mem {a : Nat} {m1 m2 : Memory} (h : ∀ c ∈ m1, c.1 ≠ a) :
    Memory.read a (m1 ++ m2) = Memory.read a m2 := by
  induction m1 with
  | nil => rfl
  | cons c m ih =>
    obtain ⟨b, v⟩ := c
    have hab : a ≠ b := fun e => h (b, v) (by simp) e.symm
    simp [Memory.read, hab, ih (fun c hc => h c (List.mem_cons_of_mem _ hc))]

theorem Memory.read_of_not_mem {a : Nat} {m : Memory} (h : ∀ c ∈ m, c.1 ≠ a) :
    Memory.read a m = unlistedByte := by
  induction m with
  | nil => rfl
  | cons c m ih =>
    obtain ⟨b, v⟩ := c
    have hab : a ≠ b := fun e => h (b, v) (by simp) e.symm
    simp [Memory.read, hab, ih (fun c hc => h c (List.mem_cons_of_mem _ hc))]

theorem Memory.read_filter {a : Nat} (p : Nat → Bool) (m : Memory) :
    Memory.read a (m.filter (fun c => p c.1)) = if p a then Memory.read a m else unlistedByte := by
  induction m with
  | nil => simp [Memory.read]
  | cons c m ih =>
    obtain ⟨b, v⟩ := c
    by_cases hb : p b = true
    · by_cases hab : a = b
      · subst hab; simp [hb, Memory.read]
      · simp [hb, Memory.read, hab, ih]
    · by_cases hab : a = b
      · subst hab; simp [hb, ih]
      · simp [hb, Memory.read, hab, ih]

theorem Memory.cells_bound {a : Nat} {bs : List Byte} {c : Host.Cell} (h : c ∈ Memory.cells a bs) :
    a ≤ c.1 ∧ c.1 < a + bs.length ∧ c.2 ≠ unlistedByte := by
  induction bs generalizing a with
  | nil => simp [Memory.cells] at h
  | cons b bs ih =>
    unfold Memory.cells at h
    split at h
    · have := ih h
      refine ⟨by omega, by simp only [List.length_cons]; omega, this.2.2⟩
    · rename_i hb
      rcases List.mem_cons.mp h with rfl | h
      · simp [hb]
      · have := ih h
        refine ⟨by omega, by simp only [List.length_cons]; omega, this.2.2⟩

theorem Memory.read_cells (x a : Nat) (bs : List Byte) :
    Memory.read x (Memory.cells a bs) = if a ≤ x then bs.getD (x - a) unlistedByte else unlistedByte := by
  induction bs generalizing a with
  | nil => simp [Memory.cells, Memory.read]
  | cons b bs ih =>
    unfold Memory.cells
    by_cases hx : x = a
    · subst hx
      by_cases hb : b = unlistedByte
      · simp only [hb, if_pos, ih]
        have : ¬ (x + 1 ≤ x) := by omega
        simp [this]
      · simp [hb, Memory.read]
    · have e : ∀ (h : a ≤ x), x - a = (x - (a + 1)) + 1 := fun h => by omega
      by_cases hle : a ≤ x
      · have h1 : a + 1 ≤ x := by omega
        by_cases hb : b = unlistedByte
        · simp only [hb, if_pos, ih, h1, hle, e hle, List.getD_cons_succ]
        · simp only [hb, if_neg, Memory.read, hx, ih, h1, hle, e hle, List.getD_cons_succ, if_pos,
            not_false_eq_true]
      · have h1 : ¬ (a + 1 ≤ x) := by omega
        by_cases hb : b = unlistedByte
        · simp [hb, ih, h1, hle]
        · simp [hb, Memory.read, hx, ih, h1, hle]

/-- A byte read after a write: the byte written where it lies among those, the old byte elsewhere. -/
theorem Memory.read_writeBytes (x a : Nat) (bs : List Byte) (m : Memory) :
    Memory.read x (m.writeBytes a bs) =
      if a ≤ x ∧ x < a + bs.length then bs.getD (x - a) unlistedByte else Memory.read x m := by
  have hlow : ∀ (c : Host.Cell), c ∈ m.filter (fun c => decide (c.1 < a)) → c.1 < a := by
    intro c hc; simpa using (List.mem_filter.mp hc).2
  have hhigh : ∀ (c : Host.Cell), c ∈ m.filter (fun c => decide (a + bs.length ≤ c.1)) →
      a + bs.length ≤ c.1 := by
    intro c hc; simpa using (List.mem_filter.mp hc).2
  have flow := Memory.read_filter (a := x) (fun n => decide (n < a)) m
  have fhigh := Memory.read_filter (a := x) (fun n => decide (a + bs.length ≤ n)) m
  unfold Memory.writeBytes
  rw [List.append_assoc]
  by_cases h1 : x < a
  · have hno : ∀ c ∈ Memory.cells a bs ++ m.filter (fun c => decide (a + bs.length ≤ c.1)), c.1 ≠ x := by
      intro c hc
      rcases List.mem_append.mp hc with hc | hc
      · have := (Memory.cells_bound hc).1; omega
      · have := hhigh c hc; omega
    have hn : ¬ (a ≤ x ∧ x < a + bs.length) := by omega
    rw [if_neg hn]
    by_cases hm : ∃ c ∈ m.filter (fun c => decide (c.1 < a)), c.1 = x
    · rw [Memory.read_append_of_mem hm, flow]; simp [h1]
    · push Not at hm
      rw [Memory.read_append_of_not_mem hm, Memory.read_of_not_mem hno]
      have := Memory.read_of_not_mem hm
      rw [flow] at this; simpa [h1] using this.symm
  · have hm : ∀ c ∈ m.filter (fun c => decide (c.1 < a)), c.1 ≠ x := by
      intro c hc; have := hlow c hc; omega
    rw [Memory.read_append_of_not_mem hm]
    by_cases h2 : x < a + bs.length
    · have hn : a ≤ x ∧ x < a + bs.length := by omega
      rw [if_pos hn]
      have hc := Memory.read_cells x a bs
      simp only [hn.1, if_true] at hc
      by_cases hm2 : ∃ c ∈ Memory.cells a bs, c.1 = x
      · rw [Memory.read_append_of_mem hm2, hc]
      · push Not at hm2
        rw [Memory.read_append_of_not_mem hm2, fhigh]
        have := Memory.read_of_not_mem hm2
        rw [hc] at this
        have h3 : ¬ (a + bs.length ≤ x) := by omega
        rw [if_neg (by simpa using h3)]
        exact this.symm
    · have hn : ¬ (a ≤ x ∧ x < a + bs.length) := by omega
      rw [if_neg hn]
      have hm2 : ∀ c ∈ Memory.cells a bs, c.1 ≠ x := by
        intro c hc; have := (Memory.cells_bound hc).2.1; omega
      rw [Memory.read_append_of_not_mem hm2, fhigh]
      have h3 : a + bs.length ≤ x := by omega
      simp [h3]

/-- A write changes nothing outside the bytes that it writes. -/
theorem Memory.read_writeBytes_outside {x a : Nat} {bs : List Byte} (m : Memory)
    (h : x < a ∨ a + bs.length ≤ x) : Memory.read x (m.writeBytes a bs) = Memory.read x m := by
  rw [Memory.read_writeBytes, if_neg (by omega)]

theorem Memory.readBytes_length (a n : Nat) (m : Memory) : (Memory.readBytes a n m).length = n := by
  induction n generalizing a with
  | zero => rfl
  | succ n ih => simp [Memory.readBytes, ih]

/-- Bytes are read alike where every byte of them is read alike. -/
theorem Memory.readBytes_congr {a n : Nat} {m m' : Memory}
    (h : ∀ x, a ≤ x → x < a + n → Memory.read x m = Memory.read x m') :
    Memory.readBytes a n m = Memory.readBytes a n m' := by
  induction n generalizing a with
  | zero => rfl
  | succ n ih =>
    simp only [Memory.readBytes]
    rw [h a (by omega) (by omega), ih (fun x h1 h2 => h x (by omega) (by omega))]

theorem Memory.readBytes_outside {a n k : Nat} {bs : List Byte} (m : Memory)
    (h : k + n ≤ a ∨ a + bs.length ≤ k) :
    Memory.readBytes k n (m.writeBytes a bs) = Memory.readBytes k n m :=
  Memory.readBytes_congr (fun x h1 h2 => Memory.read_writeBytes_outside m (by omega))

/-- The bytes written are the bytes read there. -/
theorem Memory.readBytes_writeBytes (a : Nat) (bs : List Byte) (m : Memory) :
    Memory.readBytes a bs.length (m.writeBytes a bs) = bs := by
  have key : ∀ (n : Nat) (k : Nat), k + n = bs.length →
      Memory.readBytes (a + k) n (m.writeBytes a bs) = bs.drop k := by
    intro n
    induction n with
    | zero => intro k hk; simp [Memory.readBytes, ← hk]
    | succ n ih =>
      intro k hk
      have hlt : k < bs.length := by omega
      simp only [Memory.readBytes]
      rw [Memory.read_writeBytes, if_pos (by omega), show a + k + 1 = a + (k + 1) by omega,
        ih (k + 1) (by omega), show a + k - a = k by omega, List.drop_eq_getElem_cons hlt]
      simp [List.getD, hlt]
  simpa using key bs.length 0 (by omega)

/-! ### Bytes of numbers (R193) -/

theorem lowBytes_length (n v : Nat) : (lowBytes n v).length = n := by
  induction n generalizing v with
  | zero => rfl
  | succ n ih => simp [lowBytes, ih]

theorem fromLow_lowBytes (n v : Nat) : fromLow (lowBytes n v) = v % 256 ^ n := by
  induction n generalizing v with
  | zero => simp [lowBytes, fromLow, Nat.mod_one]
  | succ n ih =>
    simp only [lowBytes, fromLow, ih, BitVec.toNat_ofNat]
    have e : v % 256 ^ (n + 1) = v % 256 + 256 * (v / 256 % 256 ^ n) := by
      rw [Nat.pow_succ', Nat.mod_mul]
    rw [e]

theorem fit_length (n : Nat) (bs : List Byte) : (fit n bs).length = n := by
  simp [fit]

/-- A word read after it is written. -/
theorem Memory.readWord_writeWord (a : Nat) (v : Word) (m : Memory) :
    Memory.readWord a (m.writeWord a v) = v := by
  unfold Memory.readWord Memory.writeWord
  have h := Memory.readBytes_writeBytes a (lowBytes 2 v.toNat) m
  rw [lowBytes_length] at h
  rw [h, fromLow_lowBytes]
  apply BitVec.eq_of_toNat_eq
  have := v.isLt
  simp only [BitVec.toNat_ofNat]
  omega

theorem Memory.readWord_outside {a k : Nat} {bs : List Byte} (m : Memory)
    (h : k + 2 ≤ a ∨ a + bs.length ≤ k) :
    Memory.readWord k (m.writeBytes a bs) = Memory.readWord k m := by
  unfold Memory.readWord
  rw [Memory.readBytes_outside m h]

/-! ### The canonical form -/

theorem Memory.wfAbove_iff (a : Nat) (m : Memory) :
    Memory.wfAbove a m = true ↔
      (∀ c ∈ m, a < c.1) ∧ (∀ c ∈ m, c.2 ≠ unlistedByte) ∧ m.Pairwise (fun c d => c.1 < d.1) := by
  induction m generalizing a with
  | nil => simp [Memory.wfAbove]
  | cons c m ih =>
    obtain ⟨b, v⟩ := c
    simp only [Memory.wfAbove, Bool.and_eq_true, decide_eq_true_eq, bne_iff_ne, ih, List.mem_cons,
      forall_eq_or_imp, List.pairwise_cons]
    constructor
    · rintro ⟨⟨h1, h2⟩, h3, h4, h5⟩
      exact ⟨⟨h1, fun c hc => by have := h3 c hc; omega⟩, ⟨h2, h4⟩, h3, h5⟩
    · rintro ⟨⟨h1, _⟩, ⟨h2, h4⟩, h3, h5⟩
      exact ⟨⟨h1, h2⟩, h3, h4, h5⟩

/-- The canonical form: the addresses rise, and no byte is the unlisted one. -/
theorem Memory.wf_iff (m : Memory) :
    Memory.wf m = true ↔ (∀ c ∈ m, c.2 ≠ unlistedByte) ∧ m.Pairwise (fun c d => c.1 < d.1) := by
  cases m with
  | nil => simp [Memory.wf]
  | cons c m =>
    obtain ⟨b, v⟩ := c
    simp only [Memory.wf, Bool.and_eq_true, bne_iff_ne, Memory.wfAbove_iff, List.mem_cons,
      forall_eq_or_imp, List.pairwise_cons]
    tauto

theorem Memory.cells_pairwise (a : Nat) (bs : List Byte) :
    (Memory.cells a bs).Pairwise (fun c d => c.1 < d.1) := by
  induction bs generalizing a with
  | nil => simp [Memory.cells]
  | cons b bs ih =>
    unfold Memory.cells
    split
    · exact ih _
    · refine List.pairwise_cons.mpr ⟨fun c hc => ?_, ih _⟩
      have := (Memory.cells_bound hc).1
      simp only; omega

/-- Every write keeps the canonical form. -/
theorem Memory.wf_writeBytes {m : Memory} (a : Nat) (bs : List Byte) (h : Memory.wf m = true) :
    Memory.wf (m.writeBytes a bs) = true := by
  rw [Memory.wf_iff] at h ⊢
  obtain ⟨hz, hp⟩ := h
  unfold Memory.writeBytes
  constructor
  · intro c hc
    rcases List.mem_append.mp hc with hc | hc
    · rcases List.mem_append.mp hc with hc | hc
      · exact hz c (List.mem_filter.mp hc).1
      · exact (Memory.cells_bound hc).2.2
    · exact hz c (List.mem_filter.mp hc).1
  · refine List.pairwise_append.mpr ⟨List.pairwise_append.mpr ⟨hp.filter _, Memory.cells_pairwise a bs, ?_⟩,
      hp.filter _, ?_⟩
    · intro c hc d hd
      have h1 : c.1 < a := by simpa using (List.mem_filter.mp hc).2
      have h2 := (Memory.cells_bound hd).1
      omega
    · intro c hc d hd
      have h2 : a + bs.length ≤ d.1 := by simpa using (List.mem_filter.mp hd).2
      rcases List.mem_append.mp hc with hc | hc
      · have h1 : c.1 < a := by simpa using (List.mem_filter.mp hc).2
        omega
      · have h1 := (Memory.cells_bound hc).2.1
        omega

theorem Memory.wf_writeWord {m : Memory} (a : Nat) (v : Word) (h : Memory.wf m = true) :
    Memory.wf (m.writeWord a v) = true := Memory.wf_writeBytes a _ h

theorem wf_setSlotState {m : Memory} (s : SlotId) (x : SlotState) (h : Memory.wf m = true) :
    Memory.wf (setSlotState s x m) = true := Memory.wf_writeWord _ _ h

theorem wf_placeOrder {m : Memory} (s : SlotId) (o : Order) (h : Memory.wf m = true) :
    Memory.wf (placeOrder s o m) = true := wf_setSlotState s _ (Memory.wf_writeBytes _ _ h)

/-! ### Slots (10.4) -/

theorem slotState_setSlotState (s : SlotId) (x : SlotState) (m : Memory) :
    slotState s (setSlotState s x m) = some x := by
  unfold slotState setSlotState
  rw [Memory.readWord_writeWord]
  cases x <;> decide

/-- The STATE word of one slot is not that of another. -/
theorem slotState_setSlotState_other {s t : SlotId} (h : s ≠ t) (x : SlotState) (m : Memory) :
    slotState t (setSlotState s x m) = slotState t m := by
  unfold slotState setSlotState Memory.writeWord
  have hst : s.val ≠ t.val := fun e => h (Fin.ext e)
  rw [Memory.readWord_outside]
  rw [lowBytes_length]; unfold slotBase; omega

end Sys2Proof.Machine
end

