-- ==== Sys2Proof/Laws/State.lean ====
section
/-! SUPPORT. One lemma for each field and each named update of the blocks, and one for each record read
after an update. -/

namespace Sys2Proof.Machine

section

variable (b : Blocks)

/-! ### `modDish` -/

@[simp] theorem Blocks.modDish_clock (d : DishId) (f : Dish → Dish) : (b.modDish d f).clock = b.clock := rfl
@[simp] theorem Blocks.modDish_presence (d : DishId) (f : Dish → Dish) : (b.modDish d f).presence = b.presence := rfl
@[simp] theorem Blocks.modDish_site (d : DishId) (f : Dish → Dish) : (b.modDish d f).site = b.site := rfl
@[simp] theorem Blocks.modDish_heaters (d : DishId) (f : Dish → Dish) : (b.modDish d f).heaters = b.heaters := rfl
@[simp] theorem Blocks.modDish_forms (d : DishId) (f : Dish → Dish) : (b.modDish d f).forms = b.forms := rfl
@[simp] theorem Blocks.modDish_fa (d : DishId) (f : Dish → Dish) : (b.modDish d f).fa = b.fa := rfl
@[simp] theorem Blocks.modDish_lines (d : DishId) (f : Dish → Dish) : (b.modDish d f).lines = b.lines := rfl
@[simp] theorem Blocks.modDish_wind (d : DishId) (f : Dish → Dish) : (b.modDish d f).wind = b.wind := rfl
@[simp] theorem Blocks.modDish_zones (d : DishId) (f : Dish → Dish) : (b.modDish d f).zones = b.zones := rfl
@[simp] theorem Blocks.modDish_sheds (d : DishId) (f : Dish → Dish) : (b.modDish d f).sheds = b.sheds := rfl
@[simp] theorem Blocks.modDish_meltReadings (d : DishId) (f : Dish → Dish) : (b.modDish d f).meltReadings = b.meltReadings := rfl
@[simp] theorem Blocks.modDish_snowReadings (d : DishId) (f : Dish → Dish) : (b.modDish d f).snowReadings = b.snowReadings := rfl
@[simp] theorem Blocks.modDish_keySlots (d : DishId) (f : Dish → Dish) : (b.modDish d f).keySlots = b.keySlots := rfl
@[simp] theorem Blocks.modDish_pool (d : DishId) (f : Dish → Dish) : (b.modDish d f).pool = b.pool := rfl
@[simp] theorem Blocks.modDish_pedestal (d : DishId) (f : Dish → Dish) : (b.modDish d f).pedestal = b.pedestal := rfl
@[simp] theorem Blocks.modDish_inbox (d : DishId) (f : Dish → Dish) : (b.modDish d f).inbox = b.inbox := rfl
@[simp] theorem Blocks.modDish_out (d : DishId) (f : Dish → Dish) : (b.modDish d f).out = b.out := rfl
@[simp] theorem Blocks.modDish_form (d : DishId) (f : Dish → Dish) (k' : FormationId) : (b.modDish d f).form k' = b.form k' := rfl
@[simp] theorem Blocks.modDish_zone (d : DishId) (f : Dish → Dish) (z' : ZoneId) : (b.modDish d f).zone z' = b.zone z' := rfl
@[simp] theorem Blocks.modDish_meltReading (d : DishId) (f : Dish → Dish) (z' : ZoneId) : (b.modDish d f).meltReading z' = b.meltReading z' := rfl
@[simp] theorem Blocks.modDish_heater (d : DishId) (f : Dish → Dish) (z' : ZoneId) : (b.modDish d f).heater z' = b.heater z' := rfl
@[simp] theorem Blocks.modDish_shed (d : DishId) (f : Dish → Dish) (d' : DishId) : (b.modDish d f).shed d' = b.shed d' := rfl
@[simp] theorem Blocks.modDish_snowReading (d : DishId) (f : Dish → Dish) (d' : DishId) : (b.modDish d f).snowReading d' = b.snowReading d' := rfl
@[simp] theorem Blocks.modDish_line (d : DishId) (f : Dish → Dish) (l' : LineId) : (b.modDish d f).line l' = b.line l' := rfl
@[simp] theorem Blocks.modDish_stow (d : DishId) (f : Dish → Dish) (d' : DishId) : (b.modDish d f).stow d' = b.stow d' := rfl
@[simp] theorem Blocks.modDish_panel (d : DishId) (f : Dish → Dish) (d' : DishId) : (b.modDish d f).panel d' = b.panel d' := rfl

/-! ### `modForm` -/

@[simp] theorem Blocks.modForm_clock (k : FormationId) (f : Formation → Formation) : (b.modForm k f).clock = b.clock := rfl
@[simp] theorem Blocks.modForm_presence (k : FormationId) (f : Formation → Formation) : (b.modForm k f).presence = b.presence := rfl
@[simp] theorem Blocks.modForm_site (k : FormationId) (f : Formation → Formation) : (b.modForm k f).site = b.site := rfl
@[simp] theorem Blocks.modForm_dishes (k : FormationId) (f : Formation → Formation) : (b.modForm k f).dishes = b.dishes := rfl
@[simp] theorem Blocks.modForm_heaters (k : FormationId) (f : Formation → Formation) : (b.modForm k f).heaters = b.heaters := rfl
@[simp] theorem Blocks.modForm_fa (k : FormationId) (f : Formation → Formation) : (b.modForm k f).fa = b.fa := rfl
@[simp] theorem Blocks.modForm_lines (k : FormationId) (f : Formation → Formation) : (b.modForm k f).lines = b.lines := rfl
@[simp] theorem Blocks.modForm_wind (k : FormationId) (f : Formation → Formation) : (b.modForm k f).wind = b.wind := rfl
@[simp] theorem Blocks.modForm_zones (k : FormationId) (f : Formation → Formation) : (b.modForm k f).zones = b.zones := rfl
@[simp] theorem Blocks.modForm_sheds (k : FormationId) (f : Formation → Formation) : (b.modForm k f).sheds = b.sheds := rfl
@[simp] theorem Blocks.modForm_meltReadings (k : FormationId) (f : Formation → Formation) : (b.modForm k f).meltReadings = b.meltReadings := rfl
@[simp] theorem Blocks.modForm_snowReadings (k : FormationId) (f : Formation → Formation) : (b.modForm k f).snowReadings = b.snowReadings := rfl
@[simp] theorem Blocks.modForm_keySlots (k : FormationId) (f : Formation → Formation) : (b.modForm k f).keySlots = b.keySlots := rfl
@[simp] theorem Blocks.modForm_pool (k : FormationId) (f : Formation → Formation) : (b.modForm k f).pool = b.pool := rfl
@[simp] theorem Blocks.modForm_pedestal (k : FormationId) (f : Formation → Formation) : (b.modForm k f).pedestal = b.pedestal := rfl
@[simp] theorem Blocks.modForm_inbox (k : FormationId) (f : Formation → Formation) : (b.modForm k f).inbox = b.inbox := rfl
@[simp] theorem Blocks.modForm_out (k : FormationId) (f : Formation → Formation) : (b.modForm k f).out = b.out := rfl
@[simp] theorem Blocks.modForm_dish (k : FormationId) (f : Formation → Formation) (d' : DishId) : (b.modForm k f).dish d' = b.dish d' := rfl
@[simp] theorem Blocks.modForm_zone (k : FormationId) (f : Formation → Formation) (z' : ZoneId) : (b.modForm k f).zone z' = b.zone z' := rfl
@[simp] theorem Blocks.modForm_meltReading (k : FormationId) (f : Formation → Formation) (z' : ZoneId) : (b.modForm k f).meltReading z' = b.meltReading z' := rfl
@[simp] theorem Blocks.modForm_heater (k : FormationId) (f : Formation → Formation) (z' : ZoneId) : (b.modForm k f).heater z' = b.heater z' := rfl
@[simp] theorem Blocks.modForm_shed (k : FormationId) (f : Formation → Formation) (d' : DishId) : (b.modForm k f).shed d' = b.shed d' := rfl
@[simp] theorem Blocks.modForm_snowReading (k : FormationId) (f : Formation → Formation) (d' : DishId) : (b.modForm k f).snowReading d' = b.snowReading d' := rfl
@[simp] theorem Blocks.modForm_line (k : FormationId) (f : Formation → Formation) (l' : LineId) : (b.modForm k f).line l' = b.line l' := rfl
@[simp] theorem Blocks.modForm_stow (k : FormationId) (f : Formation → Formation) (d' : DishId) : (b.modForm k f).stow d' = b.stow d' := rfl
@[simp] theorem Blocks.modForm_panel (k : FormationId) (f : Formation → Formation) (d' : DishId) : (b.modForm k f).panel d' = b.panel d' := rfl

/-! ### `modMember` -/

@[simp] theorem Blocks.modMember_clock (k : FormationId) (d : DishId) (f : Member → Member) : (b.modMember k d f).clock = b.clock := rfl
@[simp] theorem Blocks.modMember_presence (k : FormationId) (d : DishId) (f : Member → Member) : (b.modMember k d f).presence = b.presence := rfl
@[simp] theorem Blocks.modMember_site (k : FormationId) (d : DishId) (f : Member → Member) : (b.modMember k d f).site = b.site := rfl
@[simp] theorem Blocks.modMember_dishes (k : FormationId) (d : DishId) (f : Member → Member) : (b.modMember k d f).dishes = b.dishes := rfl
@[simp] theorem Blocks.modMember_heaters (k : FormationId) (d : DishId) (f : Member → Member) : (b.modMember k d f).heaters = b.heaters := rfl
@[simp] theorem Blocks.modMember_fa (k : FormationId) (d : DishId) (f : Member → Member) : (b.modMember k d f).fa = b.fa := rfl
@[simp] theorem Blocks.modMember_lines (k : FormationId) (d : DishId) (f : Member → Member) : (b.modMember k d f).lines = b.lines := rfl
@[simp] theorem Blocks.modMember_wind (k : FormationId) (d : DishId) (f : Member → Member) : (b.modMember k d f).wind = b.wind := rfl
@[simp] theorem Blocks.modMember_zones (k : FormationId) (d : DishId) (f : Member → Member) : (b.modMember k d f).zones = b.zones := rfl
@[simp] theorem Blocks.modMember_sheds (k : FormationId) (d : DishId) (f : Member → Member) : (b.modMember k d f).sheds = b.sheds := rfl
@[simp] theorem Blocks.modMember_meltReadings (k : FormationId) (d : DishId) (f : Member → Member) : (b.modMember k d f).meltReadings = b.meltReadings := rfl
@[simp] theorem Blocks.modMember_snowReadings (k : FormationId) (d : DishId) (f : Member → Member) : (b.modMember k d f).snowReadings = b.snowReadings := rfl
@[simp] theorem Blocks.modMember_keySlots (k : FormationId) (d : DishId) (f : Member → Member) : (b.modMember k d f).keySlots = b.keySlots := rfl
@[simp] theorem Blocks.modMember_pool (k : FormationId) (d : DishId) (f : Member → Member) : (b.modMember k d f).pool = b.pool := rfl
@[simp] theorem Blocks.modMember_pedestal (k : FormationId) (d : DishId) (f : Member → Member) : (b.modMember k d f).pedestal = b.pedestal := rfl
@[simp] theorem Blocks.modMember_inbox (k : FormationId) (d : DishId) (f : Member → Member) : (b.modMember k d f).inbox = b.inbox := rfl
@[simp] theorem Blocks.modMember_out (k : FormationId) (d : DishId) (f : Member → Member) : (b.modMember k d f).out = b.out := rfl
@[simp] theorem Blocks.modMember_dish (k : FormationId) (d : DishId) (f : Member → Member) (d' : DishId) : (b.modMember k d f).dish d' = b.dish d' := rfl
@[simp] theorem Blocks.modMember_zone (k : FormationId) (d : DishId) (f : Member → Member) (z' : ZoneId) : (b.modMember k d f).zone z' = b.zone z' := rfl
@[simp] theorem Blocks.modMember_meltReading (k : FormationId) (d : DishId) (f : Member → Member) (z' : ZoneId) : (b.modMember k d f).meltReading z' = b.meltReading z' := rfl
@[simp] theorem Blocks.modMember_heater (k : FormationId) (d : DishId) (f : Member → Member) (z' : ZoneId) : (b.modMember k d f).heater z' = b.heater z' := rfl
@[simp] theorem Blocks.modMember_shed (k : FormationId) (d : DishId) (f : Member → Member) (d' : DishId) : (b.modMember k d f).shed d' = b.shed d' := rfl
@[simp] theorem Blocks.modMember_snowReading (k : FormationId) (d : DishId) (f : Member → Member) (d' : DishId) : (b.modMember k d f).snowReading d' = b.snowReading d' := rfl
@[simp] theorem Blocks.modMember_line (k : FormationId) (d : DishId) (f : Member → Member) (l' : LineId) : (b.modMember k d f).line l' = b.line l' := rfl
@[simp] theorem Blocks.modMember_stow (k : FormationId) (d : DishId) (f : Member → Member) (d' : DishId) : (b.modMember k d f).stow d' = b.stow d' := rfl
@[simp] theorem Blocks.modMember_panel (k : FormationId) (d : DishId) (f : Member → Member) (d' : DishId) : (b.modMember k d f).panel d' = b.panel d' := rfl

/-! ### `modZone` -/

@[simp] theorem Blocks.modZone_clock (z : ZoneId) (f : Zone → Zone) : (b.modZone z f).clock = b.clock := rfl
@[simp] theorem Blocks.modZone_presence (z : ZoneId) (f : Zone → Zone) : (b.modZone z f).presence = b.presence := rfl
@[simp] theorem Blocks.modZone_site (z : ZoneId) (f : Zone → Zone) : (b.modZone z f).site = b.site := rfl
@[simp] theorem Blocks.modZone_dishes (z : ZoneId) (f : Zone → Zone) : (b.modZone z f).dishes = b.dishes := rfl
@[simp] theorem Blocks.modZone_heaters (z : ZoneId) (f : Zone → Zone) : (b.modZone z f).heaters = b.heaters := rfl
@[simp] theorem Blocks.modZone_forms (z : ZoneId) (f : Zone → Zone) : (b.modZone z f).forms = b.forms := rfl
@[simp] theorem Blocks.modZone_fa (z : ZoneId) (f : Zone → Zone) : (b.modZone z f).fa = b.fa := rfl
@[simp] theorem Blocks.modZone_lines (z : ZoneId) (f : Zone → Zone) : (b.modZone z f).lines = b.lines := rfl
@[simp] theorem Blocks.modZone_wind (z : ZoneId) (f : Zone → Zone) : (b.modZone z f).wind = b.wind := rfl
@[simp] theorem Blocks.modZone_sheds (z : ZoneId) (f : Zone → Zone) : (b.modZone z f).sheds = b.sheds := rfl
@[simp] theorem Blocks.modZone_meltReadings (z : ZoneId) (f : Zone → Zone) : (b.modZone z f).meltReadings = b.meltReadings := rfl
@[simp] theorem Blocks.modZone_snowReadings (z : ZoneId) (f : Zone → Zone) : (b.modZone z f).snowReadings = b.snowReadings := rfl
@[simp] theorem Blocks.modZone_keySlots (z : ZoneId) (f : Zone → Zone) : (b.modZone z f).keySlots = b.keySlots := rfl
@[simp] theorem Blocks.modZone_pool (z : ZoneId) (f : Zone → Zone) : (b.modZone z f).pool = b.pool := rfl
@[simp] theorem Blocks.modZone_pedestal (z : ZoneId) (f : Zone → Zone) : (b.modZone z f).pedestal = b.pedestal := rfl
@[simp] theorem Blocks.modZone_inbox (z : ZoneId) (f : Zone → Zone) : (b.modZone z f).inbox = b.inbox := rfl
@[simp] theorem Blocks.modZone_out (z : ZoneId) (f : Zone → Zone) : (b.modZone z f).out = b.out := rfl
@[simp] theorem Blocks.modZone_dish (z : ZoneId) (f : Zone → Zone) (d' : DishId) : (b.modZone z f).dish d' = b.dish d' := rfl
@[simp] theorem Blocks.modZone_form (z : ZoneId) (f : Zone → Zone) (k' : FormationId) : (b.modZone z f).form k' = b.form k' := rfl
@[simp] theorem Blocks.modZone_heater (z : ZoneId) (f : Zone → Zone) (z' : ZoneId) : (b.modZone z f).heater z' = b.heater z' := rfl
@[simp] theorem Blocks.modZone_shed (z : ZoneId) (f : Zone → Zone) (d' : DishId) : (b.modZone z f).shed d' = b.shed d' := rfl
@[simp] theorem Blocks.modZone_meltReading (z : ZoneId) (f : Zone → Zone) (z' : ZoneId) : (b.modZone z f).meltReading z' = b.meltReading z' := rfl
@[simp] theorem Blocks.modZone_snowReading (z : ZoneId) (f : Zone → Zone) (d' : DishId) : (b.modZone z f).snowReading d' = b.snowReading d' := rfl
@[simp] theorem Blocks.modZone_line (z : ZoneId) (f : Zone → Zone) (l' : LineId) : (b.modZone z f).line l' = b.line l' := rfl
@[simp] theorem Blocks.modZone_stow (z : ZoneId) (f : Zone → Zone) (d' : DishId) : (b.modZone z f).stow d' = b.stow d' := rfl
@[simp] theorem Blocks.modZone_panel (z : ZoneId) (f : Zone → Zone) (d' : DishId) : (b.modZone z f).panel d' = b.panel d' := rfl

/-! ### `modHeater` -/

@[simp] theorem Blocks.modHeater_clock (z : ZoneId) (f : HeaterOutput → HeaterOutput) : (b.modHeater z f).clock = b.clock := rfl
@[simp] theorem Blocks.modHeater_presence (z : ZoneId) (f : HeaterOutput → HeaterOutput) : (b.modHeater z f).presence = b.presence := rfl
@[simp] theorem Blocks.modHeater_site (z : ZoneId) (f : HeaterOutput → HeaterOutput) : (b.modHeater z f).site = b.site := rfl
@[simp] theorem Blocks.modHeater_dishes (z : ZoneId) (f : HeaterOutput → HeaterOutput) : (b.modHeater z f).dishes = b.dishes := rfl
@[simp] theorem Blocks.modHeater_forms (z : ZoneId) (f : HeaterOutput → HeaterOutput) : (b.modHeater z f).forms = b.forms := rfl
@[simp] theorem Blocks.modHeater_fa (z : ZoneId) (f : HeaterOutput → HeaterOutput) : (b.modHeater z f).fa = b.fa := rfl
@[simp] theorem Blocks.modHeater_lines (z : ZoneId) (f : HeaterOutput → HeaterOutput) : (b.modHeater z f).lines = b.lines := rfl
@[simp] theorem Blocks.modHeater_wind (z : ZoneId) (f : HeaterOutput → HeaterOutput) : (b.modHeater z f).wind = b.wind := rfl
@[simp] theorem Blocks.modHeater_zones (z : ZoneId) (f : HeaterOutput → HeaterOutput) : (b.modHeater z f).zones = b.zones := rfl
@[simp] theorem Blocks.modHeater_sheds (z : ZoneId) (f : HeaterOutput → HeaterOutput) : (b.modHeater z f).sheds = b.sheds := rfl
@[simp] theorem Blocks.modHeater_meltReadings (z : ZoneId) (f : HeaterOutput → HeaterOutput) : (b.modHeater z f).meltReadings = b.meltReadings := rfl
@[simp] theorem Blocks.modHeater_snowReadings (z : ZoneId) (f : HeaterOutput → HeaterOutput) : (b.modHeater z f).snowReadings = b.snowReadings := rfl
@[simp] theorem Blocks.modHeater_keySlots (z : ZoneId) (f : HeaterOutput → HeaterOutput) : (b.modHeater z f).keySlots = b.keySlots := rfl
@[simp] theorem Blocks.modHeater_pool (z : ZoneId) (f : HeaterOutput → HeaterOutput) : (b.modHeater z f).pool = b.pool := rfl
@[simp] theorem Blocks.modHeater_pedestal (z : ZoneId) (f : HeaterOutput → HeaterOutput) : (b.modHeater z f).pedestal = b.pedestal := rfl
@[simp] theorem Blocks.modHeater_inbox (z : ZoneId) (f : HeaterOutput → HeaterOutput) : (b.modHeater z f).inbox = b.inbox := rfl
@[simp] theorem Blocks.modHeater_out (z : ZoneId) (f : HeaterOutput → HeaterOutput) : (b.modHeater z f).out = b.out := rfl
@[simp] theorem Blocks.modHeater_dish (z : ZoneId) (f : HeaterOutput → HeaterOutput) (d' : DishId) : (b.modHeater z f).dish d' = b.dish d' := rfl
@[simp] theorem Blocks.modHeater_form (z : ZoneId) (f : HeaterOutput → HeaterOutput) (k' : FormationId) : (b.modHeater z f).form k' = b.form k' := rfl
@[simp] theorem Blocks.modHeater_zone (z : ZoneId) (f : HeaterOutput → HeaterOutput) (z' : ZoneId) : (b.modHeater z f).zone z' = b.zone z' := rfl
@[simp] theorem Blocks.modHeater_meltReading (z : ZoneId) (f : HeaterOutput → HeaterOutput) (z' : ZoneId) : (b.modHeater z f).meltReading z' = b.meltReading z' := rfl
@[simp] theorem Blocks.modHeater_shed (z : ZoneId) (f : HeaterOutput → HeaterOutput) (d' : DishId) : (b.modHeater z f).shed d' = b.shed d' := rfl
@[simp] theorem Blocks.modHeater_snowReading (z : ZoneId) (f : HeaterOutput → HeaterOutput) (d' : DishId) : (b.modHeater z f).snowReading d' = b.snowReading d' := rfl
@[simp] theorem Blocks.modHeater_line (z : ZoneId) (f : HeaterOutput → HeaterOutput) (l' : LineId) : (b.modHeater z f).line l' = b.line l' := rfl
@[simp] theorem Blocks.modHeater_stow (z : ZoneId) (f : HeaterOutput → HeaterOutput) (d' : DishId) : (b.modHeater z f).stow d' = b.stow d' := rfl
@[simp] theorem Blocks.modHeater_panel (z : ZoneId) (f : HeaterOutput → HeaterOutput) (d' : DishId) : (b.modHeater z f).panel d' = b.panel d' := rfl

/-! ### `modShed` -/

@[simp] theorem Blocks.modShed_clock (d : DishId) (f : Shed → Shed) : (b.modShed d f).clock = b.clock := rfl
@[simp] theorem Blocks.modShed_presence (d : DishId) (f : Shed → Shed) : (b.modShed d f).presence = b.presence := rfl
@[simp] theorem Blocks.modShed_site (d : DishId) (f : Shed → Shed) : (b.modShed d f).site = b.site := rfl
@[simp] theorem Blocks.modShed_dishes (d : DishId) (f : Shed → Shed) : (b.modShed d f).dishes = b.dishes := rfl
@[simp] theorem Blocks.modShed_heaters (d : DishId) (f : Shed → Shed) : (b.modShed d f).heaters = b.heaters := rfl
@[simp] theorem Blocks.modShed_forms (d : DishId) (f : Shed → Shed) : (b.modShed d f).forms = b.forms := rfl
@[simp] theorem Blocks.modShed_fa (d : DishId) (f : Shed → Shed) : (b.modShed d f).fa = b.fa := rfl
@[simp] theorem Blocks.modShed_lines (d : DishId) (f : Shed → Shed) : (b.modShed d f).lines = b.lines := rfl
@[simp] theorem Blocks.modShed_wind (d : DishId) (f : Shed → Shed) : (b.modShed d f).wind = b.wind := rfl
@[simp] theorem Blocks.modShed_zones (d : DishId) (f : Shed → Shed) : (b.modShed d f).zones = b.zones := rfl
@[simp] theorem Blocks.modShed_meltReadings (d : DishId) (f : Shed → Shed) : (b.modShed d f).meltReadings = b.meltReadings := rfl
@[simp] theorem Blocks.modShed_snowReadings (d : DishId) (f : Shed → Shed) : (b.modShed d f).snowReadings = b.snowReadings := rfl
@[simp] theorem Blocks.modShed_keySlots (d : DishId) (f : Shed → Shed) : (b.modShed d f).keySlots = b.keySlots := rfl
@[simp] theorem Blocks.modShed_pool (d : DishId) (f : Shed → Shed) : (b.modShed d f).pool = b.pool := rfl
@[simp] theorem Blocks.modShed_pedestal (d : DishId) (f : Shed → Shed) : (b.modShed d f).pedestal = b.pedestal := rfl
@[simp] theorem Blocks.modShed_inbox (d : DishId) (f : Shed → Shed) : (b.modShed d f).inbox = b.inbox := rfl
@[simp] theorem Blocks.modShed_out (d : DishId) (f : Shed → Shed) : (b.modShed d f).out = b.out := rfl
@[simp] theorem Blocks.modShed_dish (d : DishId) (f : Shed → Shed) (d' : DishId) : (b.modShed d f).dish d' = b.dish d' := rfl
@[simp] theorem Blocks.modShed_snowReading (d : DishId) (f : Shed → Shed) (d' : DishId) : (b.modShed d f).snowReading d' = b.snowReading d' := rfl
@[simp] theorem Blocks.modShed_form (d : DishId) (f : Shed → Shed) (k' : FormationId) : (b.modShed d f).form k' = b.form k' := rfl
@[simp] theorem Blocks.modShed_zone (d : DishId) (f : Shed → Shed) (z' : ZoneId) : (b.modShed d f).zone z' = b.zone z' := rfl
@[simp] theorem Blocks.modShed_meltReading (d : DishId) (f : Shed → Shed) (z' : ZoneId) : (b.modShed d f).meltReading z' = b.meltReading z' := rfl
@[simp] theorem Blocks.modShed_heater (d : DishId) (f : Shed → Shed) (z' : ZoneId) : (b.modShed d f).heater z' = b.heater z' := rfl
@[simp] theorem Blocks.modShed_line (d : DishId) (f : Shed → Shed) (l' : LineId) : (b.modShed d f).line l' = b.line l' := rfl
@[simp] theorem Blocks.modShed_stow (d : DishId) (f : Shed → Shed) (d' : DishId) : (b.modShed d f).stow d' = b.stow d' := rfl
@[simp] theorem Blocks.modShed_panel (d : DishId) (f : Shed → Shed) (d' : DishId) : (b.modShed d f).panel d' = b.panel d' := rfl

/-! ### `modLine` -/

@[simp] theorem Blocks.modLine_clock (l : LineId) (f : Line → Line) : (b.modLine l f).clock = b.clock := rfl
@[simp] theorem Blocks.modLine_presence (l : LineId) (f : Line → Line) : (b.modLine l f).presence = b.presence := rfl
@[simp] theorem Blocks.modLine_site (l : LineId) (f : Line → Line) : (b.modLine l f).site = b.site := rfl
@[simp] theorem Blocks.modLine_dishes (l : LineId) (f : Line → Line) : (b.modLine l f).dishes = b.dishes := rfl
@[simp] theorem Blocks.modLine_heaters (l : LineId) (f : Line → Line) : (b.modLine l f).heaters = b.heaters := rfl
@[simp] theorem Blocks.modLine_forms (l : LineId) (f : Line → Line) : (b.modLine l f).forms = b.forms := rfl
@[simp] theorem Blocks.modLine_fa (l : LineId) (f : Line → Line) : (b.modLine l f).fa = b.fa := rfl
@[simp] theorem Blocks.modLine_wind (l : LineId) (f : Line → Line) : (b.modLine l f).wind = b.wind := rfl
@[simp] theorem Blocks.modLine_zones (l : LineId) (f : Line → Line) : (b.modLine l f).zones = b.zones := rfl
@[simp] theorem Blocks.modLine_sheds (l : LineId) (f : Line → Line) : (b.modLine l f).sheds = b.sheds := rfl
@[simp] theorem Blocks.modLine_meltReadings (l : LineId) (f : Line → Line) : (b.modLine l f).meltReadings = b.meltReadings := rfl
@[simp] theorem Blocks.modLine_snowReadings (l : LineId) (f : Line → Line) : (b.modLine l f).snowReadings = b.snowReadings := rfl
@[simp] theorem Blocks.modLine_keySlots (l : LineId) (f : Line → Line) : (b.modLine l f).keySlots = b.keySlots := rfl
@[simp] theorem Blocks.modLine_pool (l : LineId) (f : Line → Line) : (b.modLine l f).pool = b.pool := rfl
@[simp] theorem Blocks.modLine_pedestal (l : LineId) (f : Line → Line) : (b.modLine l f).pedestal = b.pedestal := rfl
@[simp] theorem Blocks.modLine_inbox (l : LineId) (f : Line → Line) : (b.modLine l f).inbox = b.inbox := rfl
@[simp] theorem Blocks.modLine_out (l : LineId) (f : Line → Line) : (b.modLine l f).out = b.out := rfl
@[simp] theorem Blocks.modLine_dish (l : LineId) (f : Line → Line) (d' : DishId) : (b.modLine l f).dish d' = b.dish d' := rfl
@[simp] theorem Blocks.modLine_form (l : LineId) (f : Line → Line) (k' : FormationId) : (b.modLine l f).form k' = b.form k' := rfl
@[simp] theorem Blocks.modLine_zone (l : LineId) (f : Line → Line) (z' : ZoneId) : (b.modLine l f).zone z' = b.zone z' := rfl
@[simp] theorem Blocks.modLine_meltReading (l : LineId) (f : Line → Line) (z' : ZoneId) : (b.modLine l f).meltReading z' = b.meltReading z' := rfl
@[simp] theorem Blocks.modLine_heater (l : LineId) (f : Line → Line) (z' : ZoneId) : (b.modLine l f).heater z' = b.heater z' := rfl
@[simp] theorem Blocks.modLine_shed (l : LineId) (f : Line → Line) (d' : DishId) : (b.modLine l f).shed d' = b.shed d' := rfl
@[simp] theorem Blocks.modLine_snowReading (l : LineId) (f : Line → Line) (d' : DishId) : (b.modLine l f).snowReading d' = b.snowReading d' := rfl
@[simp] theorem Blocks.modLine_stow (l : LineId) (f : Line → Line) (d' : DishId) : (b.modLine l f).stow d' = b.stow d' := rfl
@[simp] theorem Blocks.modLine_panel (l : LineId) (f : Line → Line) (d' : DishId) : (b.modLine l f).panel d' = b.panel d' := rfl

/-! ### `modWind` -/

@[simp] theorem Blocks.modWind_clock (f : WindWatch → WindWatch) : (b.modWind f).clock = b.clock := rfl
@[simp] theorem Blocks.modWind_presence (f : WindWatch → WindWatch) : (b.modWind f).presence = b.presence := rfl
@[simp] theorem Blocks.modWind_site (f : WindWatch → WindWatch) : (b.modWind f).site = b.site := rfl
@[simp] theorem Blocks.modWind_dishes (f : WindWatch → WindWatch) : (b.modWind f).dishes = b.dishes := rfl
@[simp] theorem Blocks.modWind_heaters (f : WindWatch → WindWatch) : (b.modWind f).heaters = b.heaters := rfl
@[simp] theorem Blocks.modWind_forms (f : WindWatch → WindWatch) : (b.modWind f).forms = b.forms := rfl
@[simp] theorem Blocks.modWind_fa (f : WindWatch → WindWatch) : (b.modWind f).fa = b.fa := rfl
@[simp] theorem Blocks.modWind_lines (f : WindWatch → WindWatch) : (b.modWind f).lines = b.lines := rfl
@[simp] theorem Blocks.modWind_zones (f : WindWatch → WindWatch) : (b.modWind f).zones = b.zones := rfl
@[simp] theorem Blocks.modWind_sheds (f : WindWatch → WindWatch) : (b.modWind f).sheds = b.sheds := rfl
@[simp] theorem Blocks.modWind_meltReadings (f : WindWatch → WindWatch) : (b.modWind f).meltReadings = b.meltReadings := rfl
@[simp] theorem Blocks.modWind_snowReadings (f : WindWatch → WindWatch) : (b.modWind f).snowReadings = b.snowReadings := rfl
@[simp] theorem Blocks.modWind_keySlots (f : WindWatch → WindWatch) : (b.modWind f).keySlots = b.keySlots := rfl
@[simp] theorem Blocks.modWind_pool (f : WindWatch → WindWatch) : (b.modWind f).pool = b.pool := rfl
@[simp] theorem Blocks.modWind_pedestal (f : WindWatch → WindWatch) : (b.modWind f).pedestal = b.pedestal := rfl
@[simp] theorem Blocks.modWind_inbox (f : WindWatch → WindWatch) : (b.modWind f).inbox = b.inbox := rfl
@[simp] theorem Blocks.modWind_out (f : WindWatch → WindWatch) : (b.modWind f).out = b.out := rfl
@[simp] theorem Blocks.modWind_dish (f : WindWatch → WindWatch) (d' : DishId) : (b.modWind f).dish d' = b.dish d' := rfl
@[simp] theorem Blocks.modWind_form (f : WindWatch → WindWatch) (k' : FormationId) : (b.modWind f).form k' = b.form k' := rfl
@[simp] theorem Blocks.modWind_zone (f : WindWatch → WindWatch) (z' : ZoneId) : (b.modWind f).zone z' = b.zone z' := rfl
@[simp] theorem Blocks.modWind_meltReading (f : WindWatch → WindWatch) (z' : ZoneId) : (b.modWind f).meltReading z' = b.meltReading z' := rfl
@[simp] theorem Blocks.modWind_heater (f : WindWatch → WindWatch) (z' : ZoneId) : (b.modWind f).heater z' = b.heater z' := rfl
@[simp] theorem Blocks.modWind_shed (f : WindWatch → WindWatch) (d' : DishId) : (b.modWind f).shed d' = b.shed d' := rfl
@[simp] theorem Blocks.modWind_snowReading (f : WindWatch → WindWatch) (d' : DishId) : (b.modWind f).snowReading d' = b.snowReading d' := rfl
@[simp] theorem Blocks.modWind_line (f : WindWatch → WindWatch) (l' : LineId) : (b.modWind f).line l' = b.line l' := rfl
@[simp] theorem Blocks.modWind_panel (f : WindWatch → WindWatch) (d' : DishId) : (b.modWind f).panel d' = b.panel d' := rfl

/-! ### `modStow` -/

@[simp] theorem Blocks.modStow_clock (d : DishId) (f : StowRecord → StowRecord) : (b.modStow d f).clock = b.clock := rfl
@[simp] theorem Blocks.modStow_presence (d : DishId) (f : StowRecord → StowRecord) : (b.modStow d f).presence = b.presence := rfl
@[simp] theorem Blocks.modStow_site (d : DishId) (f : StowRecord → StowRecord) : (b.modStow d f).site = b.site := rfl
@[simp] theorem Blocks.modStow_dishes (d : DishId) (f : StowRecord → StowRecord) : (b.modStow d f).dishes = b.dishes := rfl
@[simp] theorem Blocks.modStow_heaters (d : DishId) (f : StowRecord → StowRecord) : (b.modStow d f).heaters = b.heaters := rfl
@[simp] theorem Blocks.modStow_forms (d : DishId) (f : StowRecord → StowRecord) : (b.modStow d f).forms = b.forms := rfl
@[simp] theorem Blocks.modStow_fa (d : DishId) (f : StowRecord → StowRecord) : (b.modStow d f).fa = b.fa := rfl
@[simp] theorem Blocks.modStow_lines (d : DishId) (f : StowRecord → StowRecord) : (b.modStow d f).lines = b.lines := rfl
@[simp] theorem Blocks.modStow_zones (d : DishId) (f : StowRecord → StowRecord) : (b.modStow d f).zones = b.zones := rfl
@[simp] theorem Blocks.modStow_sheds (d : DishId) (f : StowRecord → StowRecord) : (b.modStow d f).sheds = b.sheds := rfl
@[simp] theorem Blocks.modStow_meltReadings (d : DishId) (f : StowRecord → StowRecord) : (b.modStow d f).meltReadings = b.meltReadings := rfl
@[simp] theorem Blocks.modStow_snowReadings (d : DishId) (f : StowRecord → StowRecord) : (b.modStow d f).snowReadings = b.snowReadings := rfl
@[simp] theorem Blocks.modStow_keySlots (d : DishId) (f : StowRecord → StowRecord) : (b.modStow d f).keySlots = b.keySlots := rfl
@[simp] theorem Blocks.modStow_pool (d : DishId) (f : StowRecord → StowRecord) : (b.modStow d f).pool = b.pool := rfl
@[simp] theorem Blocks.modStow_pedestal (d : DishId) (f : StowRecord → StowRecord) : (b.modStow d f).pedestal = b.pedestal := rfl
@[simp] theorem Blocks.modStow_inbox (d : DishId) (f : StowRecord → StowRecord) : (b.modStow d f).inbox = b.inbox := rfl
@[simp] theorem Blocks.modStow_out (d : DishId) (f : StowRecord → StowRecord) : (b.modStow d f).out = b.out := rfl
@[simp] theorem Blocks.modStow_dish (d : DishId) (f : StowRecord → StowRecord) (d' : DishId) : (b.modStow d f).dish d' = b.dish d' := rfl
@[simp] theorem Blocks.modStow_form (d : DishId) (f : StowRecord → StowRecord) (k' : FormationId) : (b.modStow d f).form k' = b.form k' := rfl
@[simp] theorem Blocks.modStow_zone (d : DishId) (f : StowRecord → StowRecord) (z' : ZoneId) : (b.modStow d f).zone z' = b.zone z' := rfl
@[simp] theorem Blocks.modStow_meltReading (d : DishId) (f : StowRecord → StowRecord) (z' : ZoneId) : (b.modStow d f).meltReading z' = b.meltReading z' := rfl
@[simp] theorem Blocks.modStow_heater (d : DishId) (f : StowRecord → StowRecord) (z' : ZoneId) : (b.modStow d f).heater z' = b.heater z' := rfl
@[simp] theorem Blocks.modStow_shed (d : DishId) (f : StowRecord → StowRecord) (d' : DishId) : (b.modStow d f).shed d' = b.shed d' := rfl
@[simp] theorem Blocks.modStow_snowReading (d : DishId) (f : StowRecord → StowRecord) (d' : DishId) : (b.modStow d f).snowReading d' = b.snowReading d' := rfl
@[simp] theorem Blocks.modStow_line (d : DishId) (f : StowRecord → StowRecord) (l' : LineId) : (b.modStow d f).line l' = b.line l' := rfl
@[simp] theorem Blocks.modStow_panel (d : DishId) (f : StowRecord → StowRecord) (d' : DishId) : (b.modStow d f).panel d' = b.panel d' := rfl

/-! ### `modFa` -/

@[simp] theorem Blocks.modFa_clock (f : Arbiter → Arbiter) : (b.modFa f).clock = b.clock := rfl
@[simp] theorem Blocks.modFa_presence (f : Arbiter → Arbiter) : (b.modFa f).presence = b.presence := rfl
@[simp] theorem Blocks.modFa_site (f : Arbiter → Arbiter) : (b.modFa f).site = b.site := rfl
@[simp] theorem Blocks.modFa_dishes (f : Arbiter → Arbiter) : (b.modFa f).dishes = b.dishes := rfl
@[simp] theorem Blocks.modFa_heaters (f : Arbiter → Arbiter) : (b.modFa f).heaters = b.heaters := rfl
@[simp] theorem Blocks.modFa_forms (f : Arbiter → Arbiter) : (b.modFa f).forms = b.forms := rfl
@[simp] theorem Blocks.modFa_lines (f : Arbiter → Arbiter) : (b.modFa f).lines = b.lines := rfl
@[simp] theorem Blocks.modFa_wind (f : Arbiter → Arbiter) : (b.modFa f).wind = b.wind := rfl
@[simp] theorem Blocks.modFa_zones (f : Arbiter → Arbiter) : (b.modFa f).zones = b.zones := rfl
@[simp] theorem Blocks.modFa_sheds (f : Arbiter → Arbiter) : (b.modFa f).sheds = b.sheds := rfl
@[simp] theorem Blocks.modFa_meltReadings (f : Arbiter → Arbiter) : (b.modFa f).meltReadings = b.meltReadings := rfl
@[simp] theorem Blocks.modFa_snowReadings (f : Arbiter → Arbiter) : (b.modFa f).snowReadings = b.snowReadings := rfl
@[simp] theorem Blocks.modFa_keySlots (f : Arbiter → Arbiter) : (b.modFa f).keySlots = b.keySlots := rfl
@[simp] theorem Blocks.modFa_pool (f : Arbiter → Arbiter) : (b.modFa f).pool = b.pool := rfl
@[simp] theorem Blocks.modFa_pedestal (f : Arbiter → Arbiter) : (b.modFa f).pedestal = b.pedestal := rfl
@[simp] theorem Blocks.modFa_inbox (f : Arbiter → Arbiter) : (b.modFa f).inbox = b.inbox := rfl
@[simp] theorem Blocks.modFa_out (f : Arbiter → Arbiter) : (b.modFa f).out = b.out := rfl
@[simp] theorem Blocks.modFa_dish (f : Arbiter → Arbiter) (d' : DishId) : (b.modFa f).dish d' = b.dish d' := rfl
@[simp] theorem Blocks.modFa_form (f : Arbiter → Arbiter) (k' : FormationId) : (b.modFa f).form k' = b.form k' := rfl
@[simp] theorem Blocks.modFa_zone (f : Arbiter → Arbiter) (z' : ZoneId) : (b.modFa f).zone z' = b.zone z' := rfl
@[simp] theorem Blocks.modFa_meltReading (f : Arbiter → Arbiter) (z' : ZoneId) : (b.modFa f).meltReading z' = b.meltReading z' := rfl
@[simp] theorem Blocks.modFa_heater (f : Arbiter → Arbiter) (z' : ZoneId) : (b.modFa f).heater z' = b.heater z' := rfl
@[simp] theorem Blocks.modFa_shed (f : Arbiter → Arbiter) (d' : DishId) : (b.modFa f).shed d' = b.shed d' := rfl
@[simp] theorem Blocks.modFa_snowReading (f : Arbiter → Arbiter) (d' : DishId) : (b.modFa f).snowReading d' = b.snowReading d' := rfl
@[simp] theorem Blocks.modFa_line (f : Arbiter → Arbiter) (l' : LineId) : (b.modFa f).line l' = b.line l' := rfl
@[simp] theorem Blocks.modFa_stow (f : Arbiter → Arbiter) (d' : DishId) : (b.modFa f).stow d' = b.stow d' := rfl
@[simp] theorem Blocks.modFa_panel (f : Arbiter → Arbiter) (d' : DishId) : (b.modFa f).panel d' = b.panel d' := rfl

/-! ### `modPanel` -/

@[simp] theorem Blocks.modPanel_clock (d : DishId) (f : Panel → Panel) : (b.modPanel d f).clock = b.clock := rfl
@[simp] theorem Blocks.modPanel_presence (d : DishId) (f : Panel → Panel) : (b.modPanel d f).presence = b.presence := rfl
@[simp] theorem Blocks.modPanel_site (d : DishId) (f : Panel → Panel) : (b.modPanel d f).site = b.site := rfl
@[simp] theorem Blocks.modPanel_dishes (d : DishId) (f : Panel → Panel) : (b.modPanel d f).dishes = b.dishes := rfl
@[simp] theorem Blocks.modPanel_heaters (d : DishId) (f : Panel → Panel) : (b.modPanel d f).heaters = b.heaters := rfl
@[simp] theorem Blocks.modPanel_forms (d : DishId) (f : Panel → Panel) : (b.modPanel d f).forms = b.forms := rfl
@[simp] theorem Blocks.modPanel_fa (d : DishId) (f : Panel → Panel) : (b.modPanel d f).fa = b.fa := rfl
@[simp] theorem Blocks.modPanel_lines (d : DishId) (f : Panel → Panel) : (b.modPanel d f).lines = b.lines := rfl
@[simp] theorem Blocks.modPanel_wind (d : DishId) (f : Panel → Panel) : (b.modPanel d f).wind = b.wind := rfl
@[simp] theorem Blocks.modPanel_zones (d : DishId) (f : Panel → Panel) : (b.modPanel d f).zones = b.zones := rfl
@[simp] theorem Blocks.modPanel_sheds (d : DishId) (f : Panel → Panel) : (b.modPanel d f).sheds = b.sheds := rfl
@[simp] theorem Blocks.modPanel_meltReadings (d : DishId) (f : Panel → Panel) : (b.modPanel d f).meltReadings = b.meltReadings := rfl
@[simp] theorem Blocks.modPanel_snowReadings (d : DishId) (f : Panel → Panel) : (b.modPanel d f).snowReadings = b.snowReadings := rfl
@[simp] theorem Blocks.modPanel_keySlots (d : DishId) (f : Panel → Panel) : (b.modPanel d f).keySlots = b.keySlots := rfl
@[simp] theorem Blocks.modPanel_pool (d : DishId) (f : Panel → Panel) : (b.modPanel d f).pool = b.pool := rfl
@[simp] theorem Blocks.modPanel_inbox (d : DishId) (f : Panel → Panel) : (b.modPanel d f).inbox = b.inbox := rfl
@[simp] theorem Blocks.modPanel_out (d : DishId) (f : Panel → Panel) : (b.modPanel d f).out = b.out := rfl
@[simp] theorem Blocks.modPanel_dish (d : DishId) (f : Panel → Panel) (d' : DishId) : (b.modPanel d f).dish d' = b.dish d' := rfl
@[simp] theorem Blocks.modPanel_form (d : DishId) (f : Panel → Panel) (k' : FormationId) : (b.modPanel d f).form k' = b.form k' := rfl
@[simp] theorem Blocks.modPanel_zone (d : DishId) (f : Panel → Panel) (z' : ZoneId) : (b.modPanel d f).zone z' = b.zone z' := rfl
@[simp] theorem Blocks.modPanel_meltReading (d : DishId) (f : Panel → Panel) (z' : ZoneId) : (b.modPanel d f).meltReading z' = b.meltReading z' := rfl
@[simp] theorem Blocks.modPanel_heater (d : DishId) (f : Panel → Panel) (z' : ZoneId) : (b.modPanel d f).heater z' = b.heater z' := rfl
@[simp] theorem Blocks.modPanel_shed (d : DishId) (f : Panel → Panel) (d' : DishId) : (b.modPanel d f).shed d' = b.shed d' := rfl
@[simp] theorem Blocks.modPanel_snowReading (d : DishId) (f : Panel → Panel) (d' : DishId) : (b.modPanel d f).snowReading d' = b.snowReading d' := rfl
@[simp] theorem Blocks.modPanel_line (d : DishId) (f : Panel → Panel) (l' : LineId) : (b.modPanel d f).line l' = b.line l' := rfl
@[simp] theorem Blocks.modPanel_stow (d : DishId) (f : Panel → Panel) (d' : DishId) : (b.modPanel d f).stow d' = b.stow d' := rfl

/-! ### `runTo` -/

@[simp] theorem Blocks.runTo_presence (n : Nat) : (b.runTo n).presence = b.presence := rfl
@[simp] theorem Blocks.runTo_site (n : Nat) : (b.runTo n).site = b.site := rfl
@[simp] theorem Blocks.runTo_dishes (n : Nat) : (b.runTo n).dishes = b.dishes := rfl
@[simp] theorem Blocks.runTo_heaters (n : Nat) : (b.runTo n).heaters = b.heaters := rfl
@[simp] theorem Blocks.runTo_forms (n : Nat) : (b.runTo n).forms = b.forms := rfl
@[simp] theorem Blocks.runTo_fa (n : Nat) : (b.runTo n).fa = b.fa := rfl
@[simp] theorem Blocks.runTo_lines (n : Nat) : (b.runTo n).lines = b.lines := rfl
@[simp] theorem Blocks.runTo_wind (n : Nat) : (b.runTo n).wind = b.wind := rfl
@[simp] theorem Blocks.runTo_zones (n : Nat) : (b.runTo n).zones = b.zones := rfl
@[simp] theorem Blocks.runTo_sheds (n : Nat) : (b.runTo n).sheds = b.sheds := rfl
@[simp] theorem Blocks.runTo_meltReadings (n : Nat) : (b.runTo n).meltReadings = b.meltReadings := rfl
@[simp] theorem Blocks.runTo_snowReadings (n : Nat) : (b.runTo n).snowReadings = b.snowReadings := rfl
@[simp] theorem Blocks.runTo_keySlots (n : Nat) : (b.runTo n).keySlots = b.keySlots := rfl
@[simp] theorem Blocks.runTo_pool (n : Nat) : (b.runTo n).pool = b.pool := rfl
@[simp] theorem Blocks.runTo_pedestal (n : Nat) : (b.runTo n).pedestal = b.pedestal := rfl
@[simp] theorem Blocks.runTo_inbox (n : Nat) : (b.runTo n).inbox = b.inbox := rfl
@[simp] theorem Blocks.runTo_out (n : Nat) : (b.runTo n).out = b.out := rfl
@[simp] theorem Blocks.runTo_dish (n : Nat) (d' : DishId) : (b.runTo n).dish d' = b.dish d' := rfl
@[simp] theorem Blocks.runTo_form (n : Nat) (k' : FormationId) : (b.runTo n).form k' = b.form k' := rfl
@[simp] theorem Blocks.runTo_zone (n : Nat) (z' : ZoneId) : (b.runTo n).zone z' = b.zone z' := rfl
@[simp] theorem Blocks.runTo_meltReading (n : Nat) (z' : ZoneId) : (b.runTo n).meltReading z' = b.meltReading z' := rfl
@[simp] theorem Blocks.runTo_heater (n : Nat) (z' : ZoneId) : (b.runTo n).heater z' = b.heater z' := rfl
@[simp] theorem Blocks.runTo_shed (n : Nat) (d' : DishId) : (b.runTo n).shed d' = b.shed d' := rfl
@[simp] theorem Blocks.runTo_snowReading (n : Nat) (d' : DishId) : (b.runTo n).snowReading d' = b.snowReading d' := rfl
@[simp] theorem Blocks.runTo_line (n : Nat) (l' : LineId) : (b.runTo n).line l' = b.line l' := rfl
@[simp] theorem Blocks.runTo_stow (n : Nat) (d' : DishId) : (b.runTo n).stow d' = b.stow d' := rfl
@[simp] theorem Blocks.runTo_panel (n : Nat) (d' : DishId) : (b.runTo n).panel d' = b.panel d' := rfl

/-! ### `trail` -/

@[simp] theorem Blocks.trail_clock (e : TrailEvent) : (b.trail e).clock = b.clock := rfl
@[simp] theorem Blocks.trail_presence (e : TrailEvent) : (b.trail e).presence = b.presence := rfl
@[simp] theorem Blocks.trail_site (e : TrailEvent) : (b.trail e).site = b.site := rfl
@[simp] theorem Blocks.trail_dishes (e : TrailEvent) : (b.trail e).dishes = b.dishes := rfl
@[simp] theorem Blocks.trail_heaters (e : TrailEvent) : (b.trail e).heaters = b.heaters := rfl
@[simp] theorem Blocks.trail_forms (e : TrailEvent) : (b.trail e).forms = b.forms := rfl
@[simp] theorem Blocks.trail_fa (e : TrailEvent) : (b.trail e).fa = b.fa := rfl
@[simp] theorem Blocks.trail_lines (e : TrailEvent) : (b.trail e).lines = b.lines := rfl
@[simp] theorem Blocks.trail_wind (e : TrailEvent) : (b.trail e).wind = b.wind := rfl
@[simp] theorem Blocks.trail_zones (e : TrailEvent) : (b.trail e).zones = b.zones := rfl
@[simp] theorem Blocks.trail_sheds (e : TrailEvent) : (b.trail e).sheds = b.sheds := rfl
@[simp] theorem Blocks.trail_meltReadings (e : TrailEvent) : (b.trail e).meltReadings = b.meltReadings := rfl
@[simp] theorem Blocks.trail_snowReadings (e : TrailEvent) : (b.trail e).snowReadings = b.snowReadings := rfl
@[simp] theorem Blocks.trail_keySlots (e : TrailEvent) : (b.trail e).keySlots = b.keySlots := rfl
@[simp] theorem Blocks.trail_pool (e : TrailEvent) : (b.trail e).pool = b.pool := rfl
@[simp] theorem Blocks.trail_pedestal (e : TrailEvent) : (b.trail e).pedestal = b.pedestal := rfl
@[simp] theorem Blocks.trail_inbox (e : TrailEvent) : (b.trail e).inbox = b.inbox := rfl
@[simp] theorem Blocks.trail_dish (e : TrailEvent) (d' : DishId) : (b.trail e).dish d' = b.dish d' := rfl
@[simp] theorem Blocks.trail_form (e : TrailEvent) (k' : FormationId) : (b.trail e).form k' = b.form k' := rfl
@[simp] theorem Blocks.trail_zone (e : TrailEvent) (z' : ZoneId) : (b.trail e).zone z' = b.zone z' := rfl
@[simp] theorem Blocks.trail_meltReading (e : TrailEvent) (z' : ZoneId) : (b.trail e).meltReading z' = b.meltReading z' := rfl
@[simp] theorem Blocks.trail_heater (e : TrailEvent) (z' : ZoneId) : (b.trail e).heater z' = b.heater z' := rfl
@[simp] theorem Blocks.trail_shed (e : TrailEvent) (d' : DishId) : (b.trail e).shed d' = b.shed d' := rfl
@[simp] theorem Blocks.trail_snowReading (e : TrailEvent) (d' : DishId) : (b.trail e).snowReading d' = b.snowReading d' := rfl
@[simp] theorem Blocks.trail_line (e : TrailEvent) (l' : LineId) : (b.trail e).line l' = b.line l' := rfl
@[simp] theorem Blocks.trail_stow (e : TrailEvent) (d' : DishId) : (b.trail e).stow d' = b.stow d' := rfl
@[simp] theorem Blocks.trail_panel (e : TrailEvent) (d' : DishId) : (b.trail e).panel d' = b.panel d' := rfl

/-! ### `cause` -/

@[simp] theorem Blocks.cause_clock (c : Cause) : (b.cause c).clock = b.clock := rfl
@[simp] theorem Blocks.cause_presence (c : Cause) : (b.cause c).presence = b.presence := rfl
@[simp] theorem Blocks.cause_site (c : Cause) : (b.cause c).site = b.site := rfl
@[simp] theorem Blocks.cause_dishes (c : Cause) : (b.cause c).dishes = b.dishes := rfl
@[simp] theorem Blocks.cause_heaters (c : Cause) : (b.cause c).heaters = b.heaters := rfl
@[simp] theorem Blocks.cause_forms (c : Cause) : (b.cause c).forms = b.forms := rfl
@[simp] theorem Blocks.cause_fa (c : Cause) : (b.cause c).fa = b.fa := rfl
@[simp] theorem Blocks.cause_lines (c : Cause) : (b.cause c).lines = b.lines := rfl
@[simp] theorem Blocks.cause_wind (c : Cause) : (b.cause c).wind = b.wind := rfl
@[simp] theorem Blocks.cause_zones (c : Cause) : (b.cause c).zones = b.zones := rfl
@[simp] theorem Blocks.cause_sheds (c : Cause) : (b.cause c).sheds = b.sheds := rfl
@[simp] theorem Blocks.cause_meltReadings (c : Cause) : (b.cause c).meltReadings = b.meltReadings := rfl
@[simp] theorem Blocks.cause_snowReadings (c : Cause) : (b.cause c).snowReadings = b.snowReadings := rfl
@[simp] theorem Blocks.cause_keySlots (c : Cause) : (b.cause c).keySlots = b.keySlots := rfl
@[simp] theorem Blocks.cause_pool (c : Cause) : (b.cause c).pool = b.pool := rfl
@[simp] theorem Blocks.cause_pedestal (c : Cause) : (b.cause c).pedestal = b.pedestal := rfl
@[simp] theorem Blocks.cause_inbox (c : Cause) : (b.cause c).inbox = b.inbox := rfl
@[simp] theorem Blocks.cause_dish (c : Cause) (d' : DishId) : (b.cause c).dish d' = b.dish d' := rfl
@[simp] theorem Blocks.cause_form (c : Cause) (k' : FormationId) : (b.cause c).form k' = b.form k' := rfl
@[simp] theorem Blocks.cause_zone (c : Cause) (z' : ZoneId) : (b.cause c).zone z' = b.zone z' := rfl
@[simp] theorem Blocks.cause_meltReading (c : Cause) (z' : ZoneId) : (b.cause c).meltReading z' = b.meltReading z' := rfl
@[simp] theorem Blocks.cause_heater (c : Cause) (z' : ZoneId) : (b.cause c).heater z' = b.heater z' := rfl
@[simp] theorem Blocks.cause_shed (c : Cause) (d' : DishId) : (b.cause c).shed d' = b.shed d' := rfl
@[simp] theorem Blocks.cause_snowReading (c : Cause) (d' : DishId) : (b.cause c).snowReading d' = b.snowReading d' := rfl
@[simp] theorem Blocks.cause_line (c : Cause) (l' : LineId) : (b.cause c).line l' = b.line l' := rfl
@[simp] theorem Blocks.cause_stow (c : Cause) (d' : DishId) : (b.cause c).stow d' = b.stow d' := rfl
@[simp] theorem Blocks.cause_panel (c : Cause) (d' : DishId) : (b.cause c).panel d' = b.panel d' := rfl

/-! ### `answer` -/

@[simp] theorem Blocks.answer_clock (s : SlotId) (a : Answer) : (b.answer s a).clock = b.clock := rfl
@[simp] theorem Blocks.answer_presence (s : SlotId) (a : Answer) : (b.answer s a).presence = b.presence := rfl
@[simp] theorem Blocks.answer_site (s : SlotId) (a : Answer) : (b.answer s a).site = b.site := rfl
@[simp] theorem Blocks.answer_dishes (s : SlotId) (a : Answer) : (b.answer s a).dishes = b.dishes := rfl
@[simp] theorem Blocks.answer_heaters (s : SlotId) (a : Answer) : (b.answer s a).heaters = b.heaters := rfl
@[simp] theorem Blocks.answer_forms (s : SlotId) (a : Answer) : (b.answer s a).forms = b.forms := rfl
@[simp] theorem Blocks.answer_fa (s : SlotId) (a : Answer) : (b.answer s a).fa = b.fa := rfl
@[simp] theorem Blocks.answer_lines (s : SlotId) (a : Answer) : (b.answer s a).lines = b.lines := rfl
@[simp] theorem Blocks.answer_wind (s : SlotId) (a : Answer) : (b.answer s a).wind = b.wind := rfl
@[simp] theorem Blocks.answer_zones (s : SlotId) (a : Answer) : (b.answer s a).zones = b.zones := rfl
@[simp] theorem Blocks.answer_sheds (s : SlotId) (a : Answer) : (b.answer s a).sheds = b.sheds := rfl
@[simp] theorem Blocks.answer_meltReadings (s : SlotId) (a : Answer) : (b.answer s a).meltReadings = b.meltReadings := rfl
@[simp] theorem Blocks.answer_snowReadings (s : SlotId) (a : Answer) : (b.answer s a).snowReadings = b.snowReadings := rfl
@[simp] theorem Blocks.answer_keySlots (s : SlotId) (a : Answer) : (b.answer s a).keySlots = b.keySlots := rfl
@[simp] theorem Blocks.answer_pool (s : SlotId) (a : Answer) : (b.answer s a).pool = b.pool := rfl
@[simp] theorem Blocks.answer_pedestal (s : SlotId) (a : Answer) : (b.answer s a).pedestal = b.pedestal := rfl
@[simp] theorem Blocks.answer_inbox (s : SlotId) (a : Answer) : (b.answer s a).inbox = b.inbox := rfl
@[simp] theorem Blocks.answer_dish (s : SlotId) (a : Answer) (d' : DishId) : (b.answer s a).dish d' = b.dish d' := rfl
@[simp] theorem Blocks.answer_form (s : SlotId) (a : Answer) (k' : FormationId) : (b.answer s a).form k' = b.form k' := rfl
@[simp] theorem Blocks.answer_zone (s : SlotId) (a : Answer) (z' : ZoneId) : (b.answer s a).zone z' = b.zone z' := rfl
@[simp] theorem Blocks.answer_meltReading (s : SlotId) (a : Answer) (z' : ZoneId) : (b.answer s a).meltReading z' = b.meltReading z' := rfl
@[simp] theorem Blocks.answer_heater (s : SlotId) (a : Answer) (z' : ZoneId) : (b.answer s a).heater z' = b.heater z' := rfl
@[simp] theorem Blocks.answer_shed (s : SlotId) (a : Answer) (d' : DishId) : (b.answer s a).shed d' = b.shed d' := rfl
@[simp] theorem Blocks.answer_snowReading (s : SlotId) (a : Answer) (d' : DishId) : (b.answer s a).snowReading d' = b.snowReading d' := rfl
@[simp] theorem Blocks.answer_line (s : SlotId) (a : Answer) (l' : LineId) : (b.answer s a).line l' = b.line l' := rfl
@[simp] theorem Blocks.answer_stow (s : SlotId) (a : Answer) (d' : DishId) : (b.answer s a).stow d' = b.stow d' := rfl
@[simp] theorem Blocks.answer_panel (s : SlotId) (a : Answer) (d' : DishId) : (b.answer s a).panel d' = b.panel d' := rfl

/-! ### `publish` -/

@[simp] theorem Blocks.publish_clock (p : Page) : (b.publish p).clock = b.clock := rfl
@[simp] theorem Blocks.publish_presence (p : Page) : (b.publish p).presence = b.presence := rfl
@[simp] theorem Blocks.publish_site (p : Page) : (b.publish p).site = b.site := rfl
@[simp] theorem Blocks.publish_dishes (p : Page) : (b.publish p).dishes = b.dishes := rfl
@[simp] theorem Blocks.publish_heaters (p : Page) : (b.publish p).heaters = b.heaters := rfl
@[simp] theorem Blocks.publish_forms (p : Page) : (b.publish p).forms = b.forms := rfl
@[simp] theorem Blocks.publish_fa (p : Page) : (b.publish p).fa = b.fa := rfl
@[simp] theorem Blocks.publish_lines (p : Page) : (b.publish p).lines = b.lines := rfl
@[simp] theorem Blocks.publish_wind (p : Page) : (b.publish p).wind = b.wind := rfl
@[simp] theorem Blocks.publish_zones (p : Page) : (b.publish p).zones = b.zones := rfl
@[simp] theorem Blocks.publish_sheds (p : Page) : (b.publish p).sheds = b.sheds := rfl
@[simp] theorem Blocks.publish_meltReadings (p : Page) : (b.publish p).meltReadings = b.meltReadings := rfl
@[simp] theorem Blocks.publish_snowReadings (p : Page) : (b.publish p).snowReadings = b.snowReadings := rfl
@[simp] theorem Blocks.publish_keySlots (p : Page) : (b.publish p).keySlots = b.keySlots := rfl
@[simp] theorem Blocks.publish_pool (p : Page) : (b.publish p).pool = b.pool := rfl
@[simp] theorem Blocks.publish_pedestal (p : Page) : (b.publish p).pedestal = b.pedestal := rfl
@[simp] theorem Blocks.publish_inbox (p : Page) : (b.publish p).inbox = b.inbox := rfl
@[simp] theorem Blocks.publish_dish (p : Page) (d' : DishId) : (b.publish p).dish d' = b.dish d' := rfl
@[simp] theorem Blocks.publish_form (p : Page) (k' : FormationId) : (b.publish p).form k' = b.form k' := rfl
@[simp] theorem Blocks.publish_zone (p : Page) (z' : ZoneId) : (b.publish p).zone z' = b.zone z' := rfl
@[simp] theorem Blocks.publish_meltReading (p : Page) (z' : ZoneId) : (b.publish p).meltReading z' = b.meltReading z' := rfl
@[simp] theorem Blocks.publish_heater (p : Page) (z' : ZoneId) : (b.publish p).heater z' = b.heater z' := rfl
@[simp] theorem Blocks.publish_shed (p : Page) (d' : DishId) : (b.publish p).shed d' = b.shed d' := rfl
@[simp] theorem Blocks.publish_snowReading (p : Page) (d' : DishId) : (b.publish p).snowReading d' = b.snowReading d' := rfl
@[simp] theorem Blocks.publish_line (p : Page) (l' : LineId) : (b.publish p).line l' = b.line l' := rfl
@[simp] theorem Blocks.publish_stow (p : Page) (d' : DishId) : (b.publish p).stow d' = b.stow d' := rfl
@[simp] theorem Blocks.publish_panel (p : Page) (d' : DishId) : (b.publish p).panel d' = b.panel d' := rfl

/-! ### `tell` -/

@[simp] theorem Blocks.tell_clock (m : Message) : (b.tell m).clock = b.clock := rfl
@[simp] theorem Blocks.tell_presence (m : Message) : (b.tell m).presence = b.presence := rfl
@[simp] theorem Blocks.tell_site (m : Message) : (b.tell m).site = b.site := rfl
@[simp] theorem Blocks.tell_dishes (m : Message) : (b.tell m).dishes = b.dishes := rfl
@[simp] theorem Blocks.tell_heaters (m : Message) : (b.tell m).heaters = b.heaters := rfl
@[simp] theorem Blocks.tell_forms (m : Message) : (b.tell m).forms = b.forms := rfl
@[simp] theorem Blocks.tell_fa (m : Message) : (b.tell m).fa = b.fa := rfl
@[simp] theorem Blocks.tell_lines (m : Message) : (b.tell m).lines = b.lines := rfl
@[simp] theorem Blocks.tell_wind (m : Message) : (b.tell m).wind = b.wind := rfl
@[simp] theorem Blocks.tell_zones (m : Message) : (b.tell m).zones = b.zones := rfl
@[simp] theorem Blocks.tell_sheds (m : Message) : (b.tell m).sheds = b.sheds := rfl
@[simp] theorem Blocks.tell_meltReadings (m : Message) : (b.tell m).meltReadings = b.meltReadings := rfl
@[simp] theorem Blocks.tell_snowReadings (m : Message) : (b.tell m).snowReadings = b.snowReadings := rfl
@[simp] theorem Blocks.tell_keySlots (m : Message) : (b.tell m).keySlots = b.keySlots := rfl
@[simp] theorem Blocks.tell_pool (m : Message) : (b.tell m).pool = b.pool := rfl
@[simp] theorem Blocks.tell_pedestal (m : Message) : (b.tell m).pedestal = b.pedestal := rfl
@[simp] theorem Blocks.tell_out (m : Message) : (b.tell m).out = b.out := rfl
@[simp] theorem Blocks.tell_dish (m : Message) (d' : DishId) : (b.tell m).dish d' = b.dish d' := rfl
@[simp] theorem Blocks.tell_form (m : Message) (k' : FormationId) : (b.tell m).form k' = b.form k' := rfl
@[simp] theorem Blocks.tell_zone (m : Message) (z' : ZoneId) : (b.tell m).zone z' = b.zone z' := rfl
@[simp] theorem Blocks.tell_meltReading (m : Message) (z' : ZoneId) : (b.tell m).meltReading z' = b.meltReading z' := rfl
@[simp] theorem Blocks.tell_heater (m : Message) (z' : ZoneId) : (b.tell m).heater z' = b.heater z' := rfl
@[simp] theorem Blocks.tell_shed (m : Message) (d' : DishId) : (b.tell m).shed d' = b.shed d' := rfl
@[simp] theorem Blocks.tell_snowReading (m : Message) (d' : DishId) : (b.tell m).snowReading d' = b.snowReading d' := rfl
@[simp] theorem Blocks.tell_line (m : Message) (l' : LineId) : (b.tell m).line l' = b.line l' := rfl
@[simp] theorem Blocks.tell_stow (m : Message) (d' : DishId) : (b.tell m).stow d' = b.stow d' := rfl
@[simp] theorem Blocks.tell_panel (m : Message) (d' : DishId) : (b.tell m).panel d' = b.panel d' := rfl

/-! ### What an update writes -/

@[simp] theorem Blocks.trail_out (e : TrailEvent) :
    (b.trail e).out = b.out ++ [.trail e b.clock.time b.clock.valid] := rfl
@[simp] theorem Blocks.cause_out (c : Cause) : (b.cause c).out = b.out ++ [.cause c] := rfl
@[simp] theorem Blocks.answer_out (s : SlotId) (a : Answer) :
    (b.answer s a).out = b.out ++ [.answer s a b.clock.time b.clock.valid] := rfl
@[simp] theorem Blocks.publish_out (p : Page) : (b.publish p).out = b.out ++ [.page p] := rfl
@[simp] theorem Blocks.tell_inbox (m : Message) : (b.tell m).inbox = b.inbox ++ [m] := rfl
@[simp] theorem Blocks.runTo_clock (n : Nat) : (b.runTo n).clock = b.clock.advance (n - b.clock.count) := rfl
@[simp] theorem Blocks.modWind_wind (f : WindWatch → WindWatch) : (b.modWind f).wind = f b.wind := rfl
@[simp] theorem Blocks.modFa_fa (f : Arbiter → Arbiter) : (b.modFa f).fa = f b.fa := rfl

/-! ### A record read after its own update -/

theorem Blocks.modDish_dish (d d' : DishId) (f : Dish → Dish) :
    (b.modDish d f).dish d' = if d' = d then f (b.dish d) else b.dish d' := by
  by_cases h : d' = d
  · subst h; simp [Blocks.modDish, Blocks.dish]
  · have h' : d.val ≠ d'.val := fun e => h (Fin.ext e.symm)
    simp [Blocks.modDish, Blocks.dish, h, h']

@[simp] theorem Blocks.modDish_dish_self (d : DishId) (f : Dish → Dish) :
    (b.modDish d f).dish d = f (b.dish d) := by simp [Blocks.modDish_dish]

@[simp] theorem Blocks.modDish_dish_of_ne {d d' : DishId} (h : d' ≠ d) (f : Dish → Dish) :
    (b.modDish d f).dish d' = b.dish d' := by simp [Blocks.modDish_dish, h]

theorem Blocks.modForm_form (k k' : FormationId) (f : Formation → Formation) :
    (b.modForm k f).form k' = if k' = k then f (b.form k) else b.form k' := by
  by_cases h : k' = k
  · subst h; simp [Blocks.modForm, Blocks.form]
  · have h' : k.val ≠ k'.val := fun e => h (Fin.ext e.symm)
    simp [Blocks.modForm, Blocks.form, h, h']

@[simp] theorem Blocks.modForm_form_self (k : FormationId) (f : Formation → Formation) :
    (b.modForm k f).form k = f (b.form k) := by simp [Blocks.modForm_form]

@[simp] theorem Blocks.modForm_form_of_ne {k k' : FormationId} (h : k' ≠ k) (f : Formation → Formation) :
    (b.modForm k f).form k' = b.form k' := by simp [Blocks.modForm_form, h]

theorem Blocks.modZone_zone (z z' : ZoneId) (f : Zone → Zone) :
    (b.modZone z f).zone z' = if z' = z then f (b.zone z) else b.zone z' := by
  by_cases h : z' = z
  · subst h; simp [Blocks.modZone, Blocks.zone]
  · have h' : z.val ≠ z'.val := fun e => h (Fin.ext e.symm)
    simp [Blocks.modZone, Blocks.zone, h, h']

@[simp] theorem Blocks.modZone_zone_self (z : ZoneId) (f : Zone → Zone) :
    (b.modZone z f).zone z = f (b.zone z) := by simp [Blocks.modZone_zone]

@[simp] theorem Blocks.modZone_zone_of_ne {z z' : ZoneId} (h : z' ≠ z) (f : Zone → Zone) :
    (b.modZone z f).zone z' = b.zone z' := by simp [Blocks.modZone_zone, h]

theorem Blocks.modHeater_heater (z z' : ZoneId) (f : HeaterOutput → HeaterOutput) :
    (b.modHeater z f).heater z' = if z' = z then f (b.heater z) else b.heater z' := by
  by_cases h : z' = z
  · subst h; simp [Blocks.modHeater, Blocks.heater]
  · have h' : z.val ≠ z'.val := fun e => h (Fin.ext e.symm)
    simp [Blocks.modHeater, Blocks.heater, h, h']

@[simp] theorem Blocks.modHeater_heater_self (z : ZoneId) (f : HeaterOutput → HeaterOutput) :
    (b.modHeater z f).heater z = f (b.heater z) := by simp [Blocks.modHeater_heater]

@[simp] theorem Blocks.modHeater_heater_of_ne {z z' : ZoneId} (h : z' ≠ z) (f : HeaterOutput → HeaterOutput) :
    (b.modHeater z f).heater z' = b.heater z' := by simp [Blocks.modHeater_heater, h]

theorem Blocks.modShed_shed (d d' : DishId) (f : Shed → Shed) :
    (b.modShed d f).shed d' = if d' = d then f (b.shed d) else b.shed d' := by
  by_cases h : d' = d
  · subst h; simp [Blocks.modShed, Blocks.shed]
  · have h' : d.val ≠ d'.val := fun e => h (Fin.ext e.symm)
    simp [Blocks.modShed, Blocks.shed, h, h']

@[simp] theorem Blocks.modShed_shed_self (d : DishId) (f : Shed → Shed) :
    (b.modShed d f).shed d = f (b.shed d) := by simp [Blocks.modShed_shed]

@[simp] theorem Blocks.modShed_shed_of_ne {d d' : DishId} (h : d' ≠ d) (f : Shed → Shed) :
    (b.modShed d f).shed d' = b.shed d' := by simp [Blocks.modShed_shed, h]

theorem Blocks.modLine_line (l l' : LineId) (f : Line → Line) :
    (b.modLine l f).line l' = if l' = l then f (b.line l) else b.line l' := by
  by_cases h : l' = l
  · subst h; simp [Blocks.modLine, Blocks.line]
  · have h' : l.val ≠ l'.val := fun e => h (Fin.ext e.symm)
    simp [Blocks.modLine, Blocks.line, h, h']

@[simp] theorem Blocks.modLine_line_self (l : LineId) (f : Line → Line) :
    (b.modLine l f).line l = f (b.line l) := by simp [Blocks.modLine_line]

@[simp] theorem Blocks.modLine_line_of_ne {l l' : LineId} (h : l' ≠ l) (f : Line → Line) :
    (b.modLine l f).line l' = b.line l' := by simp [Blocks.modLine_line, h]

theorem Blocks.modStow_stow (d d' : DishId) (f : StowRecord → StowRecord) :
    (b.modStow d f).stow d' = if d' = d then f (b.stow d) else b.stow d' := by
  by_cases h : d' = d
  · subst h; simp [Blocks.modStow, Blocks.stow, Blocks.modWind]
  · have h' : d.val ≠ d'.val := fun e => h (Fin.ext e.symm)
    simp [Blocks.modStow, Blocks.stow, Blocks.modWind, h, h']

@[simp] theorem Blocks.modStow_stow_self (d : DishId) (f : StowRecord → StowRecord) :
    (b.modStow d f).stow d = f (b.stow d) := by simp [Blocks.modStow_stow]

@[simp] theorem Blocks.modStow_stow_of_ne {d d' : DishId} (h : d' ≠ d) (f : StowRecord → StowRecord) :
    (b.modStow d f).stow d' = b.stow d' := by simp [Blocks.modStow_stow, h]

theorem Blocks.modPanel_panel (d d' : DishId) (f : Panel → Panel) :
    (b.modPanel d f).panel d' = if d' = d then f (b.panel d) else b.panel d' := by
  by_cases h : d' = d
  · subst h; simp [Blocks.modPanel, Blocks.panel]
  · have h' : d.val ≠ d'.val := fun e => h (Fin.ext e.symm)
    simp [Blocks.modPanel, Blocks.panel, h, h']

@[simp] theorem Blocks.modPanel_panel_self (d : DishId) (f : Panel → Panel) :
    (b.modPanel d f).panel d = f (b.panel d) := by simp [Blocks.modPanel_panel]

@[simp] theorem Blocks.modPanel_panel_of_ne {d d' : DishId} (h : d' ≠ d) (f : Panel → Panel) :
    (b.modPanel d f).panel d' = b.panel d' := by simp [Blocks.modPanel_panel, h]

end

/-! ### Members, axes, clock -/

theorem Formation.modMember_mem (m : Formation) (d d' : DishId) (f : Member → Member) :
    (m.modMember d f).mem d' = if d' = d then f (m.mem d) else m.mem d' := by
  by_cases h : d' = d
  · subst h; simp [Formation.modMember, Formation.mem]
  · have h' : d.val ≠ d'.val := fun e => h (Fin.ext e.symm)
    simp [Formation.modMember, Formation.mem, h, h']

@[simp] theorem Dish.modAxis_axis_self (x : Dish) (a : AxisId) (f : Axis → Axis) :
    (x.modAxis a f).axis a = f (x.axis a) := by cases a <;> rfl

@[simp] theorem Clock.advance_zero (c : Clock) : c.advance 0 = c := by simp [Clock.advance]

@[simp] theorem Clock.advance_count (c : Clock) (n : Nat) : (c.advance n).count = c.count + n := rfl
@[simp] theorem Clock.advance_time (c : Clock) (n : Nat) : (c.advance n).time = c.time + BitVec.ofNat 48 n := rfl
@[simp] theorem Clock.advance_valid (c : Clock) (n : Nat) : (c.advance n).valid = c.valid := rfl

@[simp] theorem Blocks.expire_none (f : Blocks → Blocks) (b : Blocks) : b.expire none f = b := rfl
@[simp] theorem Blocks.expire_some (n : Nat) (f : Blocks → Blocks) (b : Blocks) :
    b.expire (some n) f = f (b.runTo n) := rfl

end Sys2Proof.Machine
end

