-- ==== Sys2Proof/Laws/Commands.lean ====
section
/-! SUPPORT. What the shared operations around a command do: the settling of the blocks, the taking of
outputs, the publication of pages. -/

namespace Sys2Proof.Machine

/-! ### Settling -/

theorem overDishes_fix (l : List DishId) (f : DishId → Blocks → Blocks) (b : Blocks)
    (h : ∀ d ∈ l, f d b = b) : overDishes l f b = b := by
  unfold overDishes
  induction l with
  | nil => rfl
  | cons d l ih =>
    simp only [List.foldl_cons, h d (by simp)]
    exact ih (fun e he => h e (List.mem_cons_of_mem _ he))

theorem recheckShed_fix (d : DishId) (b : Blocks) (h : (b.shed d).phase ≠ .claiming) :
    recheckShed d b = b := by simp [recheckShed, h]

theorem reviewStows_fix (b : Blocks) (h : b.wind.standing = []) : reviewStows b = b := by
  unfold reviewStows
  simp only [h, List.map_nil, List.filter_nil, List.foldl_nil]
  unfold Blocks.modWind
  rw [← h]

theorem checkStowed_fix (b : Blocks) (h : b.wind.state ≠ .stowing) : checkStowed b = b := by
  simp [checkStowed, h]

theorem tidy_fix (old b : Blocks) (hs : b.wind.standing = []) (hw : b.wind.state ≠ .stowing)
    (hc : ∀ d, (b.shed d).phase ≠ .claiming) : tidy old b = b := by
  have h : overDishes allDishes (fun d x =>
      if shedTouched (old.dish d) (x.dish d) then recheckShed d x else x) b = b :=
    overDishes_fix _ _ _ (fun d _ => by simp [recheckShed_fix d b (hc d)])
  simp only [tidy, h, reviewStows_fix b hs, checkStowed_fix b hw]

theorem drain_empty (n : Nat) (b : Blocks) (h : b.inbox = []) : drain n b = b := by
  cases n <;> simp [drain, h]

theorem drain_cons (n : Nat) (b : Blocks) (m : Message) (ms : List Message) (h : b.inbox = m :: ms) :
    drain (n + 1) b = drain n (tidy b (handle m { b with inbox := ms })) := by simp [drain, h]

/-- Where nothing waits, the blocks are settled. -/
theorem settle_fix (old b : Blocks) (hi : b.inbox = []) (hs : b.wind.standing = [])
    (hw : b.wind.state ≠ .stowing) (hc : ∀ d, (b.shed d).phase ≠ .claiming) : settle old b = b := by
  unfold settle
  rw [tidy_fix old b hs hw hc, drain_empty _ _ hi]

/-- Where one message waits, it is taken. -/
theorem settle_one (old b : Blocks) (m : Message) (hi : b.inbox = [m]) (hs : b.wind.standing = [])
    (hw : b.wind.state ≠ .stowing) (hc : ∀ d, (b.shed d).phase ≠ .claiming) :
    settle old b = drain 4095 (tidy b (handle m { b with inbox := [] })) := by
  unfold settle messageFuel
  rw [tidy_fix old b hs hw hc, drain_cons 4095 b m [] hi]

/-! ### Publication -/

@[simp] theorem publish_blocks (pg : Page) (p : Part) : (publish pg p).blocks = p.blocks := rfl

theorem Editions.get_set (e : Editions) (p q : Page) (v : Word) :
    (e.set p v).get q = if q = p then v else e.get q := by
  cases p <;> cases q <;> simp only [Editions.set, Editions.get, reduceCtorEq, if_false, if_true,
    Page.dish.injEq, Page.formation.injEq, Page.zone.injEq, Page.lockEntry.injEq] <;>
  · rename_i i j
    by_cases h : j = i
    · subst h; simp
    · have h' : i.val ≠ j.val := fun e => h (Fin.ext e.symm)
      simp [h, h']

theorem SameButPages.refl (pages : List Page) (x : Exchange) : SameButPages pages x x :=
  ⟨rfl, fun _ _ => rfl, fun _ _ => rfl⟩

theorem SameButPages.trans {pages : List Page} {x y z : Exchange} (h1 : SameButPages pages x y)
    (h2 : SameButPages pages y z) : SameButPages pages x z := by
  obtain ⟨a1, b1, c1⟩ := h1
  obtain ⟨a2, b2, c2⟩ := h2
  refine ⟨?_, fun pg h => (b2 pg h).trans (b1 pg h), fun a h => (c2 a h).trans (c1 a h)⟩
  rw [a2, a1]

theorem pageBytes_length (pg : Page) (b : Blocks) : (pageBytes pg b).length = pg.size - 2 := by
  unfold pageBytes
  exact fit_length _ _

theorem word16_length (w : Word) : (word16 w).length = 2 := lowBytes_length _ _

/-- A publication writes the bytes of its page and no other. -/
theorem read_writePage_outside (pg : Page) (e : Word) (p : Part) (m : Memory) (a : Nat)
    (h : pg.owns a = false) : Memory.read a (writePage pg e p m) = Memory.read a m := by
  have gen : ∀ (q : Page), q ≠ .common → q.owns a = false →
      Memory.read a (m.writeBytes q.base (word16 e ++ pageBytes q p.blocks)) = Memory.read a m := by
    intro q hq hown
    apply Memory.read_writeBytes_outside
    have hl : (word16 e ++ pageBytes q p.blocks).length = q.size := by
      rw [List.length_append, word16_length, pageBytes_length]
      cases q <;> simp [Page.size]
    rw [hl]
    cases q <;> simp_all [Page.owns] <;> omega
  cases pg with
  | common =>
    simp only [writePage]
    simp only [Page.owns, Bool.or_eq_false_iff, Bool.and_eq_false_imp, decide_eq_true_eq,
      decide_eq_false_iff_not] at h
    obtain ⟨⟨h1, h2⟩, h3⟩ := h
    have l1 : (word16 e ++ (commonPage p).pulse).length = 4 := by
      simp [word16_length, commonPage, word, lowBytes_length]
    have l2 : (zeros 2 ++ (commonPage p).sequence).length = 6 := by
      simp [zeros, commonPage, long, lowBytes_length]
    rw [Memory.read_writeBytes_outside _ (by rw [fit_length]; omega),
      Memory.read_writeBytes_outside _ (by rw [l2]; omega),
      Memory.read_writeBytes_outside _ (by rw [l1]; omega)]
  | dish d => exact gen _ (by simp) h
  | formation d => exact gen _ (by simp) h
  | wind => exact gen _ (by simp) h
  | power => exact gen _ (by simp) h
  | zone d => exact gen _ (by simp) h
  | lockEntry d => exact gen _ (by simp) h

/-- A publication changes the memory and its own EDITION alone. -/
theorem publish_same (pg : Page) (pages : List Page) (hm : pg ∈ pages) (p : Part) :
    SameButPages pages p.xm (publish pg p).xm := by
  refine ⟨rfl, fun q hq => ?_, fun a ha => ?_⟩
  · have : q ≠ pg := fun e => hq (e ▸ hm)
    simp [publish, Part.modXm, Editions.get_set, this]
  · simp only [publish, Part.modXm]
    exact read_writePage_outside pg _ p _ a (ha pg hm)

/-- Publications change the memory and the EDITIONs of their pages alone. -/
theorem publishAll_same (l pages : List Page) (hl : ∀ pg ∈ l, pg ∈ pages) (p : Part) :
    (l.foldl (fun x pg => publish pg x) p).blocks = p.blocks
      ∧ SameButPages pages p.xm (l.foldl (fun x pg => publish pg x) p).xm := by
  induction l generalizing p with
  | nil => exact ⟨rfl, SameButPages.refl _ _⟩
  | cons pg l ih =>
    have h := ih (fun q hq => hl q (List.mem_cons_of_mem _ hq)) (publish pg p)
    exact ⟨h.1, (publish_same pg pages (hl pg (by simp)) p).trans h.2⟩

theorem wf_writePage (pg : Page) (e : Word) (p : Part) {m : Memory} (h : Memory.wf m = true) :
    Memory.wf (writePage pg e p m) = true := by
  cases pg <;> exact Memory.wf_writeBytes _ _ (by first | exact h | exact Memory.wf_writeBytes _ _ (Memory.wf_writeBytes _ _ h))

/-! ### The end of a command -/

theorem flush_eq (old p : Part) :
    flush old p = (flushedPages old p).foldl (fun x pg => publish pg x) (beforePages p) := rfl

theorem flush_blocks (old p : Part) : (flush old p).blocks = { p.blocks with out := [] } := by
  rw [flush_eq, (publishAll_same _ _ (fun _ h => h) _).1]
  rfl

theorem flush_same (old p : Part) (pages : List Page) (hm : ∀ pg ∈ markedPages p.blocks.out, pg ∈ pages)
    (ht : ∀ pg, pg ∉ pages → pageTouched pg old (beforePages p) = false)
    (hc : Page.common ∈ pages ∨ commonPublications old p = 0) :
    SameButPages pages (beforePages p).xm (flush old p).xm := by
  rw [flush_eq]
  refine (publishAll_same _ pages ?_ _).2
  intro pg hpg
  rcases List.mem_append.mp hpg with h | h
  · rcases List.mem_append.mp h with h | h
    · exact hm pg h
    · by_contra hn
      have := ht pg hn
      have h2 := (List.mem_filter.mp h).2
      exact absurd h2 (by simp [this])
  · obtain ⟨hne, rfl⟩ := List.mem_replicate.mp h
    exact hc.resolve_right hne

theorem beforePages_eq (b : Blocks) (x : Exchange) :
    beforePages ⟨b, x⟩ = ⟨{ b with out := [] }, takeOutputs { b with out := [] } b.out x⟩ := rfl

/-- A command of one block leaves what its function makes of the blocks, where that is settled. -/
theorem actBlocks_leaves {f : Blocks → Blocks} {s : State} {b b' : Blocks} {outs : List Output}
    {pages : List Page} (hf : settle s.part.blocks (f s.part.blocks) = b') (hb : b = { b' with out := [] })
    (ho : b'.out = outs) (hm : ∀ pg ∈ markedPages outs, pg ∈ pages)
    (ht : ∀ pg, pg ∉ pages → pageTouched pg s.part ⟨b, takeOutputs b outs s.part.xm⟩ = false)
    (hc : Page.common ∈ pages ∨ commonPublications s.part ⟨b', s.part.xm⟩ = 0) :
    Leaves (actBlocks f s) s b s.part.xm outs pages := by
  subst hb; subst ho; subst hf
  refine ⟨_, rfl, rfl, ?_, ?_⟩
  · exact flush_blocks _ _
  · have h := flush_same s.part ⟨settle s.part.blocks (f s.part.blocks), s.part.xm⟩ pages
    rw [beforePages_eq] at h
    exact h hm ht hc

end Sys2Proof.Machine
end

