-- ==== Sys2Proof/Laws/Events.lean ====
section
/-! SUPPORT. What the shared operations of the feeder arbiter, of the trail and of the order taker do. -/

namespace Sys2Proof.Machine

/-! ### Timers -/

@[simp] theorem expire_stopped (f : Blocks → Blocks) (b : Blocks) : b.expire none f = b := rfl

@[simp] theorem expire_running (n : Nat) (f : Blocks → Blocks) (b : Blocks) :
    b.expire (some n) f = f (b.runTo n) := rfl

/-! ### Outputs of a dish and reads of a register (R10, R15, R16, R18, R21, R169) -/

@[simp] theorem Dish.enter_drive (new : DriveState) (d : Dish) : (d.enter new).drive = new := by
  simp only [Dish.enter]
  split <;> split <;> rfl

@[simp] theorem Dish.enter_pinInOutput (new : DriveState) (d : Dish) :
    (d.enter new).pinInOutput = (new == .pinning) := by simp [Dish.pinInOutput]

@[simp] theorem Dish.enter_pinOutOutput (new : DriveState) (d : Dish) :
    (d.enter new).pinOutOutput = (new == .unpinning) := by simp [Dish.pinOutOutput]

/-- A faulted dish drives no pin, has its brakes on and its amplifiers off (R18, R21). -/
theorem Dish.faulted_outputs (k : FaultKind) (x : Dish) :
    (x.faulted k).pinInOutput = false ∧ (x.faulted k).pinOutOutput = false
      ∧ (x.faulted k).brakeReleaseOutput = false ∧ (x.faulted k).amplifierEnable = false := ⟨rfl, rfl, rfl, rfl⟩

@[simp] theorem Part.readRegister_nudge (p : Part) : p.readRegister .nudge = 0 := rfl

/-! ### The bounds of a FOLLOW (R3, R67) -/

@[simp] theorem Profile.hold_of_allows {p : Profile} {t : Int} (h : p.allows t = true) : p.hold t = t := by
  unfold Profile.hold
  split
  · next low high hb =>
    simp only [Profile.allows, hb, Bool.and_eq_true, decide_eq_true_eq] at h
    split <;> omega
  · rfl

/-- The limit that a FOLLOW is held at lies within its bounds. -/
theorem Profile.allows_hold {p : Profile} {low high : Int} (h : p.bounds = some (low, high)) (hl : low ≤ high)
    (t : Int) : p.allows (p.hold t) = true := by
  simp only [Profile.allows, Profile.hold, h]
  split <;> simp <;> omega

/-! ### Grant events at rest (R73, R80, R83) -/

theorem shareHeat_idle (request : ZoneId → Nat) (room : Nat) (l : List ZoneId) (h : ∀ z, request z = 0) (z : ZoneId) :
    ((shareHeat request room l).lookup z).getD 0 = 0 := by
  induction l generalizing room with
  | nil => rfl
  | cons y l ih =>
    simp only [shareHeat, h y, Nat.zero_min, Nat.sub_zero, List.lookup_cons]
    cases z == y <;> simp [ih]

theorem giveHeat_same (z : ZoneId) (b : Blocks) : giveHeat z (b.zone z).grant b = b := by
  unfold giveHeat; exact if_pos rfl

theorem heaterStep_idle (b : Blocks) (h : ∀ z, (b.zone z).request = 0 ∧ (b.zone z).grant = 0) :
    heaterStep b = b := by
  have hs : ∀ z, giveHeat z (((shareHeat (fun z => (b.zone z).request) (remainder b.fa)
      (heaterOrder (fun d => (b.snowReading d).soft) (fun d => (b.dish d).score))).lookup z).getD 0) b = b := by
    intro z
    rw [shareHeat_idle _ _ _ (fun y => (h y).1), ← (h z).2]
    exact giveHeat_same z b
  unfold heaterStep
  generalize allZones = l
  induction l with
  | nil => rfl
  | cons z l ih => simp only [List.foldl_cons, hs z]; exact ih

theorem motionStep_idle (b : Blocks) (h : b.fa.queue = []) : motionStep b = b := by
  have e : b.modFa (fun fa => { fa with queue := [] }) = b := by
    unfold Blocks.modFa; rw [← h]
  simp [motionStep, walkClaims, tellGranted, h, e]

theorem recomputeForce_idle (b : Blocks) (hf : b.fa.inForce = max b.fa.target (motionSum b.fa))
    (hh : b.fa.held = decide (b.fa.target < motionSum b.fa)) : recomputeForce b = b := by
  have e : b.modFa (fun fa => { fa with
      inForce := max fa.target (motionSum b.fa), held := decide (b.fa.target < motionSum b.fa) }) = b := by
    unfold Blocks.modFa; dsimp only; rw [← hf, ← hh]
  unfold recomputeForce
  simp [e, hh]

/-- Where nothing waits for power and every heater is without it, a grant event publishes the power page and
changes nothing. -/
theorem grantEvent_idle (b : Blocks) (h : b.HeatQuiet) (hq : b.fa.queue = []) :
    grantEvent b = b.publish .power := by
  obtain ⟨hz, hf, hh⟩ := h
  rw [grantEvent, recomputeForce_idle b hf hh, motionStep_idle b hq, heaterStep_idle b hz]

/-! ### The return of a motion grant (R73, R79, R82) -/

@[simp] theorem withoutGrant_grants (d : DishId) (b : Blocks) :
    (b.withoutGrant d).fa.grants = b.fa.grants.set d none := rfl

@[simp] theorem withoutGrant_queue (d : DishId) (b : Blocks) : (b.withoutGrant d).fa.queue = b.fa.queue := rfl

@[simp] theorem withoutGrant_inbox (d : DishId) (b : Blocks) : (b.withoutGrant d).inbox = b.inbox := rfl

@[simp] theorem withoutGrant_stow (d e : DishId) (b : Blocks) : (b.withoutGrant d).stow e = b.stow e := rfl

@[simp] theorem withoutGrant_shed (d e : DishId) (b : Blocks) : (b.withoutGrant d).shed e = b.shed e := rfl

/-- The sum of the table without one entry is no larger. -/
theorem sumGrants_set_none_le (l : List (Option Grant)) (i : Nat) {m n : Nat} (h : m ≤ n) :
    (l.set i none).foldl (fun k g => k + (g.map Grant.amount).getD 0) m
      ≤ l.foldl (fun k g => k + (g.map Grant.amount).getD 0) n := by
  induction l generalizing i m n with
  | nil => simpa using h
  | cons g l ih =>
    cases i with
    | zero =>
      have same := ih l.length (m := m) (n := n + (g.map Grant.amount).getD 0) (by omega)
      rw [List.set_eq_of_length_le (le_refl _)] at same
      simpa using same
    | succ i => simpa using ih i (by omega)

theorem motionSum_withoutGrant_le (d : DishId) (b : Blocks) : motionSum (b.withoutGrant d).fa ≤ motionSum b.fa := by
  show ((b.fa.grants.set d none).toList.foldl _ 0) ≤ b.fa.grants.toList.foldl _ 0
  rw [Vector.toList_set]
  exact sumGrants_set_none_le b.fa.grants.toList d.val (le_refl 0)

/-- Where nothing waits for power and every heater is without it, a returned grant lowers the budget in force and
HELD to what motion still holds, and publishes. -/
theorem returnGrant_idle {b : Blocks} {d : DishId} (hg : b.fa.grants[d].isSome = true) (h : b.HeatQuiet)
    (hq : b.fa.queue = []) :
    returnGrant d b = { b.withoutGrant d with out := b.out ++ returnOutputs d b } := by
  obtain ⟨g, hg⟩ := Option.isSome_iff_exists.mp hg
  obtain ⟨hz, -, hh⟩ := h
  have hle := motionSum_withoutGrant_le d b
  have hr : recomputeForce (setGrant d none b)
      = { b.withoutGrant d with out := b.out ++
          if (b.withoutGrant d).fa.inForce = b.fa.inForce then [] else [.page .common] } := by
    have hheld : ((b.withoutGrant d).fa.held && !b.fa.held) = false := by
      rw [hh, Bool.and_eq_false_iff]
      change decide (b.fa.target < motionSum (b.withoutGrant d).fa) = false ∨ _
      by_cases hlt : b.fa.target < motionSum (b.withoutGrant d).fa
      · right; simp only [Bool.not_eq_false', decide_eq_true_eq]; omega
      · left; simpa using hlt
    have hs : recomputeForce (setGrant d none b)
        = let b' := if (b.withoutGrant d).fa.inForce = b.fa.inForce then b.withoutGrant d
            else (b.withoutGrant d).publish .common
          if (b.withoutGrant d).fa.held && !b.fa.held then b'.trail (.budgetHeld b.fa.target
            (motionSum (b.withoutGrant d).fa) (holdingDishes (b.withoutGrant d).fa)) else b' := rfl
    rw [hs, hheld]
    dsimp only
    rw [if_neg (by simp)]
    split
    · simp [Blocks.withoutGrant, Blocks.modDish]
    · rfl
  unfold returnGrant
  rw [hg]
  dsimp only
  rw [grantEvent, hr, motionStep_idle _ (by exact hq), heaterStep_idle _ (by exact hz)]
  simp [Blocks.publish, returnOutputs]

/-! ### Trail and answers (R176, R179 to R181) -/

theorem sampleMark_mem (count : Nat) (x : Exchange) : (sampleMark count x).mem = x.mem := by
  unfold sampleMark; dsimp only; split <;> rfl

theorem setCause_mem (k : Cause) (x : Exchange) : (x.setCause k).mem = x.mem := rfl

/-- An entry is written at its position and nowhere else. -/
theorem writeEntry_mem (level count : Nat) (e : TrailEvent) (time : ArrayTime) (valid : Bool) (x : Exchange) :
    (writeEntry level count e time valid x).mem
      = x.mem.writeBytes (0x3000 + 32 * (x.writeSequence.toNat % 128)) (entryBytes x.writeSequence e time valid) := by
  unfold writeEntry
  dsimp only
  split_ifs <;> rfl

theorem writeEntry_writeSequence (level count : Nat) (e : TrailEvent) (time : ArrayTime) (valid : Bool)
    (x : Exchange) : (writeEntry level count e time valid x).writeSequence = x.writeSequence + 1 := by
  unfold writeEntry
  dsimp only
  split_ifs <;> rfl

theorem writeEntry_dropped (level count : Nat) (e : TrailEvent) (time : ArrayTime) (valid : Bool)
    (x : Exchange) : (writeEntry level count e time valid x).dropped = x.dropped := by
  unfold writeEntry
  dsimp only
  split_ifs <;> rfl

theorem entryBytes_length (seq : Word32) (e : TrailEvent) (time : ArrayTime) (valid : Bool) :
    (entryBytes seq e time valid).length = 32 := by
  simp [entryBytes, long, timeBytes, byte, zeros, lowBytes_length, fit_length]

theorem wf_writeEntry (level count : Nat) (e : TrailEvent) (time : ArrayTime) (valid : Bool) {x : Exchange}
    (h : Memory.wf x.mem = true) : Memory.wf (writeEntry level count e time valid x).mem = true := by
  rw [writeEntry_mem]
  exact Memory.wf_writeBytes _ _ h

theorem wf_takeEvent (level count : Nat) (e : TrailEvent) (time : ArrayTime) (valid : Bool) {x : Exchange}
    (h : Memory.wf x.mem = true) : Memory.wf (takeEvent level count e time valid x).mem = true := by
  have h0 : Memory.wf (sampleMark count x).mem = true := by rw [sampleMark_mem]; exact h
  unfold takeEvent
  dsimp only
  split
  · exact h0
  · split
    · exact wf_writeEntry _ _ _ _ _ h0
    · split
      · exact wf_writeEntry _ _ _ _ _ h0
      · exact wf_writeEntry _ _ _ _ _ (wf_writeEntry _ _ _ _ _ h0)

theorem wf_takeOutput (level : Nat) (c : Clock) (o : Output) {x : Exchange} (h : Memory.wf x.mem = true) :
    Memory.wf (takeOutput level c o x).mem = true := by
  cases o with
  | trail e t v =>
    have := wf_takeEvent level c.count e t v h
    cases e <;> exact this
  | answer s a t v => exact wf_setSlotState _ _ (Memory.wf_writeBytes _ _ h)
  | cause k => exact h
  | page p => exact h

theorem wf_takeOutputs (b : Blocks) (outs : List Output) {x : Exchange} (h : Memory.wf x.mem = true) :
    Memory.wf (takeOutputs b outs x).mem = true := by
  unfold takeOutputs
  induction outs generalizing x with
  | nil => exact h
  | cons o l ih => exact ih (wf_takeOutput _ _ o h)

theorem wf_publish (pg : Page) {p : Part} (h : Memory.wf p.xm.mem = true) :
    Memory.wf (publish pg p).xm.mem = true := wf_writePage pg _ p h

theorem wf_publishAll (l : List Page) {p : Part} (h : Memory.wf p.xm.mem = true) :
    Memory.wf (l.foldl (fun x pg => publish pg x) p).xm.mem = true := by
  induction l generalizing p with
  | nil => exact h
  | cons pg l ih => exact ih (wf_publish pg h)

/-- The end of a command keeps the canonical form of the memory. -/
theorem wf_flush (old : Part) {p : Part} (h : Memory.wf p.xm.mem = true) :
    Memory.wf (flush old p).xm.mem = true := by
  rw [flush_eq]
  exact wf_publishAll _ (wf_takeOutputs { p.blocks with out := [] } p.blocks.out h)

/-- An output writes the trail, or the answer and the STATE of a slot, and no other byte. -/
theorem read_takeOutput (level : Nat) (c : Clock) (o : Output) (x : Exchange) (a : Nat)
    (ht : inTrail a = false) (hs : inAnswerOrState a = false) :
    Memory.read a (takeOutput level c o x).mem = Memory.read a x.mem := by
  have entry : ∀ (e : TrailEvent) (t : ArrayTime) (v : Bool) (y : Exchange),
      Memory.read a (writeEntry level c.count e t v y).mem = Memory.read a y.mem := by
    intro e t v y
    rw [writeEntry_mem]
    apply Memory.read_writeBytes_outside
    rw [entryBytes_length]
    simp only [inTrail, Bool.and_eq_false_imp, decide_eq_true_eq, decide_eq_false_iff_not] at ht
    omega
  cases o with
  | trail e t v =>
    have h : Memory.read a (takeEvent level c.count e t v x).mem = Memory.read a x.mem := by
      unfold takeEvent
      dsimp only
      split
      · rw [sampleMark_mem]
      · split
        · rw [entry, sampleMark_mem]
        · split
          · exact (entry _ _ _ _).trans (by rw [sampleMark_mem])
          · exact (entry _ _ _ _).trans ((entry _ _ _ _).trans (by rw [sampleMark_mem]))
    cases e <;> exact h
  | answer s r t v =>
    simp only [inAnswerOrState, Bool.and_eq_false_imp, Bool.and_eq_true, decide_eq_true_eq, Bool.or_eq_false_iff,
      decide_eq_false_iff_not] at hs
    have hl : (answerBytes r t v).length = 24 := by
      simp [answerBytes, byte, word, timeBytes, fit_length, lowBytes_length]
    have := s.isLt
    simp only [takeOutput, writeAnswer, Exchange.setCause, setSlotState, Memory.writeWord, slotBase]
    rw [Memory.read_writeBytes_outside, Memory.read_writeBytes_outside]
    · omega
    · rw [lowBytes_length]; omega
  | cause k => rfl
  | page p => rfl

/-! ### The take of an order (R175) -/

/-- An order whose slot is not held, and which OT's own checks pass, goes to its owner. -/
theorem command_takeable {s : State} {slot : SlotId} {o : Order} (h : Takeable s slot o) :
    command slot o s.part
      = takeOrder slot o (s.part.modXm (Exchange.modMem (placeOrder slot o))) := by
  obtain ⟨hr, hn, -⟩ := h
  have ha : abandonHeld slot s.part = s.part := by
    have : s.part.xm.heldList.find? (fun g => g.slot == slot) = none := by
      rw [List.find?_eq_none]
      intro g hg
      simpa using hn g hg
    simp [abandonHeld, this]
  simp [command, hr, ha]

end Sys2Proof.Machine
end

