-- ==== Sys2Proof/Tests/Slice0.lean ====
section
/-! SUPPORT. Tests: ill-formed commands, the worked cases of the spec, one step of each kind of command
on a small part, and for every statement that has hypotheses a part and operands that meet them. -/

namespace Sys2Proof.Tests

open Sys2Proof Sys2Proof.Machine

set_option maxRecDepth 100000
set_option Elab.async false

/-! ### WellFormed: one ill-formed term for each check -/

theorem test_illFormed_odd_address : Outside.wellFormed (.memoryWord 0x0005 1) = false := by decide
theorem test_illFormed_beyond_memory : Outside.wellFormed (.memoryWord 0x8000 1) = false := by decide
theorem test_wellFormed_last_word : Outside.wellFormed (.memoryWord 0x7FFE 1) = true := by decide
theorem test_illFormed_nudgeSweep : Instr.wellFormed (.nudgeSweep [.memoryWord 1 0]) = false := by decide
theorem test_illFormed_sweepTimer : Instr.wellFormed (.sweepTimerExpiry [.memoryWord 0x9000 0]) = false := by
  decide
theorem test_illFormed_pulse : Instr.wellFormed (.pulseEvent [.memoryWord 3 0]) = false := by decide
theorem test_illFormed_linger : Instr.wellFormed (.lingerTimerExpiry [.memoryWord 3 0]) = false := by decide
theorem test_illFormed_presence : Instr.wellFormed (.presenceCheck [.memoryWord 3 0]) = false := by decide
theorem test_illFormed_brakeRelease :
    Instr.wellFormed (.brakeReleaseTimerExpiry 0 [.amplifierReady 0 .az, .memoryWord 3 0]) = false := by decide
theorem test_illFormed_ignoredWrite : Instr.wellFormed (.registerWriteIgnored .nudge 2) = false := by decide
theorem test_illFormed_reading : Instr.wellFormed (.encoderReading 0 .az (-2147483648)) = false := by decide
theorem test_illFormed_readBack : Instr.wellFormed (.nvWriteCompletion ⟨0, [0]⟩) = false := by decide
theorem test_illFormed_reply : Instr.wellFormed (.panelReply [1] false) = false := by decide

/-! ### Small parts that tests and witnesses start from -/

def testLevels : FieldLevels :=
  { quietLevels with ampReadyAz := 0xFFF, ampReadyEl := 0xFFF, pinOut := 0xFFF }

def testSite : SiteStore :=
  { working := factoryDefaults, crc := 0, state := .adopted, nv := [], commit := none, failures := 0 }

/-- The factory settings in force, no lock, every dish BRAKED at azimuth 10 and elevation 20 degrees. -/
def resting : Blocks :=
  let b := freshBlocks testLevels testSite
  { b with
    clock := ⟨500000, true, 20005⟩
    dishes := b.dishes.map (fun x => { x with
      lock := ⟨false, false, false, false⟩
      az := { x.az with encoder := some 10000, position := 10000 }
      el := { x.el with encoder := some 20000, position := 20000 } })
    keySlots := Vector.replicate 12 none }

def stateOf (b : Blocks) : State := ⟨⟨b, freshExchange⟩, []⟩

def restState : State := stateOf resting

def testHead : OrderHead := ⟨3, 7, 0⟩

/-- No power to give: every claim waits. -/
def tight : Blocks := resting.modFa (fun fa => { fa with requested := 0, target := 0, inForce := 0 })

/-- Formation 2 IDLE with the dishes given. -/
def grouped (ds : DishSet) (b : Blocks) : Blocks :=
  overDishes ds.toList (fun d x => x.modDish d (fun y => { y with formation := some 2 }))
    (b.modForm 2 (fun m => { m with state := .idle, members := ds }))

def testPlan (az el : Int) : PlanResult :=
  match plan factoryDefaults (tight.dish 0) (.sky az .nearest) el none with
  | .ok p => p
  | .error _ => makePlan (planAxis true 0 0 1 1 1) (planAxis true 0 0 1 1 1) false false

def stowPlan : PlanResult :=
  match plan factoryDefaults (tight.dish 0) .stay 90000 none with
  | .ok p => p
  | .error _ => makePlan (planAxis true 0 0 1 1 1) (planAxis true 0 0 1 1 1) false false

/-- One dish alone in formation 2, and no power to give. -/
def alone : Blocks := grouped 1 tight

def testPoint (t : Nat) (az : Int) : Waypoint :=
  { time := BitVec.ofNat 48 t, skyAz := az, el := 30000, unwrapped := Vector.replicate 12 none }

def trackable : Blocks :=
  alone.modForm 2 (fun m => { m with
    queue := [testPoint 400000 20000, testPoint 450000 30000, testPoint 600000 40000] })

def loaded : Blocks :=
  (grouped 1 resting).modForm 2 (fun m => { m with
    queue := (List.range 26).map (fun k => testPoint (600000 + k) 1000) })

def testPoints : Vector RawWaypoint 6 :=
  #v[⟨700000, 0, 100000⟩, ⟨700001, 359999, 0⟩, ⟨700002, 5, 5⟩, ⟨700003, 0, 0⟩, ⟨700004, 0, 0⟩, ⟨700005, 0, 0⟩]

/-- Dish 0 PINNED by an order of the operators. -/
def stowedDish : Blocks :=
  (resting.modDish 0 (fun x => { x with
    drive := .pinned, task := .stow, owner := some .ww, reasons := ⟨false, true⟩, pinningOwner := some .ww
    pinIn := true, pinOut := false })).modStow 0 (fun r => { r with phase := .stowed })

def testRecord : LockRecord := ⟨3, .order, .motion, 17, .effective, 0, false, none⟩

def lockedDish : Blocks :=
  { resting.modDish 3 (fun x => { x with lock := ⟨true, false, false, false⟩ }) with
    pool := resting.pool.set 0 (some testRecord) }

def faultedDish : Blocks :=
  resting.modDish 0 (fun x => { x with
    drive := .faulted, faultKind := some .limit, kindsSeen := FaultKinds.empty.add .limit
    az := { x.az with limitLow := true } })

def testProfile : Profile :=
  { kind := .slew, start := 10000, target := 30000, v := 2000, a := 1000, startInstant := 498000
    duration := 12000, travelled := 0, rate0 := 0, dir := 1, ended := false, finishing := false, bounds := none }

/-- Dish 0 in a drive state, with a change of its record. -/
def driven (s : DriveState) (f : Dish → Dish) : Blocks := resting.modDish 0 (fun x => f { x with drive := s })

def slewing : Blocks :=
  driven .moving (fun x => { x with
    az := { x.az with profile := some testProfile, servoDue := 20005, fresh := true } })

def withPage : State :=
  ⟨⟨resting, { freshExchange with mem := Memory.writeBytes 0x4000 (siteRecord factoryDefaults) [] }⟩, []⟩

/-- A sound staging page with the FEEDER MAX and the RESERVE given. -/
def withFeeder (feederMax reserve : Int) (b : Blocks) : State :=
  let st := (factoryDefaults.set 20 feederMax).set 21 reserve
  ⟨⟨b, { freshExchange with mem := Memory.writeBytes 0x4000 (siteRecord st) [] }⟩, []⟩

def testCommit : Commit := ⟨[1, 2, 3], some 3, 20100⟩

def committing : Blocks := { resting with site := { resting.site with commit := some testCommit } }

def testGrant : Grant := ⟨135, .move, .fp, .reserved, 75, 60⟩

/-- Formation 2 ADMITTING its one member, whose claim waits. -/
def admitting : Blocks :=
  alone.modForm 2 (fun m => { m.modMember 0 (fun k => { k with stage := .claiming, plan := some (testPlan 30000 45000) }) with
    state := .admitting, work := some .slew, included := 1, admission := some 20100, mode := .joint })

/-- The same with the claim granted. -/
def admitted : Blocks :=
  ((admitting.modForm 2 (Formation.modMember 0 (fun k => { k with stage := .granted }))).modFa
    (fun fa => { fa with grants := fa.grants.set 0 (some testGrant) })).modDish 0
    (fun x => { x with motionGrant := some 135 })

def testRaster : Raster := ⟨0, 0, 1000, 0, 4, 3, 600000⟩

/-- Formation 2 at the end of its work, its dish HOLDING. -/
def dwelling : Blocks :=
  ((grouped 1 resting).modForm 2 (fun m => { m with
    state := .dwelling, work := some .raster, slot := some 3, included := 1, raster := some testRaster
    dwell := some 20100 })).modDish 0 (fun x => { x with
      drive := .holding, task := .formation, owner := some .fp })

def starving : Blocks :=
  dwelling.modForm 2 (fun m => { m with
    state := .starved, work := some .track, raster := none, dwell := none, starve := some 20100 })

def followProfile : Profile := { testProfile with kind := .follow, target := 10000, v := 2000 }

def trackedPoint (t : Nat) (az : Int) : Waypoint :=
  { testPoint t az with unwrapped := (Vector.replicate 12 none).set 0 (some az) }

/-- Formation 2 TRACKING with one follower, 5 s past a waypoint. -/
def tracking : Blocks :=
  ((grouped 1 resting).modForm 2 (fun m => { m.modMember 0 (fun k => { k with
      stage := .following, lagTimer := none }) with
    state := .tracking, work := some .track, slot := some 3, included := 1, trackStep := some 20005
    queue := [trackedPoint 495000 9000, trackedPoint 505000 11001] })).modDish 0 (fun x => { x with
      drive := .moving, task := .formation, owner := some .fp
      az := { x.az with profile := some followProfile }
      el := { x.el with profile := some followProfile, encoder := some 30000 } })

def testFrame : List Byte :=
  let bs := [0xA7] ++ lowBytes 2 1200 ++ lowBytes 2 90 ++ signedBytes 2 (-60) ++ [0]
  bs ++ [frameSum bs]

def collecting (bs : List Byte) : Blocks :=
  resting.modLine 1 (fun x => { x with
    gathered := bs, gapTimer := some 20025, state := .ok, silenceTimer := some 21000 })

def testZone (x : Zone) : Blocks := { resting with zones := resting.zones.set 4 x }

def runningZone : Zone := { resting.zone 4 with state := .running, applied := 10, demand := 0 }

def tailingZone : Zone :=
  { resting.zone 4 with state := .tailing, tail := some 20100, demand := 0, request := 5, grant := 5 }

def asked : Blocks :=
  { resting with pedestal := { resting.pedestal with exchange := some ⟨5, .status, false, 20010⟩ } }

def answering : Blocks :=
  { asked.modPanel 5 (fun q => { q with link := .online, voids := 1, key := some .run }) with
    keySlots := Vector.replicate 12 none }

/-- The same with a KEY record of the panel's dish. -/
def keyLocked : Blocks :=
  { answering.modDish 5 (fun x => { x with lock := ⟨true, false, false, false⟩ }) with
    keySlots := (Vector.replicate 12 none).set 5 (some ⟨5, .key, .motion, 0, .effective, 0, false, none⟩) }

/-- The same panel asked for its event by a request that carried the REFUSED lamp. -/
def badging : Blocks :=
  { answering with pedestal := { answering.pedestal with exchange := some ⟨5, .event, true, 20010⟩ } }

/-- Its dish with three records of other holders. -/
def badged : Blocks :=
  { badging with pool := ((badging.pool.set 0 (some { testRecord with dish := 5, tag := 1 })).set 1
      (some { testRecord with dish := 5, tag := 2 })).set 23 (some { testRecord with dish := 5, origin := .badge }) }

/-- A gale on line 1 and no power to give; dish 0 stands stowed, 1 is faulted, 2 is blocked by a lock, 3
stands highest and 5 lowest. -/
def storm : Blocks :=
  ((((((tight.modLine 1 (fun x => { x with
      state := .ok, silenceTimer := some 21000, secondSum := 6000, secondCount := 1 })).modDish 0 (fun x => { x with
        drive := .pinned })).modStow 0 (fun r => { r with phase := .stowed })).modDish 1 (fun x => { x with
          drive := .faulted })).modDish 2 (fun x => { x with lock := ⟨true, false, false, false⟩ })).modStow 2
    (fun r => { r with phase := .blocked, cause := some .lock })).modDish 3 (fun x => { x with
      el := { x.el with encoder := some 30000 } }) |>.modDish 5 (fun x => { x with
      el := { x.el with encoder := some 10000 } })

/-- The same with dish 4 BLOCKED for want of its encoder, and dish 6 excused by FP and stopping. -/
def mixedStorm : Blocks :=
  ((storm.modDish 4 (fun x => { x with el := { x.el with encoder := none } })).modStow 4 (fun r => { r with
    phase := .blocked, cause := some .position })).modDish 6 (fun x => { x with
      drive := .stopping, task := .formation, owner := some .fp })

/-- A gale with every dish FAULTED. -/
def stillStorm : Blocks :=
  { storm with
    dishes := storm.dishes.map (fun x => { x with drive := .faulted })
    wind := { storm.wind with state := .watch } }

/-- Dish 0 under snow at the shed threshold, its SURFACE zone switched off, and no power to give. -/
def snowed : Blocks :=
  (tight.modDish 0 (fun x => { x with score := 4000, el := { x.el with encoder := some 51920 } })).modZone 0
    (fun x => { x with mode := .off, request := 0 })

/-- Dish 0 SETTLING at the end of its shed tilt. -/
def shedding : Blocks :=
  (driven .settling (fun x => { x with settleTimer := some 20100, task := .shed, owner := some .mc })).modShed 0
    (fun r => { r with phase := .handed })

/-- One order held in a slot, and a word in the STATE of the slot. -/
def sweepPart (slot : SlotId) (body : OrderBody) (word : Word) (b : Blocks) : State :=
  ⟨⟨b, { freshExchange with
      heldList := [⟨slot, ⟨7, 2, 0, 0, 0, body⟩, none⟩]
      mem := Memory.writeWord (slotBase slot) word []
      answerMarks := 5 }⟩, []⟩

def standingStow : Blocks := resting.modWind (fun w => { w with standing := [⟨3, 1, 1, 0, 0⟩] })

/-- Formation 2 ADMITTING under the order of slot 3 with no dish in hand. -/
def cuttable : Blocks := admitting.modForm 2 (fun m => { m with slot := some 3 })

/-- A LOCK of slot 3 that waits for dish 3 to stop. -/
def lockPending : Blocks :=
  { resting with
    dishes := (resting.modDish 3 (fun x => { x with
      drive := .stopping, task := .lockStop, owner := some .lt, lock := ⟨false, false, true, false⟩ })).dishes
    pool := resting.pool.set 0 (some { testRecord with state := .waiting, slot := some 3 }) }

/-- Dish 0 with the grant of a stow in use. -/
def powered (b : Blocks) : Blocks :=
  (b.modFa (fun fa => { fa with grants := fa.grants.set 0 (some ⟨60, .stow, .ww, .inUse, 75, 60⟩) })).modDish 0
    (fun x => { x with motionGrant := some 60 })

/-- The same where the motion held keeps the budget in force above its target. -/
def overdrawn (b : Blocks) : Blocks :=
  (powered b).modFa (fun fa => { fa with requested := 0, target := 0, inForce := 60, held := true })

/-- STOWING, with dish 1 moving to stow. -/
def stowingOn (b : Blocks) : Blocks :=
  ((b.modDish 1 (fun x => { x with reasons := ⟨true, false⟩ })).modStow 1 (fun r => { r with phase := .handed })).modWind
    (fun w => { w with state := .stowing })

/-- Dish 0 in a drive state under a stow of the wind watch, with its grant, in STOWING. -/
def watched (s : DriveState) (f : Dish → Dish) : Blocks :=
  overdrawn (stowingOn ((driven s (fun x => f { x with
    task := .stow, owner := some .ww, reasons := ⟨true, false⟩ })).modStow 0 (fun r => { r with phase := .handed })))

/-- A PLACED slot whose verb code names no order. -/
def oddVerb : State :=
  ⟨⟨resting, { freshExchange with
      mem := placeOrder 3 ⟨7, 9, 1, 0, 0, .unknown 19⟩ [], answerMarks := 9, heldList := [] }⟩, []⟩

/-! ### Worked cases of the spec -/

/-- 2.11, a slew at full rates. -/
theorem test_slew_times : minimumTime 90000 2000 1000 = 47000 ∧ minimumTime 31920 1000 500 = 33920 := by
  decide +kernel

/-- 2.11, the elevation axis in a wave of 47000 ms. -/
theorem test_stretched_axis :
    let m := stretch 47000 (planAxis false 20000 51920 1000 500 1000)
    m.v = 700 ∧ m.duration = 47000 := by decide +kernel

/-- 2.11, triangles and the boundary. -/
theorem test_triangles :
    minimumTime 1000 2000 1000 = 2000 ∧ minimumTime 1500 2000 1000 = 2450 ∧ minimumTime 2000 1000 500 = 4000 := by
  decide +kernel

/-- 2.11, a stretch that is discarded, and one that is not. -/
theorem test_discarded_stretch :
    (stretch 2460 (planAxis false 0 3 1000 2 1000)).duration = 2450
      ∧ (stretch 2500 (planAxis false 0 3 1000 2 1000)).duration = 2500 := by decide +kernel

/-- 2.11, wrap choices at the edges. -/
theorem test_wrap_choices :
    chooseWrap factoryDefaults 0 2000 1000 180000 .nearest = .ok (180000, false)
      ∧ chooseWrap factoryDefaults 0 2000 1000 180000 .ccw = .ok (-180000, false)
      ∧ chooseWrap factoryDefaults 45000 2000 1000 225000 .nearest = .ok (-135000, false)
      ∧ chooseWrap factoryDefaults 100000 2000 1000 300000 .cw = .ok (-60000, true)
      ∧ chooseWrap factoryDefaults 10000 2000 1000 370000 .nearest = .error .badAzimuth := by decide +kernel

/-- 2.11, unwrapping a track. -/
theorem test_unwrapping :
    unwrapNext (-200) 100 = 100 ∧ unwrapNext 100 359900 = -100 ∧ unwrapNext 0 180000 = 180000
      ∧ unwrapNext 265000 270500 = 270500 := by decide

/-- 2.11, interpolating. -/
theorem test_interpolating :
    interpolate 10000 10600 1020000 1000000 1060000 = 10200
      ∧ interpolate 10600 10000 1000007 1000000 1060000 = 10600
      ∧ interpolate 10600 10000 1010000 1000000 1060000 = 10500 := by decide

/-- R72, the three targets of the defaults. -/
theorem test_budget_targets :
    budgetTarget factoryDefaults 1800 false = 1700 ∧ budgetTarget factoryDefaults 1800 true = 980
      ∧ budgetTarget factoryDefaults 800 true = 700 := by decide +kernel

/-- R87, a reserve above the feeder maximum fits no budget, not even with no motion. -/
theorem test_budget_below_reserve :
    budgetFits ((factoryDefaults.set 20 100).set 21 500) resting.fa = false
      ∧ budgetFits ((factoryDefaults.set 20 500).set 21 500) resting.fa = true := by decide +kernel

/-- R3, a FOLLOW keeps the limits of its planning when narrower ones are adopted. -/
theorem test_follow_keeps_its_limits :
    let p : Profile := { testProfile with kind := .follow, bounds := some (-270000, 270000) }
    let x : Axis := { (resting.dish 0).az with softHigh := 9000, profile := some p }
    ((stepFollow 20 p x).position = 10000 ∧ (stepFollow 20 p x).rate = 10)
      ∧ ((x.retarget 270000).profile.map Profile.target = some 270000)
      ∧ ((x.retarget 270001).profile.map Profile.target = some 30000) := by decide +kernel

/-- R15, R21, the pin-in output from the entry to PINNING until pin-in is sensed or the dish faults. -/
theorem test_pin_in_output :
    let b := enterPinning 0 .ww resting
    (b.dish 0).pinInOutput = true ∧ ((onPinIn 0 b).dish 0).pinInOutput = false
      ∧ ((faultDish 0 .pin b).dish 0).pinInOutput = false ∧ (b.dish 1).pinInOutput = false := by decide +kernel

/-- R16, the pin-out output from the entry to UNPINNING until pin-out is sensed. -/
theorem test_pin_out_output :
    let b := enterUnpinning 0 (stowedDish.modDish 0 (fun x => { x with pinOut := false }))
    (b.dish 0).pinOutOutput = true ∧ ((onPinOut 0 b).dish 0).pinOutOutput = false := by decide +kernel

/-- R168, the trail entry and the attended state each republish the common page. -/
theorem test_presence_publications :
    (match exec (.presenceCheck [.memoryWord 0x0004 5])
        (stateOf { resting with presence := ⟨.unattended, 0, 9000⟩ }) with
      | .next t => t.part.xm.editions.common - freshExchange.editions.common
      | _ => 0) = 4 := by decide +kernel

/-- R124, the default curves. -/
theorem test_curve_duties :
    curveDuty (factoryDefaults.curve .surface) (-60) = 700 ∧ curveDuty (factoryDefaults.curve .surface) 3 = 428
      ∧ curveDuty (factoryDefaults.curve .surface) 21 = 0
      ∧ curveDuty (factoryDefaults.curve .subreflector) (-7) = 335
      ∧ curveDuty (factoryDefaults.curve .feed) 13 = 348 := by decide +kernel

/-- R133, snow at -6.0 degrees, and a dry thaw at 3.0. -/
theorem test_scores :
    nextScore factoryDefaults 5000 700 (some (-60)) .snow = 4999
      ∧ nextScore factoryDefaults 5000 500 (some (-60)) .snow = 5000
      ∧ nextScore factoryDefaults 5000 300 (some (-60)) .snow = 5002
      ∧ nextScore factoryDefaults 5000 166 (some (-60)) .snow = 5003
      ∧ nextScore factoryDefaults 5000 150 (some 30) .none = 4998 := by decide +kernel

/-- R135. -/
theorem test_derates :
    [2999, 3000, 3010, 5500, 7999, 8000].map (derateOf factoryDefaults.snowReading) = [1000, 1000, 999, 750, 501, 500] := by
  decide +kernel

/-- 8.3, take order: slots 9, 12, 3, 5, 20. -/
theorem test_take_order :
    let place (slot : SlotId) (post : Word) := placeOrder slot ⟨post, 0, 0, 0, 0, .commitSite⟩
    candidates { freshExchange with
      expectedPost := 65534
      mem := place 20 40000 (place 5 2 (place 3 2 (place 12 65535 (place 9 65534 [])))) } = [9, 12, 3, 5, 20] := by
  decide +kernel

/-- 8.5, a full trail: the gap at position 104 and the entry behind it. -/
theorem test_full_trail :
    let full : Exchange := { freshExchange with
      writeSequence := 1000, mem := Memory.writeWord 0x000C 872 [] }
    let lost := takeEvent 4 0 (.dishStowed 3) 0 false (takeEvent 4 0 (.dishStowed 3) 0 false full)
    let after := takeEvent 4 0 (.snowLevel 3 .onset 3000 true 3000) 0 false
      { lost with mem := Memory.writeWord 0x000C 882 lost.mem }
    unread full = 128 ∧ lost.dropped = 2 ∧ lost.writeSequence = 1000 ∧ after.writeSequence = 1002
      ∧ after.dropped = 0 ∧ after.cause = 0
      ∧ after.mem.readBytes (0x3000 + 32 * 104) 32 = entryBytes 1000 (.trailGap 2) 0 false := by decide +kernel

/-- The CRC-16 check value of "123456789", polynomial 0x1021 from 0xFFFF (09 9.1); its CRC-8 (R196). -/
theorem test_check_values :
    crc16 [0x31, 0x32, 0x33, 0x34, 0x35, 0x36, 0x37, 0x38, 0x39] = 0x29B1
      ∧ crc8 [0x31, 0x32, 0x33, 0x34, 0x35, 0x36, 0x37, 0x38, 0x39] = 0xF4 := by decide +kernel

/-- 10.2: IDENT after a power-on with no stored settings: family 0x2C, revision 1, READY, PROVISIONAL. -/
theorem test_ident : (⟨resting, freshExchange⟩ : Part).ident = 0x2C19 := by decide +kernel

/-- No word spells a command. -/
theorem test_no_words : decodeTableWord 16 0x1234 = none := rfl

/-! ### One command each -/

def after (c : Instr) (s : State) : Part :=
  match exec c s with
  | .next t => t.part
  | _ => s.part

/-- R48: the one member is locked, so the order has no members and is answered in the sweep. -/
theorem test_slew_of_locked_dish :
    let s := stateOf (alone.modDish 0 (fun x => { x with lock := ⟨true, false, false, false⟩ }))
    let t := after (.slew testHead 2 30000 45000 0 0) s
    (t.blocks.form 2).state = .idle ∧ t.xm.mem.readWord (slotBase 3) = 3 := by decide +kernel

/-- R175: a FLAGS field other than 0 is field 5. -/
theorem test_flags_refused :
    (after (.setBudget ⟨3, 7, 1⟩ 5) restState).blocks = resting := by decide +kernel

/-- R20, R21: a limit switch takes a moving dish to FAULTED. -/
theorem test_limit_faults :
    ((after (.limitSwitchAsserted 0 .az .high) (stateOf slewing)).blocks.dish 0).faultKind = some .limit := by
  decide +kernel

/-- R103, R108: a gust above the stow gust stows every dish that is free. -/
theorem test_gust_stows :
    let s := stateOf ((collecting []).modLine 1 (fun x => { x with secondSum := 2100, secondCount := 1 }))
    let t := after .windSecond s
    t.blocks.wind.state = .stowing ∧ (t.blocks.dish 7).reasons.wind = true := by decide +kernel

/-- R163: a badge lock event reply places a BADGE record. -/
theorem test_badge_lock :
    let s := stateOf { answering with pedestal := { answering.pedestal with
      exchange := some ⟨5, .event, false, 20010⟩ } }
    let body : List Byte := [6, 0x82, 0, 1, 1, 0, 9, 0]
    ((after (.panelReply (body ++ [crc8 body]) false) s).blocks.pool[0]).map LockRecord.origin = some .badge := by
  decide +kernel

/-- R105, R168: WATCH to STOWING to STOWED in one second republishes the common page for each of the 13 entries
(11 STOW_BLOCKED, 2 WIND_STATE) and for each of the two changes of the summary. -/
theorem test_summary_publications :
    (after .windSecond (stateOf stillStorm)).xm.editions.common - freshExchange.editions.common = 30 := by
  decide +kernel

/-- R1, R61: a halt cancels the move of its work that is held for a dish in UNPINNING. -/
theorem test_halt_cancels_held_move :
    let mv : Move := ⟨.fp, .formation, (testPlan 30000 45000).az, (testPlan 30000 45000).el, .onStart⟩
    let b := ((admitted.modForm 2 (fun m => { (m.modMember 0 (fun k => { k with stage := .handed 1 })) with
      state := .moving, slot := some 5 })).modDish 0 (fun x => { x with drive := .unpinning, nextAction := .move mv }))
    let t := after (.halt testHead 2) (stateOf b)
    (t.blocks.dish 0).nextAction = .none ∧ t.blocks.fa.grants[(0 : DishId)] = none
      ∧ (t.blocks.form 2).state = .idle := by decide +kernel

/-- R38, R81: an axis that was still in the plan of a formation move is not moved after a stop; the elevation of a
stow is. -/
theorem test_still_axes :
    reanchorAxis .formation 20050 (planAxis false 20000 20000 1000 500 1000)
        = planAxis false 20050 20050 1000 500 1000
      ∧ (reanchorAxis .stow 89990 (planAxis false 90000 90000 1000 500 1000)).target = 90000
      ∧ (reanchorAxis .formation 20050 (planAxis false 20000 30000 1000 500 1000)).target = 30000 := by decide

/-- R117: a reason that comes in UNPINNING begins the stow again, also where PHASE is STOWED. -/
theorem test_reason_overtakes_unpin :
    let b := (stowedDish.modDish 0 (fun x => { x with drive := .unpinning, reasons := ⟨false, false⟩ })).modStow 0
      (fun r => { r with unpinWanted := true })
    let t := after (.stow testHead 1) (stateOf b)
    t.blocks.stow 0 = ⟨.handed, none, false, false, false⟩
      ∧ (t.blocks.dish 0).nextAction.moveOwner = some .ww := by decide +kernel

/-- R26: a servo event republishes the dish page once, and once more where it changes a field of the record; a
start that is awaited is no such field. -/
theorem test_dish_page_editions :
    let served (x : Dish → Dish) := (after (.servoEvent 0 .az) (stateOf (driven .braked x))).xm.editions.dish[0]
    served (fun x => { x with az := { x.az with fresh := true } }) = 2 ∧ served id = 4
      ∧ pageTouched (.dish 0) ⟨resting, freshExchange⟩
        ⟨resting.modDish 0 (fun x => { x with startAwaited := true, startMode := .onStart }), freshExchange⟩ = false := by
  decide +kernel

/-- R82, R110: a stow that waits for the stop of its dish is released; its RESERVED grant goes back at BRAKED. -/
theorem test_released_stow_returns_its_grant :
    let stop (x : Axis) : Axis := { x with profile := some (x.stopProfile 500000), fresh := true }
    let b := (powered ((driven .stopping (fun x => { x with
      az := { stop x.az with profile := none }, el := stop x.el, stopRequesters := OwnerSet.empty.add .ww })).modStow 0
        (fun r => { r with phase := .unstowing }))).modFa
      (fun fa => { fa with grants := fa.grants.set 0 (some ⟨60, .stow, .ww, .reserved, 75, 60⟩) })
    let t := (after (.servoEvent 0 .el) (stateOf b)).blocks
    (t.dish 0).drive = .braked ∧ (t.stow 0).phase = .none ∧ t.fa.grants[(0 : DishId)] = none
      ∧ (t.dish 0).motionGrant = none := by decide +kernel

/-- R118: a dish that left the waiting set BLOCKED and loses its reasons by RELEASE before DONE is listed with
those released. -/
theorem test_blocked_then_released :
    let held (p : StowPhase) (d : DishId) (b : Blocks) : Blocks :=
      (b.modDish d (fun x => { x with reasons := ⟨false, true⟩ })).modStow d (fun r => { r with phase := p })
    let b := (held .blocked 0 (held .claiming 1 resting)).modWind (fun w => { w with standing := [⟨4, 3, 2, 0, 0⟩] })
    (after (.release testHead 1) (stateOf b)).blocks.wind.standing = [⟨4, 3, 2, 1, 0⟩] := by decide +kernel

/-- R189: the completion of a write that ended in TIMEOUT is ignored while a later write is WRITING. -/
theorem test_late_completion :
    let s := stateOf { committing with site := { committing.site with failures := 1 } }
    (after (.nvWriteCompletion ⟨0, testCommit.snapshot⟩) s).blocks.site.commit = some testCommit
      ∧ (after (.nvWriteCompletion ⟨1, testCommit.snapshot⟩) s).blocks.site.commit = none := by decide +kernel

/-- R190: power lost during a write clears READY and ends the write. -/
theorem test_power_loss :
    (after .powerLoss (stateOf committing)).blocks.site.commit = none
      ∧ (after .powerLoss (stateOf committing)).xm.ready = false := by decide +kernel

/-! ### Parts and operands that meet the hypotheses of the statements -/

theorem test_hyps_ALinkResetEmptiesTheSlate_idle :
    restState.part.blocks.Quiet ∧ restState.part.xm.heldList = []
      ∧ (∀ f, restState.part.blocks.form f = unusedFormation)
      ∧ (∀ (k : PoolId) (r : LockRecord), restState.part.blocks.pool[k] = some r → r.slot = none) := by
  decide +kernel

theorem test_hyps_EveryStepKeepsThePartSettled :
    restState.part.Settled ∧ ∃ t, step restState = .next t :=
  ⟨⟨rfl, fun pg => by cases pg <;> simp [restState, stateOf, freshExchange, zeroEditions, Editions.get], rfl⟩,
    _, rfl⟩

/-- Every lock entry published. -/
def shownPart : Part := ((List.finRange 36).map Page.lockEntry).foldl (fun p pg => publish pg p) restState.part

theorem test_hyps_TheLockViewShowsTheLockTable_1 :
    (∀ e : Fin 36, shownPart.xm.mem.readBytes (Page.lockEntry e).base (Page.lockEntry e).size
      = word16 (shownPart.xm.editions.get (.lockEntry e)) ++ pageBytes (.lockEntry e) shownPart.blocks)
    ∧ (Instr.nudgeSweep [.memoryWord 0x10FE 1]).seen.all Outside.inSiteRegion = true := by decide +kernel

/-- A dish page that is up to date and does not show its block: a reading has come since. -/
theorem test_hyps_TheLockViewShowsTheLockTable_2 :
    let p0 := publish (.dish 0) restState.part
    let p := p0.modBlocks (Blocks.modDish 0 (Dish.modAxis .az (fun x => { x with encoder := some 10001 })))
    let page := p.xm.mem.readBytes (Page.dish 0).base (Page.dish 0).size
    let edition := word16 (p.xm.editions.get (.dish 0))
    page = edition ++ pageBytes (.dish 0) p0.blocks
      ∧ pageTouched (.dish 0) { p with blocks := p0.blocks } p = false
      ∧ page ≠ edition ++ pageBytes (.dish 0) p.blocks := by decide +kernel

theorem test_hyps_TheLockViewShowsTheLockTable_3 :
    let c : Instr := .commitSite testHead
    let s : State := { restState with part := { restState.part with
      xm := { freshExchange with heldList := [⟨4, orderWith testHead 0 1 0 .stow, none⟩] } } }
    c.seen.all Outside.inSiteRegion = true ∧ (∀ seen, c ≠ .nudgeSweep seen) ∧ (∀ seen, c ≠ .sweepTimerExpiry seen)
      ∧ c ≠ .registerWriteIgnored .nudge 1
      ∧ (∀ slot o, orderOf c = some (slot, o) → ∀ h ∈ s.part.xm.heldList, h.slot ≠ slot)
      ∧ ∃ t, exec c s = .next t :=
  ⟨rfl, by simp, by simp, by simp, by
    intro slot o h k hk
    simp only [Machine.orderOf, Option.some.injEq, Prod.mk.injEq] at h
    simp only [List.mem_singleton] at hk
    rw [← h.1, hk]
    decide, _, rfl⟩

/-- A line that falls SILENT touches the wind page. -/
theorem test_hyps_TheLockViewShowsTheLockTable_4 :
    let s := stateOf (resting.modLine 1 (fun x => { x with state := .suspect, silenceTimer := some 21000 }))
    pageTouched .wind s.part (after (.silenceTimerExpiry 1) s) = true := by decide +kernel

theorem test_hyps_ThePartLeavesTheSiteAreaAlone_1 :
    inSiteArea 0x7FFF = true ∧ (∀ levels rest, ([] : List Instr) ≠ .powerOn levels :: rest)
      ∧ ∃ t, step restState = .next t :=
  ⟨by decide, by simp, _, rfl⟩

/-- The same with a command in front that carries a write of the staging page. -/
theorem test_hyps_ThePartLeavesTheSiteAreaAlone_2 :
    let s : State := { restState with pending := [.nudgeSweep [.memoryWord 0x7FFE 0x1234], .powerOn testLevels] }
    (∀ levels rest, s.pending ≠ .powerOn levels :: rest)
      ∧ (match step s with
        | .next t => decide (t.part.xm.mem.read 0x7FFF = 0x12 ∧ t.pending = [.powerOn testLevels])
        | _ => false) = true :=
  ⟨by simp, by decide +kernel⟩

theorem test_hyps_ACauseStaysSetUntilItIsCleared :
    (∃ t, exec .nudgeLinkReset { restState with part := { restState.part with
        xm := { freshExchange with ready := false } } } = .next t)
      ∧ (∃ t, exec (.causeClear 0) restState = .next t) ∧ ∃ t, exec (.maskWrite 1) restState = .next t :=
  ⟨⟨_, rfl⟩, ⟨_, rfl⟩, _, rfl⟩

theorem test_hyps_ATakenOrderStandsOrIsAnswered :
    (orderOf (.commitSite testHead)).map Prod.fst = some 3 ∧ restState.part.xm.ready = true := by decide +kernel

theorem test_hyps_TheOrderCopiedIsTheOrderPlaced :
    OrderBody.wellFormed (.unknown 19) = true ∧ OrderBody.wellFormed (.trackLoad 6 testPoints) = true := by
  decide

/-- The trail with 127 entries unread, with 128, and with none lost. -/
theorem test_hyps_TheTrailKeepsItsUnreadEntries :
    let unreadBy (n : Nat) : Exchange := { freshExchange with
      writeSequence := 1000, mem := Memory.writeWord 0x000C (BitVec.ofNat 16 (1000 - n)) [] }
    126 < unread (unreadBy 127) ∧ unread (unreadBy 128) = 128 ∧ unread (unreadBy 127) < 128
      ∧ (unreadBy 127).dropped = 0 := by decide +kernel

theorem test_hyps_ThePlannerKeepsItsBounds :
    let m := planAxis false 20000 51920 1000 500 1000
    m.duration ≤ 33920 ∧ m.v = m.vDer := by decide +kernel

theorem test_hyps_TheScoreAndDerateFunctionsAreBounded_1 :
    factoryDefaults.soft < factoryDefaults.hard ∧ 3000 ≤ 7999 ∧ settingFault factoryDefaults = none := by
  decide +kernel

theorem test_hyps_TheScoreAndDerateFunctionsAreBounded_2 :
    ∃ t, exec (.powerOn testLevels) restState = .next t := ⟨_, rfl⟩

theorem test_hyps_EveryCommandAnswersANextState_1 :
  let c : Instr := .nudgeSweep [.memoryWord 0x7FFE 1]
  c.seen.all Outside.wellFormed = true := by decide +kernel

theorem test_hyps_EveryCommandAnswersANextState_2 :
  let c : Instr := .nudgeSweep [.memoryWord 0x8000 1]
  c.seen.all Outside.wellFormed = false := by decide +kernel

theorem test_hyps_ARegisterWriteChangesItsRegisterAlone_1 :
  let v : Word := 3
  let s : State := restState
  (s.part.xm.ready = false ∨ (v ≠ 1 ∧ v ≠ 2)) := by decide +kernel

theorem test_hyps_ARegisterWriteChangesItsRegisterAlone_2 :
  let s : State := (⟨⟨resting, { freshExchange with ready := false }⟩, []⟩)
  s.part.xm.ready = false := by decide +kernel

theorem test_hyps_ASweepServesTheSlots_1 :
  let s : State := sweepPart 3 .stow 2 resting
  let p : Part := (see [.memoryWord 0x4000 5] s.part).getD s.part
  let passed (k : SlotId) : Prop := slotState k p.xm.mem ≠ some .placed
    ∧ (slotState k p.xm.mem = some .cutAsked → p.xm.answerMarks.getLsbD k.val = true)
  see [.memoryWord 0x4000 5] s.part = some p ∧ p.xm.ready = true
    ∧ (∀ k : SlotId, (0 : BitVec 32).getLsbD k.val
      = (p.xm.answerMarks.getLsbD k.val && slotState k p.xm.mem != some .empty))
    ∧ (∀ h ∈ p.xm.heldList, slotState h.slot p.xm.mem = some .taken) ∧ ∀ k, passed k := by decide +kernel

theorem test_hyps_ASweepServesTheSlots_2 :
  let o := orderWith testHead 0 1 0 .stow
  let s : State := ⟨⟨resting, { freshExchange with mem := placeOrder 3 o [], answerMarks := 9 }⟩, []⟩
  let p : Part := (see [.memoryWord 0x4000 5] s.part).getD s.part
  let passed (k : SlotId) : Prop := slotState k p.xm.mem ≠ some .placed
    ∧ (slotState k p.xm.mem = some .cutAsked → p.xm.answerMarks.getLsbD k.val = true)
  see [.memoryWord 0x4000 5] s.part = some p ∧ p.xm.ready = true
    ∧ (∀ k : SlotId, (8 : BitVec 32).getLsbD k.val
      = (p.xm.answerMarks.getLsbD k.val && slotState k p.xm.mem != some .empty))
    ∧ p.xm.heldList = [] ∧ (∀ k, k ≠ 3 → passed k) ∧ slotState 3 p.xm.mem = some .placed
    ∧ Machine.orderOf (.stow testHead 1) = some (3, o)
    ∧ p.xm.mem = placeOrder 3 o (Memory.writeWord 0x4000 5 []) := by decide +kernel

theorem test_hyps_ASweepServesTheSlots_3 :
  let s : State := ⟨⟨resting, { freshExchange with mem := Memory.writeWord (slotBase 3) 4 [], answerMarks := 1 }⟩, []⟩
  let p : Part := (see [.memoryWord 0x4000 5] s.part).getD s.part
  let passed (k : SlotId) : Prop := slotState k p.xm.mem ≠ some .placed
    ∧ (slotState k p.xm.mem = some .cutAsked → p.xm.answerMarks.getLsbD k.val = true)
  see [.memoryWord 0x4000 5] s.part = some p ∧ p.xm.ready = true
    ∧ (∀ k : SlotId, (0 : BitVec 32).getLsbD k.val
      = (p.xm.answerMarks.getLsbD k.val && slotState k p.xm.mem != some .empty))
    ∧ p.xm.heldList = [] ∧ (∀ k, k ≠ 3 → passed k) ∧ slotState 3 p.xm.mem = some .cutAsked
    ∧ p.xm.answerMarks.getLsbD 3 = false ∧ p.blocks.Quiet := by decide +kernel

/-- The STATE words of the clauses for a held order. -/
def heldWords : List (Word × Option SlotState) :=
  [(4, some .cutAsked), (0, some .empty), (3, some .answered), (9, none), (1, some .placed)]

theorem test_hyps_ASweepServesTheSlots_4 : ∀ w ∈ heldWords,
  let s : State := sweepPart 3 (.stow) w.1 standingStow
  let p : Part := (see [.memoryWord 0x4000 5] s.part).getD s.part
  let passed (k : SlotId) : Prop := slotState k p.xm.mem ≠ some .placed
    ∧ (slotState k p.xm.mem = some .cutAsked → p.xm.answerMarks.getLsbD k.val = true)
  let b := p.blocks
  see [.memoryWord 0x4000 5] s.part = some p ∧ p.xm.ready = true
    ∧ (∀ k : SlotId, (0 : BitVec 32).getLsbD k.val
      = (p.xm.answerMarks.getLsbD k.val && slotState k p.xm.mem != some .empty))
    ∧ p.xm.heldList = [⟨3, ⟨7, 2, 0, 0, 0, .stow⟩, none⟩] ∧ (∀ k, k ≠ 3 → passed k)
    ∧ slotState 3 p.xm.mem = w.2 ∧ b.wind.standing = [⟨3, 1, 1, 0, 0⟩]
    ∧ (b.modWind (fun w => { w with standing := [] })).Quiet := by decide +kernel

theorem test_hyps_ASweepServesTheSlots_5 : ∀ w ∈ heldWords,
  let s : State := sweepPart 3 (.slew 1 2 0 0) w.1 cuttable
  let p : Part := (see [.memoryWord 0x4000 5] s.part).getD s.part
  let passed (k : SlotId) : Prop := slotState k p.xm.mem ≠ some .placed
    ∧ (slotState k p.xm.mem = some .cutAsked → p.xm.answerMarks.getLsbD k.val = true)
  let b := p.blocks
  see [.memoryWord 0x4000 5] s.part = some p ∧ p.xm.ready = true
    ∧ (∀ k : SlotId, (0 : BitVec 32).getLsbD k.val
      = (p.xm.answerMarks.getLsbD k.val && slotState k p.xm.mem != some .empty))
    ∧ p.xm.heldList = [⟨3, ⟨7, 2, 0, 0, 0, .slew 1 2 0 0⟩, none⟩] ∧ (∀ k, k ≠ 3 → passed k)
    ∧ slotState 3 p.xm.mem = w.2 ∧ b.Quiet ∧ (b.form 2).state.working = true
    ∧ (b.form 2).slot = some 3 ∧ (b.form 2).stopping = 0 ∧ (∀ k, k ≠ 2 → (b.form k).slot ≠ some 3)
    ∧ (∀ k, (b.form k).pendingWork = none) ∧ (b.form 2).disbandPending = false
    ∧ (∀ d, (b.dish d).worksForFp = false) ∧ b.fa.queue = [] ∧ (∀ d : DishId, b.fa.grants[d] = none) := by decide +kernel

theorem test_hyps_ASweepServesTheSlots_6 : ∀ w ∈ heldWords,
  let s : State := sweepPart 3 (.commitSite) w.1 committing
  let p : Part := (see [.memoryWord 0x4000 5] s.part).getD s.part
  let passed (k : SlotId) : Prop := slotState k p.xm.mem ≠ some .placed
    ∧ (slotState k p.xm.mem = some .cutAsked → p.xm.answerMarks.getLsbD k.val = true)
  let b := p.blocks
  see [.memoryWord 0x4000 5] s.part = some p ∧ p.xm.ready = true
    ∧ (∀ k : SlotId, (0 : BitVec 32).getLsbD k.val
      = (p.xm.answerMarks.getLsbD k.val && slotState k p.xm.mem != some .empty))
    ∧ p.xm.heldList = [⟨3, ⟨7, 2, 0, 0, 0, .commitSite⟩, none⟩] ∧ (∀ k, k ≠ 3 → passed k)
    ∧ slotState 3 p.xm.mem = w.2 ∧ b.Quiet ∧ b.site.commit = some testCommit ∧ testCommit.slot = some 3 := by decide +kernel

theorem test_hyps_ASweepServesTheSlots_7 : ∀ w ∈ heldWords,
  let s : State := sweepPart 3 (.lock 3 0 17) w.1 lockPending
  let p : Part := (see [.memoryWord 0x4000 5] s.part).getD s.part
  let passed (k : SlotId) : Prop := slotState k p.xm.mem ≠ some .placed
    ∧ (slotState k p.xm.mem = some .cutAsked → p.xm.answerMarks.getLsbD k.val = true)
  let b := p.blocks
  see [.memoryWord 0x4000 5] s.part = some p ∧ p.xm.ready = true
    ∧ (∀ k : SlotId, (0 : BitVec 32).getLsbD k.val
      = (p.xm.answerMarks.getLsbD k.val && slotState k p.xm.mem != some .empty))
    ∧ p.xm.heldList = [⟨3, ⟨7, 2, 0, 0, 0, .lock 3 0 17⟩, none⟩] ∧ (∀ k, k ≠ 3 → passed k)
    ∧ slotState 3 p.xm.mem = w.2 ∧ b.Quiet
    ∧ b.pool[(0 : PoolId)] = some { testRecord with state := .waiting, slot := some 3 }
    ∧ (∀ q : PoolId, q ≠ 0 → b.pool[q] = none) ∧ b.keySlots[(3 : DishId)] = none
    ∧ (b.dish 3).drive = .stopping ∧ (b.dish 3).task = .lockStop
    ∧ (b.dish 3).lock = ⟨false, false, true, false⟩ ∧ (b.stow 3).phase = .none
    ∧ (b.stow 3).unpinWanted = false ∧ b.fa.queue = [] ∧ (∀ d : DishId, b.fa.grants[d] = none) := by decide +kernel

theorem test_hyps_ALinkResetEmptiesTheSlate :
  let s : State := (⟨⟨resting, { freshExchange with
        mem := setSlotState 2 .answered []
        answerMarks := 5 }⟩, []⟩)
  s.part.xm.ready = true := by decide +kernel

theorem test_hyps_ThePulseAndTheLingerWatchTheReadMark_1 :
  let seen : List Outside := [.memoryWord 0x0004 5]
  let s : State := restState
  let p : Part := (see seen s.part).getD s.part
  see seen s.part = some p
    ∧ p.xm.ready = true
    ∧ p.blocks.Quiet := by decide +kernel

theorem test_hyps_ThePulseAndTheLingerWatchTheReadMark_2 :
  let seen : List Outside := []
  let s : State := (⟨⟨resting, { freshExchange with linger := some 20100, writeSequence := 3 }⟩, []⟩)
  let p : Part := s.part
  let n : Nat := 20100
  see seen s.part = some p
    ∧ p.xm.linger = some n := by decide +kernel

theorem test_hyps_ThePresenceCheckWatchesTheWord :
  let seen : List Outside := [.memoryWord 0x0004 5]
  let s : State := restState
  let p : Part := (see seen s.part).getD s.part
  see seen s.part = some p
    ∧ p.xm.ready = true
    ∧ p.blocks.Quiet := by decide +kernel

theorem test_hyps_FormTakesItsDishes :
  let h : OrderHead := testHead
  let formation : Byte := 2
  let f : FormationId := 2
  let dishes : Word := 0x803
  let s : State := restState
  let b := s.part.blocks
  let o := orderWith h formation dishes 0 .form
  formationNumber formation = some f
    ∧ Takeable s h.slot o
    ∧ b.Quiet
    ∧ (((b.form f).state = .unused ∨ (b.form f).state = .idle))
    ∧ badDishSet dishes = false
    ∧ ((∀ d, (dishBits dishes).has d = true →
      ((b.dish d).formation = none ∨ (b.dish d).formation =
            some f) ∧ (b.dish d).task ≠ .shed)) := by decide +kernel

theorem test_hyps_DisbandAndHaltOfAnIdleFormation_1 :
  let h : OrderHead := testHead
  let formation : Byte := 2
  let f : FormationId := 2
  let s : State := stateOf (grouped 0x803 resting)
  let b := s.part.blocks
  formationNumber formation = some f
    ∧ b.Quiet
    ∧ (b.form f).state = .idle
    ∧ Takeable s h.slot (orderWith h formation 0 0 .disband) := by decide +kernel

theorem test_hyps_DisbandAndHaltOfAnIdleFormation_2 :
  let h : OrderHead := testHead
  let formation : Byte := 2
  let f : FormationId := 2
  let s : State := stateOf loaded
  let b := s.part.blocks
  formationNumber formation = some f
    ∧ b.Quiet
    ∧ (b.form f).state = .idle
    ∧ Takeable s h.slot (orderWith h formation 0 0 .halt) := by decide +kernel

theorem test_hyps_ASlewOrRasterIsTakenInHand_1 :
  let h : OrderHead := testHead
  let formation : Byte := 2
  let f : FormationId := 2
  let d : DishId := 0
  let az : Word32 := 359999
  let el : Word32 := 45000
  let wrap : Word := 0
  let pref : WrapPreference := .nearest
  let p : PlanResult := testPlan 359999 45000
  let s : State := stateOf alone
  let b := s.part.blocks
  let mode : Word := 0
  let m : ArrivalMode := .joint
  let wo : WorkOrder := ⟨.slew, az.toNat, el.toInt, pref, m, none⟩
  let o := orderWith h formation 0 0 (.slew az el wrap mode)
  formationNumber formation = some f
    ∧ b.Quiet
    ∧ b.HeatQuiet
    ∧ az.toNat ≤ 359999
    ∧ readWrap wrap = some pref
    ∧ readMode mode = some m
    ∧ CanAdmitOne b f d wo p
    ∧ Takeable s h.slot o := by decide +kernel

theorem test_hyps_ASlewOrRasterIsTakenInHand_2 :
  let h : OrderHead := testHead
  let formation : Byte := 2
  let f : FormationId := 2
  let d : DishId := 0
  let az : Word32 := 30000
  let el : Word32 := 45000
  let wrap : Word := 0
  let pref : WrapPreference := .nearest
  let p : PlanResult := testPlan 30000 45000
  let s : State := stateOf alone
  let b := s.part.blocks
  let stepAz : Word32 := 1000
  let stepEl : Word32 := 0
  let dwell : Word32 := 600000
  let count : Word := 64
  let r : Raster := ⟨az.toNat, el.toInt, stepAz.toInt, stepEl.toInt, count.toNat, 0, dwell.toNat⟩
  let wo : WorkOrder := ⟨.raster, az.toNat, el.toInt, pref, .joint, some r⟩
  let o := orderWith h formation 0 0 (.raster az el stepAz stepEl count dwell wrap)
  formationNumber formation = some f
    ∧ b.Quiet
    ∧ b.HeatQuiet
    ∧ az.toNat ≤ 359999
    ∧ readWrap wrap = some pref
    ∧ stepAz.toInt.natAbs ≤ 540000
    ∧ stepEl.toInt.natAbs ≤ 90000
    ∧ 1 ≤ count.toNat
    ∧ count.toNat ≤ 64
    ∧ dwell.toNat ≤ 600000
    ∧ rasterFault b.settings r [(d, p)] = none
    ∧ CanAdmitOne b f d wo p
    ∧ Takeable s h.slot o := by decide +kernel

theorem test_hyps_ATrackIsTakenInHand_1 :
  let h : OrderHead := testHead
  let formation : Byte := 2
  let f : FormationId := 2
  let d : DishId := 0
  let wrap : Word := 0
  let pref : WrapPreference := .nearest
  let p : PlanResult := testPlan 30000 30000
  let w : Waypoint := testPoint 450000 30000
  let ws : List Waypoint := [testPoint 600000 40000]
  let s : State := stateOf trackable
  let b := s.part.blocks
  let wo : WorkOrder := ⟨.track, w.skyAz, w.el, pref, .joint, none⟩
  let o := orderWith h formation 0 0 (.track wrap)
  formationNumber formation = some f
    ∧ b.Quiet
    ∧ b.HeatQuiet
    ∧ readWrap wrap = some pref
    ∧ pruneQueue b.clock.time.toNat (b.form f).queue = w :: ws
    ∧ b.clock.valid = true
    ∧ ((∃ x ∈ (b.form f).queue, b.clock.time.toNat < x.time.toNat))
    ∧ CanAdmitOne b f d wo p
    ∧ Takeable s h.slot o := by decide +kernel

theorem test_hyps_ATrackIsTakenInHand_2 :
  let h : OrderHead := testHead
  let formation : Byte := 2
  let f : FormationId := 2
  let d : DishId := 0
  let wrap : Word := 0
  let pref : WrapPreference := .nearest
  let p : PlanResult := testPlan 30000 30000
  let w : Waypoint := testPoint 450000 30000
  let ws : List Waypoint := [testPoint 600000 40000]
  let s : State := stateOf trackable
  let b := s.part.blocks
  let wo : WorkOrder := ⟨.track, w.skyAz, w.el, pref, .joint, none⟩
  let o := orderWith h formation 0 0 (.track wrap)
  formationNumber formation = some f
    ∧ b.Quiet
    ∧ b.HeatQuiet
    ∧ readWrap wrap = some pref
    ∧ pruneQueue b.clock.time.toNat (b.form f).queue = w :: ws
    ∧ b.clock.valid = true
    ∧ ((∃ x ∈ (b.form f).queue, b.clock.time.toNat < x.time.toNat))
    ∧ CanAdmitOne b f d wo p
    ∧ Takeable s h.slot o := by decide +kernel

theorem test_hyps_ATrackLoadExtendsTheQueue :
  let h : OrderHead := testHead
  let formation : Byte := 2
  let f : FormationId := 2
  let count : Word := 6
  let points : Vector RawWaypoint 6 := testPoints
  let s : State := stateOf loaded
  let b := s.part.blocks
  let o := orderWith h formation 0 0 (.trackLoad count points)
  let ps := points.toList.take count.toNat
  formationNumber formation = some f
    ∧ Takeable s h.slot o
    ∧ b.Quiet
    ∧ (b.form f).state ≠ .unused
    ∧ (b.form f).state ≠ .starved
    ∧ (b.form f).work ≠ some .track
    ∧ 1 ≤ count.toNat
    ∧ count.toNat ≤ 6
    ∧ ((∀ q ∈ ps, q.skyAz.toNat ≤ 359999))
    ∧ b.clock.valid = true

          ∧ (((b.form f).queue.map (fun w => w.time.toNat)).getLast?.toList ++ ps.map (fun q => q.time.toNat)).Pairwise (· < ·)
    ∧ ((∃ q ∈ ps, b.clock.time.toNat < q.time.toNat))
    ∧ (b.form f).queue.length + count.toNat ≤ 32 := by decide +kernel

theorem test_hyps_AStowOfAFreeDishClaims :
  let h : OrderHead := testHead
  let dishes : Word := 1
  let d : DishId := 0
  let p : PlanResult := stowPlan
  let s : State := stateOf tight
  let b := s.part.blocks
  let o := orderWith h 0 dishes 0 .stow
  badDishSet dishes = false
    ∧ dishBits dishes = DishSet.single d
    ∧ Takeable s h.slot o
    ∧ b.Quiet
    ∧ b.HeatQuiet
    ∧ ((∀ f, excusable (b.form f) d = false ∧ ((b.form f).mem d).kept = none))
    ∧ (b.shed d).phase = .none
    ∧ blockedBy (b.dish d) = none
    ∧ (b.stow d).phase = .none
    ∧ (b.dish d).drive ≠ .pinned
    ∧ (b.dish d).drive ≠ .pinning
    ∧ plan b.settings (b.dish d) .stay 90000 none = .ok p
    ∧ p.el.moves = true
    ∧ b.fa.queue = []
    ∧ b.fa.grants[d] = none
    ∧ remainder b.fa = 0
    ∧ 0 < b.settings.elPeak := by decide +kernel

theorem test_hyps_AReleaseUnpinsAStowedDish :
  let h : OrderHead := testHead
  let dishes : Word := 1
  let d : DishId := 0
  let s : State := stateOf stowedDish
  let b := s.part.blocks
  let o := orderWith h 0 dishes 0 .release
  badDishSet dishes = false
    ∧ dishBits dishes = DishSet.single d
    ∧ Takeable s h.slot o
    ∧ b.Quiet
    ∧ (b.dish d).drive = .pinned
    ∧ (b.dish d).reasons = ⟨false, true⟩
    ∧ (b.stow d).phase = .stowed
    ∧ (b.dish d).lock.motionLocked = false
    ∧ (b.dish d).lock.stopPending = false := by decide +kernel

theorem test_hyps_MeltModeOffTakesTheDemand :
  let h : OrderHead := testHead
  let dishes : Word := 0x801
  let classes : Word := 5
  let forced : Word := 0
  let s : State := restState
  let b := s.part.blocks
  let o := orderWith h 0 dishes classes (.meltMode 0 forced)
  dishes ≠ 0
    ∧ dishes.toNat < 4096
    ∧ (classBits classes).isEmpty = false
    ∧ Takeable s h.slot o
    ∧ b.Quiet
    ∧ ((∀ z ∈ namedZones dishes classes, (b.zone z).state = .off ∧ (b.zone z).request = 0))
    ∧ (∀ z ∈ namedZones dishes classes, 0 < (b.meltReading z).startValue) := by decide +kernel

theorem test_hyps_ALockOfABrakedDishIsEffective :
  let h : OrderHead := testHead
  let d : DishId := 3
  let tag : Word := 17
  let k : PoolId := 0
  let s : State := restState
  let b := s.part.blocks
  let o := orderWith h 0 0 0 (.lock (BitVec.ofNat 16 d.val) 0 tag)
  tag ≠ 0
    ∧ Takeable s h.slot o
    ∧ b.Quiet
    ∧ ((∀ q : PoolId, q < k → b.pool[q].isSome = true))
    ∧ b.pool[k] = none
    ∧ b.keySlots[d] = none
    ∧ ((∀ (q : PoolId) (x : LockRecord), b.pool[q] = some x → x.dish ≠ d))
    ∧ (b.dish d).drive = .braked
    ∧ (b.dish d).task = .none
    ∧ (b.dish d).formation = none
    ∧ (b.dish d).reasons = ⟨false, false⟩
    ∧ (b.dish d).lock = ⟨false, false, false, false⟩
    ∧ (b.stow d).phase = .none
    ∧ (b.stow d).unpinWanted = false
    ∧ b.fa.queue = []
    ∧ ((∀ e : DishId, b.fa.grants[e] = none)) := by decide +kernel

theorem test_hyps_AnUnlockFreesItsRecord :
  let h : OrderHead := testHead
  let d : DishId := 3
  let tag : Word := 17
  let k : PoolId := 0
  let r : LockRecord := testRecord
  let s : State := stateOf lockedDish
  let b := s.part.blocks
  let o := orderWith h 0 0 0 (.unlock (BitVec.ofNat 16 d.val) tag)
  tag ≠ 0
    ∧ Takeable s h.slot o
    ∧ b.Quiet
    ∧ b.pool[k] = some r
    ∧ r.dish = d
    ∧ r.origin = .order
    ∧ r.cls = .motion
    ∧ r.tag = tag.toNat
    ∧ r.state = .effective
    ∧ r.slot = none
    ∧ b.keySlots[d] = none
    ∧ ((∀ (q : PoolId) (x : LockRecord), b.pool[q] = some x → q ≠ k → x.dish ≠ d))
    ∧ (b.dish d).drive = .braked
    ∧ (b.dish d).task = .none
    ∧ (b.dish d).lock = ⟨true, false, false, false⟩
    ∧ (b.stow d).phase = .none
    ∧ (b.stow d).unpinWanted = false
    ∧ b.fa.queue = []
    ∧ ((∀ e : DishId, b.fa.grants[e] = none)) := by decide +kernel

theorem test_hyps_TheBudgetFollowsItsOrderAndInput_1 :
  let s : State := restState
  let b := s.part.blocks
  let h : OrderHead := testHead
  let value : Word := 1801
  let o := orderWith h 0 0 0 (.setBudget value)
  b.Quiet
    ∧ b.HeatQuiet
    ∧ b.fa.queue = []
    ∧ ((∀ e : DishId, b.fa.grants[e] = none))
    ∧ Takeable s h.slot o := by decide +kernel

theorem test_hyps_TheBudgetFollowsItsOrderAndInput_2 :
  let s : State := restState
  let b := s.part.blocks
  let level : Bool := true
  b.Quiet
    ∧ b.HeatQuiet
    ∧ b.fa.queue = []
    ∧ ((∀ e : DishId, b.fa.grants[e] = none))
    ∧ level ≠ b.fa.derate := by decide +kernel

theorem test_hyps_ClearFaultClearsAFaultedDish :
  let h : OrderHead := testHead
  let dishes : Word := 1
  let d : DishId := 0
  let k : FaultKind := .limit
  let s : State := stateOf faultedDish
  let b := s.part.blocks
  let o := orderWith h 0 dishes 0 .clearFault
  dishBits dishes = DishSet.single d
    ∧ Takeable s h.slot o
    ∧ b.Quiet
    ∧ (b.dish d).drive = .faulted
    ∧ (b.dish d).faultKind = some k
    ∧ (((b.dish d).kindsSeen.encoder = true → (b.dish d).az.missed = false ∧ (b.dish d).el.missed = false))
    ∧ (((b.dish d).kindsSeen.limit = true →
      ((b.dish d).az.limitLow && (b.dish d).az.limitHigh) = false
      ∧ ((b.dish d).el.limitLow && (b.dish d).el.limitHigh) = false))
    ∧ (((b.dish d).kindsSeen.amplifier = true → (b.dish d).az.ampReady = true ∧ (b.dish d).el.ampReady =
          true))
    ∧ (((b.dish d).kindsSeen.pin = true → (b.dish d).pinIn ≠ (b.dish d).pinOut))
    ∧ (b.stow d).phase ≠ .blocked
    ∧ (b.stow d).unpinWanted = false := by decide +kernel

theorem test_hyps_AChangeOfTimeMovesWhatIsUnderWay_1 :
  let h : OrderHead := testHead
  let s : State := stateOf slewing
  let b := s.part.blocks
  let new : ArrayTime := 0
  let o := orderWith h 0 0 0 (.setTime new)
  b.Quiet
    ∧ Takeable s h.slot o
    ∧ ((∀ f, (b.form f).state ≠ .tracking ∧ (b.form f).state ≠ .starved)) := by decide +kernel

theorem test_hyps_AChangeOfTimeMovesWhatIsUnderWay_2 :
  let h : OrderHead := testHead
  let s : State := stateOf slewing
  let b := s.part.blocks
  let offset : Word32 := 1000
  let o := orderWith h 0 0 0 (.adjustTime offset)
  b.Quiet
    ∧ Takeable s h.slot o
    ∧ offset.toInt.natAbs ≤ 1000
    ∧ b.clock.valid = true := by decide +kernel

theorem test_hyps_AdoptSitePutsTheStagingPageInForce_1 :
  let h : OrderHead := testHead
  let s : State := stateOf committing
  let b := s.part.blocks
  let o := orderWith h 0 0 0 .adoptSite
  Takeable s h.slot o
    ∧ b.Quiet
    ∧ b.site.commit.isSome = true := by decide +kernel

theorem test_hyps_AdoptSitePutsTheStagingPageInForce_2 :
  let h : OrderHead := testHead
  let s : State := withFeeder 499 500 resting
  let b := s.part.blocks
  let o := orderWith h 0 0 0 .adoptSite
  let bytes := s.part.xm.mem.readBytes 0x4000 1024
  let st := recordSettings bytes
  Takeable s h.slot o
    ∧ b.Quiet
    ∧ b.site.commit = none
    ∧ stagingFault bytes = none
    ∧ st.feederMax < st.reserve + motionSum b.fa := by decide +kernel

/-- At the boundary, FEEDER MAX and RESERVE 500 each. -/
theorem test_hyps_AdoptSitePutsTheStagingPageInForce_3 :
  let h : OrderHead := testHead
  let s : State := withFeeder 500 500 resting
  let b := s.part.blocks
  let o := orderWith h 0 0 0 .adoptSite
  let bytes := s.part.xm.mem.readBytes 0x4000 1024
  let st := recordSettings bytes
  Takeable s h.slot o
    ∧ b.Quiet
    ∧ b.HeatQuiet
    ∧ b.fa.queue = []
    ∧ ((∀ e : DishId, b.fa.grants[e] = none))
    ∧ b.site.commit = none
    ∧ stagingFault bytes = none
    ∧ st.reserve = st.feederMax
    ∧ st.reserve ≤ st.feederMax := by decide +kernel

theorem test_hyps_ACommitBeginsAWriteThatEndsByReadBackOrTimer_1 :
  let h : OrderHead := testHead
  let s : State := restState
  let b := s.part.blocks
  let o := orderWith h 0 0 0 .commitSite
  Takeable s h.slot o
    ∧ b.Quiet
    ∧ b.site.commit = none := by decide +kernel

theorem test_hyps_ACommitBeginsAWriteThatEndsByReadBackOrTimer_2 :
  let s : State := stateOf committing
  let c : Commit := testCommit
  let b := s.part.blocks
  b.Quiet
    ∧ b.site.commit = some c := by decide +kernel

theorem test_hyps_ACommitBeginsAWriteThatEndsByReadBackOrTimer_3 :
  let s : State := stateOf committing
  let c : Commit := testCommit
  let b := s.part.blocks
  let readBack := [1, 2]
  b.Quiet
    ∧ b.site.commit = some c
    ∧ readBack ≠ c.snapshot := by decide +kernel

theorem test_hyps_ACommitBeginsAWriteThatEndsByReadBackOrTimer_4 :
  let s : State := stateOf committing
  let c : Commit := testCommit
  let b := s.part.blocks
  let write := b.site.failures + 1
  b.Quiet
    ∧ b.site.commit = some c
    ∧ write ≠ b.site.failures := by decide +kernel

theorem test_hyps_ACommitBeginsAWriteThatEndsByReadBackOrTimer_5 :
  let s : State := stateOf committing
  let c : Commit := testCommit
  let b := s.part.blocks
  b.Quiet
    ∧ b.site.commit = some c := by decide +kernel

theorem test_hyps_TheServoFollowsASlewProfile :
  let d : DishId := 0
  let a : AxisId := .az
  let p : Profile := testProfile
  let enc : Int := 10000
  let s : State := stateOf slewing
  let b := s.part.blocks.runTo ((s.part.blocks.dish d).axis a).servoDue
  let x := (s.part.blocks.dish d).axis a
  let e := (b.clock.time - p.startInstant).toNat
  let rate := min p.v (min (p.a * e / 1000) (p.a * (p.duration - e) / 1000))
  let travelled := p.travelled + rate
  let position := p.start + p.dir * min ((p.target - p.start).natAbs : Int) (travelled / 100)
  s.part.blocks.Quiet
    ∧ (b.dish d).drive = .moving
    ∧ x.profile = some p
    ∧ p.kind = .slew
    ∧ p.ended = false
    ∧ x.encoder = some enc
    ∧ x.fresh = true
    ∧ e < p.duration
    ∧ (position - enc).natAbs ≤ b.settings.followLimit := by decide +kernel

theorem test_hyps_LevelsAndReadingsAreTaken_1 :
  let s : State := restState
  let b := s.part.blocks
  b.Quiet := by decide +kernel

theorem test_hyps_LevelsAndReadingsAreTaken_2 :
  let s : State := restState
  let b := s.part.blocks
  b.Quiet := by decide +kernel

theorem test_hyps_LevelsAndReadingsAreTaken_3 :
  let s : State := restState
  let b := s.part.blocks
  b.Quiet := by decide +kernel

theorem test_hyps_LevelsAndReadingsAreTaken_4 :
  let s : State := restState
  let b := s.part.blocks
  b.Quiet := by decide +kernel

theorem test_hyps_AFaultPutsADishInFaulted_1 :
  let d : DishId := 0
  let s : State := stateOf (driven .braked (fun x => { x with az := { x.az with encoder := none } }))
  let b := s.part.blocks
  let a := .az
  b.QuietBut (some d)
    ∧ Unclaimed b d
    ∧ (b.dish d).drive = .braked
    ∧ ((b.dish d).axis a).encoder = none := by decide +kernel

theorem test_hyps_AFaultPutsADishInFaulted_2 :
  let d : DishId := 0
  let s : State := stateOf (driven .settling (fun x => { x with settleLimit := some 20100 }))
  let b := s.part.blocks
  let n := 20100
  b.QuietBut (some d)
    ∧ Unclaimed b d
    ∧ (b.dish d).drive = .settling
    ∧ (b.dish d).settleLimit = some n := by decide +kernel

theorem test_hyps_AFaultPutsADishInFaulted_3 :
  let d : DishId := 0
  let s : State := stateOf (driven .pinning (fun x => { x with pinTimer := some 20100 }))
  let b := s.part.blocks
  let n := 20100
  b.QuietBut (some d)
    ∧ Unclaimed b d
    ∧ (b.dish d).drive = .pinning
    ∧ (b.dish d).pinTimer = some n := by decide +kernel

theorem test_hyps_AFaultPutsADishInFaulted_4 :
  let d : DishId := 0
  let s : State := restState
  let b := s.part.blocks
  let a := .el
  let side := .high
  b.QuietBut (some d)
    ∧ Unclaimed b d
    ∧ (b.dish d).drive = .braked
    ∧ ((b.dish d).axis a).limit side = false := by decide +kernel

theorem test_hyps_AFaultPutsADishInFaulted_5 :
  let d : DishId := 0
  let s : State := stateOf (driven .moving id)
  let b := s.part.blocks
  let a := .el
  b.QuietBut (some d)
    ∧ Unclaimed b d
    ∧ (b.dish d).drive = .moving
    ∧ ((b.dish d).axis a).ampReady = true := by decide +kernel

theorem test_hyps_AFaultPutsADishInFaulted_6 :
  let d : DishId := 0
  let s : State := stateOf (driven .pinned (fun x => { x with pinIn := true }))
  let b := s.part.blocks
  b.QuietBut (some d)
    ∧ Unclaimed b d
    ∧ (b.dish d).drive = .pinned
    ∧ (b.dish d).pinIn = true := by decide +kernel

theorem test_hyps_AFaultPutsADishInFaulted_7 :
  let d : DishId := 0
  let b := watched .braked (fun x => { x with az := { x.az with encoder := none } })
  b.QuietBut (some d)
    ∧ StowedByWatch b d
    ∧ b.fa.grants[d].isSome = true
    ∧ (b.dish d).drive = .braked
    ∧ ((b.dish d).axis .az).encoder = none := by decide +kernel

theorem test_hyps_AFaultPutsADishInFaulted_8 :
  let d : DishId := 0
  let b := watched .settling (fun x => { x with settleLimit := some 20100 })
  b.QuietBut (some d)
    ∧ StowedByWatch b d
    ∧ b.fa.grants[d].isSome = true
    ∧ (b.dish d).drive = .settling
    ∧ (b.dish d).settleLimit = some 20100 := by decide +kernel

theorem test_hyps_AFaultPutsADishInFaulted_9 :
  let d : DishId := 0
  let b := watched .pinning (fun x => { x with pinTimer := some 20100 })
  b.QuietBut (some d)
    ∧ StowedByWatch b d
    ∧ b.fa.grants[d].isSome = true
    ∧ (b.dish d).drive = .pinning
    ∧ (b.dish d).pinTimer = some 20100 := by decide +kernel

theorem test_hyps_AFaultPutsADishInFaulted_10 :
  let d : DishId := 0
  let b := watched .braked (fun x => x)
  b.QuietBut (some d)
    ∧ StowedByWatch b d
    ∧ b.fa.grants[d].isSome = true
    ∧ (b.dish d).drive = .braked
    ∧ ((b.dish d).axis .el).limit .high = false := by decide +kernel

theorem test_hyps_AFaultPutsADishInFaulted_11 :
  let d : DishId := 0
  let b := watched .moving (fun x => x)
  b.QuietBut (some d)
    ∧ StowedByWatch b d
    ∧ b.fa.grants[d].isSome = true
    ∧ (b.dish d).drive = .moving
    ∧ ((b.dish d).axis .el).ampReady = true := by decide +kernel

theorem test_hyps_AFaultPutsADishInFaulted_12 :
  let d : DishId := 0
  let b := watched .pinned (fun x => { x with pinIn := true })
  b.QuietBut (some d)
    ∧ StowedByWatch b d
    ∧ b.fa.grants[d].isSome = true
    ∧ (b.dish d).drive = .pinned
    ∧ (b.dish d).pinIn = true := by decide +kernel

theorem test_hyps_AWarningEndsInReleasing :
  let d : DishId := 0
  let n : Nat := 20100
  let s : State := stateOf (driven .warning (fun x => { x with warningTimer := some 20100 }))
  s.part.blocks.Quiet
    ∧ (s.part.blocks.dish d).drive = .warning
    ∧ (s.part.blocks.dish d).warningTimer = some n := by decide +kernel

theorem test_hyps_AReadyDishStartsItsMove :
  let d : DishId := 0
  let n : Nat := 20100
  let seen : List Outside := [.amplifierReady 0 .az]
  let s : State := stateOf (driven .releasing (fun x => { x with
        brakeTimer := some 20100
        task := .stow
        owner := some .ww
        az := { x.az with ampReady := false }
        el := { x.el with profile := some testProfile } }))
  let p : Part := (see seen s.part).getD s.part
  see seen s.part = some p
    ∧ p.blocks.Quiet
    ∧ (p.blocks.dish d).drive = .releasing
    ∧ (p.blocks.dish d).brakeTimer = some n
    ∧ (p.blocks.dish d).az.ampReady = true
    ∧ (p.blocks.dish d).el.ampReady = true
    ∧ (p.blocks.dish d).task ≠ .none
    ∧ (p.blocks.dish d).startMode = .atReady
    ∧ (((p.blocks.dish d).owner = some .ww ∨ (p.blocks.dish d).owner = some .mc)) := by decide +kernel

theorem test_hyps_ASettledDishHoldsOrPins_1 :
  let d : DishId := 0
  let n : Nat := 20100
  let s : State := stateOf (overdrawn (driven .settling (fun x => { x with settleTimer := some 20100 })))
  let b := s.part.blocks.runTo n
  let given := usesGrant d b
  s.part.blocks.QuietBut none
    ∧ given = true
    ∧ ReturnsQuietly d b
    ∧ (b.dish d).drive = .settling
    ∧ (b.dish d).settleTimer = some n
    ∧ (b.dish d).task = .none
    ∧ (b.dish d).owner = none := by decide +kernel

theorem test_hyps_ASettledDishHoldsOrPins_2 :
  let d : DishId := 0
  let n : Nat := 20100
  let s : State := stateOf (watched .settling (fun x => { x with settleTimer := some 20100 }))
  let b := s.part.blocks.runTo n
  let given := usesGrant d b
  s.part.blocks.QuietBut none
    ∧ given = true
    ∧ ReturnsQuietly d b
    ∧ (b.dish d).drive = .settling
    ∧ (b.dish d).settleTimer = some n
    ∧ (b.dish d).task = .stow
    ∧ (b.dish d).owner = some .ww
    ∧ (b.stow d).rehand = false := by decide +kernel

theorem test_hyps_ASettledDishHoldsOrPins_3 :
  let d : DishId := 0
  let n : Nat := 20100
  let s : State := stateOf (powered shedding)
  let b := s.part.blocks.runTo n
  let given := usesGrant d b
  let el : Int := 20000
  s.part.blocks.QuietBut none
    ∧ given = true
    ∧ ReturnsQuietly d b
    ∧ (b.dish d).drive = .settling
    ∧ (b.dish d).settleTimer = some n
    ∧ (b.dish d).task = .shed
    ∧ (b.dish d).owner = some .mc
    ∧ (b.shed d).phase = .handed
    ∧ (b.dish d).el.encoder = some el := by decide +kernel

theorem test_hyps_ASettledDishHoldsOrPins_4 :
  let d : DishId := 0
  let n : Nat := 20100
  let s : State := stateOf (stowingOn (powered (driven .holding (fun x => { x with holdTimer := some 20100 }))))
  let b := s.part.blocks.runTo n
  let given := usesGrant d b
  s.part.blocks.QuietBut none
    ∧ given = true
    ∧ ReturnsQuietly d b
    ∧ (b.dish d).drive = .holding
    ∧ (b.dish d).holdTimer = some n
    ∧ (b.dish d).task = .none
    ∧ (b.dish d).stopRequesters = .empty
    ∧ (b.dish d).nextAction = .none := by decide +kernel

theorem test_hyps_ThePinsGoInAndOut_1 :
  let d : DishId := 0
  let s : State := stateOf (watched .pinning id)
  let b := s.part.blocks
  let given := usesGrant d b
  b.QuietBut (some d)
    ∧ given = true
    ∧ ReturnsQuietly d b
    ∧ (b.dish d).stopRequesters = .empty
    ∧ (b.dish d).nextAction = .none
    ∧ (b.dish d).task = .stow
    ∧ (b.dish d).drive = .pinning
    ∧ (b.dish d).pinIn = false
    ∧ (b.dish d).owner = some .ww
    ∧ (b.dish d).absorbed = .empty
    ∧ (b.stow d).phase = .handed := by decide +kernel

theorem test_hyps_ThePinsGoInAndOut_2 :
  let d : DishId := 0
  let s : State := stateOf (powered ((driven .unpinning (fun x => { x with task := .stow, pinOut := false })).modStow 0 (fun r => { r with phase := .unstowing, unpinWanted := true })))
  let b := s.part.blocks
  let given := usesGrant d b
  b.QuietBut (some d)
    ∧ given = true
    ∧ ReturnsQuietly d b
    ∧ (b.dish d).stopRequesters = .empty
    ∧ (b.dish d).nextAction = .none
    ∧ (b.dish d).task = .stow
    ∧ (b.dish d).drive = .unpinning
    ∧ (b.dish d).pinOut = false
    ∧ (b.stow d).phase = .unstowing
    ∧ (b.stow d).unpinWanted = true := by decide +kernel

theorem test_hyps_TheHeaterOutputsFollowTheirDuty_1 :
  let s : State := restState
  s.part.blocks.Quiet := by decide +kernel

theorem test_hyps_TheHeaterOutputsFollowTheirDuty_2 :
  let z : ZoneId := 35
  let s : State := stateOf (resting.modHeater 35 (fun _ => ⟨true, 18750⟩))
  s.part.blocks.Quiet
    ∧ (s.part.blocks.heater z).on = true := by decide +kernel

theorem test_hyps_TheAdmissionWaitFormsTheFirstWave_1 :
  let f : FormationId := 2
  let n : Nat := 20100
  let s : State := stateOf admitting
  let b := s.part.blocks.runTo n
  s.part.blocks.Quiet
    ∧ (b.form f).state = .admitting
    ∧ (b.form f).admission = some n
    ∧ (b.form f).mode = .joint
    ∧ (b.form f).waveCount = 0
    ∧ ((∀ d ∈ (b.form f).active, ((b.form f).mem d).stage = .claiming ∨ ((b.form f).mem d).stage =
          .granted))
    ∧ (b.form f).grantedMembers = []
    ∧ (b.form f).active ≠ [] := by decide +kernel

theorem test_hyps_TheAdmissionWaitFormsTheFirstWave_2 :
  let f : FormationId := 2
  let n : Nat := 20100
  let s : State := stateOf admitted
  let b := s.part.blocks.runTo n
  let d : DishId := 0
  let p : PlanResult := testPlan 30000 45000
  let g : Grant := testGrant
  let mv : Move := ⟨.fp, .formation, stretch p.minTime p.az, stretch p.minTime p.el, .onStart⟩
  s.part.blocks.Quiet
    ∧ (b.form f).state = .admitting
    ∧ (b.form f).admission = some n
    ∧ (b.form f).mode = .joint
    ∧ (b.form f).waveCount = 0
    ∧ ((∀ d ∈ (b.form f).active, ((b.form f).mem d).stage = .claiming ∨ ((b.form f).mem d).stage =
          .granted))
    ∧ (b.form f).grantedMembers = [d]
    ∧ ((b.form f).mem d).plan = some p
    ∧ ((b.form f).mem d).arrival = none
    ∧ (p.az.moves || p.el.moves) = true
    ∧ ((∀ k, (b.form k).state ≠ .halting))
    ∧ b.fa.grants[d] = some g
    ∧ g.amount = (if (stretch p.minTime p.az).moves then g.azPeak else 0)
      + (if (stretch p.minTime p.el).moves then g.elPeak else 0)
    ∧ (b.dish d).motionGrant = some g.amount
    ∧ checkMove (b.dish d) mv = none
    ∧ (b.dish d).drive = .braked
    ∧ (b.dish d).owner = none := by decide +kernel

theorem test_hyps_TheWorkEndsAndItsDishesAreReleased_1 :
  let f : FormationId := 2
  let n : Nat := 20100
  let slot : SlotId := 3
  let s : State := stateOf dwelling
  let b := s.part.blocks.runTo n
  let m := b.form f
  let r : Raster := testRaster
  s.part.blocks.Quiet
    ∧ m.slot = some slot
    ∧ ((∀ d, (b.dish d).owner = some .fp → (b.dish d).drive = .holding ∧ (b.dish d).startAwaited = false))
    ∧ m.state = .dwelling
    ∧ m.dwell = some n
    ∧ m.raster = some r
    ∧ r.count ≤ r.index + 1 := by decide +kernel

theorem test_hyps_TheWorkEndsAndItsDishesAreReleased_2 :
  let f : FormationId := 2
  let n : Nat := 20100
  let slot : SlotId := 3
  let s : State := stateOf starving
  let b := s.part.blocks.runTo n
  let m := b.form f
  s.part.blocks.Quiet
    ∧ m.slot = some slot
    ∧ ((∀ d, (b.dish d).owner = some .fp → (b.dish d).drive = .holding ∧ (b.dish d).startAwaited = false))
    ∧ m.state = .starved
    ∧ m.starve = some n := by decide +kernel

theorem test_hyps_ATrackStepGivesThePointing_1 :
  let f : FormationId := 2
  let d : DishId := 0
  let n : Nat := 20005
  let s : State := stateOf tracking
  let b := s.part.blocks.runTo n
  let m := b.form f
  let w0 : Waypoint := trackedPoint 495000 9000
  let w1 : Waypoint := trackedPoint 505000 11001
  let az0 : Int := 9000
  let az1 : Int := 11001
  let az : Int := 10000
  let el : Int := 30000
  let encAz : Int := 10000
  let encEl : Int := 30000
  let pAz : Profile := followProfile
  let pEl : Profile := followProfile
  s.part.blocks.Quiet
    ∧ m.state = .tracking
    ∧ m.trackStep = some n
    ∧ m.active = [d]
    ∧ (m.mem d).stage = .following
    ∧ (m.mem d).lagOpen = false
    ∧ m.wrapStop = none
    ∧ m.queue = [w0, w1]
    ∧ w0.time.toNat ≤ b.clock.time.toNat
    ∧ b.clock.time.toNat < w1.time.toNat
    ∧ w0.unwrapped[d] = some az0
    ∧ w1.unwrapped[d] = some az1
    ∧ b.wind.state = .calm
    ∧ az = az0 + ((az1 - az0) * ((b.clock.time.toNat : Int) - w0.time.toNat)).tdiv
      ((w1.time.toNat : Int) - w0.time.toNat)
    ∧ el = w0.el + ((w1.el - w0.el) * ((b.clock.time.toNat : Int) - w0.time.toNat)).tdiv
      ((w1.time.toNat : Int) - w0.time.toNat)
    ∧ (b.dish d).az.profile = some pAz
    ∧ (b.dish d).el.profile = some pEl
    ∧ pAz.kind = .follow
    ∧ pEl.kind = .follow
    ∧ pAz.finishing = false
    ∧ pEl.finishing = false
    ∧ pAz.allows az = true
    ∧ pEl.allows el = true
    ∧ (b.dish d).az.encoder = some encAz
    ∧ (b.dish d).el.encoder = some encEl
    ∧ max (az - encAz).natAbs (el - encEl).natAbs ≤ b.settings.lagLimit := by decide +kernel

theorem test_hyps_ATrackStepGivesThePointing_2 :
  let f : FormationId := 2
  let d : DishId := 0
  let n : Nat := 20100
  let s : State := stateOf (tracking.modMember 2 0 (fun k => { k with lagTimer := some 20100 }))
  let b := s.part.blocks.runTo n
  let m := b.form f
  s.part.blocks.Quiet
    ∧ (m.mem d).lagTimer = some n := by decide +kernel

theorem test_hyps_AByteIsAssembledIntoAFrame_1 :
  let l : LineId := 1
  let value : Byte := 0xA6
  let s : State := stateOf (collecting [])
  let b := s.part.blocks
  let x := b.line l
  b.Quiet
    ∧ b.wind.dataKnown = dataFlag b
    ∧ x.fifo = []
    ∧ x.lostSince = false
    ∧ x.gathered = []
    ∧ value ≠ 0xA7 := by decide +kernel

theorem test_hyps_AByteIsAssembledIntoAFrame_2 :
  let l : LineId := 1
  let s : State := stateOf (collecting [])
  let b := s.part.blocks
  let x := b.line l
  b.Quiet
    ∧ b.wind.dataKnown = dataFlag b
    ∧ x.fifo = []
    ∧ x.lostSince = false
    ∧ x.gathered = [] := by decide +kernel

theorem test_hyps_AByteIsAssembledIntoAFrame_3 :
  let l : LineId := 1
  let s : State := stateOf (collecting (testFrame.take 7))
  let b := s.part.blocks
  let x := b.line l
  b.Quiet
    ∧ b.wind.dataKnown = dataFlag b
    ∧ x.fifo = []
    ∧ x.lostSince = false
    ∧ x.gathered ≠ []
    ∧ x.gathered.length < 8 := by decide +kernel

theorem test_hyps_AByteIsAssembledIntoAFrame_4 :
  let l : LineId := 1
  let value : Byte := testFrame.getD 8 0
  let s : State := stateOf (collecting (testFrame.take 8))
  let b := s.part.blocks
  let x := b.line l
  let f : Frame := (readFrame testFrame resting.clock).getD ⟨0, 0, 0, .none, .ok, 0, false⟩
  b.Quiet
    ∧ b.wind.dataKnown = dataFlag b
    ∧ x.fifo = []
    ∧ x.lostSince = false
    ∧ x.gathered.length = 8
    ∧ readFrame (x.gathered ++ [value]) b.clock = some f
    ∧ x.state = .ok := by decide +kernel

theorem test_hyps_ALineThatStopsIsSuspectThenSilent_1 :
  let l : LineId := 1
  let n : Nat := 20025
  let s : State := stateOf (collecting [0xA7])
  let b := s.part.blocks.runTo n
  let x := b.line l
  s.part.blocks.Quiet
    ∧ b.wind.dataKnown = true
    ∧ x.gathered ≠ []
    ∧ x.gapTimer = some n
    ∧ x.state = .ok := by decide +kernel

theorem test_hyps_ALineThatStopsIsSuspectThenSilent_2 :
  let l : LineId := 1
  let n : Nat := 21000
  let s : State := stateOf ((collecting [0xA7]).modLine 2 (fun x => { x with state := .suspect }))
  let b := s.part.blocks.runTo n
  let x := b.line l
  s.part.blocks.Quiet
    ∧ b.wind.dataKnown = true
    ∧ x.silenceTimer = some n
    ∧ x.state ≠ .silent
    ∧ ((∃ k, k ≠ l ∧ (b.line k).state ≠ .silent)) := by decide +kernel

theorem test_hyps_TheGraceEndsByTheLines_1 :
  let n : Nat := 20100
  let s : State := stateOf ((collecting [0xA7]).modWind (fun w => { w with grace := some 20100 }))
  let b := s.part.blocks.runTo n
  s.part.blocks.Quiet
    ∧ b.wind.grace = some n
    ∧ b.wind.dataKnown = true
    ∧ ((∃ l, (b.line l).state ≠ .silent)) := by decide +kernel

theorem test_hyps_TheGraceEndsByTheLines_2 :
  let n : Nat := 20100
  let s : State := stateOf (resting.modWind (fun w => { w with
        grace := some 20100
        reading := { w.reading with fallback := .hold } }))
  let b := s.part.blocks.runTo n
  s.part.blocks.Quiet
    ∧ b.wind.grace = some n
    ∧ b.wind.dataKnown = true
    ∧ ((∀ l, (b.line l).state = .silent))
    ∧ b.wind.reading.fallback = .hold := by decide +kernel

theorem test_hyps_AWindSecondMayEnterStowing_1 :
  let s : State := stateOf ((collecting []).modLine 1 (fun x => { x with
        secondSum := 1001
        secondCount := 2 }))
  let b := s.part.blocks.runTo s.part.blocks.wind.secondDue
  let means := allLines.filterMap (fun l => (lineMean (b.line l)).map (fun m => (l, m)))
  let st := b.settings
  let mean (l : List (Option Nat)) : Option Nat :=
      let ps := l.filterMap id
      if ps = [] then none else some (ps.sum / ps.length)
  let value : Option Nat := some 500
  let list : List (Option Nat) := [some 500]
  let direction : Option Nat := none
  let w : WindWatch := { b.wind with
      seconds := list, gust := mean (list.drop (list.length - 3)), mean := mean list, direction := direction
      secondDue := b.clock.count + 1000
      reading := ⟨b.presence.attended, st.thresholds b.presence.attended, st.fallback, st.autoRelease⟩ }
  (((value = none ∧ means = [] ∧ direction = none)
      ∨ ∃ l m, value = some m ∧ (l, m) ∈ means ∧ (∀ q ∈ means, q.2 ≤ m ∧ (q.2 = m → l ≤ q.1))
      ∧ direction = (b.line l).lastGood.map Frame.direction))
    ∧ list = (b.wind.seconds ++ [value]).drop (b.wind.seconds.length + 1 - 600)
    ∧ s.part.blocks.Quiet
    ∧ b.wind.dataKnown = true
    ∧ b.wind.state = .calm
    ∧ stowTrigger w = none
    ∧ watchTrigger w = none
    ∧ ((∀ d, isBlocked b d [.position, .barred] = false)) := by decide +kernel

set_option synthInstance.maxSize 2000 in
theorem test_hyps_AWindSecondMayEnterStowing_2 :
  let s : State := stateOf mixedStorm
  let b := s.part.blocks.runTo s.part.blocks.wind.secondDue
  let means := allLines.filterMap (fun l => (lineMean (b.line l)).map (fun m => (l, m)))
  let st := b.settings
  let mean (l : List (Option Nat)) : Option Nat :=
      let ps := l.filterMap id
      if ps = [] then none else some (ps.sum / ps.length)
  let value : Option Nat := some 6000
  let list : List (Option Nat) := [some 6000]
  let direction : Option Nat := none
  let w : WindWatch := { b.wind with
      seconds := list, gust := mean (list.drop (list.length - 3)), mean := mean list, direction := direction
      secondDue := b.clock.count + 1000
      reading := ⟨b.presence.attended, st.thresholds b.presence.attended, st.fallback, st.autoRelease⟩ }
  let trigger : WindTrigger := .gust
  let moving : List DishId := [5, 6, 7, 8, 9, 10, 11, 3]
  let plans : DishId → PlanResult := fun e => match plan st (b.dish e) .stay 90000 none with
        | .ok q => q | .error _ => stowPlan
  let held (d : DishId) : Option BlockCause :=
      let x := b.dish d
      if x.drive = .faulted then some .fault
      else if x.lock.stopPending = true ∨ x.task = .lockStop then some .lock
      else if x.lock.motionLocked = true ∧ x.lock.stowYielding = false then some .lock
      else none
  let elevation (d : DishId) : Int := (b.dish d).el.encoder.getD 0
  (((value = none ∧ means = [] ∧ direction = none)
      ∨ ∃ l m, value = some m ∧ (l, m) ∈ means ∧ (∀ q ∈ means, q.2 ≤ m ∧ (q.2 = m → l ≤ q.1))
      ∧ direction = (b.line l).lastGood.map Frame.direction))
    ∧ list = (b.wind.seconds ++ [value]).drop (b.wind.seconds.length + 1 - 600)
    ∧ s.part.blocks.Quiet
    ∧ b.wind.dataKnown = true
    ∧ ((b.wind.state = .calm ∨ b.wind.state = .watch))
    ∧ stowTrigger w = some trigger
    ∧ ((∀ f, (b.form f).state = .unused ∨ (b.form f).state = .idle))
    ∧ ((∀ d, (b.shed d).phase = .none))
    ∧ ((∀ d, (b.dish d).owner = some .fp → (b.dish d).drive = .stopping ∧ (b.dish d).task = .formation))
    ∧ b.HeatQuiet
    ∧ b.fa.queue = []
    ∧ remainder b.fa = 0
    ∧ 0 < st.elPeak
    ∧ ((∀ d : DishId, b.fa.grants[d].map Grant.holder ≠ some .ww))
    ∧ ((∀ d, (b.stow d).phase = .none
      ∨ ((b.stow d).phase = .stowed ∧ (held d = none → (b.stow d).unpinWanted = false))
      ∨ ((b.stow d).phase = .blocked ∧ ((b.stow d).cause = some .lock ∨ (b.stow d).cause = some .fault
      ∨ ((b.stow d).cause = some .position ∧ held d = none ∧ (b.dish d).el.encoder = none)))))
    ∧ (moving.Pairwise (fun d e => elevation d < elevation e ∨ (elevation d = elevation e ∧ d < e)))
    ∧ ((∀ d, d ∈ moving ↔ held d = none ∧ (b.stow d).phase = .none))
    ∧ ((∀ d ∈ moving, (b.dish d).drive ≠ .pinned ∧ (b.dish d).drive ≠ .pinning ∧ b.fa.grants[d] = none
      ∧ plan st (b.dish d) .stay 90000 none = .ok (plans d) ∧ (plans d).el.moves =
            true)) := by decide +kernel

theorem test_hyps_TheDeadlineAndTheReleaseHold_1 :
  let n : Nat := 20100
  let s : State := stateOf ((stowingOn (resting.modDish 0 (fun x => { x with reasons := ⟨true, false⟩ }))).modWind (fun w => { w with deadline := some 20100 }))
  let b := s.part.blocks.runTo n
  s.part.blocks.QuietBut none
    ∧ b.wind.deadline = some n := by decide +kernel

theorem test_hyps_TheDeadlineAndTheReleaseHold_2 :
  let n : Nat := 20100
  let s : State := stateOf (resting.modWind (fun w => { w with state := .releaseWait, releaseHold := some 20100, reading := { w.reading with autoRelease := false } }))
  let b := s.part.blocks.runTo n
  s.part.blocks.QuietBut none
    ∧ b.wind.releaseHold = some n
    ∧ b.wind.state = .releaseWait
    ∧ b.wind.reading.autoRelease = false
    ∧ ((∀ d, (b.stow d).phase = .blocked → (b.dish d).reasonsEmpty = false)) := by decide +kernel

theorem test_hyps_AMeltStepFollowsItsTarget_1 :
  let z : ZoneId := 4
  let s : State := stateOf (testZone { resting.zone 4 with
        state := .running
        mode := .forced
        forced := 1000
        request := 15
        grant := 3
        grantedDuty := 200
        applied := 60 })
  let b := s.part.blocks.runTo (s.part.blocks.zone z).stepDue
  let x := b.zone z
  let d := zoneDish z
  let st := b.settings
  let snow := if zoneClass z = .surface then st.snowReading else b.snowReading d
  let demand := demandOf (st.meltReading (zoneClass z)) snow.onset x (zoneClass z) (airTemperature b)
      (precipitation b) (b.dish d).score
  let target := min demand x.grantedDuty
  let next : ZoneState × Nat × Timer := match x.state with

      | .off => if st.startValue ≤ target then (.running, st.startValue, none) else (.off, x.applied, x.tail)
      | .running =>
      if st.stopValue ≤ target then
      (.running, if x.applied < target then min target (x.applied + st.upStep)
      else if target < x.applied then max target (x.applied - st.downStep) else x.applied, x.tail)
      else if st.stopValue ≤ x.grantedDuty then
      (.tailing, st.stopValue, some (b.clock.count + 1000 * st.stopTime))
      else (.off, 0, none)
      | .tailing =>
      if x.grantedDuty < st.stopValue then (.off, 0, none)
      else if st.startValue ≤ target then (.running, st.startValue, none)
      else (.tailing, st.stopValue, x.tail)
      | .cut => (.cut, x.applied, x.tail)
  let request :=
      if next.1 = .cut then 0
      else if st.startValue ≤ demand ∨ (next.1 = .running ∧ st.stopValue ≤ demand) then
      (x.rated * demand + 999) / 1000
      else if next.1 = .tailing then (x.rated * st.stopValue + 999) / 1000
      else 0
  s.part.blocks.Quiet
    ∧ x.rated = st.ratedPower (zoneClass z)
    ∧ x.request = request
    ∧ zoneClass z ≠ .surface := by decide +kernel

theorem test_hyps_AMeltStepFollowsItsTarget_2 :
  let z : ZoneId := 0
  let s : State := stateOf (snowed.modDish 0 (fun x => { x with score := 3999 }))
  let b := s.part.blocks.runTo (s.part.blocks.zone z).stepDue
  let x := b.zone z
  let d := zoneDish z
  let st := b.settings
  let snow := if zoneClass z = .surface then st.snowReading else b.snowReading d
  let demand := demandOf (st.meltReading (zoneClass z)) snow.onset x (zoneClass z) (airTemperature b)
      (precipitation b) (b.dish d).score
  let target := min demand x.grantedDuty
  let next : ZoneState × Nat × Timer := match x.state with

      | .off => if st.startValue ≤ target then (.running, st.startValue, none) else (.off, x.applied, x.tail)
      | .running =>
      if st.stopValue ≤ target then
      (.running, if x.applied < target then min target (x.applied + st.upStep)
      else if target < x.applied then max target (x.applied - st.downStep) else x.applied, x.tail)
      else if st.stopValue ≤ x.grantedDuty then
      (.tailing, st.stopValue, some (b.clock.count + 1000 * st.stopTime))
      else (.off, 0, none)
      | .tailing =>
      if x.grantedDuty < st.stopValue then (.off, 0, none)
      else if st.startValue ≤ target then (.running, st.startValue, none)
      else (.tailing, st.stopValue, x.tail)
      | .cut => (.cut, x.applied, x.tail)
  let request :=
      if next.1 = .cut then 0
      else if st.startValue ≤ demand ∨ (next.1 = .running ∧ st.stopValue ≤ demand) then
      (x.rated * demand + 999) / 1000
      else if next.1 = .tailing then (x.rated * st.stopValue + 999) / 1000
      else 0
  let temperature := airTemperature b
  let score : Nat := (max 0 (min 10000 (((b.dish d).score : Int)
      + (if temperature.any (fun t => decide (t ≤ 10)) = true ∧ precipitation b = .snow
      then (st.accumulation : Int) else 0)
      - (st.removal * next.2.1 / 1000 : Nat)
      - (if temperature.any (fun t => decide (30 ≤ t)) = true then (st.thaw : Int) else 0)))).toNat
  let armed := (b.shed d).armed || decide (score < st.shedClear)
  let y := b.dish d
  let tilts : Bool := snow.autoShed && armed && (b.shed d).phase == .none
      && decide (snow.shedThreshold ≤ score) && y.task == .none && y.formation == none
      && !y.lock.motionLocked && !y.lock.stopPending && (y.drive == .braked || y.drive == .holding)
      && y.reasons == ⟨false, false⟩ && b.wind.state == .calm
  s.part.blocks.Quiet
    ∧ x.rated = st.ratedPower (zoneClass z)
    ∧ x.request = request
    ∧ zoneClass z = .surface
    ∧ tilts = false := by decide +kernel

theorem test_hyps_AMeltStepFollowsItsTarget_3 :
  let z : ZoneId := 0
  let s : State := stateOf snowed
  let b := s.part.blocks.runTo (s.part.blocks.zone z).stepDue
  let x := b.zone z
  let d := zoneDish z
  let st := b.settings
  let snow := if zoneClass z = .surface then st.snowReading else b.snowReading d
  let demand := demandOf (st.meltReading (zoneClass z)) snow.onset x (zoneClass z) (airTemperature b)
      (precipitation b) (b.dish d).score
  let target := min demand x.grantedDuty
  let next : ZoneState × Nat × Timer := match x.state with

      | .off => if st.startValue ≤ target then (.running, st.startValue, none) else (.off, x.applied, x.tail)
      | .running =>
      if st.stopValue ≤ target then
      (.running, if x.applied < target then min target (x.applied + st.upStep)
      else if target < x.applied then max target (x.applied - st.downStep) else x.applied, x.tail)
      else if st.stopValue ≤ x.grantedDuty then
      (.tailing, st.stopValue, some (b.clock.count + 1000 * st.stopTime))
      else (.off, 0, none)
      | .tailing =>
      if x.grantedDuty < st.stopValue then (.off, 0, none)
      else if st.startValue ≤ target then (.running, st.startValue, none)
      else (.tailing, st.stopValue, x.tail)
      | .cut => (.cut, x.applied, x.tail)
  let same : Bool := x.state == .cut || (x.state == .off && next.1 == .off)
  let request :=
      if next.1 = .cut then 0
      else if st.startValue ≤ demand ∨ (next.1 = .running ∧ st.stopValue ≤ demand) then
      (x.rated * demand + 999) / 1000
      else if next.1 = .tailing then (x.rated * st.stopValue + 999) / 1000
      else 0
  let stepped : Blocks := { (b.modZone z (fun y => { y with
      demand := demand, state := next.1, applied := next.2.1, tail := next.2.2
      stepDue := b.clock.count + 1000 })).modHeater z
      (fun o => if same then o else { o with
      on := o.on && decide (0 < next.2.1) && decide (b.clock.count - o.windowStart < 10 * next.2.1) }) with
      meltReadings := b.meltReadings.set z (st.meltReading (zoneClass z)) }
  let temperature := airTemperature b
  let score : Nat := (max 0 (min 10000 (((b.dish d).score : Int)
      + (if temperature.any (fun t => decide (t ≤ 10)) = true ∧ precipitation b = .snow
      then (st.accumulation : Int) else 0)
      - (st.removal * next.2.1 / 1000 : Nat)
      - (if temperature.any (fun t => decide (30 ≤ t)) = true then (st.thaw : Int) else 0)))).toNat
  let derate := if score < snow.soft then 1000
      else if score < snow.hard then 1000 - 500 * (score - snow.soft) / (snow.hard - snow.soft) else 500
  let armed := (b.shed d).armed || decide (score < st.shedClear)
  let scored : Blocks := { (stepped.modDish d (fun y => { y with
        score := score
        derate := derate })).modShed d
      (fun _ => ⟨armed, (b.shed d).phase, decide (snow.onset ≤ score), decide (snow.soft ≤ score),
      decide (snow.hard ≤ score)⟩) with
      snowReadings := b.snowReadings.set d st.snowReading }
  let y := b.dish d
  let tilts : Bool := snow.autoShed && armed && (b.shed d).phase == .none
      && decide (snow.shedThreshold ≤ score) && y.task == .none && y.formation == none
      && !y.lock.motionLocked && !y.lock.stopPending && (y.drive == .braked || y.drive == .holding)
      && y.reasons == ⟨false, false⟩ && b.wind.state == .calm
  let p : PlanResult := match plan st (scored.dish d) .stay snow.shedElevation none with
        | .ok q => q | .error _ => stowPlan
  s.part.blocks.Quiet
    ∧ x.rated = st.ratedPower (zoneClass z)
    ∧ x.request = request
    ∧ zoneClass z = .surface
    ∧ tilts = true
    ∧ plan st (scored.dish d) .stay snow.shedElevation none = .ok p
    ∧ p.el.moves = true
    ∧ b.fa.queue = []
    ∧ b.HeatQuiet
    ∧ b.fa.grants[d] = none
    ∧ remainder b.fa = 0
    ∧ 0 < st.elPeak := by decide +kernel

theorem test_hyps_ATailEndsInOff :
  let z : ZoneId := 4
  let n : Nat := 20100
  let s : State := stateOf (testZone tailingZone)
  let b := s.part.blocks.runTo n
  s.part.blocks.Quiet
    ∧ (b.zone z).state = .tailing
    ∧ (b.zone z).tail = some n
    ∧ (b.zone z).demand < (b.meltReading z).startValue
    ∧ (b.zone z).request ≠ 0
    ∧ (b.zone z).grant ≠ 0
    ∧ ((∀ y, y ≠ z → (b.zone y).request = 0 ∧ (b.zone y).grant = 0))
    ∧ b.fa.queue = []
    ∧ b.fa.inForce = max b.fa.target (motionSum b.fa)
    ∧ b.fa.held = decide (b.fa.target < motionSum b.fa) := by decide +kernel

theorem test_hyps_APedestalSlotServesTheNextPanel :
  let s : State := stateOf (resting.modPanel 0 (fun q => { q with takenDue := true }))
  s.part.blocks.Quiet
    ∧ s.part.blocks.pedestal.exchange = none := by decide +kernel

theorem test_hyps_AReplyWindowClosesOrHearsItsPanel_1 :
  let x : PanelExchange := ⟨5, .status, false, 20010⟩
  let s : State := stateOf asked
  let b := s.part.blocks
  let p := b.panel x.panel
  b.Quiet
    ∧ b.pedestal.exchange = some x
    ∧ ((p.link = .silent ∨ p.voids < 2)) := by decide +kernel

theorem test_hyps_AReplyWindowClosesOrHearsItsPanel_2 :
  let x : PanelExchange := ⟨5, .status, false, 20010⟩
  let s : State := stateOf answering
  let b := s.part.blocks
  let p := b.panel x.panel
  let key : Byte := 0
  let k : KeyPosition := .run
  b.Quiet
    ∧ b.pedestal.exchange = some x
    ∧ b.clock.count ≤ x.window
    ∧ x.kind ≠ .event
    ∧ readKey key = some k
    ∧ p.link = .online
    ∧ slotMatches b.keySlots[x.panel] (wantedClass k) = true := by decide +kernel

theorem test_hyps_AReplyWindowClosesOrHearsItsPanel_3 :
  let x : PanelExchange := ⟨5, .status, false, 20010⟩
  let s : State := stateOf answering
  let b := s.part.blocks
  let p := b.panel x.panel
  let key : Byte := 2
  let k : KeyPosition := .isolate
  let c : LockClass := .full
  let d := x.panel
  b.Quiet
    ∧ b.pedestal.exchange = some x
    ∧ b.clock.count ≤ x.window
    ∧ x.kind ≠ .event
    ∧ p.link = .online
    ∧ readKey key = some k
    ∧ b.HeatQuiet
    ∧ ((∀ (q : PoolId) (r : LockRecord), b.pool[q] = some r → r.dish ≠ d))
    ∧ (b.dish d).drive = .braked
    ∧ (b.dish d).task = .none
    ∧ (b.dish d).formation = none
    ∧ (b.stow d).phase = .none
    ∧ (b.stow d).unpinWanted = false
    ∧ b.fa.queue = []
    ∧ ((∀ i : DishId, b.fa.grants[i] = none))
    ∧ ((k = .hold ∧ c = .motion) ∨ (k = .isolate ∧ c = .full))
    ∧ b.keySlots[d] = none
    ∧ (b.dish d).lock = ⟨false, false, false, false⟩ := by decide +kernel

theorem test_hyps_AReplyWindowClosesOrHearsItsPanel_4 :
  let x : PanelExchange := ⟨5, .status, false, 20010⟩
  let s : State := stateOf keyLocked
  let b := s.part.blocks
  let p := b.panel x.panel
  let key : Byte := 0
  let k : KeyPosition := .run
  let c : LockClass := .motion
  let d := x.panel
  let r : LockRecord := ⟨5, .key, .motion, 0, .effective, 0, false, none⟩
  b.Quiet
    ∧ b.pedestal.exchange = some x
    ∧ b.clock.count ≤ x.window
    ∧ x.kind ≠ .event
    ∧ p.link = .online
    ∧ readKey key = some k
    ∧ b.HeatQuiet
    ∧ ((∀ (q : PoolId) (r : LockRecord), b.pool[q] = some r → r.dish ≠ d))
    ∧ (b.dish d).drive = .braked
    ∧ (b.dish d).task = .none
    ∧ (b.dish d).formation = none
    ∧ (b.stow d).phase = .none
    ∧ (b.stow d).unpinWanted = false
    ∧ b.fa.queue = []
    ∧ ((∀ i : DishId, b.fa.grants[i] = none))
    ∧ k = .run
    ∧ b.keySlots[d] = some r
    ∧ r.dish = d
    ∧ r.origin = .key
    ∧ r.cls = .motion
    ∧ c = .motion
    ∧ r.tag = 0
    ∧ r.state = .effective
    ∧ (b.dish d).lock = ⟨true, false, false, false⟩ := by decide +kernel

theorem test_hyps_AReplyWindowClosesOrHearsItsPanel_5 :
  let x : PanelExchange := ⟨5, .event, true, 20010⟩
  let s : State := stateOf badged
  let b := s.part.blocks
  let p := b.panel x.panel
  let key : Byte := 0
  let t0 : Byte := 18
  let t1 : Byte := 0
  let k : KeyPosition := .run
  let d := x.panel
  let tag := t0.toNat + 256 * t1.toNat
  let mine := allPool.filterMap (fun j => b.pool[j].filter (fun r => r.dish == d))
  b.Quiet
    ∧ b.pedestal.exchange = some x
    ∧ b.clock.count ≤ x.window
    ∧ x.kind = .event
    ∧ p.link = .online
    ∧ readKey key = some k
    ∧ tag ≠ 0
    ∧ slotMatches b.keySlots[d] (wantedClass k) = true
    ∧ ((∀ r ∈ mine, ¬ (r.origin = .badge ∧ r.tag = tag)))
    ∧ 3 ≤ mine.length := by decide +kernel

theorem test_hyps_AReplyWindowClosesOrHearsItsPanel_6 :
  let x : PanelExchange := ⟨5, .event, true, 20010⟩
  let s : State := stateOf badging
  let b := s.part.blocks
  let p := b.panel x.panel
  let key : Byte := 0
  let t0 : Byte := 255
  let t1 : Byte := 255
  let k : KeyPosition := .run
  let d := x.panel
  let tag := t0.toNat + 256 * t1.toNat
  let mine := allPool.filterMap (fun j => b.pool[j].filter (fun r => r.dish == d))
  let j : PoolId := 0
  b.Quiet
    ∧ b.pedestal.exchange = some x
    ∧ b.clock.count ≤ x.window
    ∧ x.kind = .event
    ∧ p.link = .online
    ∧ readKey key = some k
    ∧ tag ≠ 0
    ∧ slotMatches b.keySlots[d] (wantedClass k) = true
    ∧ ((∀ r ∈ mine, ¬ (r.origin = .badge ∧ r.tag = tag)))
    ∧ mine = []
    ∧ ((∀ i : PoolId, i < j → b.pool[i].isSome = true))
    ∧ b.pool[j] = none
    ∧ b.keySlots[d] = none
    ∧ (b.dish d).drive = .braked
    ∧ (b.dish d).task = .none
    ∧ (b.dish d).formation = none
    ∧ (b.dish d).lock = ⟨false, false, false, false⟩
    ∧ (b.stow d).phase = .none
    ∧ (b.stow d).unpinWanted = false
    ∧ b.fa.queue = []
    ∧ ((∀ i : DishId, b.fa.grants[i] = none)) := by decide +kernel

theorem test_hyps_ARefusedOrderChangesNoBlock_1 :
  let c : Instr := .setBudget ⟨3, 7, 1⟩ 5
  let slot : SlotId := 3
  let o : Order := orderWith ⟨3, 7, 1⟩ 0 0 0 (.setBudget 5)
  let s : State := restState
  orderOf c = some (slot, o)
    ∧ s.part.xm.ready = true
    ∧ ((∀ h ∈ s.part.xm.heldList, h.slot ≠ slot))
    ∧ s.part.blocks.Quiet
    ∧ o.flags ≠ 0 := by decide +kernel

theorem test_hyps_ARefusedOrderChangesNoBlock_2 :
  let c : Instr := .halt testHead 8
  let slot : SlotId := 3
  let o : Order := orderWith testHead 8 0 0 .halt
  let s : State := restState
  orderOf c = some (slot, o)
    ∧ s.part.xm.ready = true
    ∧ ((∀ h ∈ s.part.xm.heldList, h.slot ≠ slot))
    ∧ s.part.blocks.Quiet
    ∧ o.flags = 0
    ∧ o.body.ofFormation = true
    ∧ 8 ≤ o.formation.toNat
    ∧ o.formation ≠ 15 := by decide +kernel

theorem test_hyps_ARefusedOrderChangesNoBlock_3 :
  let c : Instr := .halt testHead 15
  let slot : SlotId := 3
  let o : Order := orderWith testHead 15 0 0 .halt
  let s : State := restState
  orderOf c = some (slot, o)
    ∧ s.part.xm.ready = true
    ∧ ((∀ h ∈ s.part.xm.heldList, h.slot ≠ slot))
    ∧ s.part.blocks.Quiet
    ∧ o.flags = 0
    ∧ o.body.ofFormation = true
    ∧ o.formation = 15
    ∧ s.part.xm.lastFormation = none := by decide +kernel

theorem test_hyps_ARefusedOrderChangesNoBlock_4 :
  let seen : List Outside := [.memoryWord 0x4000 5]
  let s : State := oddVerb
  let p : Part := (see seen s.part).getD s.part
  let m : BitVec 32 := 8
  let slot : SlotId := 3
  let v : Word := 19
  let state (k : SlotId) := slotState k p.xm.mem
  let o := orderAt slot p.xm.mem
  see seen s.part = some p
    ∧ p.xm.ready = true
    ∧ p.blocks.Quiet
    ∧ ((∀ k : SlotId, m.getLsbD k.val = (p.xm.answerMarks.getLsbD k.val && state k != some .empty)))
    ∧ ((∀ h ∈ p.xm.heldList, state h.slot = some .taken))
    ∧ ((∀ k, k ≠ slot → state k ≠ some .placed
      ∧ (state k = some .cutAsked → p.xm.answerMarks.getLsbD k.val = true)))
    ∧ state slot = some .placed
    ∧ o.body = .unknown v := by decide +kernel

theorem test_hyps_ARefusedOrderChangesNoBlock_5 :
  let h : OrderHead := testHead
  let d : DishId := 3
  let cls : Word := 2
  let tag : Word := 17
  let s : State := stateOf lockedDish
  let b := s.part.blocks
  let o := orderWith h 0 0 0 (.lock (BitVec.ofNat 16 d.val) cls tag)
  let mine := allPool.filterMap (fun k => b.pool[k].filter (fun r => r.dish == d))
  let same := mine.any (fun r => r.origin == .order && r.tag == tag.toNat)
  tag ≠ 0
    ∧ cls.toNat ≤ 2
    ∧ Takeable s h.slot o
    ∧ b.Quiet
    ∧ same = true := by decide +kernel

theorem test_hyps_ARefusedOrderChangesNoBlock_6 :
  let h : OrderHead := testHead
  let d : DishId := 3
  let cls : Word := 2
  let tag : Word := 20
  let s : State := stateOf { resting with pool := ((resting.pool.set 0 (some testRecord)).set 5 (some { testRecord with tag := 18 })).set 23 (some { testRecord with tag := 19 }) }
  let b := s.part.blocks
  let o := orderWith h 0 0 0 (.lock (BitVec.ofNat 16 d.val) cls tag)
  let mine := allPool.filterMap (fun k => b.pool[k].filter (fun r => r.dish == d))
  let same := mine.any (fun r => r.origin == .order && r.tag == tag.toNat)
  tag ≠ 0
    ∧ cls.toNat ≤ 2
    ∧ Takeable s h.slot o
    ∧ b.Quiet
    ∧ same = false
    ∧ 3 ≤ mine.length := by decide +kernel

theorem test_hyps_ARefusedOrderChangesNoBlock_7 :
  let h : OrderHead := testHead
  let d : DishId := 3
  let cls : Word := 2
  let tag : Word := 17
  let s : State := stateOf { resting with pool := Vector.replicate 24 (some { testRecord with dish := 4 }) }
  let b := s.part.blocks
  let o := orderWith h 0 0 0 (.lock (BitVec.ofNat 16 d.val) cls tag)
  let mine := allPool.filterMap (fun k => b.pool[k].filter (fun r => r.dish == d))
  let same := mine.any (fun r => r.origin == .order && r.tag == tag.toNat)
  tag ≠ 0
    ∧ cls.toNat ≤ 2
    ∧ Takeable s h.slot o
    ∧ b.Quiet
    ∧ same = false
    ∧ mine.length < 3
    ∧ ((∀ k : PoolId, b.pool[k].isSome = true)) := by decide +kernel

theorem test_hyps_AStowMoveShortensAWarning_1 :
  let d : DishId := 0
  let m : Move := ⟨.ww, .stow, stowPlan.az, stowPlan.el, .atReady⟩
  let n : Nat := 23006
  let b : Blocks := (driven .warning (fun x => { x with
        selector := .normal
        removalMark := false
        warningTimer := some 23006
        horn := .busy }))
  let x := b.dish d
  x.drive = .warning
    ∧ x.selector = .normal
    ∧ x.warningTimer = some n
    ∧ m.task = .stow
    ∧ x.removalMark = false
    ∧ b.settings.stowWarning < n - b.clock.count := by decide +kernel

theorem test_hyps_AStowMoveShortensAWarning_2 :
  let d : DishId := 0
  let m : Move := ⟨.ww, .stow, stowPlan.az, stowPlan.el, .atReady⟩
  let n : Nat := 23005
  let b : Blocks := (driven .warning (fun x => { x with
        selector := .normal
        removalMark := false
        warningTimer := some 23005
        horn := .busy }))
  let x := b.dish d
  x.drive = .warning
    ∧ x.selector = .normal
    ∧ x.warningTimer = some n
    ∧ m.task = .stow
    ∧ x.removalMark = false
    ∧ n - b.clock.count ≤ b.settings.stowWarning := by decide +kernel

theorem test_hyps_AStowMoveShortensAWarning_3 :
  let d : DishId := 0
  let m : Move := ⟨.ww, .stow, stowPlan.az, stowPlan.el, .atReady⟩
  let n : Nat := 23006
  let b : Blocks := (driven .warning (fun x => { x with
        selector := .normal
        removalMark := true
        warningTimer := some 23006
        horn := .busy }))
  let x := b.dish d
  x.drive = .warning
    ∧ x.selector = .normal
    ∧ x.warningTimer = some n
    ∧ m.task = .stow
    ∧ x.removalMark = true := by decide +kernel

theorem test_hyps_ThePinSensorsFaultADish_1 :
  let d : DishId := 0
  let b : Blocks := resting
  let x := b.dish d
  x.pinIn = false
    ∧ x.drive ≠ .pinning
    ∧ x.drive ≠ .pinned
    ∧ x.drive ≠ .faulted := by decide +kernel

theorem test_hyps_ThePinSensorsFaultADish_2 :
  let d : DishId := 0
  let b : Blocks := (driven .pinned (fun x => { x with pinIn := true }))
  let x := b.dish d
  x.pinIn = true
    ∧ x.drive = .pinned := by decide +kernel

theorem test_hyps_ThePinSensorsFaultADish_3 :
  let d : DishId := 0
  let b : Blocks := (driven .pinned (fun x => { x with pinOut := false }))
  let x := b.dish d
  x.pinOut = false
    ∧ x.drive = .pinned := by decide +kernel

theorem test_hyps_ThePinSensorsFaultADish_4 :
  let d : DishId := 0
  let b : Blocks := resting
  let x := b.dish d
  x.drive = .braked := by decide +kernel

theorem test_hyps_AGoodFrameIsReadAndCounted_1 :
  let s0 : Byte := 1
  let s1 : Byte := 0
  let d0 : Byte := 90
  let d1 : Byte := 0
  let t0 : Byte := 0xC4
  let t1 : Byte := 0xFF
  let status : Byte := 8
  let check : Byte := 205
  let f : Frame := (readFrame [167, 1, 0, 90, 0, 196, 255, 8, 205] resting.clock).getD ⟨0, 0, 0, .none,
        .ok, 0, false⟩
  let b : Blocks := resting
  readFrame [0xA7, s0, s1, d0, d1, t0, t1, status, check] b.clock = some f := by decide +kernel

theorem test_hyps_AGoodFrameIsReadAndCounted_2 :
  let s0 : Byte := 113
  let s1 : Byte := 23
  let d0 : Byte := 90
  let d1 : Byte := 0
  let t0 : Byte := 0xC4
  let t1 : Byte := 0xFF
  let status : Byte := 0
  let check : Byte := 76
  let f : Frame := (readFrame [167, 113, 23, 90, 0, 196, 255, 0, 76] resting.clock).getD ⟨0, 0, 0, .none,
        .ok, 0, false⟩
  let b : Blocks := resting
  readFrame [0xA7, s0, s1, d0, d1, t0, t1, status, check] b.clock = some f
    ∧ (f.instrument = .ok ∨ f.instrument = .overrange) := by decide +kernel

theorem test_hyps_AGoodFrameIsReadAndCounted_3 :
  let s0 : Byte := 113
  let s1 : Byte := 23
  let d0 : Byte := 90
  let d1 : Byte := 0
  let t0 : Byte := 0xC4
  let t1 : Byte := 0xFF
  let status : Byte := 4
  let check : Byte := 80
  let f : Frame := (readFrame [167, 113, 23, 90, 0, 196, 255, 4, 80] resting.clock).getD ⟨0, 0, 0, .none,
        .ok, 0, false⟩
  let b : Blocks := resting
  readFrame [0xA7, s0, s1, d0, d1, t0, t1, status, check] b.clock = some f
    ∧ f.instrument = .degraded := by decide +kernel

end Sys2Proof.Tests
end

