-- ==== Sys2Proof/Proofs/Pages.lean ====
section
/-! SUPPORT. When a page shows its block: what a publication writes and what it leaves, and which changes
republish a page (R26, R70, R89, R121, R144, R165 to R168). -/

namespace Sys2Proof.Machine

/-! ### The bytes of the pages -/

/-- Of every page but the common page a publication writes the whole region (8.1). -/
theorem Page.owns_iff {pg : Page} (h : pg ≠ .common) (a : Nat) :
    pg.owns a = true ↔ pg.base ≤ a ∧ a < pg.base + pg.size := by
  cases pg with
  | common => exact absurd rfl h
  | _ => simp [Page.owns]

theorem Page.owns_common_iff (a : Nat) :
    Page.common.owns a = true ↔ a < 0x0004 ∨ (0x0006 ≤ a ∧ a < 0x000C) ∨ (0x0010 ≤ a ∧ a < 0x0100) := by
  simp [Page.owns, or_assoc]

/-- The bytes that a publication writes lie in the region of its page (8.1). -/
theorem Page.region_of_owns {pg : Page} {a : Nat} (h : pg.owns a = true) : pg.base ≤ a ∧ a < pg.base + pg.size := by
  by_cases hc : pg = .common
  · subst hc
    have := (Page.owns_common_iff a).mp h
    simp only [Page.base, Page.size]
    omega
  · exact (Page.owns_iff hc a).mp h

/-- The regions of two pages do not meet (8.1). -/
theorem Page.regions_disjoint {p q : Page} (h : p ≠ q) :
    p.base + p.size ≤ q.base ∨ q.base + q.size ≤ p.base := by
  cases p <;> cases q <;> simp only [Page.base, Page.size, ne_eq, Page.dish.injEq, Page.formation.injEq,
    Page.zone.injEq, Page.lockEntry.injEq, Fin.ext_iff, not_true_eq_false] at h ⊢ <;> omega

theorem Page.owns_other {p q : Page} (h : q ≠ p) {a : Nat} (hq : q.owns a = true) : p.owns a = false := by
  by_contra hp
  have hp := Page.region_of_owns (by simpa using hp)
  have hq := Page.region_of_owns hq
  have := Page.regions_disjoint h
  omega

/-- Every page but the common page lies above the slate and below the trail (8.1). -/
theorem Page.region_of_ne_common {pg : Page} (h : pg ≠ .common) : 0x1100 ≤ pg.base ∧ pg.base + pg.size ≤ 0x3000 := by
  cases pg <;> simp only [Page.base, Page.size, ne_eq, not_true_eq_false] at h ⊢ <;> omega

/-- The bytes of a page are none of the slate, of the trail, or of the words that the site computer writes among
those of the common page (8.1). -/
theorem Page.owns_bounds {pg : Page} {a : Nat} (h : pg.owns a = true) :
    a < 0x0004 ∨ (0x0006 ≤ a ∧ a < 0x000C) ∨ (0x0010 ≤ a ∧ a < 0x0100) ∨ (0x1100 ≤ a ∧ a < 0x3000) := by
  by_cases hc : pg = .common
  · subst hc
    have := (Page.owns_common_iff a).mp h
    omega
  · have := Page.region_of_ne_common hc
    have := Page.region_of_owns h
    omega

theorem Page.owns_not_trail {pg : Page} {a : Nat} (h : pg.owns a = true) : inTrail a = false := by
  have := Page.owns_bounds h
  simp only [inTrail, Bool.and_eq_false_imp, decide_eq_true_eq, decide_eq_false_iff_not]
  omega

theorem Page.owns_not_answer {pg : Page} {a : Nat} (h : pg.owns a = true) : inAnswerOrState a = false := by
  have := Page.owns_bounds h
  simp only [inAnswerOrState, Bool.and_eq_false_imp, Bool.and_eq_true, decide_eq_true_eq]
  omega

/-! ### Pages that read as before -/

@[simp] theorem SamePage.refl (pg : Page) (x : Exchange) : SamePage pg x x := ⟨rfl, fun _ _ => rfl⟩

theorem SamePage.trans {pg : Page} {x y z : Exchange} (h1 : SamePage pg x y) (h2 : SamePage pg y z) :
    SamePage pg x z := by
  obtain ⟨e1, m1⟩ := h1
  obtain ⟨e2, m2⟩ := h2
  exact ⟨e2.trans e1, fun a ha => (m2 a ha).trans (m1 a ha)⟩

/-- Bytes written outside the bytes of a page leave it as it was. -/
theorem samePage_of_writeBytes {pg : Page} {x y : Exchange} (addr : Nat) (bs : List Byte)
    (he : y.editions = x.editions) (hm : y.mem = x.mem.writeBytes addr bs)
    (h : ∀ a, pg.owns a = true → a < addr ∨ addr + bs.length ≤ a) : SamePage pg x y := by
  refine ⟨by rw [he], fun a ha => ?_⟩
  rw [hm]
  exact Memory.read_writeBytes_outside _ (h a ha)

/-- What a page other than the common page holds: its EDITION and the fields of its block (R167). -/
theorem holds_iff {pg : Page} (h : pg ≠ .common) (p : Part) (b : Blocks) :
    Holds p pg b ↔
      p.xm.mem.readBytes pg.base pg.size = word16 (p.xm.editions.get pg) ++ pageBytes pg b := by
  cases pg with
  | common => exact absurd rfl h
  | _ => rfl

/-- A page whose bytes and EDITION are as before holds the same fields. -/
theorem Holds.of_samePage {pg : Page} {p q : Part} {b : Blocks} (h : Holds p pg b) (hs : SamePage pg p.xm q.xm)
    (hc : pg = .common → commonPage { q with blocks := b } = commonPage { p with blocks := b }) : Holds q pg b := by
  obtain ⟨he, hm⟩ := hs
  have same : ∀ (a n : Nat), (∀ i, a ≤ i → i < a + n → pg.owns i = true) →
      q.xm.mem.readBytes a n = p.xm.mem.readBytes a n :=
    fun a n ho => Memory.readBytes_congr (fun i h1 h2 => hm i (ho i h1 h2))
  by_cases hp : pg = .common
  · subst hp
    have own : ∀ i, (i < 0x0004 ∨ (0x0006 ≤ i ∧ i < 0x000C) ∨ (0x0010 ≤ i ∧ i < 0x0100)) → Page.common.owns i = true :=
      fun i => (Page.owns_common_iff i).mpr
    obtain ⟨h1, h2, h3⟩ := h
    refine ⟨?_, ?_, ?_⟩
    · rw [same _ _ (fun i _ _ => own i (by omega)), he, hc rfl]; exact h1
    · rw [same _ _ (fun i _ _ => own i (by omega)), hc rfl]; exact h2
    · rw [same _ _ (fun i _ _ => own i (by omega)), hc rfl]; exact h3
  · rw [holds_iff hp] at h ⊢
    rw [same _ _ (fun i h1 h2 => (Page.owns_iff hp i).mpr ⟨h1, h2⟩), he]
    exact h

/-! ### Publications -/

/-- A publication shows its page (R167). -/
theorem shows_publish (pg : Page) (p : Part) : Shows (publish pg p) pg := by
  have hget : (publish pg p).xm.editions.get pg = p.xm.editions.get pg + 2 := by
    simp [publish, Part.modXm, Editions.get_set]
  by_cases hp : pg = .common
  · subst hp
    have hc : commonPage (publish .common p) = commonPage p := rfl
    have l1 : (word16 (p.xm.editions.get .common + 2) ++ (commonPage p).pulse).length = 4 := by
      simp [word16_length, commonPage, word, lowBytes_length]
    have l2 : (zeros 2 ++ (commonPage p).sequence).length = 6 := by
      simp [zeros, commonPage, long, lowBytes_length]
    have l3 : (fit 240 (commonPage p).summary).length = 240 := fit_length _ _
    have hmem : (publish .common p).xm.mem = writePage .common (p.xm.editions.get .common + 2) p p.xm.mem := rfl
    refine ⟨?_, ?_, ?_⟩
    · rw [hget, hc, hmem, writePage]
      rw [Memory.readBytes_outside _ (by omega), Memory.readBytes_outside _ (by omega), ← l1]
      exact Memory.readBytes_writeBytes _ _ _
    · rw [hc, hmem, writePage, Memory.readBytes_outside _ (by omega), ← l2]
      exact Memory.readBytes_writeBytes _ _ _
    · rw [hc, hmem, writePage]
      conv_lhs => rw [← l3]
      exact Memory.readBytes_writeBytes _ _ _
  · have hmem : (publish pg p).xm.mem
        = p.xm.mem.writeBytes pg.base (word16 (p.xm.editions.get pg + 2) ++ pageBytes pg p.blocks) := by
      cases pg with
      | common => exact absurd rfl hp
      | _ => rfl
    have hl : (word16 (p.xm.editions.get pg + 2) ++ pageBytes pg p.blocks).length = pg.size := by
      rw [List.length_append, word16_length, pageBytes_length]
      cases pg <;> simp [Page.size]
    rw [Shows, holds_iff hp, hget, hmem, ← hl]
    exact Memory.readBytes_writeBytes _ _ _

/-- A publication leaves every other page as it was. -/
theorem samePage_publish {pg q : Page} (h : pg ≠ q) (p : Part) : SamePage pg p.xm (publish q p).xm := by
  obtain ⟨-, he, hm⟩ := publish_same q [q] (by simp) p
  exact ⟨he pg (by simpa using h), fun a ha => hm a (by simpa using Page.owns_other h ha)⟩

/-- A page that shows its block shows it after every publication. -/
theorem Shows.publish {pg : Page} {p : Part} (h : Shows p pg) (q : Page) : Shows (publish q p) pg := by
  by_cases hq : pg = q
  · subst hq; exact shows_publish pg p
  · exact Holds.of_samePage h (samePage_publish hq p) (fun _ => rfl)

theorem Shows.publishAll {pg : Page} {p : Part} (h : Shows p pg) (l : List Page) :
    Shows (l.foldl (fun x q => Machine.publish q x) p) pg := by
  induction l generalizing p with
  | nil => exact h
  | cons q l ih => exact ih (h.publish q)

/-- After publications each page that is among them shows its block, and each other page is as it was. -/
theorem publishAll_page (pg : Page) (l : List Page) (p : Part) :
    (pg ∈ l → Shows (l.foldl (fun x q => publish q x) p) pg)
      ∧ (pg ∉ l → SamePage pg p.xm (l.foldl (fun x q => publish q x) p).xm) := by
  induction l generalizing p with
  | nil => exact ⟨fun h => absurd h (by simp), fun _ => SamePage.refl _ _⟩
  | cons q l ih =>
    refine ⟨fun h => ?_, fun h => ?_⟩
    · rcases List.mem_cons.mp h with rfl | h
      · exact (shows_publish _ p).publishAll l
      · exact (ih _).1 h
    · simp only [List.mem_cons, not_or] at h
      exact (samePage_publish h.1 p).trans ((ih _).2 h.2)

/-! ### Outputs -/

theorem takeEvent_editions (level count : Nat) (e : TrailEvent) (time : ArrayTime) (valid : Bool) (x : Exchange) :
    (takeEvent level count e time valid x).editions = x.editions := by
  have sample : (sampleMark count x).editions = x.editions := by
    unfold sampleMark; dsimp only; split <;> rfl
  have entry : ∀ (e : TrailEvent) (y : Exchange), (writeEntry level count e time valid y).editions = y.editions := by
    intro e y
    unfold writeEntry
    dsimp only
    split_ifs <;> rfl
  unfold takeEvent
  dsimp only
  split_ifs <;> simp only [entry, sample]

theorem takeOutput_editions (level : Nat) (c : Clock) (o : Output) (x : Exchange) :
    (takeOutput level c o x).editions = x.editions := by
  cases o with
  | trail e t v =>
    have := takeEvent_editions level c.count e t v x
    cases e <;> exact this
  | answer s a t v => rfl
  | cause k => rfl
  | page q => rfl

/-- Outputs write no byte of a page. -/
theorem samePage_takeOutputs (pg : Page) (b : Blocks) (outs : List Output) (x : Exchange) :
    SamePage pg x (takeOutputs b outs x) := by
  unfold takeOutputs
  induction outs generalizing x with
  | nil => exact SamePage.refl _ _
  | cons o l ih =>
    refine SamePage.trans ⟨by rw [takeOutput_editions], fun a ha => ?_⟩ (ih _)
    exact read_takeOutput _ _ _ _ _ (Page.owns_not_trail ha) (Page.owns_not_answer ha)

/-! ### Changes that republish a page -/

/-- Whether a page is touched depends on the blocks alone. -/
theorem pageTouched_congr (pg : Page) {o o' n n' : Part} (ho : o.blocks = o'.blocks) (hn : n.blocks = n'.blocks) :
    pageTouched pg o n = pageTouched pg o' n' := by
  unfold pageTouched
  rw [ho, hn]

@[simp] theorem pageTouched_self (pg : Page) (p : Part) : pageTouched pg p p = false := by
  cases pg <;> simp [pageTouched]

/-- A page that neither of two changes touches is touched by neither taken together. -/
theorem pageTouched_trans {pg : Page} {p q r : Part} (h1 : pageTouched pg p q = false)
    (h2 : pageTouched pg q r = false) : pageTouched pg p r = false := by
  cases pg <;>
    simp only [pageTouched, Bool.or_eq_false_iff, bne_eq_false_iff_eq, List.any_eq_false, Bool.and_eq_false_imp,
      Bool.not_eq_true] at h1 h2 ⊢
  case dish d => exact h1.trans h2
  case formation f => exact h1.trans h2
  case wind =>
    obtain ⟨⟨⟨s1, k1⟩, r1⟩, l1⟩ := h1
    obtain ⟨⟨⟨s2, k2⟩, r2⟩, l2⟩ := h2
    exact ⟨⟨⟨s1.trans s2, k1.trans k2⟩, r1.trans r2⟩, fun l hl => (l1 l hl).trans (l2 l hl)⟩
  case power => exact h1.trans h2
  case zone z =>
    obtain ⟨z1, c1⟩ := h1
    obtain ⟨z2, c2⟩ := h2
    refine ⟨z1.trans z2, fun hc => ?_⟩
    obtain ⟨d1, e1⟩ := c1 hc
    obtain ⟨d2, e2⟩ := c2 hc
    exact ⟨d1.trans d2, e1.trans e2⟩
  case lockEntry e => exact h1.trans h2

/-- A change of clock, NV RECORD and what a dish page does not show touches no page. -/
theorem pageTouched_of_shown {p q : Part} (pg : Page) (hd : ∀ d, (q.blocks.dish d).shown = (p.blocks.dish d).shown)
    (hw : q.blocks.site.working = p.blocks.site.working)
    (hq : q.blocks = { p.blocks with
      dishes := q.blocks.dishes, clock := q.blocks.clock, site := q.blocks.site }) : pageTouched pg p q = false := by
  have score : ∀ d, (q.blocks.dish d).score = (p.blocks.dish d).score := fun d => (congrArg Dish.score (hd d) : _)
  have form : q.blocks.form = p.blocks.form := by rw [hq]; rfl
  have wind : q.blocks.wind = p.blocks.wind := by rw [hq]
  have line : q.blocks.line = p.blocks.line := by rw [hq]; rfl
  have fa : q.blocks.fa = p.blocks.fa := by rw [hq]
  have zone : q.blocks.zone = p.blocks.zone := by rw [hq]; rfl
  have shed : q.blocks.shed = p.blocks.shed := by rw [hq]; rfl
  have entry : ∀ e, lockEntry e q.blocks = lockEntry e p.blocks := by intro e; rw [hq]; rfl
  cases pg <;> simp [pageTouched, powerKey, hd, hw, score, form, wind, line, fa, zone, shed, entry]

/-! ### What a step makes of a page -/

/-- The page reads as before and nothing that it shows has changed. -/
def Undisturbed (pg : Page) (p q : Part) : Prop := SamePage pg p.xm q.xm ∧ pageTouched pg p q = false

/-- The page reads as before or shows its block, and shows it where it was touched. -/
def Republished (pg : Page) (p q : Part) : Prop :=
  (SamePage pg p.xm q.xm ∨ Shows q pg) ∧ (pageTouched pg p q = true → Shows q pg)

@[simp] theorem Undisturbed.refl (pg : Page) (p : Part) : Undisturbed pg p p :=
  ⟨SamePage.refl _ _, pageTouched_self _ _⟩

theorem Undisturbed.trans {pg : Page} {p q r : Part} (h1 : Undisturbed pg p q) (h2 : Undisturbed pg q r) :
    Undisturbed pg p r := ⟨h1.1.trans h2.1, pageTouched_trans h1.2 h2.2⟩

theorem Undisturbed.republished {pg : Page} {p q : Part} (h : Undisturbed pg p q) : Republished pg p q :=
  ⟨.inl h.1, fun ht => absurd ht (by simp [h.2])⟩

theorem Republished.of_shows {pg : Page} (p : Part) {q : Part} (h : Shows q pg) : Republished pg p q :=
  ⟨.inr h, fun _ => h⟩

theorem Undisturbed.then_republished {pg : Page} {p q r : Part} (h1 : Undisturbed pg p q) (h2 : Republished pg q r) :
    Republished pg p r := by
  refine ⟨h2.1.imp h1.1.trans id, fun ht => h2.2 ?_⟩
  by_contra hn
  exact absurd ht (by simp [pageTouched_trans h1.2 (by simpa using hn)])

theorem mem_allPages (pg : Page) : pg ∈ allPages := by
  have hd : ∀ d : DishId, d ∈ allDishes := by decide
  have hf : ∀ f : FormationId, f ∈ allFormations := by decide
  cases pg <;> simp [allPages, allZones, hd, hf]

/-- The end of a command republishes every page that the command has touched (R167). -/
theorem flush_republished (pg : Page) {old p : Part} (h : SamePage pg old.xm p.xm) :
    Republished pg old (flush old p) := by
  obtain ⟨hin, hout⟩ := publishAll_page pg (flushedPages old p) (beforePages p)
  rw [← flush_eq] at hin hout
  have hb : (flush old p).blocks = (beforePages p).blocks := flush_blocks old p
  constructor
  · by_cases hm : pg ∈ flushedPages old p
    · exact .inr (hin hm)
    · exact .inl (h.trans ((samePage_takeOutputs pg { p.blocks with out := [] } p.blocks.out p.xm).trans (hout hm)))
  · intro ht
    rw [pageTouched_congr pg rfl hb] at ht
    refine hin (List.mem_append_left _ (List.mem_append_right _ (List.mem_filter.mpr ⟨?_, ht⟩)))
    exact mem_allPages pg

theorem run_republished (pg : Page) (f : Blocks → Blocks) (p : Part) : Republished pg p (run f p) :=
  flush_republished pg (p := ⟨_, p.xm⟩) (SamePage.refl _ _)

/-! ### Pages that are up to date -/

theorem Shows.upToDate {pg : Page} {p : Part} (h : Shows p pg) : UpToDate p pg :=
  ⟨p.blocks, h, pageTouched_self pg p⟩

/-- A page that is up to date is so after a step that republishes what it touches. -/
theorem Republished.upToDate {pg : Page} {p q : Part} (hc : pg ≠ .common) (h : Republished pg p q)
    (hu : UpToDate p pg) : UpToDate q pg := by
  obtain ⟨b, hb, hbp⟩ := hu
  rcases h.1 with hs | hs
  · by_cases ht : pageTouched pg p q = true
    · exact (h.2 ht).upToDate
    · exact ⟨b, hb.of_samePage hs (fun e => absurd e hc), pageTouched_trans hbp (by simpa using ht)⟩
  · exact hs.upToDate

/-- A lock entry that is up to date shows its record (R165). -/
theorem UpToDate.shows_lockEntry {p : Part} {e : Fin 36} (h : UpToDate p (.lockEntry e)) : Shows p (.lockEntry e) := by
  obtain ⟨b, hb, ht⟩ := h
  have he : lockEntry e b = lockEntry e p.blocks := by simpa [pageTouched] using ht
  rw [holds_iff (by simp)] at hb
  rw [Shows, holds_iff (by simp), hb, pageBytes, pageBytes, he]

/-! ### What leaves the pages undisturbed -/

theorem undisturbed_xm (pg : Page) (p : Part) {f : Exchange → Exchange} (h : SamePage pg p.xm (f p.xm)) :
    Undisturbed pg p (p.modXm f) := ⟨h, pageTouched_self pg p⟩

theorem undisturbed_runTo (pg : Page) (n : Nat) (p : Part) : Undisturbed pg p (p.modBlocks (Blocks.runTo n)) :=
  ⟨SamePage.refl _ _, pageTouched_of_shown pg (fun _ => rfl) rfl rfl⟩

theorem undisturbed_idle (pg : Page) (s : State) : Undisturbed pg s.part (idle s).part :=
  ⟨SamePage.refl _ _, pageTouched_of_shown pg (fun _ => rfl) rfl rfl⟩

theorem pageTouched_site (pg : Page) (p : Part) {x : SiteStore} (h : x.working = p.blocks.site.working) :
    pageTouched pg p (p.modBlocks (fun b => { b with site := x })) = false :=
  pageTouched_of_shown pg (fun _ => rfl) h rfl

theorem undisturbed_powerLoss (pg : Page) (p : Part) : Undisturbed pg p p.powerLoss := by
  refine ⟨⟨rfl, fun _ _ => rfl⟩, ?_⟩
  by_cases hc : p.blocks.site.commit.isSome = true
  · have hw : p.blocks.site.spoil.working = p.blocks.site.working := by simp only [SiteStore.spoil]
    rw [← pageTouched_site pg p hw]
    exact pageTouched_congr pg rfl (if_pos hc)
  · rw [← pageTouched_self pg p]
    exact pageTouched_congr pg rfl (if_neg hc)

/-- The words of the site computer disturb no page, and no page shows an amplifier-ready input (8.1, R26). -/
theorem undisturbed_seeOne (pg : Page) {p q : Part} {o : Outside} (ho : Outside.inSiteRegion o = true)
    (h : seeOne p o = some q) : Undisturbed pg p q := by
  cases o with
  | memoryWord addr v =>
    simp only [seeOne, Option.ite_none_right_eq_some, Option.some.injEq] at h
    obtain ⟨hw, rfl⟩ := h
    refine undisturbed_xm pg p (samePage_of_writeBytes addr _ rfl rfl ?_)
    intro a ha
    have := Page.owns_bounds ha
    simp only [Outside.inSiteRegion, Outside.wellFormed, Bool.or_eq_true, Bool.and_eq_true, decide_eq_true_eq,
      beq_iff_eq] at ho hw
    rw [lowBytes_length]
    omega
  | amplifierReady d ax =>
    simp only [seeOne, Option.some.injEq] at h
    subst h
    refine ⟨SamePage.refl _ _, pageTouched_of_shown pg (fun e => ?_) rfl rfl⟩
    simp only [Part.modBlocks, Blocks.modDish_dish]
    split
    · next he => subst he; cases ax <;> rfl
    · rfl

theorem undisturbed_see (pg : Page) {seen : List Outside} {p q : Part}
    (hs : seen.all Outside.inSiteRegion = true) (h : see seen p = some q) : Undisturbed pg p q := by
  induction seen generalizing p with
  | nil =>
    simp only [see, List.foldlM_nil, Option.pure_def, Option.some.injEq] at h
    exact h ▸ Undisturbed.refl pg p
  | cons o l ih =>
    simp only [List.all_cons, Bool.and_eq_true] at hs
    simp only [see, List.foldlM_cons, Option.bind_eq_bind, Option.bind_eq_some_iff] at h
    obtain ⟨p1, h1, h2⟩ := h
    exact (undisturbed_seeOne pg hs.1 h1).trans (ih hs.2 h2)

/-- What is written into the slate disturbs no page (8.1). -/
theorem samePage_slate (pg : Page) (s : SlotId) (off : Nat) (bs : List Byte) (ho : off + bs.length ≤ 128)
    {x y : Exchange} (he : y.editions = x.editions) (hm : y.mem = x.mem.writeBytes (slotBase s + off) bs) :
    SamePage pg x y := by
  refine samePage_of_writeBytes _ _ he hm (fun a ha => ?_)
  have := Page.owns_bounds ha
  have := s.isLt
  unfold slotBase
  omega

theorem samePage_setSlotState (pg : Page) (s : SlotId) (k : SlotState) {x y : Exchange} (he : y.editions = x.editions)
    (hm : y.mem = setSlotState s k x.mem) : SamePage pg x y :=
  samePage_slate pg s 0 (lowBytes 2 k.code.toNat) (by rw [lowBytes_length]; omega) he hm

theorem orderBytes_length (o : Order) : (orderBytes o).length = 102 := by
  simp [orderBytes, word16_length, zeros, fit_length]

theorem samePage_placeOrder (pg : Page) (s : SlotId) (o : Order) (x : Exchange) :
    SamePage pg x (x.modMem (placeOrder s o)) := by
  have fields : SamePage pg x (x.modMem (Memory.writeBytes (slotBase s + 2) (orderBytes o))) :=
    samePage_slate pg s 2 _ (by rw [orderBytes_length]; omega) rfl rfl
  exact fields.trans (samePage_setSlotState pg s .placed rfl rfl)

theorem samePage_recordTake (pg : Page) (s : SlotId) (o : Order) (named : Named) (standing : Bool)
    (code : Option AnswerCode) (x : Exchange) : SamePage pg x (recordTake s o named standing code x) := by
  unfold recordTake
  dsimp only
  split
  · exact samePage_setSlotState pg s .taken rfl rfl
  · exact ⟨rfl, fun _ _ => rfl⟩

theorem samePage_resetExchange (pg : Page) (x : Exchange) : SamePage pg x (resetExchange x) := by
  have slots : ∀ (l : List SlotId) (y : Exchange),
      SamePage pg y { y with mem := l.foldl (fun m s => setSlotState s .empty m) y.mem } := by
    intro l
    induction l with
    | nil => exact fun y => SamePage.refl _ _
    | cons s l ih =>
      intro y
      have first : SamePage pg y { y with mem := setSlotState s .empty y.mem } :=
        samePage_setSlotState pg s .empty rfl rfl
      exact first.trans (ih _)
  refine (slots allSlots x).trans (samePage_of_writeBytes 0x000C (zeros 4) rfl rfl (fun a ha => ?_))
  have := Page.owns_bounds ha
  simp only [zeros, List.length_replicate]
  omega

theorem samePage_sampleMark (pg : Page) (count : Nat) (x : Exchange) : SamePage pg x (sampleMark count x) := by
  unfold sampleMark
  dsimp only
  split <;> exact ⟨rfl, fun _ _ => rfl⟩

theorem samePage_lingerExpiry (pg : Page) (count : Nat) (x : Exchange) : SamePage pg x (lingerExpiry count x) := by
  unfold lingerExpiry
  dsimp only
  split
  · exact samePage_sampleMark pg count { x with linger := none }
  · exact samePage_sampleMark pg count { x with linger := none }

/-! ### What each kind of command makes of a page -/

theorem takeOrder_republished (pg : Page) (s : SlotId) (o : Order) (p : Part) :
    Republished pg p (takeOrder s o p) := flush_republished pg (samePage_recordTake pg s o _ _ _ p.xm)

theorem abandonHeld_free {s : SlotId} {p : Part} (h : ∀ g ∈ p.xm.heldList, g.slot ≠ s) : abandonHeld s p = p := by
  have hf : p.xm.heldList.find? (fun g => g.slot == s) = none :=
    List.find?_eq_none.mpr (fun g hg => by simpa using h g hg)
  rw [abandonHeld, hf]

/-- An order for a slot that is not held (R175). -/
theorem command_republished (pg : Page) {s : SlotId} {o : Order} {p : Part} (hn : abandonHeld s p = p) :
    Republished pg p (command s o p) := by
  have placed : Undisturbed pg p (p.modXm (Exchange.modMem (placeOrder s o))) :=
    undisturbed_xm pg p (samePage_placeOrder pg s o p.xm)
  unfold command
  split
  · rw [hn]
    exact placed.then_republished (takeOrder_republished pg s o _)
  · exact placed.republished

theorem linkReset_republished (pg : Page) (p : Part) : Republished pg p (linkReset p) :=
  flush_republished pg (samePage_resetExchange pg p.xm)

theorem pulse_republished (pg : Page) (p : Part) : Republished pg p (pulse p) := by
  unfold pulse
  refine ((undisturbed_runTo pg p.xm.pulseDue p).trans (undisturbed_xm pg _ ?_)).then_republished
    (run_republished pg _ _)
  exact SamePage.trans ⟨rfl, fun _ _ => rfl⟩ (samePage_sampleMark pg _ _)

theorem onLinger_undisturbed (pg : Page) (p : Part) : Undisturbed pg p (onLinger p) := by
  unfold onLinger
  split
  · exact Undisturbed.refl pg p
  · next n _ => exact (undisturbed_runTo pg n p).trans (undisturbed_xm pg _ (samePage_lingerExpiry pg _ _))

theorem onPresence_republished (pg : Page) (p : Part) : Republished pg p (onPresence p) := by
  unfold onPresence
  exact ((undisturbed_runTo pg p.xm.presenceDue p).trans
    (undisturbed_xm pg _ ⟨rfl, fun _ _ => rfl⟩)).then_republished (run_republished pg _ _)

theorem whileReady_republished {pg : Page} {f : Part → Part} {p : Part} (h : Republished pg p (f p)) :
    Republished pg p (whileReady f p) := by
  unfold whileReady
  split
  · exact h
  · exact (Undisturbed.refl pg p).republished

/-- After power-on every page shows its block (R167). -/
theorem restart_shows (pg : Page) (levels : FieldLevels) (p : Part) : Shows (p.restart levels) pg := by
  unfold Part.restart Part.powerOn
  exact (publishAll_page pg allPages _).1 (mem_allPages pg)

theorem abandonSlot_republished (pg : Page) (h : HeldOrder) (p : Part) : Republished pg p (abandonSlot h p) := by
  unfold abandonSlot
  exact (undisturbed_xm pg p ⟨rfl, fun _ _ => rfl⟩).then_republished (run_republished pg _ _)

theorem abandonHeld_republished (pg : Page) (s : SlotId) (p : Part) : Republished pg p (abandonHeld s p) := by
  unfold abandonHeld
  split
  · exact abandonSlot_republished pg _ p
  · exact (Undisturbed.refl pg p).republished

theorem sweepHeld_republished (pg : Page) (h : HeldOrder) (p : Part) : Republished pg p (sweepHeld h p) := by
  unfold sweepHeld
  split
  · split
    · exact (Undisturbed.refl pg p).republished
    · exact run_republished pg _ p
    all_goals exact abandonSlot_republished pg h p
  · exact (Undisturbed.refl pg p).republished

theorem sweepCut_republished (pg : Page) (s : SlotId) (p : Part) : Republished pg p (sweepCut s p) := by
  unfold sweepCut
  split
  · exact run_republished pg _ p
  · exact (Undisturbed.refl pg p).republished

theorem undisturbed_sweepEmpties (pg : Page) (p : Part) :
    Undisturbed pg p (p.modXm (fun x => allSlots.foldl (fun y s => sweepEmpty s y) x)) := by
  refine undisturbed_xm pg p ?_
  generalize p.xm = x
  induction allSlots generalizing x with
  | nil => exact SamePage.refl _ _
  | cons s l ih =>
    refine SamePage.trans ?_ (ih (sweepEmpty s x))
    unfold sweepEmpty
    split <;> exact ⟨rfl, fun _ _ => rfl⟩

/-! ### Pages that are kept up to date -/

theorem command_upToDate {pg : Page} (hc : pg ≠ .common) (s : SlotId) (o : Order) {p : Part} (h : UpToDate p pg) :
    UpToDate (command s o p) pg := by
  by_cases hr : p.xm.ready = true
  · rw [command, if_pos hr]
    have placed : Undisturbed pg (abandonHeld s p) ((abandonHeld s p).modXm (Exchange.modMem (placeOrder s o))) :=
      undisturbed_xm pg _ (samePage_placeOrder pg s o _)
    exact (placed.then_republished (takeOrder_republished pg s o _)).upToDate hc
      ((abandonHeld_republished pg s p).upToDate hc h)
  · rw [command, if_neg hr]
    exact (undisturbed_xm pg p (samePage_placeOrder pg s o p.xm)).republished.upToDate hc h

theorem foldl_upToDate {pg : Page} {α : Type} (f : α → Part → Part)
    (hf : ∀ a p, UpToDate p pg → UpToDate (f a p) pg) (l : List α) {p : Part} (h : UpToDate p pg) :
    UpToDate (l.foldl (fun q a => f a q) p) pg := by
  induction l generalizing p with
  | nil => exact h
  | cons a l ih => exact ih (hf a p h)

theorem sweep_upToDate {pg : Page} (hc : pg ≠ .common) {p : Part} (h : UpToDate p pg) : UpToDate (sweep p) pg := by
  have held := foldl_upToDate sweepHeld (fun g q => (sweepHeld_republished pg g q).upToDate hc) p.xm.heldList h
  have emptied := (undisturbed_sweepEmpties pg _).republished.upToDate hc held
  have cut := foldl_upToDate sweepCut (fun s q => (sweepCut_republished pg s q).upToDate hc) allSlots emptied
  exact foldl_upToDate takePlaced (fun s q => (takeOrder_republished pg s _ q).upToDate hc) _ cut

/-! ### The commands -/

/-- An order command places its order and has it taken (8.8). -/
theorem exec_of_orderOf {c : Instr} {slot : SlotId} {o : Order} (h : orderOf c = some (slot, o)) (s : State) :
    exec c s = act (command slot o) s := by
  cases c <;> cases h <;> rfl

/-- The commands that may make a sweep (R169, R172). -/
def MaySweep : Instr → Prop
  | .nudgeSweep _ => True
  | .sweepTimerExpiry _ => True
  | .registerWriteIgnored .nudge v => v = 1
  | _ => False

theorem act_part {f : Part → Part} {s t : State} (h : act f s = .next t) : t.part = f s.part := by
  cases h; rfl

theorem actBlocks_republished {f : Blocks → Blocks} {s t : State} (h : actBlocks f s = .next t) (pg : Page) :
    Republished pg s.part t.part := by
  rw [act_part h]
  exact run_republished pg f s.part

/-- A command before which something happened outside acts on the part that this leaves. -/
theorem actSeen_part {seen : List Outside} {f : Part → Part} {s t : State} (h : actSeen seen f s = .next t)
    (hw : seen.all Outside.inSiteRegion = true) :
    ∃ p, (∀ pg, Undisturbed pg s.part p) ∧ t.part = f p := by
  unfold actSeen at h
  split at h
  · next p hp => exact ⟨p, fun pg => undisturbed_see pg hw hp, act_part h⟩
  · cases h

theorem actSeen_republished {seen : List Outside} {f : Part → Part} {s t : State} (h : actSeen seen f s = .next t)
    (hw : seen.all Outside.inSiteRegion = true) {pg : Page} (hf : ∀ p, Republished pg p (f p)) :
    Republished pg s.part t.part := by
  obtain ⟨p, hp, ht⟩ := actSeen_part h hw
  rw [ht]
  exact (hp pg).then_republished (hf p)

/-- A command is an order for a slot, or makes a sweep of a part whose pages nothing has disturbed, or republishes
what it touches. -/
theorem exec_pages {c : Instr} {s t : State} (hw : c.seen.all Outside.inSiteRegion = true)
    (h : exec c s = .next t) :
    (∃ slot o, orderOf c = some (slot, o) ∧ t.part = command slot o s.part)
      ∨ (MaySweep c ∧ ∃ p, (∀ pg, Undisturbed pg s.part p) ∧ (t.part = p ∨ t.part = sweep p))
      ∨ ∀ pg, Republished pg s.part t.part := by
  rcases ho : orderOf c with _ | ⟨slot, o⟩
  swap
  · rw [exec_of_orderOf ho] at h
    exact .inl ⟨slot, o, rfl, act_part h⟩
  right
  cases c
  case form | disband | halt | slew | trackLoad | track | raster | stow | release | meltMode | lock | unlock
      | setBudget | clearFault | setTime | adjustTime | adoptSite | commitSite => cases ho
  case powerOn levels =>
    right; intro pg
    rw [act_part h]
    exact .of_shows _ (restart_shows pg levels _)
  case powerLoss =>
    right; intro pg
    rw [act_part h]
    exact (undisturbed_powerLoss pg _).republished
  case nudgeSweep seen =>
    left
    obtain ⟨p, hp, ht⟩ := actSeen_part h hw
    refine ⟨trivial, p, hp, ?_⟩
    rw [ht, writeNudge]
    split
    · exact .inr rfl
    · exact .inl rfl
  case nudgeLinkReset =>
    right; intro pg
    rw [act_part h, writeNudge]
    split
    · exact linkReset_republished pg _
    · exact (Undisturbed.refl pg _).republished
  case causeClear v =>
    right; intro pg
    rw [act_part h]
    exact (undisturbed_xm pg _ ⟨rfl, fun _ _ => rfl⟩).republished
  case maskWrite v =>
    right; intro pg
    rw [act_part h]
    exact (undisturbed_xm pg _ ⟨rfl, fun _ _ => rfl⟩).republished
  case registerWriteIgnored target v =>
    cases target with
    | ident =>
      right; intro pg
      rw [act_part h]
      exact (Undisturbed.refl pg _).republished
    | nudge =>
      have ht : t.part = writeNudge v s.part := act_part h
      by_cases hv : v = 1
      · subst hv
        refine .inl ⟨rfl, s.part, fun pg => Undisturbed.refl pg _, ?_⟩
        rw [ht, writeNudge]
        split
        · exact .inr rfl
        · exact .inl rfl
      · right; intro pg
        rw [ht, writeNudge, if_neg hv]
        split_ifs
        · exact linkReset_republished pg _
        · exact (Undisturbed.refl pg _).republished
        · exact (Undisturbed.refl pg _).republished
  case sweepTimerExpiry seen =>
    left
    obtain ⟨p, hp, ht⟩ := actSeen_part h hw
    by_cases hr : p.xm.ready = true
    · rw [whileReady, if_pos hr, sweepExpiry] at ht
      refine ⟨trivial, _, fun pg => (hp pg).trans ?_, .inr ht⟩
      exact (undisturbed_runTo pg p.xm.sweepDue p).trans
        (undisturbed_xm pg _ (f := fun x => { x with sweepDue := _ }) ⟨rfl, fun _ _ => rfl⟩)
    · rw [whileReady, if_neg hr] at ht
      exact ⟨trivial, p, hp, .inl ht⟩
  case pulseEvent seen =>
    exact .inr (fun pg => actSeen_republished h hw (fun p => whileReady_republished (pulse_republished pg p)))
  case lingerTimerExpiry seen =>
    exact .inr (fun pg => actSeen_republished h hw (fun p => (onLinger_undisturbed pg p).republished))
  case presenceCheck seen =>
    exact .inr (fun pg => actSeen_republished h hw (fun p => whileReady_republished (onPresence_republished pg p)))
  case brakeReleaseTimerExpiry d seen =>
    exact .inr (fun pg => actSeen_republished h hw (fun p => run_republished pg _ p))
  all_goals exact .inr (actBlocks_republished h)

/-- Every step keeps a page that is up to date so (R26, R70, R89, R121, R144). -/
theorem step_upToDate {pg : Page} {s t : State} (hc : pg ≠ .common)
    (hw : ∀ c rest, s.pending = c :: rest → c.seen.all Outside.inSiteRegion = true) (h : step s = .next t)
    (hu : UpToDate s.part pg) : UpToDate t.part pg := by
  unfold step at h
  split at h
  · cases h
    exact (undisturbed_idle pg s).republished.upToDate hc hu
  · next c rest hp =>
    rcases exec_pages (hw c rest hp) h with ⟨slot, o, -, ht⟩ | ⟨-, p, hp, ht⟩ | hr
    · rw [ht]; exact command_upToDate hc slot o hu
    · have hp := (hp pg).republished.upToDate hc hu
      rcases ht with ht | ht
      · rw [ht]; exact hp
      · rw [ht]; exact sweep_upToDate hc hp
    · exact (hr pg).upToDate hc hu

theorem step_lockViewTrue {s t : State} (hl : s.part.LockViewTrue)
    (hw : ∀ c rest, s.pending = c :: rest → c.seen.all Outside.inSiteRegion = true) (h : step s = .next t) :
    t.part.LockViewTrue :=
  fun e => (step_upToDate (by simp) hw h (hl e).upToDate).shows_lockEntry

/-- A command that is no sweep, and no order for a slot that is held, republishes what it touches (R167, R168). -/
theorem exec_republished {c : Instr} {s t : State} (hw : c.seen.all Outside.inSiteRegion = true) (hs : ¬ MaySweep c)
    (ho : ∀ slot o, orderOf c = some (slot, o) → ∀ h ∈ s.part.xm.heldList, h.slot ≠ slot) (h : exec c s = .next t)
    (pg : Page) : Republished pg s.part t.part := by
  rcases exec_pages hw h with ⟨slot, o, horder, ht⟩ | ⟨hsweeps, -⟩ | hr
  · rw [ht]
    exact command_republished pg (abandonHeld_free (ho slot o horder))
  · exact absurd hsweeps hs
  · exact hr pg

/-- Settles O50: every page is rewritten at the end of the command that touches it, and no command writes elsewhere
into a page. -/
theorem theLockViewShowsTheLockTable : Obligations.TheLockViewShowsTheLockTable := by
  refine ⟨fun s t hl hw h => step_lockViewTrue hl hw h, fun pg s t hc hu hw h => step_upToDate hc hw h hu, ?_⟩
  intro pg c s t hw hn he hi ho h
  refine exec_republished hw ?_ ho h pg
  intro hs
  cases c
  case nudgeSweep seen => exact hn seen rfl
  case sweepTimerExpiry seen => exact he seen rfl
  case registerWriteIgnored target v =>
    cases target with
    | ident => exact hs
    | nudge => exact hi (by rw [show v = 1 from hs])
  all_goals exact hs

end Sys2Proof.Machine
end

