-- ==== Sys2Proof/Proofs/Settling.lean ====
section
/-! SUPPORT. What the end of a command of one block needs: blocks that stay as they are when they settle, the pages
that an update of one record touches, and the republications of the common page. -/

namespace Sys2Proof.Machine

/-! ### Blocks in which nothing follows (R112, R118, R140) -/

/-- No STOW order stands, no shed claim waits, and WW is not STOWING or has a dish other than `skip` that is moving
to stow: settling looks at the messages alone. -/
def Still (skip : Option DishId) (b : Blocks) : Prop :=
  b.wind.standing = [] ∧ (b.wind.state = .stowing → ∃ e, some e ≠ skip ∧ movingToStow b e = true)
    ∧ ∀ d, (b.shed d).phase ≠ .claiming

theorem Blocks.QuietBut.still {skip : Option DishId} {b : Blocks} (h : b.QuietBut skip) : Still skip b := by
  obtain ⟨-, -, hs, hw, hc⟩ := h
  exact ⟨hs, hw, hc⟩

theorem Blocks.Quiet.still {b : Blocks} (h : b.Quiet) (skip : Option DishId) : Still skip b := by
  obtain ⟨-, -, hs, hw, hc⟩ := h
  exact ⟨hs, fun e => absurd e hw, hc⟩

/-- What no dish but `skip` and no block sees is no hindrance. -/
theorem Still.congr {skip : Option DishId} {b b' : Blocks} (h : Still skip b)
    (hs : b'.wind.standing = b.wind.standing) (hw : b'.wind.state = b.wind.state)
    (hm : ∀ e, some e ≠ skip → movingToStow b' e = movingToStow b e)
    (hc : ∀ d, (b'.shed d).phase ≠ .claiming) : Still skip b' := by
  obtain ⟨h1, h2, -⟩ := h
  refine ⟨hs.trans h1, fun e => ?_, hc⟩
  obtain ⟨d, hd, hd'⟩ := h2 (hw ▸ e)
  exact ⟨d, hd, (hm d hd).trans hd'⟩

/-- Settling sees the wind watch, the sheds and the stow reasons. -/
theorem Still.of_records {skip : Option DishId} {b b' : Blocks} (h : Still skip b) (hw : b'.wind = b.wind)
    (hsh : b'.sheds = b.sheds) (hd : ∀ e, (b'.dish e).reasons = (b.dish e).reasons) : Still skip b' := by
  refine h.congr (by rw [hw]) (by rw [hw]) (fun e _ => ?_) ?_
  · simp only [movingToStow, Dish.reasonsEmpty, Blocks.stow, hw, hd]
  · simp only [Blocks.shed, hsh]
    exact h.2.2

theorem Still.modDish {skip : Option DishId} {b : Blocks} (h : Still skip b) (d : DishId) {f : Dish → Dish}
    (hf : (f (b.dish d)).reasons = (b.dish d).reasons) : Still skip (b.modDish d f) := by
  refine h.of_records rfl rfl (fun e => ?_)
  rw [Blocks.modDish_dish]
  split
  · next he => rw [hf, he]
  · rfl

theorem Still.withoutGrant {skip : Option DishId} {b : Blocks} (h : Still skip b) (d : DishId) :
    Still skip (b.withoutGrant d) :=
  (h.modDish (f := fun x => { x with motionGrant := none }) d rfl).of_records rfl rfl (fun _ => rfl)

theorem withoutGrant_dish (b : Blocks) (d : DishId) :
    (b.withoutGrant d).dish d = { b.dish d with motionGrant := none } :=
  b.modDish_dish_self d (fun x => { x with motionGrant := none })

theorem Still.modStow {d : DishId} {b : Blocks} (h : Still (some d) b) (f : StowRecord → StowRecord) :
    Still (some d) (b.modStow d f) := by
  refine h.congr rfl rfl (fun e he => ?_) h.2.2
  have hne : e ≠ d := fun e' => he (e' ▸ rfl)
  simp [movingToStow, hne]

theorem tidy_still {skip : Option DishId} {b : Blocks} (old : Blocks) (h : Still skip b) : tidy old b = b := by
  obtain ⟨hs, hw, hc⟩ := h
  have sheds : overDishes allDishes (fun d x =>
      if shedTouched (old.dish d) (x.dish d) then recheckShed d x else x) b = b :=
    overDishes_fix _ _ _ (fun d _ => by simp [recheckShed_fix d b (hc d)])
  have stowed : checkStowed b = b := by
    unfold checkStowed
    rw [if_neg]
    rintro ⟨hst, hno⟩
    obtain ⟨e, -, he⟩ := hw hst
    have hmem : ∀ e : DishId, e ∈ allDishes := by decide
    exact absurd he (by simpa using List.any_eq_false.mp hno e (hmem e))
  simp only [tidy, sheds, reviewStows_fix b hs, stowed]

theorem settle_still {skip : Option DishId} {b : Blocks} (old : Blocks) (h : Still skip b) (hi : b.inbox = []) :
    settle old b = b := by
  rw [settle, tidy_still old h, drain_empty _ _ hi]

/-- One message that waits is taken, and nothing follows. -/
theorem settle_message {skip skip' : Option DishId} {b b' : Blocks} {m : Message} (old : Blocks) (h : Still skip b)
    (hi : b.inbox = [m]) (hm : handle m { b with inbox := [] } = b') (h' : Still skip' b') (hi' : b'.inbox = []) :
    settle old b = b' := by
  rw [settle, tidy_still old h, messageFuel, drain_cons 4095 b m [] hi, hm, tidy_still b h', drain_empty _ _ hi']

/-- Settling looks neither at the messages that wait nor at what has been handed on. -/
theorem Still.boxes {skip : Option DishId} {b : Blocks} (h : Still skip b) (i : List Message) (o : List Output) :
    Still skip { b with inbox := i, out := o } := h.of_records rfl rfl (fun _ => rfl)

theorem settle_outs {skip : Option DishId} {b : Blocks} (old : Blocks) (h : Still skip b) (hi : b.inbox = [])
    (o : List Output) : settle old { b with out := o } = { b with out := o } :=
  settle_still old (h.of_records rfl rfl (fun _ => rfl)) hi

/-! ### What an update touches (R26, R70, R89, R121, R144) -/

/-- No field whose change republishes the page differs. -/
def Untouched (pg : Page) (b b' : Blocks) : Prop := ∀ x y, pageTouched pg ⟨b, x⟩ ⟨b', y⟩ = false

@[simp] theorem Untouched.refl (pg : Page) (b : Blocks) : Untouched pg b b :=
  fun _ _ => (pageTouched_congr pg rfl rfl).trans (pageTouched_self pg ⟨b, freshExchange⟩)

theorem Untouched.trans {pg : Page} {b c d : Blocks} (h1 : Untouched pg b c) (h2 : Untouched pg c d) :
    Untouched pg b d := fun x y => pageTouched_trans (h1 x x) (h2 x y)

theorem untouched_runTo (pg : Page) (n : Nat) (b : Blocks) : Untouched pg b (b.runTo n) :=
  fun _ _ => pageTouched_of_shown pg (fun _ => rfl) rfl rfl

/-- A change of a dish that its page shows touches that page, and by its score a zone page. -/
theorem untouched_modDish {pg : Page} {d : DishId} (h : pg ≠ .dish d) {b : Blocks} {f : Dish → Dish}
    (hf : (f (b.dish d)).score = (b.dish d).score) : Untouched pg b (b.modDish d f) := by
  have score : ∀ e, ((b.modDish d f).dish e).score = (b.dish e).score := by
    intro e
    rw [Blocks.modDish_dish]
    split
    · next he => rw [hf, he]
    · rfl
  intro x y
  rw [← pageTouched_self pg ⟨b, x⟩]
  cases pg
  case dish e =>
    have he : e ≠ d := fun e' => h (e' ▸ rfl)
    simp [pageTouched, he]
  case zone z => simp [pageTouched, score]
  all_goals rfl

/-- A change of a dish that its page does not show touches none. -/
theorem untouched_modDish_shown (pg : Page) {d : DishId} {b : Blocks} {f : Dish → Dish}
    (hf : (f (b.dish d)).shown = (b.dish d).shown) : Untouched pg b (b.modDish d f) := by
  refine fun _ _ => pageTouched_of_shown pg (fun e => ?_) rfl rfl
  rw [Blocks.modDish_dish]
  split
  · next he => rw [hf, he]
  · rfl

theorem untouched_modHeater (pg : Page) (z : ZoneId) (f : HeaterOutput → HeaterOutput) (b : Blocks) :
    Untouched pg b (b.modHeater z f) := by
  intro x y
  rw [← pageTouched_self pg ⟨b, x⟩]
  cases pg <;> rfl

theorem untouched_modFa (pg : Page) {f : Arbiter → Arbiter} {b : Blocks} (hf : (f b.fa).requested = b.fa.requested) :
    Untouched pg b (b.modFa f) := by
  intro x y
  rw [← pageTouched_self pg ⟨b, x⟩]
  cases pg
  case power => simp [pageTouched, powerKey, Blocks.settings, hf]
  all_goals rfl

theorem untouched_modStow {pg : Page} (h : pg ≠ .wind) (d : DishId) (f : StowRecord → StowRecord) (b : Blocks) :
    Untouched pg b (b.modStow d f) := by
  intro x y
  rw [← pageTouched_self pg ⟨b, x⟩]
  cases pg
  case wind => exact absurd rfl h
  all_goals rfl

theorem untouched_modShed {pg : Page} {d : DishId} (h : pg ≠ .zone (zoneOf d .surface)) (f : Shed → Shed)
    (b : Blocks) : Untouched pg b (b.modShed d f) := by
  intro x y
  rw [← pageTouched_self pg ⟨b, x⟩]
  cases pg
  case zone z =>
    by_cases hz : zoneClass z = .surface
    · have hd : zoneDish z ≠ d := by
        rintro rfl
        refine h (congrArg Page.zone (Fin.ext ?_))
        have hm : z.val % 3 = 0 := by
          unfold zoneClass at hz
          split_ifs at hz
          assumption
        simp only [zoneOf, zoneDish]
        omega
      simp [pageTouched, hd]
    · simp [pageTouched, hz]
  all_goals rfl

theorem untouched_modForm {pg : Page} {k : FormationId} (h : pg ≠ .formation k) (f : Formation → Formation)
    (b : Blocks) : Untouched pg b (b.modForm k f) := by
  intro x y
  rw [← pageTouched_self pg ⟨b, x⟩]
  cases pg
  case formation j =>
    have hj : j ≠ k := fun e => h (e ▸ rfl)
    simp [pageTouched, hj]
  all_goals rfl

theorem untouched_out (pg : Page) (b : Blocks) (o : List Output) : Untouched pg b { b with out := o } := by
  intro x y
  rw [← pageTouched_self pg ⟨b, x⟩]
  cases pg <;> rfl

theorem untouched_withoutGrant {pg : Page} {d : DishId} (h : pg ≠ .dish d) (b : Blocks) :
    Untouched pg b (b.withoutGrant d) := by
  have dish : Untouched pg b (b.modDish d (fun x => { x with motionGrant := none })) := untouched_modDish h rfl
  have arbiter : Untouched pg (b.modDish d (fun x => { x with motionGrant := none }))
      ((b.modDish d (fun x => { x with motionGrant := none })).modFa (fun _ => (b.withoutGrant d).fa)) :=
    untouched_modFa pg rfl
  exact dish.trans arbiter

/-! ### The common page (R168) -/

theorem takeEvent_ready (level count : Nat) (e : TrailEvent) (time : ArrayTime) (valid : Bool) (x : Exchange) :
    (takeEvent level count e time valid x).ready = x.ready := by
  have sample : (sampleMark count x).ready = x.ready := by
    unfold sampleMark; dsimp only; split <;> rfl
  have entry : ∀ (e : TrailEvent) (y : Exchange), (writeEntry level count e time valid y).ready = y.ready := by
    intro e y
    unfold writeEntry
    dsimp only
    split_ifs <;> rfl
  unfold takeEvent
  dsimp only
  split_ifs <;> simp only [entry, sample]

theorem takeOutputs_ready (b : Blocks) (outs : List Output) (x : Exchange) :
    (takeOutputs b outs x).ready = x.ready := by
  unfold takeOutputs
  induction outs generalizing x with
  | nil => rfl
  | cons o l ih =>
    rw [List.foldl_cons, ih]
    cases o with
    | trail e t v =>
      have := takeEvent_ready b.settings.triggerLevel b.clock.count e t v x
      cases e <;> exact this
    | answer s a t v => rfl
    | cause k => rfl
    | page p => rfl

/-- An output that writes no trail entry. -/
def Output.noEntry : Output → Bool
  | .trail _ _ _ => false
  | .answer _ _ _ _ => true
  | .cause _ => true
  | .page _ => true

/-- Where no entry is written and neither READY, nor the settings state, nor the attended state changes, the common
page is not republished but by marks. -/
theorem commonPublications_zero {old : Part} {b : Blocks} {x : Exchange} (ho : b.out.all Output.noEntry = true)
    (hr : x.ready = old.xm.ready) (hs : b.site = old.blocks.site) (hp : b.presence = old.blocks.presence) :
    commonPublications old ⟨b, x⟩ = 0 := by
  have outs : ∀ (l : List Output) (y : Exchange), l.all Output.noEntry = true →
      outputPublications b.settings.triggerLevel b.clock l y = 0 := by
    intro l
    induction l with
    | nil => exact fun _ _ => rfl
    | cons o l ih =>
      intro y hl
      simp only [List.all_cons, Bool.and_eq_true] at hl
      obtain ⟨ho, hl⟩ := hl
      cases o with
      | trail e t v => exact absurd ho (by simp [Output.noEntry])
      | _ => exact (Nat.zero_add _).trans (ih _ hl)
  rw [commonPublications, outs _ _ ho, beforePages_eq, summaryChanges, takeOutputs_ready]
  simp [hr, hs, hp, bit]

/-! ### Commands of one block that nothing follows -/

theorem Blocks.without_out {b : Blocks} (h : b.out = []) : { b with out := [] } = b := by rw [← h]

/-- A command whose action settles at blocks that have handed on `outs`. -/
theorem actBlocks_leaves_untouched {f : Blocks → Blocks} {s : State} {b : Blocks} {outs : List Output}
    {pages : List Page} (hf : settle s.part.blocks (f s.part.blocks) = { b with out := outs }) (ho : b.out = [])
    (hm : ∀ pg ∈ markedPages outs, pg ∈ pages) (ht : ∀ pg, pg ∉ pages → Untouched pg s.part.blocks b)
    (hc : Page.common ∈ pages ∨ (outs.all Output.noEntry = true ∧ b.site = s.part.blocks.site
      ∧ b.presence = s.part.blocks.presence)) :
    Leaves (actBlocks f s) s b s.part.xm outs pages := by
  refine actBlocks_leaves hf (Blocks.without_out ho).symm rfl hm (fun pg hp => ht pg hp s.part.xm _) (hc.imp id ?_)
  rintro ⟨he, hs, hp⟩
  exact commonPublications_zero he rfl hs hp

/-- A command that sends no message and hands nothing on leaves what its action makes of the blocks. -/
theorem actBlocks_silent {f : Blocks → Blocks} {s : State} {b : Blocks} {pages : List Page}
    (hf : f s.part.blocks = b) (hs : Still none b) (hi : b.inbox = []) (ho : b.out = [])
    (hsite : b.site = s.part.blocks.site) (hp : b.presence = s.part.blocks.presence)
    (ht : ∀ pg, pg ∉ pages → Untouched pg s.part.blocks b) :
    Leaves (actBlocks f s) s b s.part.xm [] pages := by
  refine actBlocks_leaves_untouched ?_ ho (by simp [markedPages]) ht (.inr ⟨rfl, hsite, hp⟩)
  rw [hf, Blocks.without_out ho]
  exact settle_still _ hs hi

/-- The same of a command that has one page republished besides. -/
theorem actBlocks_published {f : Blocks → Blocks} {s : State} {b : Blocks} {pg : Page}
    (hf : f s.part.blocks = b.publish pg) (hs : Still none b) (hi : b.inbox = []) (ho : b.out = [])
    (hsite : b.site = s.part.blocks.site) (hp : b.presence = s.part.blocks.presence)
    (ht : ∀ q, q ∉ [pg] → Untouched q s.part.blocks b) :
    Leaves (actBlocks f s) s b s.part.xm [.page pg] [pg] := by
  have still : Still none (b.publish pg) := hs.of_records rfl rfl (fun _ => rfl)
  refine actBlocks_leaves_untouched ?_ ho (by simp [markedPages]) ht (.inr ⟨rfl, hsite, hp⟩)
  rw [hf, settle_still _ still hi, Blocks.publish, ho]
  rfl

end Sys2Proof.Machine
end

