-- ==== Sys2Proof/Proofs/DishEvents.lean ====
section
/-! SUPPORT. The events of the dish drives and of the heater outputs that send no message (chapter 1). -/

namespace Sys2Proof.Machine

theorem Still.runTo {skip : Option DishId} {b : Blocks} (h : Still skip b) (n : Nat) : Still skip (b.runTo n) :=
  h.of_records rfl rfl (fun _ => rfl)

/-- A command that changes the records of one dish, but for its stow reasons and its score. -/
theorem actBlocks_dish {f : Blocks → Blocks} {s : State} {d : DishId} {g : Dish → Dish} (n : Nat)
    (hq : s.part.blocks.Quiet) (hf : f s.part.blocks = (s.part.blocks.runTo n).modDish d g)
    (hr : (g (s.part.blocks.dish d)).reasons = (s.part.blocks.dish d).reasons)
    (hsc : (g (s.part.blocks.dish d)).score = (s.part.blocks.dish d).score) :
    Leaves (actBlocks f s) s ((s.part.blocks.runTo n).modDish d g) s.part.xm [] [.dish d] := by
  have still : Still none (s.part.blocks.runTo n) := (hq.still none).runTo n
  obtain ⟨hi, ho, -⟩ := hq
  refine actBlocks_silent hf (still.modDish d hr) hi ho rfl rfl (fun pg hp => ?_)
  exact (untouched_runTo pg n _).trans (untouched_modDish (by simpa using hp) hsc)

/-- A command that changes what no page shows of a dish. -/
theorem actBlocks_unshown {f : Blocks → Blocks} {s : State} {d : DishId} {g : Dish → Dish}
    (hq : s.part.blocks.Quiet) (hf : f s.part.blocks = s.part.blocks.modDish d g)
    (hr : (g (s.part.blocks.dish d)).reasons = (s.part.blocks.dish d).reasons)
    (hsh : (g (s.part.blocks.dish d)).shown = (s.part.blocks.dish d).shown) :
    Leaves (actBlocks f s) s (s.part.blocks.modDish d g) s.part.xm [] [] := by
  have still : Still none s.part.blocks := hq.still none
  obtain ⟨hi, ho, -⟩ := hq
  exact actBlocks_silent hf (still.modDish d hr) hi ho rfl rfl (fun pg _ => untouched_modDish_shown pg hsh)

/-! ### Readings and levels (R17, R19, R24) -/

theorem Dish.modAxis_reasons (x : Dish) (a : AxisId) (f : Axis → Axis) : (x.modAxis a f).reasons = x.reasons := by
  cases a <;> rfl

/-- The page of a dish is not republished for a change of its axes (R26). -/
theorem Dish.modAxis_shown (x : Dish) (a : AxisId) (f : Axis → Axis) : (x.modAxis a f).shown = x.shown := by
  cases a <;> rfl

/-- Settles O26: none of these is a field whose change republishes the dish page. -/
theorem levelsAndReadingsAreTaken : Obligations.LevelsAndReadingsAreTaken := by
  intro d a s b hq
  refine ⟨fun x => ?_, ?_, ?_, ?_⟩
  · exact actBlocks_unshown hq rfl (Dish.modAxis_reasons _ _ _) (Dish.modAxis_shown _ _ _)
  · exact actBlocks_unshown hq rfl (Dish.modAxis_reasons _ _ _) (Dish.modAxis_shown _ _ _)
  · exact actBlocks_unshown hq rfl (Dish.modAxis_reasons _ _ _) (Dish.modAxis_shown _ _ _)
  · exact actBlocks_unshown hq rfl rfl rfl

/-! ### Heater windows (R25) -/

theorem actBlocks_heater {f : Blocks → Blocks} {s : State} {z : ZoneId} {g : HeaterOutput → HeaterOutput} (n : Nat)
    (hq : s.part.blocks.Quiet) (hf : f s.part.blocks = (s.part.blocks.runTo n).modHeater z g) :
    Leaves (actBlocks f s) s ((s.part.blocks.runTo n).modHeater z g) s.part.xm [] [] := by
  have still : Still none ((s.part.blocks.runTo n).modHeater z g) :=
    ((hq.still none).runTo n).of_records rfl rfl (fun _ => rfl)
  obtain ⟨hi, ho, -⟩ := hq
  exact actBlocks_silent hf still hi ho rfl rfl
    (fun pg _ => (untouched_runTo pg n _).trans (untouched_modHeater pg z g _))

/-- The window of a zone begins within the next 10 s, at its place in them (R25). -/
theorem nextWindow_spec (z : ZoneId) (count : Nat) :
    count ≤ nextWindow z count ∧ nextWindow z count < count + 10000 ∧ nextWindow z count % 10000 = 250 * z.val := by
  have := z.isLt
  unfold nextWindow windowPhase
  omega

/-- The window begins at the running count at which it is due. -/
theorem beginWindow_eq (z : ZoneId) (b : Blocks) :
    beginWindow z b = (b.runTo (nextWindow z b.clock.count)).modHeater z
      (fun _ => ⟨decide (0 < (b.zone z).applied), nextWindow z b.clock.count⟩) := by
  have hc : (b.runTo (nextWindow z b.clock.count)).clock.count = nextWindow z b.clock.count := by
    have := (nextWindow_spec z b.clock.count).1
    simp only [Blocks.runTo_clock, Clock.advance_count]
    omega
  have ha : decide (0 < onTime (b.zone z).applied) = decide (0 < (b.zone z).applied) := by
    unfold onTime
    exact decide_eq_decide.mpr (by omega)
  unfold beginWindow
  dsimp only
  rw [hc, Blocks.runTo_zone, ha]

/-- Settles O34: the window is at its place in the 10 s, and the on-time is ten times the applied duty. -/
theorem theHeaterOutputsFollowTheirDuty : Obligations.TheHeaterOutputsFollowTheirDuty := by
  intro z s hq
  constructor
  · obtain ⟨h1, h2, h3⟩ := nextWindow_spec z s.part.blocks.clock.count
    exact ⟨nextWindow z s.part.blocks.clock.count, h1, h2, h3, actBlocks_heater _ hq (beginWindow_eq z _)⟩
  · intro hon
    refine actBlocks_heater _ hq ?_
    rw [endOnTime, if_pos hon, onTime, Nat.mul_comm]

/-! ### The servo (R12, R18, R19) -/

/-- A SLEW profile that is not over gives the rate and the position of R12. -/
theorem stepSlew_running {now : ArrayTime} {p : Profile} (x : Axis) (h : (now - p.startInstant).toNat < p.duration) :
    stepSlew now p x =
      let e := (now - p.startInstant).toNat
      let rate := min p.v (min (p.a * e / 1000) (p.a * (p.duration - e) / 1000))
      { x with
        rate := rate
        position := p.start + p.dir * min ((p.target - p.start).natAbs : Int) ((p.travelled + rate) / 100)
        profile := some { p with travelled := p.travelled + rate } } := by
  unfold stepSlew
  exact if_pos h

theorem Axis.advance_slew {x : Axis} {p : Profile} (now : ArrayTime) (tolerance : Nat) (hp : x.profile = some p)
    (hk : p.kind = .slew) (he : p.ended = false) : x.advance .moving now tolerance = stepSlew now p x := by
  simp [Axis.advance, hp, hk, he]

/-- The demand of an axis whose following error is within the limit (R18). -/
theorem Axis.serve_within {st : Settings} {x : Axis} {enc : Int} (he : x.encoder = some enc)
    (hl : (x.position - enc).natAbs ≤ st.followLimit) :
    x.serve st =
      let bound : Int := (11 * x.rateSetting / 10 : Nat)
      { x with
        rateDemand := max (-bound) (min bound (x.rate + ((x.position - enc) * st.loopGain).tdiv 1000))
        followingCount := 0 } := by
  simp [Axis.serve, rateDemandOf, Axis.error, he, Nat.not_lt.mpr hl]

theorem Blocks.modDish_modDish (b : Blocks) (d : DishId) (f g : Dish → Dish) :
    (b.modDish d f).modDish d g = b.modDish d (fun x => g (f x)) := by
  simp [Blocks.modDish]

/-- An update of a dish is what it makes of the record that the dish has. -/
theorem Blocks.modDish_congr {b : Blocks} {d : DishId} {f g : Dish → Dish} (h : f (b.dish d) = g (b.dish d)) :
    b.modDish d f = b.modDish d g := by
  unfold Blocks.dish at h
  unfold Blocks.modDish
  rw [h]

theorem Dish.modAxis_congr {x : Dish} {a : AxisId} {f g : Axis → Axis} (h : f (x.axis a) = g (x.axis a)) :
    x.modAxis a f = x.modAxis a g := by
  cases a
  · exact congrArg (fun y => { x with az := y }) h
  · exact congrArg (fun y => { x with el := y }) h

theorem Dish.modAxis_modAxis (x : Dish) (a : AxisId) (f g : Axis → Axis) :
    (x.modAxis a f).modAxis a g = x.modAxis a (fun y => g (f y)) := by cases a <;> rfl

theorem Dish.modAxis_drive (x : Dish) (a : AxisId) (f : Axis → Axis) : (x.modAxis a f).drive = x.drive := by
  cases a <;> rfl

/-- A profile that has not ended keeps the dish in MOVING (R12). -/
theorem afterAdvance_moving {d : DishId} {b : Blocks} (a : AxisId) {p : Profile} (hd : (b.dish d).drive = .moving)
    (hp : ((b.dish d).axis a).profile = some p) (he : p.ended = false) : afterAdvance d b = b := by
  have hend : ((b.dish d).axis a).profileEnded = false := by simp [Axis.profileEnded, hp, he]
  have hboth : ((b.dish d).az.profileEnded && (b.dish d).el.profileEnded) = false := by
    cases a
    · exact Bool.and_eq_false_iff.mpr (.inl hend)
    · exact Bool.and_eq_false_iff.mpr (.inr hend)
  simp [afterAdvance, hd, hboth]

/-- An axis after a servo event on a SLEW profile that is not over (R12, R18). -/
theorem Axis.advance_serve_slew {st : Settings} {x : Axis} {p : Profile} {enc : Int} {now : ArrayTime}
    (hp : x.profile = some p) (hk : p.kind = .slew) (hend : p.ended = false) (henc : x.encoder = some enc)
    (he : (now - p.startInstant).toNat < p.duration)
    (hl : ((stepSlew now p x).position - enc).natAbs ≤ st.followLimit) :
    (x.advance .moving now st.tolerance).serve st =
      let e := (now - p.startInstant).toNat
      let rate := min p.v (min (p.a * e / 1000) (p.a * (p.duration - e) / 1000))
      let position := p.start + p.dir * min ((p.target - p.start).natAbs : Int) ((p.travelled + rate) / 100)
      let bound : Int := (11 * x.rateSetting / 10 : Nat)
      { x with
        rate := rate, position := position, profile := some { p with travelled := p.travelled + rate }
        rateDemand := max (-bound) (min bound ((rate : Int) + ((position - enc) * st.loopGain).tdiv 1000))
        followingCount := 0 } := by
  have hs := stepSlew_running x he
  have hl' := hl
  rw [hs] at hl'
  rw [Axis.advance_slew now st.tolerance hp hk hend, hs]
  exact Axis.serve_within (x := { x with rate := _, position := _, profile := _ }) henc hl'

/-- What a servo event makes of an axis before its reading is examined (R12, R18). -/
def Axis.served (drive : DriveState) (c : Clock) (st : Settings) (x : Axis) : Axis :=
  ({ x with servoDue := c.count + 10 }.advance drive c.time st.tolerance).serve st

/-- The servo of a moving dish whose profile goes on within the follow limit (R18). -/
theorem servoActive_moving {d : DishId} {a : AxisId} {b : Blocks} {y : Axis} {p : Profile}
    (hd : (b.dish d).drive = .moving)
    (hy : (((b.dish d).axis a).advance .moving b.clock.time b.settings.tolerance).serve b.settings = y)
    (hc : y.followingCount = 0) (hp : y.profile = some p) (he : p.ended = false) :
    servoActive d a b = b.modDish d (Dish.modAxis a (fun _ => y)) := by
  have step : b.modDish d (Dish.modAxis a (fun z =>
      (z.advance .moving b.clock.time b.settings.tolerance).serve b.settings))
      = b.modDish d (Dish.modAxis a (fun _ => y)) := Blocks.modDish_congr (Dish.modAxis_congr hy)
  have axis : ((b.modDish d (Dish.modAxis a (fun _ => y))).dish d).axis a = y := by
    rw [Blocks.modDish_dish_self, Dish.modAxis_axis_self]
  have drive : ((b.modDish d (Dish.modAxis a (fun _ => y))).dish d).drive = .moving := by
    rw [Blocks.modDish_dish_self, Dish.modAxis_drive, hd]
  unfold servoActive
  dsimp only
  rw [hd, step, axis, hc, if_neg (by omega)]
  exact afterAdvance_moving a drive (by rw [axis, hp]) he

/-- A reading that is fresh is taken, and the dish goes on (R19). -/
theorem examineReading_fresh {d : DishId} {a : AxisId} {b : Blocks} (h : ((b.dish d).axis a).fresh = true) :
    examineReading d a b = b.modDish d (Dish.modAxis a (fun y => { y with fresh := false, missed := false })) := by
  have cleared : b.modDish d (Dish.modAxis a (fun y => { y with fresh := false, missed := !y.fresh }))
      = b.modDish d (Dish.modAxis a (fun y => { y with fresh := false, missed := false })) :=
    Blocks.modDish_congr (Dish.modAxis_congr (by simp [h]))
  unfold examineReading
  dsimp only
  rw [h, cleared]
  rfl

/-- A servo event of a moving dish whose profile goes on within the follow limit and whose reading is fresh (R18,
R19). -/
theorem servo_moving {d : DishId} {a : AxisId} {b : Blocks} {y : Axis} {p : Profile}
    (hd : (b.dish d).drive = .moving)
    (hy : ((b.dish d).axis a).served .moving (b.runTo ((b.dish d).axis a).servoDue).clock b.settings = y)
    (hf : y.fresh = true) (hc : y.followingCount = 0) (hp : y.profile = some p) (he : p.ended = false) :
    servo d a b = ((b.runTo ((b.dish d).axis a).servoDue).modDish d
      (Dish.modAxis a (fun _ => { y with fresh := false, missed := false }))).publish (.dish d) := by
  unfold servo
  dsimp only
  generalize hb1 : b.runTo ((b.dish d).axis a).servoDue = b1 at hy
  have hdish : b1.dish d = b.dish d := by rw [← hb1]; rfl
  have hset : b1.settings = b.settings := by rw [← hb1]; rfl
  generalize hb2 : b1.modDish d (Dish.modAxis a (fun x => { x with servoDue := b1.clock.count + 10 })) = b2
  have hdrive : (b2.dish d).drive = .moving := by
    rw [← hb2, Blocks.modDish_dish_self, Dish.modAxis_drive, hdish, hd]
  have hserved : (((b2.dish d).axis a).advance .moving b2.clock.time b2.settings.tolerance).serve b2.settings = y := by
    rw [← hy, ← hb2, Blocks.modDish_dish_self, Dish.modAxis_axis_self, hdish, ← hset]
    rfl
  rw [if_pos (by rw [hdrive]; rfl), servoActive_moving hdrive hserved hc hp he, examineReading_fresh, ← hb2]
  · simp only [Blocks.modDish_modDish, Dish.modAxis_modAxis]
  · rw [Blocks.modDish_dish_self, Dish.modAxis_axis_self, hf]

/-- Settles O25: the servo advances the profile, forms its demand, and finds the reading fresh. -/
theorem theServoFollowsASlewProfile : Obligations.TheServoFollowsASlewProfile := by
  intro d a p enc s b x e rate travelled position bound demand hq hd hp hk hend henc hfresh he hl
  have served := Axis.advance_serve_slew (st := b.settings) (x := { x with servoDue := b.clock.count + 10 })
    hp hk hend henc he (by rw [stepSlew_running _ he]; exact hl)
  have event := servo_moving (b := s.part.blocks) hd served hfresh rfl rfl hend
  have still : Still none b := (hq.still none).runTo _
  obtain ⟨hi, ho, -⟩ := hq
  refine actBlocks_published
    (event.trans (congrArg (Blocks.publish (.dish d)) (Blocks.modDish_congr (Dish.modAxis_congr rfl))))
    (still.modDish d (Dish.modAxis_reasons _ _ _)) hi ho rfl rfl (fun pg _ => ?_)
  exact (untouched_runTo pg _ _).trans (untouched_modDish_shown pg (Dish.modAxis_shown _ _ _))

/-! ### From the warning to the move (R8, R10 to R12) -/

/-- The end of the warning (R8, R10, R11). -/
theorem onWarningExpiry_eq {d : DishId} {b : Blocks} (h : (b.dish d).drive = .warning) :
    onWarningExpiry d b = b.modDish d (fun x => { x with
      drive := .releasing, horn := .idle, removalMark := false, warningTimer := none, pinningOwner := none
      brakeTimer := b.timer b.settings.brakeRelease, az := x.az.holdStart, el := x.el.holdStart }) := by
  unfold onWarningExpiry enterState
  dsimp only
  rw [Blocks.modDish_modDish, Blocks.modDish_modDish]
  refine Blocks.modDish_congr ?_
  simp [Dish.enter, Dish.leave, h, DriveState.active, Dish.modAxes]

/-- Settles O28: the entry into RELEASING from WARNING. -/
theorem aWarningEndsInReleasing : Obligations.AWarningEndsInReleasing := by
  intro d n s b hold hq hd hw
  refine actBlocks_dish n hq ?_ rfl rfl
  show s.part.blocks.expire (s.part.blocks.dish d).warningTimer (onWarningExpiry d) = _
  have held : ∀ x : Axis, x.holdStart = hold x := by
    intro x
    rcases hp : x.profile with _ | p
    · simp [Axis.holdStart, hold, hp]
    · by_cases hk : p.kind = .slew <;> simp [Axis.holdStart, hold, hp, hk]
  rw [hw, expire_running, onWarningExpiry_eq (b := s.part.blocks.runTo n) hd]
  exact Blocks.modDish_congr (by rw [held, held]; rfl)

/-- READY is of no consequence to the wind watch and the melt controller (R111, R139). -/
theorem handle_ready {w : Owner} (hw : w = .ww ∨ w = .mc) (d : DishId) (b : Blocks) :
    handle (.report w d .ready) b = b := by
  rcases hw with rfl | rfl
  · rfl
  · simp only [handle, onMcReport, ite_self]

/-- The profiles of a move begin (R12). -/
def Dish.started (now : ArrayTime) (x : Dish) : Dish :=
  { x with
    drive := .moving, startKept := false, readyReported := false, brakeTimer := none, pinningOwner := none
    az := x.az.begin now, el := x.el.begin now }

/-- The brakes are off, the amplifiers ready, and the move starts of itself (R11, R12). -/
theorem onBrakeReleaseExpiry_atReady {d : DishId} {b : Blocks} {w : Owner} (hd : (b.dish d).drive = .releasing)
    (haz : (b.dish d).az.ampReady = true) (hel : (b.dish d).el.ampReady = true) (ht : (b.dish d).task ≠ .none)
    (hs : (b.dish d).startMode = .atReady) (ho : (b.dish d).owner = some w) :
    onBrakeReleaseExpiry d b = (b.modDish d (Dish.started b.clock.time)).tell (.report w d .ready) := by
  have entered : enterMoving d
      ((b.modDish d (fun y => { y with brakeTimer := none })).modDish d (fun y => { y with readyReported := true }))
        = b.modDish d (Dish.started b.clock.time) := by
    unfold enterMoving enterState
    simp only [Blocks.modDish_modDish, Blocks.modDish_clock]
    refine Blocks.modDish_congr ?_
    simp [Dish.enter, Dish.leave, hd, DriveState.active, Dish.modAxes, Dish.started]
  have moved : reportReady d (b.modDish d (fun y => { y with brakeTimer := none }))
      = (b.modDish d (Dish.started b.clock.time)).tell (.report w d .ready) := by
    unfold reportReady
    dsimp only
    rw [Blocks.modDish_dish_self]
    dsimp only
    rw [if_pos hs, ho, ← entered]
    rfl
  have drive : (((b.modDish d (Dish.started b.clock.time)).tell (.report w d .ready)).dish d).drive = .moving := by
    rw [Blocks.tell_dish, Blocks.modDish_dish_self]
    rfl
  unfold onBrakeReleaseExpiry
  dsimp only
  rw [haz, hel, moved, drive]
  simp [ht]

/-- Settles O29: READY is of no consequence to the owner, and the move starts in the event. -/
theorem aReadyDishStartsItsMove : Obligations.AReadyDishStartsItsMove := by
  intro d n seen s p b begin_ hsee hq hd hb haz hel ht hs howns
  have hexec : exec (.brakeReleaseTimerExpiry d seen) s
      = actBlocks (fun x => x.expire (x.dish d).brakeTimer (onBrakeReleaseExpiry d)) { s with part := p } := by
    show actSeen seen _ s = _
    rw [actSeen, hsee]
    rfl
  obtain ⟨w, hw, howner⟩ : ∃ w, (w = .ww ∨ w = .mc) ∧ (p.blocks.dish d).owner = some w := by
    rcases howns with h | h
    · exact ⟨_, .inl rfl, h⟩
    · exact ⟨_, .inr rfl, h⟩
  have event : p.blocks.expire (p.blocks.dish d).brakeTimer (onBrakeReleaseExpiry d)
      = (b.modDish d (Dish.started b.clock.time)).tell (.report w d .ready) := by
    rw [hb, expire_running, onBrakeReleaseExpiry_atReady (b := b) hd haz hel ht hs howner]
  have still : Still none (b.modDish d (Dish.started b.clock.time)) := ((hq.still none).runTo n).modDish d rfl
  obtain ⟨hi, ho, -⟩ := hq
  have hout : (b.modDish d (Dish.started b.clock.time)).out = [] := ho
  have settled : settle p.blocks ((b.modDish d (Dish.started b.clock.time)).tell (.report w d .ready))
      = b.modDish d (Dish.started b.clock.time) := by
    refine settle_message (m := .report w d .ready) _ (still.of_records rfl rfl (fun _ => rfl)) ?_ ?_ still hi
    · rw [Blocks.tell_inbox]
      exact congrArg (· ++ _) hi
    · rw [handle_ready hw]
      exact congrArg (fun l => { b.modDish d (Dish.started b.clock.time) with inbox := l }) hi.symm
  rw [hexec]
  refine actBlocks_leaves_untouched (s := { s with part := p })
    (((congrArg _ event).trans settled).trans (Blocks.without_out hout).symm) hout (by simp [markedPages])
    (fun pg hp => ?_) (.inr ⟨rfl, rfl, rfl⟩)
  exact (untouched_runTo pg n _).trans (untouched_modDish (by simpa using hp) rfl)

end Sys2Proof.Machine
end

