-- ==== Sys2Proof/Proofs/GrantsAndReports.lean ====
section
/-! SUPPORT. What the feeder arbiter and the reports leave of the dishes, and the rules of the warning and of the pin
sensors that follow from it (R9, R17, R21). -/

namespace Sys2Proof.Machine

/-! ### The dishes at a grant event (R71, R79) -/

/-- The dishes are as before but for their MOTION GRANT. -/
def SameButGrants (b b' : Blocks) : Prop := ∀ d, ∃ g, b'.dish d = { b.dish d with motionGrant := g }

theorem SameButGrants.of_dishes {b b' : Blocks} (h : ∀ d, b'.dish d = b.dish d) : SameButGrants b b' :=
  fun d => ⟨(b.dish d).motionGrant, h d⟩

theorem SameButGrants.trans {b c d : Blocks} (h1 : SameButGrants b c) (h2 : SameButGrants c d) : SameButGrants b d := by
  intro e
  obtain ⟨g1, e1⟩ := h1 e
  obtain ⟨g2, e2⟩ := h2 e
  exact ⟨g2, by rw [e2, e1]⟩

theorem SameButGrants.ite {c : Prop} [Decidable c] {b x y : Blocks} (hx : SameButGrants b x) (hy : SameButGrants b y) :
    SameButGrants b (if c then x else y) := by
  split
  · exact hx
  · exact hy

theorem SameButGrants.foldl {α : Type} (f : Blocks → α → Blocks) (hf : ∀ b a, SameButGrants b (f b a)) (l : List α)
    (b : Blocks) : SameButGrants b (l.foldl f b) := by
  induction l generalizing b with
  | nil => exact .of_dishes (fun _ => rfl)
  | cons a l ih => exact (hf b a).trans (ih _)

theorem setGrant_sameButGrants (d : DishId) (g : Option Grant) (b : Blocks) : SameButGrants b (setGrant d g b) := by
  intro e
  by_cases he : e = d
  · subst he
    exact ⟨g.map Grant.amount, Blocks.modDish_dish_self _ _ _⟩
  · exact ⟨_, Blocks.modDish_dish_of_ne _ he _⟩

theorem giveHeat_dish (z : ZoneId) (n : Nat) (b : Blocks) (d : DishId) : (giveHeat z n b).dish d = b.dish d := by
  unfold giveHeat
  split
  · rfl
  · unfold takeGrant
    dsimp only
    split
    · rfl
    · rfl
    all_goals split_ifs <;> rfl

theorem heaterStep_sameButGrants (b : Blocks) : SameButGrants b (heaterStep b) :=
  .foldl _ (fun _ _ => .of_dishes (giveHeat_dish _ _ _)) _ _

theorem recomputeForce_dish (b : Blocks) (d : DishId) : (recomputeForce b).dish d = b.dish d := by
  unfold recomputeForce
  dsimp only
  split_ifs <;> rfl

theorem tellGranted_dish (gs : List Claim) (w : Owner) (b : Blocks) (d : DishId) :
    (tellGranted gs w b).dish d = b.dish d := by
  unfold tellGranted
  split <;> rfl

theorem motionStep_sameButGrants (b : Blocks) : SameButGrants b (motionStep b) := by
  unfold motionStep
  dsimp only
  generalize walkClaims _ _ _ = r
  have granted : SameButGrants b
      (r.1.foldl (fun x c => grantClaim c x) (b.modFa (fun fa => { fa with queue := r.2 }))) :=
    SameButGrants.trans (.of_dishes (fun _ => Blocks.modFa_dish _ _ _))
      (.foldl _ (fun _ (c : Claim) => setGrant_sameButGrants c.dish _ _) _ _)
  exact granted.trans (.of_dishes (fun d => by simp only [tellGranted_dish]))

/-- A grant event changes of the dishes their MOTION GRANT alone. -/
theorem grantEvent_sameButGrants (b : Blocks) : SameButGrants b (grantEvent b) := by
  unfold grantEvent
  have force : SameButGrants b (recomputeForce b) := .of_dishes (recomputeForce_dish b)
  have heat := (force.trans (motionStep_sameButGrants _)).trans (heaterStep_sameButGrants _)
  exact heat.trans (.of_dishes (fun _ => Blocks.publish_dish _ _ _))

theorem returnGrant_sameButGrants (d : DishId) (b : Blocks) : SameButGrants b (returnGrant d b) := by
  unfold returnGrant
  split
  · exact .of_dishes (fun _ => rfl)
  · exact (setGrant_sameButGrants d none b).trans (grantEvent_sameButGrants _)

theorem seizeGrant_sameButGrants (d : DishId) (told : Option Owner) (b : Blocks) :
    SameButGrants b (seizeGrant d told b) := by
  unfold seizeGrant
  split
  · exact .of_dishes (fun _ => rfl)
  · dsimp only
    split
    · exact returnGrant_sameButGrants d b
    · exact (returnGrant_sameButGrants d b).trans (.of_dishes (fun _ => rfl))

theorem useGrant_sameButGrants (d : DishId) (az el : Bool) (b : Blocks) : SameButGrants b (useGrant d az el b) := by
  unfold useGrant
  split
  · exact .of_dishes (fun _ => rfl)
  · exact .ite ((setGrant_sameButGrants d _ b).trans (grantEvent_sameButGrants _)) (setGrant_sameButGrants d _ b)

/-! ### Reports leave the dishes alone -/

@[simp] theorem preempt_dish (o : Option Owner) (w : Owner) (d e : DishId) (b : Blocks) :
    (preempt o w d b).dish e = b.dish e := by
  unfold preempt
  split
  · split <;> rfl
  · rfl

@[simp] theorem tellOwner_dish (o : Option Owner) (d e : DishId) (r : Report) (b : Blocks) :
    (tellOwner o d r b).dish e = b.dish e := by
  cases o <;> rfl

@[simp] theorem tellOwners_dish (ws : List Owner) (d e : DishId) (r : Report) (b : Blocks) :
    (tellOwners ws d r b).dish e = b.dish e := by
  unfold tellOwners
  induction ws generalizing b with
  | nil => rfl
  | cons w ws ih => exact ih _

@[simp] theorem alsoFaulted_dish (told : Option Owner) (w : Owner) (d e : DishId) (b : Blocks) :
    (alsoFaulted told w d b).dish e = b.dish e := by
  unfold alsoFaulted
  split <;> rfl

/-! ### Faults (R17, R21) -/

/-- The record of a dish that enters FAULTED (R21). -/
theorem enterFaulted_eq (d : DishId) (k : FaultKind) (b : Blocks) :
    (enterState d .faulted b).modDish d (fun y => { clearTimers y with
      faultKind := some k, kindsSeen := FaultKinds.empty.add k, nextAction := .none
      task := .none, owner := none, stopRequesters := .empty }) = b.modDish d (fun y => y.leave.faulted k) := by
  unfold enterState
  rw [Blocks.modDish_modDish]
  exact Blocks.modDish_congr rfl

/-- A fault event of a dish that is not FAULTED puts it there with its kind (R21). -/
theorem faultDish_dish {d : DishId} {b : Blocks} (k : FaultKind) (h : (b.dish d).drive ≠ .faulted) :
    ((faultDish d k b).dish d).drive = .faulted ∧ ((faultDish d k b).dish d).faultKind = some k := by
  have told : ∀ (c : Prop) [Decidable c] (w : Owner) (x : Blocks),
      (if c then alsoFaulted (b.dish d).owner w d x else x).dish d = x.dish d := by
    intro c _ w x
    split
    · exact alsoFaulted_dish _ _ _ _ _
    · rfl
  unfold faultDish
  dsimp only
  rw [if_neg h, enterFaulted_eq]
  generalize hc : stoppedByFault (b.dish d) d _ = c
  have faulted : (c.dish d).drive = .faulted ∧ (c.dish d).faultKind = some k := by
    rw [← hc, stoppedByFault, tellOwners_dish, told, told, faultTrail]
    split
    · simp [Dish.faulted]
    · split <;> simp [Dish.faulted]
    · simp [Dish.faulted]
  obtain ⟨g, hg⟩ := seizeGrant_sameButGrants d (b.dish d).owner c d
  rw [hg]
  exact faulted

/-- The same of a dish whose input has changed at the fault. -/
theorem faultDish_modDish {d : DishId} {b : Blocks} {f : Dish → Dish} (k : FaultKind)
    (h : (f (b.dish d)).drive ≠ .faulted) :
    ((faultDish d k (b.modDish d f)).dish d).drive = .faulted
      ∧ ((faultDish d k (b.modDish d f)).dish d).faultKind = some k :=
  faultDish_dish k (by rwa [Blocks.modDish_dish_self])

/-- Settles O33, one change of a sensor after the other. -/
theorem thePinSensorsFaultADish : Obligations.ThePinSensorsFaultADish := by
  intro d b x falls
  refine ⟨fun hin h1 h2 h3 => ?_, fun hin hd => ?_, fun hout hd => ?_, fun hd => rfl, fun st levels hi ho => ?_⟩
  · have hfall : onPinIn d b = faultDish d .pin (b.modDish d (fun y => { y with pinIn := true })) := by
      unfold onPinIn
      dsimp only
      rw [if_neg (by simpa using hin)]
      cases hx : (b.dish d).drive
      case pinning => exact absurd hx h1
      case pinned => exact absurd hx h2
      case faulted => exact absurd hx h3
      all_goals rfl
    rw [hfall]
    exact faultDish_modDish _ h3
  · have hfall : onPinCeased d .pinIn b = faultDish d .pin (b.modDish d (fun y => { y with pinIn := false })) := by
      rw [onPinCeased]
      exact if_pos ⟨hin, hd⟩
    rw [hfall]
    exact faultDish_modDish _ (by rw [show (b.dish d).drive = .pinned from hd]; decide)
  · have hfall : onPinOut d b = faultDish d .pin (b.modDish d (fun y => { y with pinOut := true })) := by
      unfold onPinOut
      dsimp only
      rw [if_neg (by simpa using hout), show (b.dish d).drive = .pinned from hd]
    rw [hfall]
    exact faultDish_modDish _ (by rw [show (b.dish d).drive = .pinned from hd]; decide)
  · simp [freshDish, hi, ho]

/-! ### The warning shortened (R9) -/

@[simp] theorem preempt_clock (o : Option Owner) (w : Owner) (d : DishId) (b : Blocks) :
    (preempt o w d b).clock = b.clock := by
  unfold preempt
  split
  · split <;> rfl
  · rfl

@[simp] theorem preempt_site (o : Option Owner) (w : Owner) (d : DishId) (b : Blocks) :
    (preempt o w d b).site = b.site := by
  unfold preempt
  split
  · split <;> rfl
  · rfl

/-- What a stow move makes of the warning of a dish that had the NORMAL selector (R9). -/
theorem shortenWarning_dish {d : DishId} {n : Nat} {b : Blocks} (hs : (b.dish d).selector = .normal)
    (hw : (b.dish d).warningTimer = some n) :
    (shortenWarning d b).dish d = if (b.dish d).removalMark = true then b.dish d else { b.dish d with
      selector := .stow
      warningTimer :=
        if b.settings.stowWarning < n - b.clock.count then b.timer b.settings.stowWarning else some n } := by
  have hleft : b.left (b.dish d).warningTimer = some (n - b.clock.count) := by rw [hw]; rfl
  unfold shortenWarning
  dsimp only
  rw [hs, hleft]
  by_cases hm : (b.dish d).removalMark = true
  · simp [hm]
  · simp [hm, hw]

/-- A stow move that a dish in WARNING takes (R4, R9). -/
theorem acceptMove_warning {d : DishId} {m : Move} {b : Blocks} (h : (b.dish d).drive = .warning)
    (ht : m.task = .stow) : ∃ g, (acceptMove d m b).dish d =
      { (shortenWarning d (preempt (b.dish d).owner m.owner d (setProfiles d m (takeTask d m b)))).dish d with
        motionGrant := g } := by
  unfold acceptMove
  dsimp only
  rw [h]
  dsimp only
  rw [if_pos ht]
  exact useGrant_sameButGrants d _ _ _ d

/-- Settles O32, by the mark and by the time left. -/
theorem aStowMoveShortensAWarning : Obligations.AStowMoveShortensAWarning := by
  intro d m n b x y hd hsel hw ht
  obtain ⟨g, hg⟩ := acceptMove_warning (m := m) hd ht
  have taken : (preempt (b.dish d).owner m.owner d (setProfiles d m (takeTask d m b))).dish d = { x with
      task := m.task, owner := some m.owner, startMode := m.startMode
      az := { x.az with rateSetting := m.az.rateSetting, profile := m.az.profile }
      el := { x.el with rateSetting := m.el.rateSetting, profile := m.el.profile } } := by
    simp [setProfiles, takeTask, x]
  have settings : (preempt (b.dish d).owner m.owner d (setProfiles d m (takeTask d m b))).settings = b.settings := by
    simp [Blocks.settings, setProfiles, takeTask]
  have clock : (preempt (b.dish d).owner m.owner d (setProfiles d m (takeTask d m b))).clock = b.clock := by
    simp [setProfiles, takeTask]
  have hy : y = _ := hg
  rw [shortenWarning_dish (n := n) (by rw [taken]; exact hsel) (by rw [taken]; exact hw), taken, Blocks.timer,
    settings, clock] at hy
  by_cases hm : x.removalMark = true
  · rw [if_pos hm] at hy
    simp [hy, hd, hsel, hw, ht, hm]
  · rw [if_neg hm] at hy
    simp only [hy, hd, ht, hm, true_and]
    refine ⟨fun _ hlt => by rw [if_pos hlt]; simp, fun _ hle => by rw [if_neg (by omega)]; simp, fun h => absurd h ?_⟩
    simp

end Sys2Proof.Machine
end

