-- ==== Sys2Proof/Proofs/Faults.lean ====
section
/-! SUPPORT. The fault events of a dish that no block owns, and of one that the wind watch is stowing (R20 to R22, R82,
R114). -/

namespace Sys2Proof.Machine

/-- The record differs in its axes and in its pin sensors alone. -/
def Dish.SameButInputs (x y : Dish) : Prop :=
  y = { x with az := y.az, el := y.el, pinIn := y.pinIn, pinOut := y.pinOut }

theorem Dish.modAxis_sameButInputs (x : Dish) (a : AxisId) (f : Axis → Axis) : x.SameButInputs (x.modAxis a f) := by
  cases a <;> rfl

/-- A fault event of a dish about which no other block waits for anything (R21). -/
theorem faultDish_alone {d : DishId} {b : Blocks} (k : FaultKind) (hd : (b.dish d).drive ≠ .faulted)
    (hn : (b.dish d).nextAction = .none) (hs : (b.dish d).stopRequesters = .empty) (hq : b.fa.queue = []) :
    faultDish d k b = seizeGrant d (b.dish d).owner (tellOwner (b.dish d).owner d .faulted
      ((b.modDish d (fun y => y.leave.faulted k)).trail (.dishFault d k (b.dish d).drive))) := by
  have noClaim : ∀ w, hasClaim b w d = false := by intro w; simp [hasClaim, hq]
  unfold faultDish
  dsimp only
  rw [if_neg hd, enterFaulted_eq, hn, noClaim, noClaim, stoppedByFault, hs]
  rfl

/-- Of a dish that no block owns nothing else follows. -/
theorem faultDish_unclaimed {d : DishId} {b : Blocks} (k : FaultKind) (hd : (b.dish d).drive ≠ .faulted)
    (h : Unclaimed b d) :
    faultDish d k b = (b.modDish d (fun y => y.leave.faulted k)).trail (.dishFault d k (b.dish d).drive) := by
  obtain ⟨ho, hn, hs, hg, hq⟩ := h
  rw [faultDish_alone k hd hn hs hq, ho, seizeGrant]
  have hg' : ((b.modDish d (fun y => y.leave.faulted k)).trail (.dishFault d k (b.dish d).drive)).fa.grants[d]
      = none := hg
  rw [tellOwner, hg']

/-- The wind watch, told FAULTED of a dish whose grant has gone, has its stow BLOCKED for FAULT (R114). -/
theorem handle_faulted_ww {d : DishId} {b : Blocks} (hp : (b.stow d).phase = .handed)
    (hr : (b.dish d).reasonsEmpty = false) (hg : b.fa.grants[d] = none) :
    handle (.report .ww d .faulted) b = (b.modStow d (fun y => { y with
      phase := .blocked, cause := some .fault, rehand := false })).trail (.stowBlocked d .fault) := by
  have hm : movingToStow b d = true := by simp [movingToStow, hp, hr]
  have hret : holderReturn .ww d b = b := by rw [holderReturn, hg]
  show blockEvent d .fault b = _
  unfold blockEvent blockDish
  rw [hp, hm]
  simp [hret]

/-- A fault event of a dish that the wind watch is stowing: its grant goes back, whatever its use (R82). -/
theorem faultDish_stowed {d : DishId} {b : Blocks} (k : FaultKind) (hd : (b.dish d).drive ≠ .faulted)
    (h : StowedByWatch b d) :
    faultDish d k b =
      let gone := b.modDish d (fun y => y.leave.faulted k)
      { (if b.fa.grants[d].isSome then gone.withoutGrant d else gone) with
        inbox := b.inbox ++ [.report .ww d .faulted]
        out := b.out ++ [.trail (.dishFault d k (b.dish d).drive) b.clock.time b.clock.valid]
          ++ if b.fa.grants[d].isSome then returnOutputs d b else [] } := by
  obtain ⟨ho, hn, hs, hq, -, -, hholder, hheat⟩ := h
  rw [faultDish_alone k hd hn hs hq, ho]
  dsimp only
  generalize hc : tellOwner (some .ww) d .faulted
    ((b.modDish d (fun y => y.leave.faulted k)).trail (.dishFault d k (b.dish d).drive)) = c
  have hfa : c.fa = b.fa := by rw [← hc]; rfl
  rcases hg : b.fa.grants[d] with _ | g
  · have hg' : c.fa.grants[d] = none := by rw [hfa, hg]
    rw [seizeGrant, hg', ← hc]
    simp [tellOwner, Blocks.tell, Blocks.trail]
  · have hg' : c.fa.grants[d] = some g := by rw [hfa, hg]
    have hw : g.holder = .ww := by
      rw [hg] at hholder
      simpa using hholder
    have hquiet : c.HeatQuiet := by
      have := hheat (by rw [hg]; rfl)
      rw [← hc]
      exact this
    rw [seizeGrant, hg']
    dsimp only
    rw [returnGrant_idle (by rw [hg']; rfl) hquiet (by rw [hfa, hq]), if_pos (by rw [hw]), ← hc]
    rfl

/-- The wind watch takes FAULTED, and the blocks are settled. -/
theorem settle_faulted {d : DishId} {b : Blocks} (old : Blocks) (o : List Output) (h : Still (some d) b)
    (hi : b.inbox = []) (hp : (b.stow d).phase = .handed) (hr : (b.dish d).reasonsEmpty = false)
    (hg : b.fa.grants[d] = none) :
    settle old { b with inbox := [.report .ww d .faulted], out := o } = { b.modStow d (fun y => { y with
        phase := .blocked, cause := some .fault, rehand := false }) with
      out := o ++ [.trail (.stowBlocked d .fault) b.clock.time b.clock.valid] } := by
  refine settle_message old (h.boxes _ _) rfl ?_ ((h.modStow _).boxes _ _) hi
  refine (handle_faulted_ww (b := { b with inbox := [], out := o }) hp hr hg).trans ?_
  simp only [Blocks.trail, Blocks.modStow, Blocks.modWind, hi]

/-- What a fault of kind `k` leaves of a dish that no block owns, and of one that the wind watch is stowing. -/
def FallsWith (r : Result) (s : State) (d : DishId) (k : FaultKind) (b' : Blocks) (f : Dish → Dish) : Prop :=
  let b := s.part.blocks
  let gone := b'.modDish d (fun x => (f x).faulted k)
  let entry (e : TrailEvent) : List Output := [.trail e b'.clock.time b'.clock.valid]
  let fault := entry (.dishFault d k (b.dish d).drive)
  (Unclaimed b d → Leaves r s gone s.part.xm fault [.dish d, .common])
    ∧ (StowedByWatch b d →
      Leaves r s
        ((if b.fa.grants[d].isSome then gone.withoutGrant d else gone).modStow d (fun y => { y with
          phase := .blocked, cause := some .fault, rehand := false }))
        s.part.xm
        (fault ++ (if b.fa.grants[d].isSome then returnOutputs d b else [])
          ++ entry (.stowBlocked d .fault)) [.dish d, .wind, .power, .common])

/-- A fault event faults the dish with the inputs it has by then, and nothing else follows than what a block that owns
the dish does. -/
theorem fault_leaves {F : Blocks → Blocks} {s : State} {d : DishId} {k : FaultKind} {f g : Dish → Dish} (n : Nat)
    (hq : s.part.blocks.QuietBut (some d))
    (hF : F s.part.blocks = faultDish d k ((s.part.blocks.runTo n).modDish d g))
    (hd : (s.part.blocks.dish d).drive ≠ .faulted)
    (hg : (s.part.blocks.dish d).SameButInputs (g (s.part.blocks.dish d)))
    (hf : (g (s.part.blocks.dish d)).leave.faulted k = (f (s.part.blocks.dish d)).faulted k) :
    FallsWith (actBlocks F s) s d k (s.part.blocks.runTo n) f := by
  have still : Still (some d) (s.part.blocks.runTo n) := hq.still.runTo n
  obtain ⟨hi, ho, -⟩ := hq
  generalize hc : (s.part.blocks.runTo n).modDish d g = c at hF
  have hcd : c.dish d = { s.part.blocks.dish d with
      az := (g (s.part.blocks.dish d)).az, el := (g (s.part.blocks.dish d)).el
      pinIn := (g (s.part.blocks.dish d)).pinIn, pinOut := (g (s.part.blocks.dish d)).pinOut } := by
    rw [← hc, Blocks.modDish_dish_self]
    exact hg
  have hdrive : (c.dish d).drive = (s.part.blocks.dish d).drive := by rw [hcd]
  have gone : c.modDish d (fun y => y.leave.faulted k)
      = (s.part.blocks.runTo n).modDish d (fun x => (f x).faulted k) := by
    rw [← hc, Blocks.modDish_modDish]
    exact Blocks.modDish_congr hf
  have hx : ∀ y : Dish, (y.leave.faulted k).reasons = y.reasons ∧ (y.leave.faulted k).score = y.score := by
    intro y
    unfold Dish.leave
    split <;> exact ⟨rfl, rfl⟩
  have hreasons : ((f (s.part.blocks.dish d)).faulted k).reasons = (s.part.blocks.dish d).reasons := by
    rw [← hf, (hx _).1, hg]
  have hscore : ((f (s.part.blocks.dish d)).faulted k).score = (s.part.blocks.dish d).score := by
    rw [← hf, (hx _).2, hg]
  have stillGone : Still (some d) ((s.part.blocks.runTo n).modDish d (fun x => (f x).faulted k)) :=
    still.modDish d hreasons
  have touched : ∀ pg : Page, pg ≠ .dish d →
      Untouched pg s.part.blocks ((s.part.blocks.runTo n).modDish d (fun x => (f x).faulted k)) :=
    fun pg hp => (untouched_runTo pg n _).trans (untouched_modDish hp hscore)
  have hout : ((s.part.blocks.runTo n).modDish d (fun x => (f x).faulted k)).out = [] := ho
  constructor
  · intro hu
    have hcu : Unclaimed c d := by
      unfold Unclaimed
      rw [hcd, ← hc]
      exact hu
    have event := faultDish_unclaimed k (by rwa [hdrive]) hcu
    rw [gone, hdrive, Blocks.trail, hout] at event
    refine actBlocks_leaves_untouched ?_ hout (by simp [markedPages]) (fun pg hp => touched pg ?_) (.inl (by simp))
    · rw [hF, event]
      exact settle_outs _ stillGone hi _
    · simp only [List.mem_cons, not_or] at hp
      exact hp.1
  · intro hw
    have hcw : StowedByWatch c d := by
      unfold StowedByWatch Dish.reasonsEmpty
      rw [hcd, ← hc]
      exact hw
    have event := faultDish_stowed k (by rwa [hdrive]) hcw
    have hfa : c.fa = s.part.blocks.fa := by rw [← hc]; rfl
    have hreturn : returnOutputs d c = returnOutputs d s.part.blocks := by
      unfold returnOutputs Blocks.withoutGrant
      rw [hfa]
    have hinbox : c.inbox = [] := by rw [← hc]; exact hi
    have hcout : c.out = [] := by rw [← hc]; exact ho
    have hclock : c.clock = (s.part.blocks.runTo n).clock := by rw [← hc]; rfl
    rw [gone, hdrive, hfa, hreturn, hinbox, hcout, hclock] at event
    dsimp only at event
    obtain ⟨-, -, -, -, hp, hr, -, -⟩ := hw
    have hrGone : (((s.part.blocks.runTo n).modDish d (fun x => (f x).faulted k)).dish d).reasonsEmpty = false := by
      rw [Blocks.modDish_dish_self, Dish.reasonsEmpty]
      exact (congrArg (fun r : StowReasons => !r.wind && !r.manual) hreasons).trans hr
    obtain ⟨Z, hZ, stillZ, touchedZ, hiZ, hoZ, hcZ, hpZ, hrZ, hgZ⟩ : ∃ Z, (if s.part.blocks.fa.grants[d].isSome = true
        then ((s.part.blocks.runTo n).modDish d (fun x => (f x).faulted k)).withoutGrant d
        else (s.part.blocks.runTo n).modDish d (fun x => (f x).faulted k)) = Z ∧ Still (some d) Z
        ∧ (∀ pg : Page, pg ≠ .dish d → Untouched pg s.part.blocks Z) ∧ Z.inbox = [] ∧ Z.out = []
        ∧ Z.clock = (s.part.blocks.runTo n).clock ∧ (Z.stow d).phase = .handed ∧ (Z.dish d).reasonsEmpty = false
        ∧ Z.fa.grants[d] = none := by
      refine ⟨_, rfl, ?_⟩
      split
      · refine ⟨stillGone.withoutGrant d, fun pg h => (touched pg h).trans (untouched_withoutGrant h _), hi, ho, rfl,
          hp, ?_, by simp⟩
        rw [Dish.reasonsEmpty, withoutGrant_dish]
        exact hrGone
      · next hnone => exact ⟨stillGone, touched, hi, ho, rfl, hp, hrGone, by simpa using hnone⟩
    rw [hZ] at event ⊢
    refine actBlocks_leaves_untouched ?_ hoZ ?_ (fun pg h => ?_) (.inl (by simp))
    · rw [hF, event]
      refine (settle_faulted _ _ stillZ hiZ hpZ hrZ hgZ).trans ?_
      rw [hcZ]
      rfl
    · unfold returnOutputs
      split_ifs <;> simp [markedPages]
    · simp only [List.mem_cons, not_or] at h
      exact (touchedZ pg h.1).trans (untouched_modStow h.2.1 d _ _)

/-- Settles O27: each event is a fault event at which one input at most has changed. -/
theorem aFaultPutsADishInFaulted : Obligations.AFaultPutsADishInFaulted := by
  intro d s b falls hq
  have now : b.runTo 0 = b := by simp [Blocks.runTo]
  have same : ∀ x : Blocks, x.modDish d id = x := by
    intro x
    simp [Blocks.modDish]
  have runs : ∀ (t : Timer) (n : Nat) (k : FaultKind), t = some n →
      b.expire t (faultDish d k) = faultDish d k ((b.runTo n).modDish d id) := by
    intro t n k ht
    rw [ht, expire_running, same]
  refine ⟨fun a hd henc => ?_, fun n hd hl => ?_, fun n hd hp => ?_, fun a side hd hl => ?_, fun a hd ha => ?_,
    fun hd hin => ?_⟩
  · refine fault_leaves (g := id) 1000 hq ?_ (by rw [hd]; decide) rfl ?_
    · rw [same]
      exact if_pos henc
    · rw [id, Dish.leave, hd]
  · refine fault_leaves (g := id) n hq (runs _ n _ hl) (by rw [hd]; decide) rfl ?_
    rw [id, Dish.leave, hd]
    rfl
  · refine fault_leaves (g := id) n hq (runs _ n _ hp) (by rw [hd]; decide) rfl ?_
    rw [id, Dish.leave, hd]
    rfl
  · have h := fault_leaves (F := onLimit d a side) (k := .limit) (f := Dish.modAxis a (Axis.setLimit side true)) 0 hq
      (by rw [now, onLimit, if_neg (by simpa using hl)]) (by rw [hd]; decide) (Dish.modAxis_sameButInputs _ _ _)
      (by rw [Dish.leave, Dish.modAxis_drive, hd])
    rw [now] at h
    exact h
  · have lost : onAmplifierLost d a b
        = faultDish d .amplifier (b.modDish d (Dish.modAxis a (fun y => { y with ampReady := false }))) := by
      unfold onAmplifierLost
      dsimp only
      rw [ha, hd]
      rfl
    have h := fault_leaves (F := onAmplifierLost d a) (k := .amplifier)
      (f := Dish.modAxis a (fun y => { y with ampReady := false })) 0 hq (by rw [now]; exact lost) (by rw [hd]; decide)
      (Dish.modAxis_sameButInputs _ _ _) (by rw [Dish.leave, Dish.modAxis_drive, hd])
    rw [now] at h
    exact h
  · have h := fault_leaves (F := onPinCeased d .pinIn) (k := .pin) (f := fun x => { x with pinIn := false })
      (g := fun x => { x with pinIn := false }) 0 hq
      (by rw [now]; exact if_pos ⟨hin, hd⟩) (by rw [hd]; decide) rfl (by rw [Dish.leave]; dsimp only; rw [hd]; rfl)
    rw [now] at h
    exact h

end Sys2Proof.Machine
end

