-- ==== Sys2Proof/Proofs/AtRest.lean ====
section
/-! SUPPORT. A dish that comes to rest, and the pins of a stow (R6, R7, R13, R15 to R17, R82, R111, R117, R139). -/

namespace Sys2Proof.Machine

/-! ### The grant of a dish that comes to rest (R82) -/

/-- The blocks with what a dish at rest gives back. -/
def Blocks.atRest (d : DishId) (b : Blocks) : Blocks := if usesGrant d b then b.withoutGrant d else b

/-- What is published of it. -/
def restOutputs (d : DishId) (b : Blocks) : List Output := if usesGrant d b then returnOutputs d b else []

theorem restGrant_eq {d : DishId} {b : Blocks} (h : usesGrant d b = true → ReturnsQuietly d b) :
    restGrant d b = { b.atRest d with out := b.out ++ restOutputs d b } := by
  by_cases hu : usesGrant d b = true
  · obtain ⟨hheat, hq, hn⟩ := h hu
    have hsome : b.fa.grants[d].isSome = true := by
      unfold usesGrant at hu
      cases hg : b.fa.grants[d] with
      | none => rw [hg] at hu; exact absurd hu (by simp)
      | some g => rfl
    have hrest : restGrant d b = returnGrant d b := by
      unfold restGrant usesGrant at *
      cases hg : b.fa.grants[d] with
      | none => rw [hg] at hsome; exact absurd hsome (by simp)
      | some g =>
        rw [hg] at hu
        rw [hn]
        exact if_pos (by simpa using hu)
    rw [hrest, returnGrant_idle hsome hheat hq, Blocks.atRest, restOutputs, if_pos hu, if_pos hu]
  · have hrest : restGrant d b = b := by
      unfold restGrant usesGrant at *
      cases hg : b.fa.grants[d] with
      | none => rfl
      | some g =>
        rw [hg] at hu
        have huse : ¬ g.use = .inUse := by simpa using hu
        cases (b.dish d).nextAction <;> simp [huse]
    rw [hrest, Blocks.atRest, restOutputs, if_neg hu, if_neg hu]
    simp

theorem Still.atRest {skip : Option DishId} {b : Blocks} (h : Still skip b) (d : DishId) : Still skip (b.atRest d) := by
  unfold Blocks.atRest
  split
  · exact h.withoutGrant d
  · exact h

theorem untouched_atRest {pg : Page} {d : DishId} (h : pg ≠ .dish d) (b : Blocks) : Untouched pg b (b.atRest d) := by
  unfold Blocks.atRest
  split
  · exact untouched_withoutGrant h b
  · exact Untouched.refl pg b

theorem atRest_inbox (d : DishId) (b : Blocks) : (b.atRest d).inbox = b.inbox := by
  unfold Blocks.atRest
  split <;> rfl

theorem atRest_out (d : DishId) (b : Blocks) : (b.atRest d).out = b.out := by
  unfold Blocks.atRest
  split <;> rfl

theorem atRest_clock (d : DishId) (b : Blocks) : (b.atRest d).clock = b.clock := by
  unfold Blocks.atRest
  split <;> rfl

theorem atRest_settings (d : DishId) (b : Blocks) : (b.atRest d).settings = b.settings := by
  unfold Blocks.atRest
  split <;> rfl

theorem atRest_dish (d : DishId) (b : Blocks) : (b.atRest d).dish d = { b.dish d with
    motionGrant := if usesGrant d b then none else (b.dish d).motionGrant } := by
  unfold Blocks.atRest
  split
  · exact withoutGrant_dish b d
  · rfl

theorem atRest_stow (d e : DishId) (b : Blocks) : (b.atRest d).stow e = b.stow e := by
  unfold Blocks.atRest
  split <;> rfl

theorem atRest_shed (d e : DishId) (b : Blocks) : (b.atRest d).shed e = b.shed e := by
  unfold Blocks.atRest
  split <;> rfl

/-- An update that the MOTION GRANT is no part of is the same before and after it goes back. -/
theorem atRest_modDish {d : DishId} {f : Dish → Dish} (b : Blocks)
    (hf : ∀ x, f { x with motionGrant := none } = { f x with motionGrant := none }) :
    (b.modDish d f).atRest d = (b.atRest d).modDish d f := by
  have hu : usesGrant d (b.modDish d f) = usesGrant d b := rfl
  unfold Blocks.atRest
  rw [hu]
  split
  · have hdishes := congrArg Blocks.dishes ((b.modDish_modDish d f (fun x => { x with motionGrant := none })).trans
      ((Blocks.modDish_congr (hf _).symm).trans (b.modDish_modDish d (fun x => { x with motionGrant := none }) f).symm))
    exact congrArg (fun v => { b.withoutGrant d with dishes := v }) hdishes
  · rfl

theorem atRest_modShed (d : DishId) (g : Shed → Shed) (b : Blocks) :
    (b.modShed d g).atRest d = (b.atRest d).modShed d g := by
  have hu : usesGrant d (b.modShed d g) = usesGrant d b := rfl
  unfold Blocks.atRest
  rw [hu]
  split <;> rfl

theorem atRest_modStow (d : DishId) (g : StowRecord → StowRecord) (b : Blocks) :
    (b.modStow d g).atRest d = (b.atRest d).modStow d g := by
  have hu : usesGrant d (b.modStow d g) = usesGrant d b := rfl
  unfold Blocks.atRest
  rw [hu]
  split <;> rfl

/-- What waits and what has been handed on is no part of it. -/
theorem atRest_boxes (d : DishId) (b : Blocks) (i : List Message) (o : List Output) :
    ({ b with inbox := i, out := o } : Blocks).atRest d = { b.atRest d with inbox := i, out := o } := by
  have hu : usesGrant d { b with inbox := i, out := o } = usesGrant d b := rfl
  unfold Blocks.atRest
  rw [hu]
  split <;> rfl

theorem Blocks.without_inbox {b : Blocks} {o : List Output} (h : b.inbox = []) :
    { b with inbox := [], out := o } = { b with out := o } := by rw [← h]

/-- The grant table alone says what a dish at rest gives back. -/
theorem restOutputs_congr {d : DishId} {b c : Blocks} (h : c.fa = b.fa) : restOutputs d c = restOutputs d b := by
  unfold restOutputs usesGrant returnOutputs Blocks.withoutGrant
  rw [h]

theorem markedPages_restOutputs (d : DishId) (b : Blocks) :
    ∀ pg ∈ markedPages (restOutputs d b), pg = .power ∨ pg = .common := by
  unfold restOutputs returnOutputs
  split_ifs <;> simp [markedPages]

theorem markedPages_append (l m : List Output) : markedPages (l ++ m) = markedPages l ++ markedPages m :=
  List.filterMap_append

/-- A command that changes the record of one dish and has it give back what it holds at rest. -/
theorem rest_leaves {F : Blocks → Blocks} {s : State} {d : DishId} {g : Dish → Dish} {n : Nat}
    (hq : s.part.blocks.QuietBut none)
    (hF : F s.part.blocks = restGrant d ((s.part.blocks.runTo n).modDish d g))
    (hgrant : usesGrant d (s.part.blocks.runTo n) = true → ReturnsQuietly d (s.part.blocks.runTo n))
    (hr : (g (s.part.blocks.dish d)).reasons = (s.part.blocks.dish d).reasons)
    (hsc : (g (s.part.blocks.dish d)).score = (s.part.blocks.dish d).score)
    (hn : (g (s.part.blocks.dish d)).nextAction = (s.part.blocks.dish d).nextAction) :
    Leaves (actBlocks F s) s (((s.part.blocks.runTo n).modDish d g).atRest d) s.part.xm
      (restOutputs d (s.part.blocks.runTo n)) [.dish d, .power, .common] := by
  have still : Still none (((s.part.blocks.runTo n).modDish d g).atRest d) :=
    ((hq.still.runTo n).modDish d hr).atRest d
  obtain ⟨hi, ho, -⟩ := hq
  have hout : ((s.part.blocks.runTo n).modDish d g).out = [] := ho
  have hinbox : (((s.part.blocks.runTo n).modDish d g).atRest d).inbox = [] := (atRest_inbox _ _).trans hi
  have quiet : usesGrant d ((s.part.blocks.runTo n).modDish d g) = true →
      ReturnsQuietly d ((s.part.blocks.runTo n).modDish d g) := by
    intro hu
    obtain ⟨h1, h2, h3⟩ := hgrant hu
    refine ⟨h1, h2, ?_⟩
    rw [Blocks.modDish_dish_self]
    exact hn.trans h3
  refine actBlocks_leaves_untouched ?_ ((atRest_out _ _).trans hout) (fun pg hp => ?_) (fun pg hp => ?_)
    (.inl (by simp))
  · rw [hF, restGrant_eq quiet, hout, restOutputs_congr (Blocks.modDish_fa _ _ _)]
    exact settle_outs _ still hinbox _
  · rcases markedPages_restOutputs _ _ pg hp with rfl | rfl <;> simp
  · simp only [List.mem_cons, not_or] at hp
    exact ((untouched_runTo pg n _).trans (untouched_modDish hp.1 hsc)).trans (untouched_atRest hp.1 _)

/-- A stop in progress completes where no block asked for one (R6). -/
theorem completeStops_none {d : DishId} {b : Blocks} (hs : (b.dish d).stopRequesters = .empty)
    (ht : (b.dish d).task ≠ .lockStop) : completeStops d b = b := by
  have hsame : b.modDish d (fun y => { y with stopRequesters := .empty }) = b := by
    have : b.modDish d (fun y => { y with stopRequesters := .empty }) = b.modDish d id :=
      Blocks.modDish_congr (by rw [← hs]; rfl)
    rw [this]
    simp [Blocks.modDish]
  unfold completeStops
  dsimp only
  rw [hsame, if_neg ht, hs]
  rfl

/-- BRAKED, or the end of an unpinning, where nothing waits for it (R6, R82). -/
theorem settleBraked_idle {d : DishId} {b : Blocks} (hs : (b.dish d).stopRequesters = .empty)
    (ht : (b.dish d).task ≠ .lockStop) (hn : (b.dish d).nextAction = .none) : settleBraked d b = restGrant d b := by
  unfold settleBraked
  dsimp only
  rw [completeStops_none hs ht, hn]

/-! ### Arrival (R13, R15, R139) -/

/-- HOLDING on arrival of a dish without a task (R13). -/
theorem onSettleExpiry_unowned {d : DishId} {b : Blocks} (hd : (b.dish d).drive = .settling)
    (ht : (b.dish d).task = .none) (ho : (b.dish d).owner = none) :
    onSettleExpiry d b = restGrant d (b.modDish d (fun x => { x with
      drive := .holding, settleTimer := none, settleLimit := none, pinningOwner := none
      holdTimer := b.timer b.settings.holdToBrake })) := by
  unfold onSettleExpiry enterHolding enterState
  dsimp only
  rw [ho, ht, if_neg (by decide), tellOwner, ht, if_pos rfl, Blocks.modDish_modDish]
  refine congrArg _ (Blocks.modDish_congr ?_)
  simp [Dish.enter, Dish.leave, hd, DriveState.active]

/-- PINNING from SETTLING (R15). -/
theorem enterPinning_settling {d : DishId} {w : Owner} {b : Blocks} (hd : (b.dish d).drive = .settling) :
    enterPinning d w b = b.modDish d (fun x => { x with
      drive := .pinning, settleTimer := none, settleLimit := none, pinningOwner := some w
      pinTimer := b.timer b.settings.pinTime, az := x.az.idle, el := x.el.idle }) := by
  unfold enterPinning enterState
  rw [Blocks.modDish_modDish]
  refine Blocks.modDish_congr ?_
  simp [Dish.enter, Dish.leave, hd, DriveState.active, Dish.modAxes]

/-- The pins of a stow are driven in on arrival (R15). -/
theorem onSettleExpiry_stow {d : DishId} {b : Blocks} (hd : (b.dish d).drive = .settling)
    (ht : (b.dish d).task = .stow) (ho : (b.dish d).owner = some .ww) :
    onSettleExpiry d b = (b.modDish d (fun x => { x with
      drive := .pinning, settleTimer := none, settleLimit := none, pinningOwner := some .ww
      pinTimer := b.timer b.settings.pinTime, az := x.az.idle, el := x.el.idle })).tell
        (.report .ww d (.arrived b.clock.time)) := by
  unfold onSettleExpiry
  dsimp only
  rw [ho, ht, if_pos rfl]
  exact enterPinning_settling (b := b.tell (.report .ww d (.arrived b.clock.time))) hd

/-- A dish that holds on arrival (R13). -/
def Dish.arrived (x : Dish) : Dish :=
  { x with drive := .holding, settleTimer := none, settleLimit := none, pinningOwner := none }

/-- HOLDING on arrival of a shed tilt, which MC is told (R13, R82, R139). -/
theorem onSettleExpiry_shed {d : DishId} {b : Blocks} (hd : (b.dish d).drive = .settling)
    (ht : (b.dish d).task = .shed) (ho : (b.dish d).owner = some .mc)
    (hgrant : usesGrant d b = true → ReturnsQuietly d b) (hi : b.inbox = []) (hout : b.out = []) :
    onSettleExpiry d b = { (b.modDish d Dish.arrived).atRest d with
      inbox := [.report .mc d (.arrived b.clock.time)], out := restOutputs d b } := by
  have held : onSettleExpiry d b
      = restGrant d ((b.modDish d Dish.arrived).tell (.report .mc d (.arrived b.clock.time))) := by
    unfold onSettleExpiry enterHolding enterState
    dsimp only
    rw [ho, ht, if_neg (by decide), tellOwner, Blocks.tell_dish, ht, if_neg (by decide)]
    refine congrArg (restGrant d) (congrArg (Blocks.tell _) (Blocks.modDish_congr ?_))
    simp [Dish.enter, Dish.leave, hd, DriveState.active, Dish.arrived]
  have told : (b.modDish d Dish.arrived).tell (.report .mc d (.arrived b.clock.time)) = { b.modDish d Dish.arrived with
      inbox := [.report .mc d (.arrived b.clock.time)], out := [] } := by
    rw [Blocks.tell, Blocks.modDish_inbox, hi, ← hout]
    rfl
  rw [held, told, restGrant_eq, atRest_boxes]
  · exact congrArg (fun o => { (b.modDish d Dish.arrived).atRest d with
      inbox := [.report .mc d (.arrived b.clock.time)], out := o }) (restOutputs_congr rfl)
  · intro hu
    obtain ⟨h1, h2, h3⟩ := hgrant hu
    have hn : ((b.modDish d Dish.arrived).dish d).nextAction = (b.dish d).nextAction := by
      rw [Blocks.modDish_dish_self]
      rfl
    exact ⟨h1, h2, hn.trans h3⟩

/-- BRAKED of a held dish whose hold-to-brake time is over (R13). -/
theorem onHoldExpiry_idle {d : DishId} {b : Blocks} (hd : (b.dish d).drive = .holding)
    (ht : (b.dish d).task = .none) (hs : (b.dish d).stopRequesters = .empty) (hn : (b.dish d).nextAction = .none) :
    onHoldExpiry d b = restGrant d (b.modDish d (fun x => { x with
      drive := .braked, holdTimer := none, startAwaited := false, pinningOwner := none
      az := x.az.idle, el := x.el.idle })) := by
  have entered : enterState d .braked b = b.modDish d (fun x => { x with
      drive := .braked, holdTimer := none, startAwaited := false, pinningOwner := none
      az := x.az.idle, el := x.el.idle }) := by
    refine Blocks.modDish_congr ?_
    simp [Dish.enter, Dish.leave, hd, DriveState.active, Dish.modAxes]
  unfold onHoldExpiry enterBraked
  rw [entered]
  refine settleBraked_idle ?_ ?_ ?_ <;> rw [Blocks.modDish_dish_self]
  · exact hs
  · rw [show (b.dish d).task = .none from ht]; decide
  · exact hn

/-- ARRIVED of a stow that is not to be handed over again is of no consequence to the wind watch (R111). -/
theorem handle_arrived_ww {d : DishId} {b : Blocks} (at_ : ArrayTime) (h : (b.stow d).rehand = false) :
    handle (.report .ww d (.arrived at_)) b = b := by
  show (if (b.stow d).rehand then ownerStop .ww d b else b) = b
  rw [h]
  rfl

/-- A held dish after its release by its owner (R7). -/
def Dish.released (hold : Timer) (x : Dish) : Dish :=
  { x with
    task := .none, owner := none, startAwaited := false, holdTimer := hold
    az := if x.startAwaited then x.az.drop else x.az, el := if x.startAwaited then x.el.drop else x.el }

theorem releaseDish_holding {w : Owner} {d : DishId} {b : Blocks} (ho : (b.dish d).owner = some w)
    (hd : (b.dish d).drive = .holding) :
    releaseDish w d b = b.modDish d (Dish.released (b.timer b.settings.holdToBrake)) := by
  unfold releaseDish
  dsimp only
  rw [if_neg (by simp [ho]), hd]
  dsimp only
  rw [Blocks.modDish_modDish]
  refine Blocks.modDish_congr ?_
  by_cases hs : (b.dish d).startAwaited = true <;> simp [Dish.released, Dish.modAxes, hs]

/-- ARRIVED of a shed tilt ends it, and the dish is released (R7, R139). -/
theorem handle_arrived_mc {d : DishId} {b : Blocks} {el : Int} (at_ : ArrayTime) (hp : (b.shed d).phase = .handed)
    (hd : (b.dish d).drive = .holding) (ho : (b.dish d).owner = some .mc) (he : (b.dish d).el.encoder = some el) :
    handle (.report .mc d (.arrived at_)) b = ((b.modDish d (Dish.released (b.timer b.settings.holdToBrake))).modShed d
      (fun r => { r with phase := .none })).trail (.shedEnded d .arrived el (b.dish d).score) := by
  have hstand : standingElevation (b.dish d) = el := by rw [standingElevation, he]; rfl
  show (if (b.shed d).phase = .handed then releaseDish .mc d (shedEnded d .arrived b) else b) = _
  rw [if_pos hp, releaseDish_holding (b := shedEnded d .arrived b) ho hd, shedEnded, hstand]
  rfl

/-- The wind watch takes ARRIVED of a stow, and the blocks are settled. -/
theorem settle_arrived_ww {d : DishId} {b : Blocks} (old : Blocks) (at_ : ArrayTime) (h : Still none b)
    (hi : b.inbox = []) (hr : (b.stow d).rehand = false) : settle old (b.tell (.report .ww d (.arrived at_))) = b := by
  refine settle_message (m := .report .ww d (.arrived at_)) old (h.of_records rfl rfl (fun _ => rfl)) ?_ ?_ h hi
  · rw [Blocks.tell_inbox, hi]
    rfl
  · rw [handle_arrived_ww]
    · exact congrArg (fun l => { b with inbox := l }) hi.symm
    · exact hr

/-- The melt controller takes ARRIVED of a tilt, and the blocks are settled. -/
theorem settle_arrived_mc {d : DishId} {b : Blocks} {el : Int} (old : Blocks) (at_ : ArrayTime) (o : List Output)
    (h : Still none b) (hp : (b.shed d).phase = .handed) (hd : (b.dish d).drive = .holding)
    (ho : (b.dish d).owner = some .mc) (he : (b.dish d).el.encoder = some el) :
    settle old { b with inbox := [.report .mc d (.arrived at_)], out := o }
      = { (b.modDish d (Dish.released (b.timer b.settings.holdToBrake))).modShed d
          (fun r => { r with phase := .none }) with
        inbox := []
        out := o ++ [.trail (.shedEnded d .arrived el (b.dish d).score) b.clock.time b.clock.valid] } := by
  have ended : Still none
      ((b.modDish d (Dish.released (b.timer b.settings.holdToBrake))).modShed d
        (fun r => { r with phase := .none })) := by
    refine (h.modDish (f := Dish.released (b.timer b.settings.holdToBrake)) d rfl).congr rfl rfl (fun _ _ => rfl) ?_
    intro e
    by_cases hed : e = d
    · subst hed
      simp
    · rw [Blocks.modShed_shed_of_ne _ hed]
      exact h.2.2 e
  refine settle_message old (h.boxes _ _) rfl ?_ (ended.boxes _ _) rfl
  exact handle_arrived_mc (b := { b with inbox := [], out := o }) at_ hp hd ho he

/-- A shed tilt that arrives: what the dish gives back goes with the grant event, before MC hears ARRIVED. -/
theorem settle_shedArrives {d : DishId} {b : Blocks} {el : Int} (old : Blocks) (still : Still none b)
    (hi : b.inbox = []) (hout : b.out = []) (hgrant : usesGrant d b = true → ReturnsQuietly d b)
    (hd : (b.dish d).drive = .settling) (ht : (b.dish d).task = .shed) (ho : (b.dish d).owner = some .mc)
    (hp : (b.shed d).phase = .handed) (henc : (b.dish d).el.encoder = some el) :
    settle old (onSettleExpiry d b) = { ((b.modDish d (fun x =>
        x.arrived.released (b.timer b.settings.holdToBrake))).modShed d
        (fun r => { r with phase := .none })).atRest d with
      out := restOutputs d b
        ++ [.trail (.shedEnded d .arrived el (b.dish d).score) b.clock.time b.clock.valid] } := by
  have dish : ((b.modDish d Dish.arrived).atRest d).dish d = { (b.dish d).arrived with
      motionGrant := if usesGrant d b then none else (b.dish d).motionGrant } := by
    rw [atRest_dish, Blocks.modDish_dish_self]
    rfl
  have hold : ((b.modDish d Dish.arrived).atRest d).timer ((b.modDish d Dish.arrived).atRest d).settings.holdToBrake
      = b.timer b.settings.holdToBrake := by
    rw [Blocks.timer, atRest_clock, atRest_settings]
    rfl
  have released : (((b.modDish d Dish.arrived).atRest d).modDish d
      (Dish.released (b.timer b.settings.holdToBrake))).modShed d (fun r => { r with phase := .none })
      = ((b.modDish d (fun x => x.arrived.released (b.timer b.settings.holdToBrake))).modShed d
          (fun r => { r with phase := .none })).atRest d := by
    rw [← atRest_modDish _ (fun _ => rfl), ← atRest_modShed, Blocks.modDish_modDish]
  rw [onSettleExpiry_shed hd ht ho hgrant hi hout, settle_arrived_mc _ _ _
    ((still.modDish (f := Dish.arrived) d rfl).atRest d) (by rw [atRest_shed]; exact hp) (by rw [dish]; rfl)
    (by rw [dish]; exact ho) (by rw [dish]; exact henc), hold, released, dish, atRest_clock,
    Blocks.without_inbox (by rw [atRest_inbox]; exact hi)]
  rfl

theorem shedArrives_leaves {s : State} {d : DishId} {n : Nat} {el : Int} {g : Dish → Dish}
    (hq : s.part.blocks.QuietBut none)
    (hgrant : usesGrant d (s.part.blocks.runTo n) = true → ReturnsQuietly d (s.part.blocks.runTo n))
    (hd : (s.part.blocks.dish d).drive = .settling) (hs : (s.part.blocks.dish d).settleTimer = some n)
    (ht : (s.part.blocks.dish d).task = .shed) (ho : (s.part.blocks.dish d).owner = some .mc)
    (hp : (s.part.blocks.shed d).phase = .handed) (henc : (s.part.blocks.dish d).el.encoder = some el)
    (hg : g = fun x => x.arrived.released
      ((s.part.blocks.runTo n).timer (s.part.blocks.runTo n).settings.holdToBrake)) :
    Leaves (exec (.settleTimerExpiry d) s) s
      ((((s.part.blocks.runTo n).modDish d g).modShed d (fun r => { r with phase := .none })).atRest d) s.part.xm
      (restOutputs d (s.part.blocks.runTo n) ++ [.trail (.shedEnded d .arrived el (s.part.blocks.dish d).score)
        (s.part.blocks.runTo n).clock.time (s.part.blocks.runTo n).clock.valid])
      [.dish d, .zone (zoneOf d .surface), .power, .common] := by
  subst hg
  have still : Still none (s.part.blocks.runTo n) := hq.still.runTo n
  obtain ⟨hi, hout, -⟩ := hq
  refine actBlocks_leaves_untouched ?_ ((atRest_out _ _).trans hout) (fun pg hp => ?_) (fun pg hp => ?_)
    (.inl (by simp))
  · show settle _ (s.part.blocks.expire (s.part.blocks.dish d).settleTimer (onSettleExpiry d)) = _
    rw [hs, expire_running]
    exact settle_shedArrives _ still hi hout hgrant hd ht ho hp henc
  · rw [markedPages_append, List.mem_append] at hp
    rcases hp with hp | hp
    · rcases markedPages_restOutputs d _ pg hp with rfl | rfl <;> simp
    · simp [markedPages] at hp
  · simp only [List.mem_cons, not_or] at hp
    exact (((untouched_runTo pg n _).trans (untouched_modDish hp.1 rfl)).trans (untouched_modShed hp.2.1 _ _)).trans
      (untouched_atRest hp.1 _)

/-- Settles O30: what a dish at rest gives back goes with the grant event, before the owner hears ARRIVED. -/
theorem aSettledDishHoldsOrPins : Obligations.ASettledDishHoldsOrPins := by
  intro d n s b off given back outs hq hgrant
  have still : Still none b := hq.still.runTo n
  refine ⟨fun hd hs ht ho => ?_, fun hd hs ht ho hre => ?_, fun el hd hs ht ho hp henc => ?_,
    fun hd hh ht hreq hn => ?_⟩
  · refine rest_leaves (n := n) hq ?_ hgrant rfl rfl rfl
    show s.part.blocks.expire (b.dish d).settleTimer (onSettleExpiry d) = _
    rw [hs, expire_running, onSettleExpiry_unowned (b := b) hd ht ho]
    rfl
  · obtain ⟨hi, hout, -⟩ := hq
    refine actBlocks_leaves_untouched (outs := []) ?_ hout (by simp [markedPages]) (fun pg hp => ?_)
      (.inr ⟨rfl, rfl, rfl⟩)
    · show settle _ (s.part.blocks.expire (b.dish d).settleTimer (onSettleExpiry d)) = _
      rw [hs, expire_running, onSettleExpiry_stow (b := b) hd ht ho,
        settle_arrived_ww _ _ (still.modDish d rfl) hi hre, Blocks.without_out]
      · rfl
      · exact hout
    · exact (untouched_runTo pg n _).trans (untouched_modDish (by simpa using hp) rfl)
  · exact shedArrives_leaves hq hgrant hd hs ht ho hp henc rfl
  · refine rest_leaves (n := n) hq ?_ hgrant rfl rfl rfl
    show s.part.blocks.expire (b.dish d).holdTimer (onHoldExpiry d) = _
    rw [hh, expire_running, onHoldExpiry_idle (b := b) hd ht hreq hn]
    rfl

end Sys2Proof.Machine
end

