-- ==== Sys2Proof/Proofs/Pins.lean ====
section
/-! SUPPORT. The pins of a stow (R15 to R17, R82, R111, R117). -/

namespace Sys2Proof.Machine

/-- A dish whose pins have gone in (R15). -/
def Dish.pinsIn (x : Dish) : Dish :=
  { x with drive := .pinned, pinIn := true, pinTimer := none, az := x.az.idle, el := x.el.idle }

/-- A stowed dish whose pins have come out (R16). -/
def Dish.pinsOut (x : Dish) : Dish :=
  { x with
    drive := .braked, pinOut := true, pinTimer := none, task := .none, owner := none, pinningOwner := none
    az := x.az.idle, el := x.el.idle }

/-- What a dish at rest gives back is no next action. -/
theorem restGrant_nextAction {d : DishId} {b : Blocks} (h : usesGrant d b = true → ReturnsQuietly d b) :
    ((restGrant d b).dish d).nextAction = (b.dish d).nextAction := by
  rw [restGrant_eq h]
  exact (congrArg Dish.nextAction (atRest_dish d b)).trans rfl

/-- The pins of a stow are in (R15). -/
theorem onPinIn_stow {d : DishId} {b : Blocks} (hgrant : usesGrant d b = true → ReturnsQuietly d b)
    (hd : (b.dish d).drive = .pinning) (hp : (b.dish d).pinIn = false) (ho : (b.dish d).owner = some .ww)
    (ha : (b.dish d).absorbed = .empty) (ht : (b.dish d).task = .stow)
    (hs : (b.dish d).stopRequesters = .empty) (hn : (b.dish d).nextAction = .none) :
    onPinIn d b = restGrant d (((b.modDish d Dish.pinsIn).trail (.dishStowed d)).tell (.report .ww d .stowed)) := by
  have told : tellOwners (b.dish d).absorbed.toList d .stowed = id := by rw [ha]; rfl
  have entered : enterState d .pinned (b.modDish d (fun x => { x with pinIn := true })) = b.modDish d Dish.pinsIn := by
    unfold enterState
    rw [Blocks.modDish_modDish]
    refine Blocks.modDish_congr ?_
    simp [Dish.enter, Dish.leave, hd, DriveState.active, Dish.modAxes, ha, Dish.pinsIn]
  generalize hX : ((b.modDish d Dish.pinsIn).trail (.dishStowed d)).tell (.report .ww d .stowed) = X
  have dish : X.dish d = (b.dish d).pinsIn := by
    rw [← hX, Blocks.tell_dish, Blocks.trail_dish, Blocks.modDish_dish_self]
  have stops : completeStops d X = X := by
    refine completeStops_none ?_ ?_ <;> rw [dish]
    · exact hs
    · rw [show (b.dish d).pinsIn.task = .stow from ht]; decide
  have next : (X.dish d).nextAction = .none := by rw [dish]; exact hn
  have rest : ((restGrant d X).dish d).nextAction = .none := by
    refine (restGrant_nextAction fun hu => ?_).trans next
    rw [← hX] at hu
    obtain ⟨h1, h2, -⟩ := hgrant hu
    exact ⟨by rw [← hX]; exact h1, by rw [← hX]; exact h2, next⟩
  unfold onPinIn enterPinned
  dsimp only
  rw [hp, if_neg (by decide), hd]
  dsimp only
  rw [Blocks.modDish_dish_self, entered]
  dsimp only
  rw [ht, if_neg (by decide), ho, told, tellOwner, hX, id, stops, rest]

/-- The pins are out (R16). -/
theorem onPinOut_unstow {d : DishId} {b : Blocks} (hd : (b.dish d).drive = .unpinning)
    (hp : (b.dish d).pinOut = false) (ht : (b.dish d).task = .stow) (hs : (b.dish d).stopRequesters = .empty)
    (hn : (b.dish d).nextAction = .none) :
    onPinOut d b
      = restGrant d (((b.modDish d Dish.pinsOut).trail (.dishUnstowed d)).tell (.report .ww d .unpinned)) := by
  have record : (enterState d .braked (b.modDish d (fun x => { x with pinOut := true }))).modDish d
      (fun x => if x.task = .stow then { x with task := .none, owner := none } else x) = b.modDish d Dish.pinsOut := by
    unfold enterState
    rw [Blocks.modDish_modDish, Blocks.modDish_modDish]
    refine Blocks.modDish_congr ?_
    simp [Dish.enter, Dish.leave, hd, DriveState.active, Dish.modAxes, ht, Dish.pinsOut]
  have entered : ((enterState d .braked (b.modDish d (fun x => { x with pinOut := true }))).trail
      (.dishUnstowed d)).modDish d (fun x => if x.task = .stow then { x with task := .none, owner := none } else x)
      = (b.modDish d Dish.pinsOut).trail (.dishUnstowed d) := congrArg (Blocks.trail (.dishUnstowed d)) record
  unfold onPinOut finishUnpinning
  dsimp only
  rw [hp, if_neg (by decide), hd]
  dsimp only
  rw [entered]
  refine settleBraked_idle ?_ ?_ ?_ <;> rw [Blocks.tell_dish, Blocks.trail_dish, Blocks.modDish_dish_self]
  · exact hs
  · exact Task.noConfusion
  · exact hn

/-- A pin sensor that ends what the wind watch has in hand: the grant in use goes back, and the message to WW changes
the stow record. -/
theorem pins_leave {F : Blocks → Blocks} {s : State} {d : DishId} {m : Report} {e : TrailEvent} {g : Dish → Dish}
    {r : StowRecord → StowRecord} (hq : s.part.blocks.QuietBut (some d))
    (hF : F s.part.blocks = restGrant d (((s.part.blocks.modDish d g).trail e).tell (.report .ww d m)))
    (hgrant : usesGrant d s.part.blocks = true → ReturnsQuietly d s.part.blocks)
    (hm : ∀ c : Blocks, c.stow d = s.part.blocks.stow d → handle (.report .ww d m) c = c.modStow d r)
    (hr : (g (s.part.blocks.dish d)).reasons = (s.part.blocks.dish d).reasons)
    (hsc : (g (s.part.blocks.dish d)).score = (s.part.blocks.dish d).score)
    (hn : (g (s.part.blocks.dish d)).nextAction = (s.part.blocks.dish d).nextAction)
    (he : markedPages [.trail e s.part.blocks.clock.time s.part.blocks.clock.valid] = []) :
    Leaves (actBlocks F s) s (((s.part.blocks.modDish d g).modStow d r).atRest d) s.part.xm
      ([.trail e s.part.blocks.clock.time s.part.blocks.clock.valid] ++ restOutputs d s.part.blocks)
      [.dish d, .wind, .power, .common] := by
  have still : Still (some d) ((s.part.blocks.modDish d g).atRest d) := (hq.still.modDish d hr).atRest d
  obtain ⟨hi, ho, -⟩ := hq
  generalize hentry : [Output.trail e s.part.blocks.clock.time s.part.blocks.clock.valid] = entry at *
  have boxes : ((s.part.blocks.modDish d g).trail e).tell (.report .ww d m)
      = { s.part.blocks.modDish d g with inbox := [.report .ww d m], out := entry } := by
    rw [Blocks.trail, Blocks.tell, Blocks.modDish_inbox, Blocks.modDish_out, hi, ho, ← hentry]
    rfl
  have rest : F s.part.blocks = { (s.part.blocks.modDish d g).atRest d with
      inbox := [.report .ww d m], out := entry ++ restOutputs d s.part.blocks } := by
    rw [hF, boxes, restGrant_eq, atRest_boxes, restOutputs_congr (b := s.part.blocks)]
    · rfl
    · intro hu
      obtain ⟨h1, h2, h3⟩ := hgrant hu
      refine ⟨h1, h2, Eq.trans (congrArg Dish.nextAction ?_) (hn.trans h3)⟩
      exact Blocks.modDish_dish_self _ _ _
  have hinbox : ((s.part.blocks.modDish d g).atRest d).inbox = [] := (atRest_inbox _ _).trans hi
  refine actBlocks_leaves_untouched ?_ ?_ (fun pg hp => ?_) (fun pg hp => ?_) (.inl (by simp))
  · rw [rest, atRest_modStow]
    refine settle_message (m := .report .ww d m) _ (still.boxes _ _) rfl ?_
      ((still.modStow r).of_records rfl rfl (fun _ => rfl)) hinbox
    rw [hm]
    · exact Blocks.without_inbox (b := ((s.part.blocks.modDish d g).atRest d).modStow d r) hinbox
    · exact atRest_stow _ _ _
  · rw [atRest_out]
    exact ho
  · rw [markedPages_append, he, List.nil_append] at hp
    rcases markedPages_restOutputs d _ pg hp with rfl | rfl <;> simp
  · simp only [List.mem_cons, not_or] at hp
    exact ((untouched_modDish hp.1 hsc).trans (untouched_modStow hp.2.1 _ _ _)).trans (untouched_atRest hp.1 _)

/-- Settles O31: the pin sensor brings the dish to rest, and the wind watch hears of it. -/
theorem thePinsGoInAndOut : Obligations.ThePinsGoInAndOut := by
  intro d s b off given back outs hq hgrant hs hn ht
  refine ⟨fun hd hp ho ha hph => ?_, fun hd hp hph hu => ?_⟩
  · refine pins_leave (g := Dish.pinsIn) hq (onPinIn_stow hgrant hd hp ho ha ht hs hn) hgrant (fun c hc => ?_)
      rfl rfl rfl rfl
    show onWwStowed d c = _
    rw [onWwStowed, hc, hph]
  · refine pins_leave (g := Dish.pinsOut) hq (onPinOut_unstow hd hp ht hs hn) hgrant (fun c hc => ?_)
      rfl rfl rfl rfl
    show onWwUnpinned d c = _
    rw [onWwUnpinned, hc, if_pos hu]

end Sys2Proof.Machine
end

