-- ==== Sys2Proof/Proofs/PowerOn.lean ====
section
/-! SUPPORT. The part after power-on: its first trail entry, its first publications and its blocks. -/

namespace Sys2Proof.Machine

/-- Every page is published once after power-on (R167). -/
theorem allPages_nodup : allPages.Nodup := by decide

/-- A page published once has gone on by one EDITION (R168). -/
theorem publishAll_edition {pg : Page} {l : List Page} (hm : pg ∈ l) (hn : l.Nodup) (p : Part) :
    (l.foldl (fun x q => publish q x) p).xm.editions.get pg = p.xm.editions.get pg + 2 := by
  induction l generalizing p with
  | nil => exact absurd hm (by simp)
  | cons q l ih =>
    obtain ⟨hq, hl⟩ := List.nodup_cons.mp hn
    rcases List.mem_cons.mp hm with rfl | hm
    · refine ((publishAll_page pg l (publish pg p)).2 hq).1.trans ?_
      simp [publish, Part.modXm, Editions.get_set]
    · have hne : pg ≠ q := fun e => hq (e ▸ hm)
      exact (ih hm hl (publish q p)).trans (congrArg (· + 2) (samePage_publish hne p).1)

/-- The exchange side after power-on with one entry in its trail, and no cause set for it (R179, R181). -/
def firstLogged (e : TrailEvent) : Exchange :=
  { freshExchange with
    mem := Memory.writeBytes 0x3000 (entryBytes 0 e 0 false) [], writeSequence := 1, linger := some 500 }

theorem unread_firstLogged (e : TrailEvent) : unread (firstLogged e) = 1 := by
  have acknowledged : (firstLogged e).mem.readWord 0x000C = 0 := Memory.readWord_outside _ (.inl (by decide))
  unfold unread
  rw [acknowledged, show (firstLogged e).writeSequence = 1 from rfl]
  rfl

/-- The LOAD entry is written into the empty trail: it brings the unread count to 1 (R179, R180, R185). -/
theorem takeEvent_fresh (level : Nat) {e : TrailEvent} (he : e.safety = false) :
    ∃ c, takeEvent level 0 e 0 false freshExchange = { firstLogged e with cause := c } ∧ (level ≠ 1 → c = 0) := by
  have taken : takeEvent level 0 e 0 false freshExchange = writeEntry level 0 e 0 false freshExchange := rfl
  have written : writeEntry level 0 e 0 false freshExchange
      = if unread freshExchange < level ∧ level ≤ unread (firstLogged e) then (firstLogged e).setCause .trail
        else firstLogged e := by
    unfold writeEntry
    dsimp only
    rw [he, if_neg (by decide)]
    rfl
  rw [taken, written, unread_firstLogged]
  split
  · next h => exact ⟨_, rfl, fun hl => absurd (Nat.le_antisymm h.2 h.1) hl⟩
  · exact ⟨_, rfl, fun _ => rfl⟩

/-- The part once the settings are loaded and the LOAD entry is handed on, before any page is published (R185). -/
def Part.loaded (levels : FieldLevels) (nv : List Byte) (failures : Nat) : Part :=
  { blocks := freshBlocks levels (loadSite nv failures)
    xm := takeEvent (loadSite nv failures).working.triggerLevel 0 (loadEvent (loadSite nv failures)) 0 false
      freshExchange }

theorem powerOn_eq (levels : FieldLevels) (nv : List Byte) (failures : Nat) : Part.powerOn levels nv failures
    = allPages.foldl (fun p pg => publish pg p) (Part.loaded levels nv failures) := by
  unfold Part.powerOn Part.loaded
  rfl

/-- After the load the publications write the pages alone (R166, R167). -/
theorem powerOn_published (levels : FieldLevels) (nv : List Byte) (failures : Nat) :
    (Part.powerOn levels nv failures).blocks = freshBlocks levels (loadSite nv failures)
      ∧ SameButPages allPages (Part.loaded levels nv failures).xm (Part.powerOn levels nv failures).xm := by
  rw [powerOn_eq]
  exact publishAll_same allPages allPages (fun _ h => h) _

/-- What no page and no trail entry takes up is 0 after power-on (R166). -/
theorem powerOn_read {levels : FieldLevels} {nv : List Byte} {failures a : Nat} (hp : ∀ pg : Page, pg.owns a = false)
    (ht : inTrail a = false) : (Part.powerOn levels nv failures).xm.mem.read a = 0 := by
  obtain ⟨c, hx, -⟩ := takeEvent_fresh (loadSite nv failures).working.triggerLevel
    (e := loadEvent (loadSite nv failures)) rfl
  obtain ⟨-, -, -, hmem⟩ := powerOn_published levels nv failures
  rw [hmem a (fun pg _ => hp pg), Part.loaded, hx]
  refine (Memory.read_writeBytes_outside _ ?_).trans rfl
  rw [entryBytes_length]
  simp only [inTrail, Bool.and_eq_false_imp, decide_eq_true_eq, decide_eq_false_iff_not] at ht
  omega

/-- What no page and no trail entry takes up: the words of the site computer, and the slate (8.1). -/
theorem unpublished {a : Nat} (h : a = 0x0004 ∨ a = 0x0005 ∨ (0x000C ≤ a ∧ a < 0x0010) ∨ (0x0100 ≤ a ∧ a < 0x1100)
    ∨ 0x4000 ≤ a) : (∀ pg : Page, pg.owns a = false) ∧ inTrail a = false := by
  refine ⟨fun pg => ?_, ?_⟩
  · by_contra hp
    have := Page.owns_bounds (Bool.not_eq_false _ ▸ hp)
    omega
  · simp only [inTrail, Bool.and_eq_false_imp, decide_eq_true_eq, decide_eq_false_iff_not]
    omega

/-- A word neither half of which is taken up is 0 after power-on. -/
theorem powerOn_readWord {levels : FieldLevels} {nv : List Byte} {failures a : Nat}
    (h : (0x000C ≤ a ∧ a + 1 < 0x0010) ∨ (0x0100 ≤ a ∧ a + 1 < 0x1100)) :
    (Part.powerOn levels nv failures).xm.mem.readWord a = 0 := by
  have clear : ∀ i, a ≤ i → i < a + 2 → (Part.powerOn levels nv failures).xm.mem.read i = Memory.read i [] :=
    fun i h1 h2 => (powerOn_read (unpublished (a := i) (by omega)).1 (unpublished (a := i) (by omega)).2).trans rfl
  unfold Memory.readWord
  rw [Memory.readBytes_congr clear]
  rfl

/-- The registers and the lists of the exchange side after power-on. -/
theorem powerOn_exchange (levels : FieldLevels) (nv : List Byte) (failures : Nat) :
    ∃ c mem editions, (Part.powerOn levels nv failures).xm = { freshExchange with
        mem := mem, editions := editions, writeSequence := 1, linger := some 500, cause := c }
      ∧ ((loadSite nv failures).working.triggerLevel ≠ 1 → c = 0) := by
  obtain ⟨c, hx, hc⟩ := takeEvent_fresh (loadSite nv failures).working.triggerLevel
    (e := loadEvent (loadSite nv failures)) rfl
  obtain ⟨-, hsame, -⟩ := powerOn_published levels nv failures
  refine ⟨c, (Part.powerOn levels nv failures).xm.mem, (Part.powerOn levels nv failures).xm.editions, ?_, hc⟩
  rw [Part.loaded, hx] at hsame
  exact hsame

/-- Every page has been published once after power-on (R166, R168). -/
theorem powerOn_edition (levels : FieldLevels) (nv : List Byte) (failures : Nat) (pg : Page) :
    (Part.powerOn levels nv failures).xm.editions.get pg = 2 := by
  have zero : zeroEditions.get pg = 0 := by cases pg <;> simp [zeroEditions, Editions.get]
  rw [powerOn_eq, publishAll_edition (mem_allPages pg) allPages_nodup, Part.loaded, takeEvent_editions,
    show freshExchange.editions = zeroEditions from rfl, zero]
  rfl

theorem freshBlocks_dish (levels : FieldLevels) (site : SiteStore) (d : DishId) :
    (freshBlocks levels site).dish d = freshDish site.working levels d := by
  simp [freshBlocks, Blocks.dish]

/-- Settles O3: the publications after power-on write the pages alone, and the blocks are the fresh ones. -/
theorem powerOnMakesAFreshPart : Obligations.PowerOnMakesAFreshPart := by
  intro levels s
  generalize hnv : s.part.blocks.site.nv = nv
  generalize hfail : s.part.blocks.site.failures = failures
  have hpart : s.part.restart levels = Part.powerOn levels nv failures := by rw [Part.restart, hnv, hfail]
  obtain ⟨hb, -⟩ := powerOn_published levels nv failures
  obtain ⟨c, mem, editions, hx, hc⟩ := powerOn_exchange levels nv failures
  refine ⟨{ s with part := Part.powerOn levels nv failures }, ?_,
    rfl, fun slot => ?_, fun a ha => ?_, powerOn_readWord (.inl (by decide)), powerOn_edition levels nv failures, ?_⟩
  · rw [← hpart]
    rfl
  · rw [slotState, powerOn_readWord]
    · rfl
    · have := slot.isLt
      unfold slotBase
      omega
  · simp only [inSiteArea, Bool.or_eq_true, Bool.and_eq_true, decide_eq_true_eq] at ha
    obtain ⟨hp, ht⟩ := unpublished (a := a) (by omega)
    exact powerOn_read hp ht
  · dsimp only
    rw [hx, hb]
    refine ⟨rfl, rfl, rfl, rfl, rfl, rfl, rfl, rfl, hc, rfl, rfl, rfl, rfl, fun d => ?_, fun f => ?_, rfl, rfl,
      rfl, rfl, fun l => ?_, fun z => ?_⟩
    · rw [freshBlocks_dish]
      exact ⟨rfl, rfl, rfl, rfl, rfl, rfl, rfl, rfl, rfl⟩
    · simp [freshBlocks, Blocks.form]
    · simp [freshBlocks, Blocks.line, freshLine]
    · simp [freshBlocks, Blocks.zone, freshZone]

end Sys2Proof.Machine
end

