-- ==== Sys2Proof/Proofs/DishOrders.lean ====
section
/-! SUPPORT. Orders of one dish that are answered in the event of their take: RELEASE and CLEAR_FAULT (R16, R22 to
R24, R116, R120). -/

namespace Sys2Proof.Machine

/-! ### The take of an order (R174 to R176) -/

theorem recordTake_ready (s : SlotId) (o : Order) (named : Named) (standing : Bool) (code : Option AnswerCode)
    (x : Exchange) : (recordTake s o named standing code x).ready = x.ready := by
  unfold recordTake
  dsimp only
  split <;> rfl

/-- An order that its owner answers at once, where nothing follows but what the outputs say. -/
theorem order_answers {c : Instr} {s : State} {slot : SlotId} {o : Order} {a : Answer} {b g : Blocks}
    {before after : List Output} {pages : List Page} (horder : orderOf c = some (slot, o)) (hslot : Takeable s slot o)
    (hgive : ∀ f staging, giveOrder slot o f staging s.part.blocks = (g, false))
    (hcode : answeredCode slot g.out = some a.code)
    (hsettle : settle s.part.blocks g
      = { b with out := before ++ [.answer slot a b.clock.time b.clock.valid] ++ after })
    (ho : b.out = [])
    (hm : ∀ pg ∈ markedPages (before ++ [.answer slot a b.clock.time b.clock.valid] ++ after), pg ∈ pages)
    (ht : ∀ pg, pg ∉ pages → Untouched pg s.part.blocks b)
    (hc : Page.common ∈ pages ∨ ((before ++ after).all Output.noEntry = true ∧ b.site = s.part.blocks.site
      ∧ b.presence = s.part.blocks.presence)) :
    Answers (exec c s) s slot o a b before after pages := by
  generalize houts : before ++ [.answer slot a b.clock.time b.clock.valid] ++ after = outs at hsettle hm
  have taken : command slot o s.part = flush (s.part.modXm (Exchange.modMem (placeOrder slot o)))
      ⟨{ b with out := outs }, takenIn slot o false (some a.code) s.part.xm⟩ := by
    rw [command_takeable hslot, takeOrder]
    dsimp only [Part.modXm, Exchange.modMem]
    rw [hslot.2.2]
    dsimp only
    rw [hgive, hcode, hsettle]
    rfl
  have untouched : ∀ pg, pg ∉ pages → pageTouched pg (s.part.modXm (Exchange.modMem (placeOrder slot o)))
      (beforePages ⟨{ b with out := outs }, takenIn slot o false (some a.code) s.part.xm⟩) = false :=
    fun pg hp => ((ht pg hp).trans (untouched_out pg b [])) _ _
  have common : Page.common ∈ pages ∨ commonPublications (s.part.modXm (Exchange.modMem (placeOrder slot o)))
      ⟨{ b with out := outs }, takenIn slot o false (some a.code) s.part.xm⟩ = 0 := by
    refine hc.imp id ?_
    rintro ⟨he, hs, hp⟩
    refine commonPublications_zero ?_ (recordTake_ready _ _ _ _ _ _) hs hp
    rw [List.all_append, Bool.and_eq_true] at he
    rw [← houts]
    simp [he, Output.noEntry]
  unfold Answers
  rw [exec_of_orderOf horder, houts]
  refine ⟨{ s with part := command slot o s.part }, rfl, rfl, ?_, ?_⟩
  · show (command slot o s.part).blocks = b
    rw [taken, flush_blocks]
    exact Blocks.without_out ho
  · have same := flush_same _ _ pages hm untouched common
    rw [beforePages_eq] at same
    show SameButPages pages _ (command slot o s.part).xm
    rw [taken]
    exact same

/-- An answer is the last that its slot was given. -/
theorem answeredCode_answer (slot : SlotId) (a : Answer) (b : Blocks) :
    answeredCode slot (b.answer slot a).out = some a.code := by
  rw [Blocks.answer_out, answeredCode, List.foldl_append]
  exact if_pos rfl

theorem single_toList (d : DishId) : (DishSet.single d).toList = [d] := by revert d; decide

/-! ### RELEASE (R16, R116, R120) -/

/-- A pinned dish whose pins are driven out (R16). -/
def Dish.unpinning (pin : Timer) (x : Dish) : Dish :=
  { x with drive := .unpinning, pinningOwner := none, pinTimer := pin, az := x.az.idle, el := x.el.idle }

/-- A stow record whose unpin is asked for (R116). -/
def StowRecord.unpinning (r : StowRecord) : StowRecord :=
  { r with phase := .unstowing, unpinWanted := true, rehand := false }

/-- The unpin of a PINNED dish that no lock holds (R16). -/
theorem requestUnpin_pinned {d : DishId} {b : Blocks} (hd : (b.dish d).drive = .pinned)
    (hm : (b.dish d).lock.motionLocked = false) (hs : (b.dish d).lock.stopPending = false) :
    requestUnpin d b = b.modDish d (Dish.unpinning (b.timer b.settings.pinTime)) := by
  unfold requestUnpin unpinPinned enterUnpinning enterState
  rw [hd]
  dsimp only
  rw [hm, hs, if_neg (by decide), Blocks.modDish_modDish]
  refine Blocks.modDish_congr ?_
  simp [Dish.enter, Dish.leave, hd, DriveState.active, Dish.modAxes, Dish.unpinning]

theorem Blocks.modStow_modStow (b : Blocks) (d : DishId) (f g : StowRecord → StowRecord) :
    (b.modStow d f).modStow d g = b.modStow d (fun x => g (f x)) := by
  simp [Blocks.modStow, Blocks.modWind]

/-- A stowed dish without reasons is unpinned (R116). -/
theorem unstow_stowed {d : DishId} {b : Blocks} (hp : (b.stow d).phase = .stowed) (hd : (b.dish d).drive = .pinned)
    (hm : (b.dish d).lock.motionLocked = false) (hs : (b.dish d).lock.stopPending = false) :
    unstow d b = (b.modDish d (Dish.unpinning (b.timer b.settings.pinTime))).modStow d StowRecord.unpinning := by
  unfold unstow unstowWith askUnpin
  rw [hp]
  dsimp only
  rw [requestUnpin_pinned (by exact hd) (by exact hm) (by exact hs), Blocks.modStow_modStow]
  rfl

/-- RELEASE takes MANUAL alone from a dish that has no reason WIND (R120). -/
theorem releaseNamed_pinned {d : DishId} {b : Blocks} (hd : (b.dish d).drive = .pinned)
    (hr : (b.dish d).reasons = ⟨false, true⟩) (hp : (b.stow d).phase = .stowed)
    (hm : (b.dish d).lock.motionLocked = false) (hs : (b.dish d).lock.stopPending = false) :
    releaseNamed d b = (b.modDish d (fun x => { x.unpinning (b.timer b.settings.pinTime) with
      reasons := ⟨false, false⟩ })).modStow d StowRecord.unpinning := by
  have reasons : (b.dish d).reasonsEmpty = false := by rw [Dish.reasonsEmpty, hr]; rfl
  have taken : setReasons d (fun r => { manual := false, wind := r.wind && b.wind.state.stowing' }) b
      = b.modDish d (fun x => { x with reasons := ⟨false, false⟩ }) := by
    refine Blocks.modDish_congr ?_
    simp [hr]
  generalize hc : b.modDish d (fun x => { x with reasons := ⟨false, false⟩ }) = c at taken
  have dish : c.dish d = { b.dish d with reasons := ⟨false, false⟩ } := by rw [← hc, Blocks.modDish_dish_self]
  have free : (c.dish d).reasonsEmpty = true := by rw [dish]; rfl
  unfold releaseNamed takeReasons
  dsimp only
  rw [reasons, if_neg (by decide), taken, free, if_pos (by decide), unstow_stowed (by rw [← hc]; exact hp)
    (by rw [dish]; exact hd) (by rw [dish]; exact hm) (by rw [dish]; exact hs), ← hc, Blocks.modDish_modDish]
  rfl

/-- RELEASE of one dish that its release unpins (R120). -/
theorem takeRelease_pinned {slot : SlotId} {dishes : Word} {d : DishId} {b : Blocks} (hset : badDishSet dishes = false)
    (hone : dishBits dishes = DishSet.single d) (hi : b.inbox = []) (hd : (b.dish d).drive = .pinned)
    (hr : (b.dish d).reasons = ⟨false, true⟩) (hp : (b.stow d).phase = .stowed)
    (hm : (b.dish d).lock.motionLocked = false) (hs : (b.dish d).lock.stopPending = false) :
    takeRelease slot dishes b = ((b.modDish d (fun x => { x.unpinning (b.timer b.settings.pinTime) with
      reasons := ⟨false, false⟩ })).modStow d StowRecord.unpinning).answer slot
        ⟨.done, noNotes, 0, [0, 0, 0, 0, 0, 0, 0, 0, 0, 0]⟩ := by
  unfold takeRelease
  rw [if_neg (by simp [hset]), hone, single_toList]
  dsimp only [overDishes, List.foldl]
  rw [releaseNamed_pinned hd hr hp hm hs]
  generalize hg : (b.modDish d (fun x => { x.unpinning (b.timer b.settings.pinTime) with
      reasons := ⟨false, false⟩ })).modStow d StowRecord.unpinning = g
  have free : (g.dish d).reasonsEmpty = true := by
    rw [← hg, Blocks.modStow_dish, Blocks.modDish_dish_self]
    rfl
  have noReply : g.inbox.drop b.inbox.length = [] := by rw [← hg, hi]; exact hi
  have noneHeld : dishSetBytes (DishSet.ofList []) ++ dishSetBytes (DishSet.ofList []) ++ nibbles (fun _ => 0)
      = [0, 0, 0, 0, 0, 0, 0, 0, 0, 0] := by decide
  have unrefused : ∀ e, unpinRefusal [] e = 0 := fun _ => rfl
  rw [noReply]
  simp only [free, unrefused, List.filter_cons, List.filter_nil, ite_self, Bool.not_true, bne_self_eq_false,
    Bool.false_eq_true, if_false, noneHeld]

/-- A RELEASE that changes one dish and its stow record, and sends no message. -/
theorem release_answers {h : OrderHead} {dishes : Word} {d : DishId} {a : Answer} {s : State} {g : Dish → Dish}
    {r : StowRecord → StowRecord}
    (hgive : takeRelease h.slot dishes s.part.blocks = ((s.part.blocks.modDish d g).modStow d r).answer h.slot a)
    (hslot : Takeable s h.slot (orderWith h 0 dishes 0 .release)) (hq : s.part.blocks.Quiet)
    (hsc : (g (s.part.blocks.dish d)).score = (s.part.blocks.dish d).score) :
    Answers (exec (.release h dishes) s) s h.slot (orderWith h 0 dishes 0 .release) a
      ((s.part.blocks.modDish d g).modStow d r) [] [] [.dish d, .wind] := by
  have untouched : ∀ pg, pg ∉ [Page.dish d, .wind] →
      Untouched pg s.part.blocks ((s.part.blocks.modDish d g).modStow d r) := by
    intro pg hpg
    simp only [List.mem_cons, List.not_mem_nil, or_false, not_or] at hpg
    exact (untouched_modDish hpg.1 hsc).trans (untouched_modStow hpg.2 _ _ _)
  have site : ((s.part.blocks.modDish d g).modStow d r).site = s.part.blocks.site := rfl
  have presence : ((s.part.blocks.modDish d g).modStow d r).presence = s.part.blocks.presence := rfl
  have quiet : ((s.part.blocks.modDish d g).modStow d r).Quiet := hq
  generalize (s.part.blocks.modDish d g).modStow d r = c at *
  have still : Still none (c.answer h.slot a) := (quiet.still none).of_records rfl rfl (fun _ => rfl)
  obtain ⟨hi, hout, -⟩ := quiet
  refine order_answers (c := .release h dishes) (b := c) (before := []) (after := []) rfl hslot
    (fun f staging => congrArg (fun x => (x, false)) hgive) (answeredCode_answer _ _ _) ?_ hout (by simp [markedPages])
    untouched (.inr ⟨rfl, site, presence⟩)
  rw [settle_still _ still hi, Blocks.answer, hout]
  rfl

/-- Settles O16: the release takes the only reason, and the wind watch asks for the unpin at once. -/
theorem aReleaseUnpinsAStowedDish : Obligations.AReleaseUnpinsAStowedDish := by
  intro h dishes d s b o hset hone hslot hq hd hr hp hm hs
  exact release_answers (takeRelease_pinned (slot := h.slot) hset hone hq.1 hd hr hp hm hs) hslot hq rfl

/-! ### CLEAR_FAULT (R22 to R24) -/

/-- None of the conditions behind the kinds seen is present (R22). -/
theorem stillPresent_eq_false {x : Dish} (he : x.kindsSeen.encoder = true → x.az.missed = false ∧ x.el.missed = false)
    (hl : x.kindsSeen.limit = true →
      (x.az.limitLow && x.az.limitHigh) = false ∧ (x.el.limitLow && x.el.limitHigh) = false)
    (ha : x.kindsSeen.amplifier = true → x.az.ampReady = true ∧ x.el.ampReady = true)
    (hp : x.kindsSeen.pin = true → x.pinIn ≠ x.pinOut) : stillPresent x = false := by
  rw [stillPresent, List.any_eq_false]
  intro k hk
  rw [Bool.and_eq_true, not_and, Bool.not_eq_true]
  cases k with
  | following => exact fun _ => rfl
  | encoder => exact fun h => by simp [conditionPresent, he h]
  | limit => exact fun h => by simp only [conditionPresent, hl h, Bool.or_self]
  | amplifier => exact fun h => by simp [conditionPresent, ha h]
  | pin => exact fun h => by simpa [conditionPresent] using hp h

/-- An axis after the clear of a fault of kind `k` (R23, R24). -/
def Axis.cleared (k : FaultKind) (x : Axis) : Axis :=
  { x.idle with
    lowBar := x.lowBar || (k == .limit && x.limitLow && !x.limitHigh)
    highBar := x.highBar || (k == .limit && x.limitHigh && !x.limitLow) }

/-- A dish after the clear of a fault of kind `k` (R23, R24). -/
def Dish.cleared (k : FaultKind) (x : Dish) : Dish :=
  { x with
    drive := if x.pinIn then .pinned else .braked, faultKind := none
    kindsSeen := ⟨false, false, false, false, false⟩
    pinningOwner := if x.pinIn then x.pinningOwner else none, az := x.az.cleared k, el := x.el.cleared k }

theorem clearDish_faulted {d : DishId} {k : FaultKind} {b : Blocks} (hd : (b.dish d).drive = .faulted)
    (hk : (b.dish d).faultKind = some k) :
    clearDish d b = ((b.modDish d (Dish.cleared k)).trail (.faultCleared d)).tell (.cleared d) := by
  unfold clearDish
  refine congrArg (Blocks.tell _) (congrArg (Blocks.trail _) (Blocks.modDish_congr ?_))
  dsimp only
  rw [hk]
  by_cases hl : k = .limit
  · subst hl
    cases hp : (b.dish d).pinIn <;>
      simp [Dish.enter, Dish.leave, hd, DriveState.active, Dish.modAxes, Dish.cleared, Axis.cleared, Axis.bar,
        Axis.idle, Axis.drop, hp, FaultKinds.empty]
  · cases hp : (b.dish d).pinIn <;>
      simp [Dish.enter, Dish.leave, hd, DriveState.active, Dish.modAxes, Dish.cleared, Axis.cleared,
        Axis.idle, Axis.drop, hp, hl, FaultKinds.empty]

/-- CLEAR_FAULT of one FAULTED dish whose conditions are gone (R23). -/
theorem takeClearFault_single {slot : SlotId} {dishes : Word} {d : DishId} {k : FaultKind} {b : Blocks}
    (hone : dishBits dishes = DishSet.single d) (hd : (b.dish d).drive = .faulted)
    (hk : (b.dish d).faultKind = some k) (hp : stillPresent (b.dish d) = false) :
    takeClearFault slot dishes b = (((b.modDish d (Dish.cleared k)).trail (.faultCleared d)).tell (.cleared d)).answer
      slot ⟨.done, noNotes, 0, lowBytes 2 (2 ^ d.val)⟩ := by
  have named : DishSet.toList (dishes.setWidth 12) = [d] := (congrArg DishSet.toList hone).trans (single_toList d)
  have nonempty : dishes ≠ 0 := by
    rintro rfl
    exact absurd named (List.cons_ne_nil d []).symm
  have data : ∀ e : DishId, dishSetBytes (DishSet.ofList [e]) = lowBytes 2 (2 ^ e.val) := by decide
  unfold takeClearFault
  rw [if_neg nonempty, named]
  simp only [List.filter_cons, List.filter_nil, hd, hp, beq_self_eq_true, if_true, Bool.false_eq_true, if_false,
    overDishes, List.foldl_cons, List.foldl_nil]
  rw [clearDish_faulted hd hk, data]

/-- The wind watch has nothing to do for a dish cleared that it neither has BLOCKED nor wants unpinned (R115, R117). -/
theorem handle_cleared {d : DishId} {b : Blocks} (hp : (b.stow d).phase ≠ .blocked)
    (hu : (b.stow d).unpinWanted = false) : handle (.cleared d) b = b := by
  have free : isBlocked b d [.fault] = false := by simp [isBlocked, hp]
  show onCleared d b = b
  unfold onCleared
  rw [free]
  simp [hu]

/-- A CLEAR_FAULT that changes one dish, of which the wind watch takes no notice. -/
theorem clearFault_answers {h : OrderHead} {dishes : Word} {d : DishId} {a : Answer} {s : State} {g : Dish → Dish}
    (hgive : takeClearFault h.slot dishes s.part.blocks
      = (((s.part.blocks.modDish d g).trail (.faultCleared d)).tell (.cleared d)).answer h.slot a)
    (hslot : Takeable s h.slot (orderWith h 0 dishes 0 .clearFault)) (hq : s.part.blocks.Quiet)
    (hp : (s.part.blocks.stow d).phase ≠ .blocked) (hu : (s.part.blocks.stow d).unpinWanted = false)
    (hr : (g (s.part.blocks.dish d)).reasons = (s.part.blocks.dish d).reasons)
    (hsc : (g (s.part.blocks.dish d)).score = (s.part.blocks.dish d).score) :
    Answers (exec (.clearFault h dishes) s) s h.slot (orderWith h 0 dishes 0 .clearFault) a
      (s.part.blocks.modDish d g)
      [.trail (.faultCleared d) s.part.blocks.clock.time s.part.blocks.clock.valid] [] [.dish d, .common] := by
  have still : Still none (s.part.blocks.modDish d g) := (hq.still none).modDish d hr
  have untouched : ∀ pg, pg ∉ [Page.dish d, .common] → Untouched pg s.part.blocks (s.part.blocks.modDish d g) := by
    intro pg hpg
    simp only [List.mem_cons, not_or] at hpg
    exact untouched_modDish hpg.1 hsc
  have clock : (s.part.blocks.modDish d g).clock = s.part.blocks.clock := rfl
  have stow : (s.part.blocks.modDish d g).stow d = s.part.blocks.stow d := rfl
  obtain ⟨hi, hout, -⟩ := hq
  have inbox : (s.part.blocks.modDish d g).inbox = [] := hi
  have out : (s.part.blocks.modDish d g).out = [] := hout
  generalize s.part.blocks.modDish d g = c at *
  refine order_answers (c := .clearFault h dishes) (b := c) (after := []) rfl hslot
    (fun f staging => congrArg (fun x => (x, false)) hgive) (answeredCode_answer _ _ _) ?_ out (by simp [markedPages])
    untouched (.inl (by simp))
  refine settle_message (m := .cleared d) _ (still.of_records rfl rfl (fun _ => rfl)) ?_ ?_
    (still.of_records rfl rfl (fun _ => rfl)) inbox
  · rw [Blocks.answer_inbox, Blocks.tell_inbox, Blocks.trail_inbox, inbox]
    rfl
  · rw [handle_cleared (by exact stow ▸ hp) (by exact stow ▸ hu), ← clock]
    refine (Blocks.without_inbox inbox).trans (congrArg (fun l => { c with out := l }) ?_)
    rw [Blocks.answer_out, Blocks.tell_out, Blocks.trail_out, out]
    rfl

/-- Settles O21: the clear changes the record of the dish alone, and the wind watch has nothing to do for it. -/
theorem clearFaultClearsAFaultedDish : Obligations.ClearFaultClearsAFaultedDish := by
  intro h dishes d k s b o idle hone hslot hq hd hk he hl ha hp hph hu
  exact clearFault_answers (takeClearFault_single (slot := h.slot) hone hd hk (stillPresent_eq_false he hl ha hp))
    hslot hq hph hu rfl rfl

end Sys2Proof.Machine
end

