-- ==== Sys2Proof/Proofs/WorkEnds.lean ====
section
/-! SUPPORT. The end of the work of a formation, whose held dishes are released (R7, R55, R64, R68). -/

namespace Sys2Proof.Machine

/-! ### Updates of several dishes -/

/-- The blocks with the records of these dishes updated. -/
def Blocks.modDishes (l : List DishId) (g : Dish → Dish) (b : Blocks) : Blocks :=
  { b with dishes := Vector.ofFn (fun e : Fin 12 => if e ∈ l then g (b.dish e) else b.dish e) }

theorem Blocks.modDishes_dish (l : List DishId) (g : Dish → Dish) (b : Blocks) (e : DishId) :
    (b.modDishes l g).dish e = if e ∈ l then g (b.dish e) else b.dish e := by
  simp [Blocks.modDishes, Blocks.dish]

/-- Blocks that differ in their dish records at most are the same where those records are. -/
theorem Blocks.dishes_ext {b c : Blocks} (h : c = { b with dishes := c.dishes }) (hd : ∀ e, c.dish e = b.dish e) :
    c = b := by
  have : c.dishes = b.dishes := Vector.ext fun i hi => hd ⟨i, hi⟩
  rw [h, this]

/-- An update of one dish record after another, none of which sees the others' records. -/
theorem overDishes_records {l : List DishId} {F : DishId → Blocks → Blocks} {g : Dish → Dish} {b : Blocks}
    (hn : l.Nodup)
    (hF : ∀ d ∈ l, ∀ v : Vector Dish 12, v[d] = b.dish d →
      F d { b with dishes := v } = { b with dishes := v }.modDish d g) :
    overDishes l F b = b.modDishes l g := by
  induction l generalizing b with
  | nil => exact (Blocks.dishes_ext rfl fun e => Blocks.modDishes_dish [] g b e).symm
  | cons d l ih =>
    obtain ⟨hd, hl⟩ := List.nodup_cons.mp hn
    have first : F d b = b.modDish d g := hF d (by simp) b.dishes rfl
    have others : ∀ e ∈ l, (b.modDish d g).dish e = b.dish e :=
      fun e he => Blocks.modDish_dish_of_ne _ (ne_of_mem_of_not_mem he hd) g
    have rest : overDishes l F (b.modDish d g) = (b.modDish d g).modDishes l g :=
      ih hl (fun e he v hv => hF e (List.mem_cons_of_mem _ he) v (hv.trans (others e he)))
    show overDishes l F (F d b) = _
    rw [first, rest]
    refine Blocks.dishes_ext rfl fun e => ?_
    rw [Blocks.modDishes_dish, Blocks.modDishes_dish, Blocks.modDish_dish]
    by_cases he : e = d
    · subst he
      simp [hd]
    · simp [he]

theorem Still.modDishes {skip : Option DishId} {b : Blocks} (h : Still skip b) (l : List DishId) {g : Dish → Dish}
    (hg : ∀ x, (g x).reasons = x.reasons) : Still skip (b.modDishes l g) := by
  refine h.of_records rfl rfl (fun e => ?_)
  rw [Blocks.modDishes_dish]
  split
  · exact hg _
  · rfl

/-- An update of dishes touches their pages, and by a score a zone page. -/
theorem untouched_modDishes {pg : Page} {l : List DishId} {g : Dish → Dish} {b : Blocks} (h : ∀ d, pg ≠ .dish d)
    (hg : ∀ x, (g x).score = x.score) : Untouched pg b (b.modDishes l g) := by
  have score : ∀ e, ((b.modDishes l g).dish e).score = (b.dish e).score := by
    intro e
    rw [Blocks.modDishes_dish]
    split
    · exact hg _
    · rfl
  have zone : (b.modDishes l g).zone = b.zone := rfl
  have shed : (b.modDishes l g).shed = b.shed := rfl
  intro x y
  rw [← pageTouched_self pg ⟨b, x⟩]
  cases pg
  case dish e => exact absurd rfl (h e)
  case zone z => simp [pageTouched, score, zone, shed]
  all_goals rfl

/-! ### The end of work (R55, R64, R68) -/

/-- A held dish of FP after its release (R7). -/
def Dish.freed (hold : Timer) (x : Dish) : Dish :=
  if x.owner = some .fp then { x with task := .none, owner := none, holdTimer := hold } else x

theorem releaseDish_freed {d : DishId} {b : Blocks}
    (h : (b.dish d).owner = some .fp → (b.dish d).drive = .holding ∧ (b.dish d).startAwaited = false) :
    releaseDish .fp d b = b.modDish d (Dish.freed (b.timer b.settings.holdToBrake)) := by
  by_cases ho : (b.dish d).owner = some .fp
  · obtain ⟨hd, hs⟩ := h ho
    rw [releaseDish_holding ho hd]
    refine Blocks.modDish_congr ?_
    simp [Dish.released, Dish.freed, ho, hs]
  · have unowned : Dish.freed (b.timer b.settings.holdToBrake) (b.dish d) = id (b.dish d) := if_neg ho
    rw [Blocks.modDish_congr unowned]
    simp [Blocks.modDish, releaseDish, ho]

/-- Every dish of the formation is released, where those that FP owns hold (R55, R64, R68). -/
theorem releaseMembers_holding {f : FormationId} {b : Blocks}
    (h : ∀ d, (b.dish d).owner = some .fp → (b.dish d).drive = .holding ∧ (b.dish d).startAwaited = false) :
    releaseMembers f b = b.modDishes ((b.form f).members ||| (b.form f).included).toList
      (Dish.freed (b.timer b.settings.holdToBrake)) := by
  have nodup : allDishes.Nodup := by decide
  refine overDishes_records (nodup.filter _) fun d _ v hv => ?_
  have dish : ({ b with dishes := v } : Blocks).dish d = b.dish d := hv
  exact releaseDish_freed (by rw [dish]; exact h d)

theorem Blocks.modForm_modForm (b : Blocks) (f : FormationId) (g h : Formation → Formation) :
    (b.modForm f g).modForm f h = b.modForm f (fun m => h (g m)) := by
  simp [Blocks.modForm]

/-- An answer and the release of dishes do not look at a formation, nor does its update look at them. -/
theorem answer_modDishes_modForm (b : Blocks) (f : FormationId) (k : Formation → Formation) (slot : SlotId) (a : Answer)
    (l : List DishId) (g : Dish → Dish) :
    ((b.modForm f k).answer slot a).modDishes l g = ((b.answer slot a).modDishes l g).modForm f k := rfl

theorem Formation.clearWork_ended (m : Formation) : { m.clearWork with state := .idle } = m.ended := by
  simp [Formation.clearWork, Formation.rest, Formation.mapMembers, Formation.ended, closeLag, Function.comp_def]

theorem goIdle_eq (f : FormationId) (b : Blocks) : goIdle f b = b.modForm f Formation.ended :=
  congrArg (fun g => b.modForm f g) (funext Formation.clearWork_ended)

/-- The order in hand is answered and its dishes are released (R55, R64, R68). -/
theorem releaseMembers_answerWork {f : FormationId} {slot : SlotId} {b : Blocks} (code : AnswerCode) (spread : Nat)
    (hs : (b.form f).slot = some slot)
    (h : ∀ d, (b.dish d).owner = some .fp → (b.dish d).drive = .holding ∧ (b.dish d).startAwaited = false) :
    releaseMembers f (answerWork f code 0 spread b)
      = (b.answer slot (workAnswer (b.form f) code 0 spread)).modDishes
          ((b.form f).members ||| (b.form f).included).toList (Dish.freed (b.timer b.settings.holdToBrake)) := by
  have answered : answerWork f code 0 spread b = b.answer slot (workAnswer (b.form f) code 0 spread) := by
    rw [answerWork, hs]
  rw [answered, releaseMembers_holding (by exact h)]
  rfl

theorem mem_toList_or (a c : DishSet) (d : DishId) : d ∈ (a ||| c).toList ↔ (a.has d || c.has d) = true := by
  have mem : ∀ e : DishId, e ∈ allDishes := by decide
  simp [DishSet.toList, DishSet.has, mem]

/-- A command that answers the order in hand of a formation and releases dishes of it, and sends no message. -/
theorem workEnds_leaves {F : Blocks → Blocks} {s : State} {f : FormationId} {n : Nat} {slot : SlotId} {a : Answer}
    {l : List DishId} {t : Timer} {g : Formation → Formation} (hq : s.part.blocks.Quiet)
    (hF : F s.part.blocks
      = (((s.part.blocks.runTo n).answer slot a).modDishes l (Dish.freed t)).modForm f g) :
    Leaves (actBlocks F s) s (((s.part.blocks.runTo n).modDishes l (Dish.freed t)).modForm f g) s.part.xm
      [.answer slot a (s.part.blocks.runTo n).clock.time (s.part.blocks.runTo n).clock.valid]
      (.formation f :: allDishes.map Page.dish) := by
  have reasons : ∀ x, (Dish.freed t x).reasons = x.reasons := by intro x; unfold Dish.freed; split <;> rfl
  have score : ∀ x, (Dish.freed t x).score = x.score := by intro x; unfold Dish.freed; split <;> rfl
  have still : Still none (((s.part.blocks.runTo n).modDishes l (Dish.freed t)).modForm f g) :=
    (((hq.still none).runTo n).modDishes l reasons).of_records rfl rfl (fun _ => rfl)
  obtain ⟨hi, ho, -⟩ := hq
  refine actBlocks_leaves_untouched ?_ ho (by simp [markedPages]) (fun pg hp => ?_) (.inr ⟨rfl, rfl, rfl⟩)
  · rw [hF]
    refine (settle_outs _ still hi ((s.part.blocks.runTo n).answer slot a).out).trans ?_
    have out : ((s.part.blocks.runTo n).answer slot a).out
        = [.answer slot a (s.part.blocks.runTo n).clock.time (s.part.blocks.runTo n).clock.valid] := by
      rw [Blocks.answer_out, show (s.part.blocks.runTo n).out = [] from ho]
      rfl
    rw [out]
  · have mem : ∀ e : DishId, e ∈ allDishes := by decide
    have hdish : ∀ d, pg ≠ .dish d := fun d e => hp (by simp [e, mem])
    have hform : pg ≠ .formation f := fun e => hp (by simp [e])
    exact ((untouched_runTo pg n _).trans (untouched_modDishes hdish score)).trans (untouched_modForm hform g _)

/-- The last dwell of a RASTER is over (R55, R68). -/
theorem onDwellOver_last {f : FormationId} {slot : SlotId} {r : Raster} {n : Nat} {b : Blocks}
    (hst : (b.form f).state = .dwelling) (hd : (b.form f).dwell = some n) (hr : (b.form f).raster = some r)
    (hl : r.count ≤ r.index + 1) (hs : (b.form f).slot = some slot)
    (h : ∀ d, (b.dish d).owner = some .fp → (b.dish d).drive = .holding ∧ (b.dish d).startAwaited = false) :
    onDwellOver f b
      = ((b.answer slot (workAnswer (b.form f) .done 0 (spreadOf b.clock.time (b.form f).arrivals))).modDishes
          ((b.form f).members ||| (b.form f).included).toList (Dish.freed (b.timer b.settings.holdToBrake))).modForm f
          Formation.ended := by
  have form : (b.modForm f (fun x => { x with dwell := none })).form f = { b.form f with dwell := none } :=
    Blocks.modForm_form_self _ _ _
  unfold onDwellOver
  dsimp only
  rw [hst, hd, hr, if_pos ⟨rfl, rfl⟩]
  dsimp only
  rw [if_neg (by omega), finishWork, releaseMembers_answerWork (slot := slot) _ _ (by rw [form]; exact hs) (by exact h),
    form, goIdle_eq, answer_modDishes_modForm, Blocks.modForm_modForm]
  rfl

/-- The starve patience is over (R64). -/
theorem onStarveOver_eq {f : FormationId} {slot : SlotId} {b : Blocks} (hs : (b.form f).slot = some slot)
    (h : ∀ d, (b.dish d).owner = some .fp → (b.dish d).drive = .holding ∧ (b.dish d).startAwaited = false) :
    onStarveOver f b = (((b.answer slot (workAnswer (b.form f) .endedStarved 0 0)).modDishes
          ((b.form f).members ||| (b.form f).included).toList (Dish.freed (b.timer b.settings.holdToBrake))).modForm f
          (fun k => { k.ended with queue := [], wrapStop := none, wrapFail := none })) := by
  rw [onStarveOver, releaseMembers_answerWork _ _ hs h, emptyQueue, goIdle_eq, Blocks.modForm_modForm]
  rfl

/-- Settles O36: the answer, then the release of every dish that FP holds, then IDLE. -/
theorem theWorkEndsAndItsDishesAreReleased : Obligations.TheWorkEndsAndItsDishesAreReleased := by
  intro f n slot s b m free data hq hslot howned
  have released : { b with dishes := Vector.ofFn (fun d : Fin 12 => free d (b.dish d)) }
      = b.modDishes (m.members ||| m.included).toList (Dish.freed (b.timer b.settings.holdToBrake)) := by
    refine congrArg (fun v => { b with dishes := v }) (congrArg Vector.ofFn (funext fun d => ?_))
    simp only [free, mem_toList_or]
    exact ite_and _ _ _ _
  rw [released]
  refine ⟨fun r hst hd hr hl => ?_, fun _ hd => ?_⟩
  · have given : workAnswer m .done 0 (spreadOf b.clock.time m.arrivals)
        = ⟨.done, m.notes, 0, data (some r.index) (spreadOf b.clock.time m.arrivals)⟩ := by
      rw [workAnswer, workData, hr]
      rfl
    rw [← given]
    refine workEnds_leaves hq ?_
    show s.part.blocks.expire (s.part.blocks.form f).dwell (onDwellOver f) = _
    rw [show (s.part.blocks.form f).dwell = some n from hd, expire_running]
    exact onDwellOver_last hst hd hr hl hslot howned
  · refine workEnds_leaves (a := workAnswer m .endedStarved 0 0) hq ?_
    show s.part.blocks.expire (s.part.blocks.form f).starve (onStarveOver f) = _
    rw [show (s.part.blocks.form f).starve = some n from hd, expire_running]
    exact onStarveOver_eq hslot howned

end Sys2Proof.Machine
end

