-- ==== Sys2Proof/Proofs/FirstWave.lean ====
section
/-! SUPPORT. The end of the admission wait and the first wave (R8, R51 to R53, R81). -/

namespace Sys2Proof.Machine

/-! ### Waves that do not start (R53) -/

/-- No member of the piece of motion has reported readiness. -/
def Formation.NoneReady (m : Formation) : Prop := ∀ d ∈ m.active, ∀ n, (m.mem d).stage ≠ .ready n

theorem startWave_noneReady {f : FormationId} {b : Blocks} (h : (b.form f).NoneReady) (n : Nat) :
    startWave f n b = b := by
  have ready : (b.form f).active.filter (fun d => ((b.form f).mem d).stage == .ready n) = [] :=
    List.filter_eq_nil_iff.mpr fun d hd => by simpa using h d hd n
  unfold startWave
  dsimp only
  rw [ready]
  exact ite_self b

theorem startWaves_noneReady {f : FormationId} {b : Blocks} (h : (b.form f).NoneReady) : startWaves f b = b := by
  have fold : ∀ l : List Nat, l.foldl (fun x n => startWave f n x) b = b := by
    intro l
    induction l with
    | nil => rfl
    | cons n l ih => rw [List.foldl_cons, startWave_noneReady h, ih]
  exact fold _

/-- What granted members bring about, where no wave can start and the piece of motion has not arrived (R52). -/
theorem advanceFormation_noneReady {f : FormationId} {b c : Blocks} (hw : (b.form f).state.working = true)
    (hc : advanceGranted f b = c) (h : (c.form f).NoneReady) (ha : (c.form f).hasArrived = false) :
    advanceFormation f b = c := by
  unfold advanceFormation
  rw [if_pos hw, hc, startWaves_noneReady h]
  dsimp only
  rw [ha]
  rfl

/-! ### A move taken from BRAKED (R4, R8, R81) -/

theorem stretch_moves (tc : Nat) (m : AxisMove) : (stretch tc m).moves = m.moves := by
  unfold stretch
  split
  · dsimp only
    split <;> rfl
  · rfl

/-- A move that needs all that was granted uses the grant as it is (R81). -/
theorem useGrant_whole {d : DishId} {az el : Bool} {g : Grant} {b : Blocks} (hg : b.fa.grants[d] = some g)
    (hn : g.amount = (if az then g.azPeak else 0) + (if el then g.elPeak else 0))
    (hm : (b.dish d).motionGrant = some g.amount) :
    useGrant d az el b = b.modFa (fun fa => { fa with grants := fa.grants.set d (some { g with use := .inUse }) }) := by
  have set : setGrant d (some { g with use := .inUse }) b
      = b.modFa (fun fa => { fa with grants := fa.grants.set d (some { g with use := .inUse }) }) := by
    have same : (fun x : Dish => { x with motionGrant := some g.amount }) (b.dish d) = id (b.dish d) := by
      rw [← hm]
      rfl
    unfold setGrant
    refine (Blocks.modDish_congr (g := id) same).trans ?_
    simp [Blocks.modDish, Blocks.modFa]
  unfold useGrant
  rw [hg]
  dsimp only
  rw [if_neg (by omega), set]

/-- A dish that warns before a move of FP with START MODE ON_START (R4, R8). -/
def Dish.warned (m : Move) (warning : Timer) (x : Dish) : Dish :=
  { x with
    drive := .warning, task := m.task, owner := some m.owner, startMode := m.startMode
    pinningOwner := none, horn := .busy, selector := .normal, warningTimer := warning
    az := { x.az with profile := m.az.profile, rateSetting := m.az.rateSetting }
    el := { x.el with profile := m.el.profile, rateSetting := m.el.rateSetting } }

theorem acceptMove_braked {d : DishId} {m : Move} {g : Grant} {b : Blocks} (hd : (b.dish d).drive = .braked)
    (ho : (b.dish d).owner = none) (ht : m.task ≠ .stow) (hmoves : m.moves = true) (hg : b.fa.grants[d] = some g)
    (hn : g.amount = (if m.az.moves then g.azPeak else 0) + (if m.el.moves then g.elPeak else 0))
    (hm : (b.dish d).motionGrant = some g.amount) :
    acceptMove d m b = (b.modDish d (Dish.warned m (b.timer b.settings.normalWarning))).modFa
      (fun fa => { fa with grants := fa.grants.set d (some { g with use := .inUse }) }) := by
  have entered : enterWarning d m (setProfiles d m (takeTask d m b))
      = b.modDish d (Dish.warned m (b.timer b.settings.normalWarning)) := by
    have task : (m.task == .stow) = false := by simpa using ht
    unfold enterWarning enterState setProfiles takeTask
    dsimp only
    rw [task, Bool.false_and, Blocks.modDish_modDish, Blocks.modDish_modDish, Blocks.modDish_modDish]
    refine Blocks.modDish_congr ?_
    simp [Dish.enter, Dish.leave, hd, DriveState.active, Dish.warned]
    rfl
  unfold acceptMove
  dsimp only
  rw [hd]
  dsimp only
  rw [if_pos hmoves, ho, preempt, entered]
  refine useGrant_whole hg hn ?_
  rw [Blocks.modDish_dish_self]
  exact hm

/-! ### The first wave of one member (R52, R53) -/

/-- No halt holds a dish where no formation is HALTING (R69). -/
theorem heldByHalt_eq_false {f : FormationId} {d : DishId} {b : Blocks} (h : ∀ k, (b.form k).state ≠ .halting) :
    heldByHalt f d b = false := by
  simp [heldByHalt, h]

/-- A move that the dish takes (R3, R53). -/
theorem handMember_accepted {f : FormationId} {d : DishId} {mv : Move} {b : Blocks} (hh : heldByHalt f d b = false)
    (hc : checkMove (b.dish d) mv = none) :
    handMember f d mv b = acceptMove d mv (b.modMember f d (fun x => { x with kept := none })) := by
  unfold handMember handMove
  rw [hh, Blocks.modMember_dish, hc]
  rfl

/-- A formation whose one granted member, `d`, has formed its first wave (R53). -/
def Formation.firstWave (d : DishId) (m : Formation) : Formation :=
  { (m.modMember d (fun k => { k with stage := .handed 1, kept := none })) with
    waveCount := 1, state := .moving, admission := none }

/-- The one granted member forms the first wave and its dish is handed its move, stretched to its own minimum time
(R53). -/
theorem formWave_single {f : FormationId} {d : DishId} {p : PlanResult} {b : Blocks}
    (hg : (b.form f).grantedMembers = [d]) (hw : (b.form f).waveCount = 0) (hp : ((b.form f).mem d).plan = some p)
    (hh : ∀ k, (b.form k).state ≠ .halting)
    (hc : checkMove (b.dish d) (formationMove .onStart (stretch p.minTime p.az) (stretch p.minTime p.el)) = none) :
    formWave f b = acceptMove d (formationMove .onStart (stretch p.minTime p.az) (stretch p.minTime p.el))
      (b.modForm f (Formation.firstWave d)) := by
  have duration : waveDuration (b.form f) [d] = p.minTime := by simp [waveDuration, hp]
  generalize hb1 : b.modForm f (fun x => { x with waveCount := 1, state := .moving, admission := none }) = b1
  have form : b1.form f = { b.form f with waveCount := 1, state := .moving, admission := none } := by
    rw [← hb1, Blocks.modForm_form_self]
  have waved : formWave f b = handWaveMember f 1 p.minTime d b1 := by
    unfold formWave
    dsimp only
    rw [hg, hw, duration, if_neg (by decide), ← hb1]
    rfl
  have unheld : heldByHalt f d (b1.modMember f d (fun x => { x with stage := .handed 1 })) = false := by
    refine heldByHalt_eq_false fun k => ?_
    rw [Blocks.modMember, Blocks.modForm_form]
    split
    · rw [form]
      exact FormationState.noConfusion
    · next hk =>
      rw [← hb1, Blocks.modForm_form_of_ne _ hk]
      exact hh k
  have handed : (b1.modMember f d (fun x => { x with stage := .handed 1 })).modMember f d
      (fun x => { x with kept := none }) = b.modForm f (Formation.firstWave d) := by
    rw [← hb1, Blocks.modMember, Blocks.modMember, Blocks.modForm_modForm, Blocks.modForm_modForm]
    refine congrArg (fun g => b.modForm f g) (funext fun m => ?_)
    simp [Formation.modMember, Formation.firstWave]
  have plan : ((b1.form f).mem d).plan = some p := by rw [form]; exact hp
  rw [waved, handWaveMember, plan]
  dsimp only
  rw [handMember_accepted unheld, handed]
  rw [← hb1]
  exact hc

/-- The end of the admission wait (R52). -/
theorem onAdmissionOver_eq {f : FormationId} {n : Nat} {b : Blocks} (hs : (b.form f).state = .admitting)
    (ha : (b.form f).admission = some n) :
    onAdmissionOver f b = advanceFormation f (b.modForm f (fun m => { m with admission := none })) := by
  rw [onAdmissionOver, hs, ha]
  exact if_pos ⟨rfl, rfl⟩

/-- Without a granted member the wait alone is over (R52). -/
theorem onAdmissionOver_ungranted {f : FormationId} {n : Nat} {b : Blocks} (hs : (b.form f).state = .admitting)
    (ha : (b.form f).admission = some n) (hr : (b.form f).NoneReady) (hg : (b.form f).grantedMembers = []) :
    onAdmissionOver f b = b.modForm f (fun m => { m with admission := none }) := by
  rw [onAdmissionOver_eq hs ha]
  generalize hc : b.modForm f (fun m => { m with admission := none }) = c
  have form : c.form f = { b.form f with admission := none } := by rw [← hc, Blocks.modForm_form_self]
  have granted : (c.form f).grantedMembers = [] := by rw [form]; exact hg
  have admitting : (c.form f).state = .admitting := by rw [form]; exact hs
  refine advanceFormation_noneReady ?_ ?_ ?_ ?_
  · rw [admitting]; rfl
  · unfold advanceGranted
    dsimp only
    rw [granted]
    rfl
  · rw [form]; exact hr
  · rw [Formation.hasArrived, admitting]; rfl

/-- The one granted member of a JOINT admission forms the first wave (R52). -/
theorem advanceGranted_single {f : FormationId} {d : DishId} {b : Blocks} (hs : (b.form f).state = .admitting)
    (ha : (b.form f).admission = none) (hm : (b.form f).mode = .joint) (hg : (b.form f).grantedMembers = [d]) :
    advanceGranted f b = formWave f b := by
  unfold advanceGranted
  dsimp only
  rw [hg, hm, hs, ha, List.isEmpty_cons, if_neg Bool.false_ne_true]
  dsimp only
  rw [if_neg (by decide), if_pos ⟨rfl, .inr rfl⟩]

theorem Formation.firstWave_mem (d e : DishId) (m : Formation) : (m.firstWave d).mem e
    = if e = d then { m.mem d with stage := .handed 1, kept := none } else m.mem e := by
  by_cases h : e = d
  · subst h
    simp [Formation.firstWave, Formation.modMember, Formation.mem]
  · have h' : d.val ≠ e.val := fun he => h (Fin.ext he.symm)
    simp [Formation.firstWave, Formation.modMember, Formation.mem, h, h']

/-- The first wave waits for its member to be ready, which has not arrived (R53, R55). -/
theorem Formation.firstWave_waits {d : DishId} {m : Formation} (hr : m.NoneReady) (hd : d ∈ m.active)
    (ha : (m.mem d).arrival = none) : (m.firstWave d).NoneReady ∧ (m.firstWave d).hasArrived = false := by
  constructor
  · intro e he k
    rw [Formation.firstWave_mem]
    split
    · exact Stage.noConfusion
    · exact hr e he k
  · have missing : ((m.firstWave d).mem d).arrival.isSome = false := by
      rw [Formation.firstWave_mem, if_pos rfl]
      simp [ha]
    refine Bool.and_eq_false_iff.mpr (.inr (List.all_eq_false.mpr ⟨d, hd, ?_⟩))
    simp [missing]

/-- The admission wait is over with one granted member, whose dish is BRAKED and takes its move (R8, R52, R53, R81). -/
theorem onAdmissionOver_single {f : FormationId} {d : DishId} {n : Nat} {p : PlanResult} {g : Grant} {mv : Move}
    {b : Blocks} (hs : (b.form f).state = .admitting) (ha : (b.form f).admission = some n)
    (hmode : (b.form f).mode = .joint) (hw : (b.form f).waveCount = 0) (hr : (b.form f).NoneReady)
    (hone : (b.form f).grantedMembers = [d]) (hp : ((b.form f).mem d).plan = some p)
    (harr : ((b.form f).mem d).arrival = none) (hh : ∀ k, (b.form k).state ≠ .halting)
    (hmv : mv = formationMove .onStart (stretch p.minTime p.az) (stretch p.minTime p.el)) (hmoves : mv.moves = true)
    (hc : checkMove (b.dish d) mv = none) (hd : (b.dish d).drive = .braked) (ho : (b.dish d).owner = none)
    (hg : b.fa.grants[d] = some g)
    (hn : g.amount = (if mv.az.moves then g.azPeak else 0) + (if mv.el.moves then g.elPeak else 0))
    (hm : (b.dish d).motionGrant = some g.amount) :
    onAdmissionOver f b = ((b.modForm f (Formation.firstWave d)).modDish d
      (Dish.warned mv (b.timer b.settings.normalWarning))).modFa
      (fun fa => { fa with grants := fa.grants.set d (some { g with use := .inUse }) }) := by
  have active : d ∈ (b.form f).active := List.mem_of_mem_filter (hone ▸ List.mem_singleton_self d)
  obtain ⟨waits, moving⟩ := Formation.firstWave_waits hr active harr
  have formation : mv.task ≠ .stow := by rw [hmv]; exact Task.noConfusion
  have accepted := acceptMove_braked (b := b.modForm f (Formation.firstWave d)) hd ho formation hmoves hg hn hm
  rw [onAdmissionOver_eq hs ha]
  generalize hcs : b.modForm f (fun m => { m with admission := none }) = c
  have form : c.form f = { b.form f with admission := none } := by rw [← hcs, Blocks.modForm_form_self]
  have admitting : (c.form f).state = .admitting := by rw [form]; exact hs
  have unhalted : ∀ k, (c.form k).state ≠ .halting := by
    intro k
    by_cases hk : k = f
    · rw [hk, admitting]; exact FormationState.noConfusion
    · rw [← hcs, Blocks.modForm_form_of_ne _ hk]; exact hh k
  have wave : formWave f c = acceptMove d mv (b.modForm f (Formation.firstWave d)) := by
    rw [formWave_single (by rw [form]; exact hone) (by rw [form]; exact hw) (by rw [form]; exact hp) unhalted
      (by rw [← hcs, ← hmv]; exact hc), ← hcs, Blocks.modForm_modForm, hmv]
    rfl
  refine (advanceFormation_noneReady (c := acceptMove d mv (b.modForm f (Formation.firstWave d))) ?_ ?_ ?_ ?_).trans
    accepted
  · rw [admitting]; rfl
  · rw [← wave]
    exact advanceGranted_single admitting (by rw [form]) (by rw [form]; exact hmode) (by rw [form]; exact hone)
  · rw [accepted, Blocks.modFa_form, Blocks.modDish_form, Blocks.modForm_form_self]
    exact waits
  · rw [accepted, Blocks.modFa_form, Blocks.modDish_form, Blocks.modForm_form_self]
    exact moving

/-- An update of a formation record that its page does not show touches no page. -/
theorem untouched_modForm_shown (pg : Page) {f : FormationId} {g : Formation → Formation} {b : Blocks}
    (h : (g (b.form f)).shown = (b.form f).shown) : Untouched pg b (b.modForm f g) := by
  by_cases hp : pg = .formation f
  · subst hp
    intro x y
    show ((b.form f).shown != ((b.modForm f g).form f).shown) = false
    rw [Blocks.modForm_form_self, h]
    simp
  · exact untouched_modForm hp g b

/-- Settles O35: without a granted member the wait alone ends; one granted member forms the wave, and its dish, handed
the move, warns. -/
theorem theAdmissionWaitFormsTheFirstWave : Obligations.TheAdmissionWaitFormsTheFirstWave := by
  intro f n s b hq hst ha hmode hw hstages
  have still : Still none b := (hq.still none).runTo n
  obtain ⟨hi, hout, -⟩ := hq
  have expired : s.part.blocks.expire (s.part.blocks.form f).admission (onAdmissionOver f) = onAdmissionOver f b := by
    rw [show (s.part.blocks.form f).admission = some n from ha, expire_running]
  have noneReady : (b.form f).NoneReady := by
    intro d hd k hk
    rcases hstages d hd with h | h <;> rw [hk] at h <;> cases h
  refine ⟨fun hnone _ => ?_, ?_⟩
  · refine actBlocks_silent (expired.trans (onAdmissionOver_ungranted hst ha noneReady hnone))
      (still.of_records rfl rfl (fun _ => rfl)) hi hout rfl rfl (fun pg _ => ?_)
    exact (untouched_runTo pg n _).trans (untouched_modForm_shown pg rfl)
  · intro d p g hone hplan harr hmoves hhalt hgrant hamount hmotion mv hcheck hbraked howner
    have moves : mv.moves = true := by
      rw [Move.moves, stretch_moves, stretch_moves]
      exact hmoves
    refine actBlocks_silent (expired.trans (onAdmissionOver_single hst ha hmode hw noneReady hone hplan harr hhalt rfl
      moves hcheck hbraked howner hgrant hamount hmotion)) ?_ hi hout rfl rfl (fun pg hp => ?_)
    · exact (Still.modDish (b := b.modForm f (Formation.firstWave d)) (f := Dish.warned mv _)
        (still.of_records rfl rfl (fun _ => rfl)) d rfl).of_records rfl rfl (fun _ => rfl)
    · simp only [List.mem_cons, List.not_mem_nil, or_false, not_or] at hp
      exact (((untouched_runTo pg n _).trans (untouched_modForm hp.1 (Formation.firstWave d) b)).trans
        (untouched_modDish (f := Dish.warned mv _) hp.2 rfl)).trans (untouched_modFa pg rfl)

end Sys2Proof.Machine
end

