-- ==== Sys2Proof/Proofs/Planner.lean ====
section
/-! SUPPORT. What the functions of the slew planner keep: the floor square root, the stretch of an axis to its wave, the
unwrapped azimuth of the next waypoint (R33, R35, R36, R41). -/

namespace Sys2Proof.Machine

/-! ### The floor square root (R33, R35) -/

/-- Each bit keeps the root between what the bits so far give and that with all lower bits set. -/
theorem isqrtBits_bounds {n k r : Nat} (hlow : r * r ≤ n) (hhigh : n < (r + 2 ^ k) * (r + 2 ^ k)) :
    isqrtBits n k r * isqrtBits n k r ≤ n ∧ n < (isqrtBits n k r + 1) * (isqrtBits n k r + 1) := by
  induction k generalizing r with
  | zero => exact ⟨hlow, hhigh⟩
  | succ k ih =>
    have double : r + 2 ^ (k + 1) = r + 2 ^ k + 2 ^ k := by omega
    rw [isqrtBits]
    split
    · next hbit => exact ih hbit (double ▸ hhigh)
    · next hbit => exact ih hlow (Nat.lt_of_not_le hbit)

/-- A power of two with half the bits of `n`, rounded up, has a square above `n`. -/
theorem lt_square_of_log2 (n : Nat) : n < 2 ^ (n.log2 / 2 + 1) * 2 ^ (n.log2 / 2 + 1) :=
  calc n < 2 ^ (n.log2 + 1) := Nat.lt_log2_self
    _ ≤ 2 ^ (n.log2 / 2 + 1 + (n.log2 / 2 + 1)) := Nat.pow_le_pow_right (by decide) (by omega)
    _ = _ := Nat.pow_add _ _ _

theorem isqrt_bounds (n : Nat) : isqrt n * isqrt n ≤ n ∧ n < (isqrt n + 1) * (isqrt n + 1) :=
  isqrtBits_bounds (Nat.zero_le n) (by simpa using lt_square_of_log2 n)

/-! ### Stretching (R35, R36) -/

theorem stretchRate_le (dist v a tc : Nat) : stretchRate dist v a tc ≤ v :=
  (Nat.min_le_right _ _).trans (Nat.min_le_left _ _)

/-- An axis keeps its profile, or takes the stretched rate and a duration that fits the wave (R35, R36). -/
theorem stretch_cases (tc : Nat) (m : AxisMove) : stretch tc m = m ∨
    ∃ t ≤ tc, stretch tc m = { m with
      v := stretchRate (m.target - m.start).natAbs m.vDer m.aDer tc, duration := t } := by
  unfold stretch
  dsimp only
  split
  · split
    · next fits => exact .inr ⟨_, fits, rfl⟩
    · exact .inl rfl
  · exact .inl rfl

/-! ### Unwrapping (R41) -/

/-- The unwrapped azimuth lies above the one before by 180000 less a remainder of 360000. -/
theorem unwrapNext_sub (u a : Int) : unwrapNext u a - u = 180000 - (u + 180000 - a) % 360000 := by
  unfold unwrapNext
  omega

/-- Settles O59: the bits of the root, the cases of a stretch, the remainder of an unwrap. -/
theorem thePlannerKeepsItsBounds : Obligations.ThePlannerKeepsItsBounds := by
  refine ⟨isqrt_bounds, fun tc m hdur hrate => ?_, fun u a => ⟨⟨(u + 180000 - a) / 360000, ?_⟩, ?_⟩⟩
  · rcases stretch_cases tc m with kept | ⟨t, fits, stretched⟩
    · rw [kept]
      exact ⟨hdur, rfl, rfl, le_rfl, rfl⟩
    · rw [stretched]
      exact ⟨fits, rfl, rfl, hrate ▸ stretchRate_le _ _ _ _, rfl⟩
  · rw [unwrapNext, Int.mul_comm]
  · rw [unwrapNext_sub]
    omega

end Sys2Proof.Machine
end

