-- ==== Sys2Proof/Proofs/TrackSteps.lean ====
section
/-! SUPPORT. The steps of a track and its lag watches (R42, R43, R64, R66). -/

namespace Sys2Proof.Machine

/-! ### Formations that an update leaves as they were -/

theorem Blocks.modForm_congr {b : Blocks} {f : FormationId} {g h : Formation → Formation}
    (e : g (b.form f) = h (b.form f)) : b.modForm f g = b.modForm f h :=
  congrArg (fun m => { b with forms := b.forms.set f m }) e

theorem Blocks.modForm_same {b : Blocks} {f : FormationId} {g : Formation → Formation}
    (h : g (b.form f) = b.form f) : b.modForm f g = b := by
  refine (Blocks.modForm_congr (h := id) h).trans ?_
  simp [Blocks.modForm]

theorem Formation.modMember_congr {m : Formation} {d : DishId} {g h : Member → Member}
    (e : g (m.mem d) = h (m.mem d)) : m.modMember d g = m.modMember d h :=
  congrArg (fun k => { m with member := m.member.set d k }) e

/-- A member's update and the targets of a dish do not look at each other. -/
theorem giveTargets_modMember (f : FormationId) (d e : DishId) (az el : Int) (g : Member → Member) (b : Blocks) :
    (giveTargets d az el b).modMember f e g = giveTargets d az el (b.modMember f e g) := rfl

/-- A member's fields whose change republishes the page of its formation (R70). -/
def Member.shown (x : Member) : Member :=
  { x with stage := .out, kept := none, lagTimer := none, lagWritten := false, lastLag := 0 }

theorem Formation.modMember_shown {m : Formation} {d : DishId} {g : Member → Member}
    (h : (g (m.mem d)).shown = (m.mem d).shown) : (m.modMember d g).shown = m.shown := by
  have members : (m.modMember d g).member.map Member.shown = m.member.map Member.shown := by
    have updated : (m.modMember d g).member = m.member.set d (g (m.mem d)) := rfl
    have own : (m.mem d).shown = (m.member.map Member.shown)[d.val] := (Vector.getElem_map _ _).symm
    rw [updated, Vector.map_set, h, own, Vector.set_getElem_self]
  exact congrArg (fun v => { m.shown with member := v }) members

theorem untouched_modMember_shown (pg : Page) {f : FormationId} {d : DishId} {g : Member → Member} {b : Blocks}
    (h : (g ((b.form f).mem d)).shown = ((b.form f).mem d).shown) : Untouched pg b (b.modMember f d g) :=
  untouched_modForm_shown pg (Formation.modMember_shown h)

/-! ### The pointing (R42, R43) -/

/-- A queue whose second waypoint is still to come keeps its head (R64). -/
theorem pruneQueue_ahead {now : Nat} {w0 w1 : Waypoint} (ws : List Waypoint) (h : now < w1.time.toNat) :
    pruneQueue now (w0 :: w1 :: ws) = w0 :: w1 :: ws := by
  rw [pruneQueue, if_neg (Nat.not_le.mpr h)]

theorem pointing_between {t t0 t1 : Nat} {az0 az1 el0 el1 : Int} (rest : List (Nat × Int × Int)) (h0 : t0 ≤ t)
    (h1 : t < t1) : pointing t ((t0, az0, el0) :: (t1, az1, el1) :: rest)
      = some (interpolate az0 az1 t t0 t1, interpolate el0 el1 t t0 t1) := by
  rw [pointing, if_neg (Nat.not_lt.mpr h0), if_pos h1]

/-- Between its first two waypoints a member points at the interpolated azimuth and elevation, where no watch floor
applies (R42, R43). -/
theorem memberPointing_between {b : Blocks} {m : Formation} {d : DishId} {w0 w1 : Waypoint} {ws : List Waypoint}
    {az0 az1 : Int} (hstop : m.wrapStop = none) (hqueue : m.queue = w0 :: w1 :: ws)
    (h0 : w0.time.toNat ≤ b.clock.time.toNat) (h1 : b.clock.time.toNat < w1.time.toNat)
    (hu0 : w0.unwrapped[d] = some az0) (hu1 : w1.unwrapped[d] = some az1) (hwind : b.wind.state ≠ .watch) :
    memberPointing b m d = some (interpolate az0 az1 b.clock.time.toNat w0.time.toNat w1.time.toNat,
      interpolate w0.el w1.el b.clock.time.toNat w0.time.toNat w1.time.toNat, false) := by
  have floor : watchFloorNow b = none := if_neg hwind
  have points : m.pointQueue = w0 :: w1 :: ws := by rw [Formation.pointQueue, hstop, hqueue]
  unfold memberPointing
  dsimp only
  rw [points, floor, List.map_cons, List.map_cons, hu0, hu1, pointing_between _ h0 h1]
  rfl

/-! ### One member of a track step (R64, R66, R67) -/

/-- A FOLLOW profile that goes on takes a target within its bounds (R67). -/
theorem Axis.retarget_follow {x : Axis} {p : Profile} {t : Int} (hp : x.profile = some p) (hk : p.kind = .follow)
    (hf : p.finishing = false) (ha : p.allows t = true) :
    x.retarget t = { x with profile := some { p with target := t } } := by
  rw [Axis.retarget, hp]
  exact if_pos ⟨hk, hf, ha⟩

/-- Both axes of a dish that goes on following take their targets (R67). -/
theorem giveTargets_follow {d : DishId} {az el : Int} {pAz pEl : Profile} {b : Blocks}
    (hpAz : (b.dish d).az.profile = some pAz) (hpEl : (b.dish d).el.profile = some pEl) (hkAz : pAz.kind = .follow)
    (hkEl : pEl.kind = .follow) (hfAz : pAz.finishing = false) (hfEl : pEl.finishing = false)
    (hokAz : pAz.allows az = true) (hokEl : pEl.allows el = true) :
    giveTargets d az el b = b.modDish d (fun x => { x with
      az := { x.az with profile := some { pAz with target := az } }
      el := { x.el with profile := some { pEl with target := el } } }) := by
  refine Blocks.modDish_congr ?_
  rw [Axis.retarget_follow hpAz hkAz hfAz hokAz, Axis.retarget_follow hpEl hkEl hfEl hokEl]

theorem Axis.retarget_encoder (x : Axis) (t : Int) : (x.retarget t).encoder = x.encoder := by
  unfold Axis.retarget
  split
  · split <;> rfl
  · rfl

theorem axisLag_retarget (x : Axis) (t p : Int) : axisLag (x.retarget t) p = axisLag x p := by
  rw [axisLag, Axis.retarget_encoder, axisLag]

theorem axisLag_known {x : Axis} {e : Int} (h : x.encoder = some e) (p : Int) : axisLag x p = (p - e).natAbs := by
  rw [axisLag, h]

/-- A closed lag watch stays closed while the lag is within its limit (R66). -/
theorem watchLag_within {limit lag : Nat} {m : Member} (t : Timer) (hlag : lag ≤ limit)
    (hclosed : m.lagOpen = false) :
    watchLag limit lag t m = { m with lastLag := lag } := by
  unfold watchLag
  dsimp only
  rw [if_neg (Nat.not_lt.mpr hlag), hclosed]
  rfl

/-- A following member takes the pointing, where it is not raised to a floor, and notes its lag (R64, R66). -/
theorem stepMember_following {f : FormationId} {d : DishId} {az el : Int} {b : Blocks}
    (hpoint : memberPointing b (b.form f) d = some (az, el, false)) (hstage : ((b.form f).mem d).stage = .following)
    (hclosed : ((b.form f).mem d).lagOpen = false)
    (hlag : max (axisLag (b.dish d).az az) (axisLag (b.dish d).el el) ≤ b.settings.lagLimit) :
    stepMember f d b = giveTargets d az el (b.modMember f d (fun y =>
      { y with lastLag := max (axisLag (b.dish d).az az) (axisLag (b.dish d).el el) })) := by
  have dish : (giveTargets d az el b).dish d
      = { b.dish d with az := (b.dish d).az.retarget az, el := (b.dish d).el.retarget el } :=
    Blocks.modDish_dish_self _ _ _
  unfold stepMember
  dsimp only
  rw [hpoint]
  dsimp only
  rw [if_pos hstage, if_neg Bool.false_ne_true, dish]
  dsimp only
  rw [axisLag_retarget, axisLag_retarget, giveTargets_modMember]
  exact congrArg (giveTargets d az el)
    (Blocks.modForm_congr (Formation.modMember_congr (watchLag_within _ hlag hclosed)))

/-! ### The events (R64, R66) -/

/-- While the queue reaches past the time and no wrap stop is set, a track step takes the members one after another
(R64). -/
theorem trackStepWork_on {f : FormationId} {b : Blocks} {last : Waypoint}
    (hprune : pruneQueue b.clock.time.toNat (b.form f).queue = (b.form f).queue)
    (hstop : (b.form f).wrapStop = none) (hlast : (b.form f).queue.getLast? = some last)
    (hahead : b.clock.time.toNat ≤ last.time.toNat) :
    trackStepWork f b = overDishes (b.form f).active (stepMember f) b := by
  unfold trackStepWork
  dsimp only
  rw [Blocks.modForm_same (by rw [hprune]), hstop, hlast]
  exact if_neg (Nat.not_lt.mpr hahead)

/-- A track step takes its one following member, between its two waypoints (R42, R64, R66). -/
theorem trackStepWork_single {f : FormationId} {d : DishId} {w0 w1 : Waypoint} {az0 az1 az el : Int} {lag : Nat}
    {b : Blocks} (hone : (b.form f).active = [d]) (hstage : ((b.form f).mem d).stage = .following)
    (hclosed : ((b.form f).mem d).lagOpen = false) (hstop : (b.form f).wrapStop = none)
    (hqueue : (b.form f).queue = [w0, w1]) (h0 : w0.time.toNat ≤ b.clock.time.toNat)
    (h1 : b.clock.time.toNat < w1.time.toNat) (hu0 : w0.unwrapped[d] = some az0) (hu1 : w1.unwrapped[d] = some az1)
    (hwind : b.wind.state ≠ .watch)
    (haz : az = interpolate az0 az1 b.clock.time.toNat w0.time.toNat w1.time.toNat)
    (hel : el = interpolate w0.el w1.el b.clock.time.toNat w0.time.toNat w1.time.toNat)
    (hlag : max (axisLag (b.dish d).az az) (axisLag (b.dish d).el el) = lag) (hwithin : lag ≤ b.settings.lagLimit) :
    trackStepWork f b = giveTargets d az el (b.modMember f d (fun y => { y with lastLag := lag })) := by
  have pointed : memberPointing b (b.form f) d = some (az, el, false) := by
    rw [haz, hel]
    exact memberPointing_between hstop hqueue h0 h1 hu0 hu1 hwind
  have kept : pruneQueue b.clock.time.toNat (b.form f).queue = (b.form f).queue := by
    rw [hqueue, pruneQueue_ahead _ h1]
  have last : (b.form f).queue.getLast? = some w1 := by rw [hqueue]; rfl
  rw [trackStepWork_on kept hstop last h1.le, hone, ← hlag]
  exact stepMember_following pointed hstage hclosed (hlag.trans_le hwithin)

/-- A formation after a track step of its member `d`, whose lag watch stays closed (R64, R66). -/
def Formation.stepped (d : DishId) (lag : Nat) (next : Timer) (m : Formation) : Formation :=
  { m.modMember d (fun y => { y with lastLag := lag }) with trackStep := next }

/-- A formation page shows neither the lag of a member nor the track step to come (R70). -/
theorem Formation.stepped_shown (d : DishId) (lag : Nat) (next : Timer) (m : Formation) :
    (m.stepped d lag next).shown = m.shown := by
  show (m.modMember d (fun y => { y with lastLag := lag })).shown = m.shown
  exact Formation.modMember_shown rfl

/-- The event of that track step, which sets the next one (R64). -/
theorem onTrackStep_single {f : FormationId} {d : DishId} {n : Nat} {w0 w1 : Waypoint} {az0 az1 az el : Int} {lag : Nat}
    {s b : Blocks} (hb : s.runTo n = b) (hstep : (s.form f).trackStep = some n) (hone : (b.form f).active = [d])
    (hstage : ((b.form f).mem d).stage = .following) (hclosed : ((b.form f).mem d).lagOpen = false)
    (hstop : (b.form f).wrapStop = none) (hqueue : (b.form f).queue = [w0, w1])
    (h0 : w0.time.toNat ≤ b.clock.time.toNat) (h1 : b.clock.time.toNat < w1.time.toNat)
    (hu0 : w0.unwrapped[d] = some az0) (hu1 : w1.unwrapped[d] = some az1) (hwind : b.wind.state ≠ .watch)
    (haz : az = interpolate az0 az1 b.clock.time.toNat w0.time.toNat w1.time.toNat)
    (hel : el = interpolate w0.el w1.el b.clock.time.toNat w0.time.toNat w1.time.toNat)
    (hlag : max (axisLag (b.dish d).az az) (axisLag (b.dish d).el el) = lag) (hwithin : lag ≤ b.settings.lagLimit) :
    onTrackStep f s = giveTargets d az el (b.modForm f (Formation.stepped d lag (b.timer 10))) := by
  have form := b.modForm_form_self f (fun m => { m with trackStep := b.timer 10 })
  rw [onTrackStep, hstep, expire_running, hb]
  refine (trackStepWork_single (b := b.modForm f (fun m => { m with trackStep := b.timer 10 })) (by rw [form]; exact hone)
    (by rw [form]; exact hstage) (by rw [form]; exact hclosed) (by rw [form]; exact hstop) (by rw [form]; exact hqueue)
    h0 h1 hu0 hu1 hwind haz hel hlag hwithin).trans ?_
  exact congrArg (giveTargets d az el) (Blocks.modForm_modForm _ _ _ _)

/-- A member whose lag timer is over and whose TRACK_LAG is written (R66). -/
def Member.lagReported (m : Member) : Member := { m with lagTimer := none, lagWritten := true }

theorem Member.lagReported_shown (m : Member) : m.lagReported.shown = m.shown := rfl

theorem onLagOver_eq {f : FormationId} {d : DishId} {b : Blocks} (ho : b.out = []) :
    onLagOver f d b = { b.modMember f d Member.lagReported with
      out := [.trail (.trackLag f d ((b.form f).mem d).lastLag) b.clock.time b.clock.valid] } := by
  have out : (b.trail (.trackLag f d ((b.form f).mem d).lastLag)).out
      = [.trail (.trackLag f d ((b.form f).mem d).lastLag) b.clock.time b.clock.valid] := by
    rw [Blocks.trail_out, ho]
    rfl
  rw [← out]
  rfl

/-- Settles O37: the step of the one member, and the trail entry of a lag timer. -/
theorem aTrackStepGivesThePointing : Obligations.ATrackStepGivesThePointing := by
  intro f d n s b m hq
  have still : Still none b := (hq.still none).runTo n
  obtain ⟨hi, hout, -⟩ := hq
  constructor
  · intro w0 w1 az0 az1 az el encAz encEl pAz pEl _ hstep hone hstage hclosed hstop hqueue h0 h1 hu0 hu1 hwind haz hel
      hpAz hpEl hkAz hkEl hfAz hfEl hokAz hokEl hencAz hencEl hlag
    have lags : max (axisLag (b.dish d).az az) (axisLag (b.dish d).el el)
        = max (az - encAz).natAbs (el - encEl).natAbs := by
      rw [axisLag_known hencAz, axisLag_known hencEl]
    have calm : b.wind.state ≠ .watch := by rw [hwind]; decide
    have acted := onTrackStep_single (s := s.part.blocks) rfl hstep hone hstage hclosed hstop hqueue h0 h1 hu0 hu1 calm
      haz hel lags hlag
    refine actBlocks_silent (acted.trans (giveTargets_follow hpAz hpEl hkAz hkEl hfAz hfEl hokAz hokEl))
      (Still.modDish ?_ d rfl) hi hout rfl rfl (fun pg _ => ?_)
    · exact still.of_records rfl rfl (fun _ => rfl)
    · exact ((untouched_runTo pg n _).trans (untouched_modForm_shown pg
        (Formation.stepped_shown _ _ _ _))).trans (untouched_modDish_shown pg rfl)
  · intro htimer
    have expired : s.part.blocks.expire ((s.part.blocks.form f).mem d).lagTimer (onLagOver f d) = onLagOver f d b := by
      rw [show ((s.part.blocks.form f).mem d).lagTimer = some n from htimer, expire_running]
    have settled : Still none (b.modMember f d Member.lagReported) := still.of_records rfl rfl (fun _ => rfl)
    refine actBlocks_leaves_untouched (b := b.modMember f d Member.lagReported) ?_ hout (by simp [markedPages])
      (fun pg _ => (untouched_runTo pg n _).trans (untouched_modMember_shown pg (Member.lagReported_shown _)))
      (.inl (List.mem_singleton_self _))
    show settle s.part.blocks (s.part.blocks.expire ((s.part.blocks.form f).mem d).lagTimer (onLagOver f d)) = _
    rw [expired, onLagOver_eq (b := b) hout]
    exact settle_outs _ settled hi _

end Sys2Proof.Machine
end

