-- ==== Sys2Proof/Proofs/Admission.lean ====
section
/-! SUPPORT. The admission of a formation of one dish: the claim that waits for power, the plan, the wait (R51, R52, R75,
R80). -/

namespace Sys2Proof.Machine

/-! ### A claim that no power is left for (R75, R80) -/

/-- Without room no claim of an amount is granted, and the queue stays as it is (R80). -/
theorem walkClaims_noRoom (ok : Claim → Bool) {cs : List Claim} (h : ∀ c ∈ cs, 0 < c.amount) :
    walkClaims ok 0 cs = ([], cs) := by
  induction cs with
  | nil => rfl
  | cons c cs ih =>
    have amount : ¬ c.amount ≤ 0 := Nat.not_le.mpr (h c (by simp))
    have rest := ih fun e he => h e (List.mem_cons_of_mem _ he)
    rw [walkClaims, rest, if_neg amount]
    exact ite_self _

theorem motionStep_noRoom {b : Blocks} (hroom : remainder b.fa = 0) (h : ∀ c ∈ b.fa.queue, 0 < c.amount) :
    motionStep b = b := by
  unfold motionStep
  dsimp only
  rw [hroom, walkClaims_noRoom _ h]
  rfl

/-- A grant event with nothing to give (R73, R80, R83). -/
theorem grantEvent_noRoom {b : Blocks} (hheat : b.HeatQuiet) (hroom : remainder b.fa = 0)
    (h : ∀ c ∈ b.fa.queue, 0 < c.amount) : grantEvent b = b.publish .power := by
  obtain ⟨zones, force, held⟩ := hheat
  rw [grantEvent, recomputeForce_idle b force held, motionStep_noRoom hroom h, heaterStep_idle b zones]

/-- No claim is queued, the dish has no grant, and no power is free for a claim of it (R80). -/
def NoPowerFor (d : DishId) (b : Blocks) : Prop :=
  b.HeatQuiet ∧ b.fa.queue = [] ∧ b.fa.grants[d] = none ∧ remainder b.fa = 0
    ∧ 0 < b.settings.azPeak ∧ 0 < b.settings.elPeak

/-- One claim joins the queue (R75, R76). -/
def Arbiter.claimed (c : Claim) (fa : Arbiter) : Arbiter := { fa with queue := [c], sequence := fa.sequence + 1 }

theorem makeClaim_pos {d : DishId} {who : Owner} {cls : ClaimClass} {az el : Bool} {b : Blocks}
    (haz : 0 < b.settings.azPeak) (hel : 0 < b.settings.elPeak) (hmoves : (az || el) = true) :
    0 < (makeClaim b d who cls az el).amount := by
  rw [makeClaim]
  cases az with
  | true => exact Nat.add_pos_left haz _
  | false =>
    rw [show el = true from hmoves]
    exact Nat.add_pos_right _ hel

/-- A claim for which no power is free waits alone in the queue (R75, R79, R80). -/
theorem submitClaim_waits {d : DishId} {who : Owner} {cls : ClaimClass} {az el : Bool} {b : Blocks}
    (h : NoPowerFor d b) (hmoves : (az || el) = true) :
    submitClaim d who cls az el b
      = ((b.modFa (Arbiter.claimed (makeClaim b d who cls az el))).publish .power, .joined) := by
  obtain ⟨heat, queue, grant, room, azPeak, elPeak⟩ := h
  have moves : (!(makeClaim b d who cls az el).azMoves && !(makeClaim b d who cls az el).elMoves) = false := by
    rw [← Bool.not_or]
    exact congrArg _ hmoves
  have joined : submitQuiet (makeClaim b d who cls az el) b
      = (b.modFa (Arbiter.claimed (makeClaim b d who cls az el)), .joined) := by
    have free : b.fa.grants[(makeClaim b d who cls az el).dish] = none := grant
    have unqueued : queuedClaim b (makeClaim b d who cls az el).dish = none := by rw [queuedClaim, queue]; rfl
    have first : joinQueue (makeClaim b d who cls az el) b
        = b.modFa (Arbiter.claimed (makeClaim b d who cls az el)) := by
      refine congrArg (fun fa => { b with fa := fa }) ?_
      dsimp only
      rw [queue]
      rfl
    unfold submitQuiet
    rw [moves, free, unqueued, first]
    cases cls <;> rfl
  unfold submitClaim
  rw [joined]
  dsimp only
  rw [grantEvent_noRoom (b := b.modFa (Arbiter.claimed (makeClaim b d who cls az el))) heat room]
  intro c hc
  rw [List.mem_singleton.mp hc]
  exact makeClaim_pos azPeak elPeak hmoves

/-! ### Admission (R51, R52) -/

/-- A formation whose member `d` has a plan (R51). -/
def Formation.planned (d : DishId) (q : PlanResult) (m : Formation) : Formation :=
  { m.modMember d (fun k => { k with plan := some q, arrival := none }) with notes := m.notes.withPlan q }

/-- A member whose wrap position is chosen is planned from it (R51). -/
theorem planMember_chosen {f : FormationId} {d : DishId} {c : Int} {q : PlanResult} {b : Blocks}
    (hplan : plan b.settings (b.dish d) (pieceAzimuth (b.form f) d) (pieceElevation (b.form f)) (watchFloorNow b) = .ok q)
    (hwrap : ((b.form f).mem d).wrapAz = some c) : planMember f d b = b.modForm f (Formation.planned d q) := by
  unfold planMember
  dsimp only
  rw [hplan]
  dsimp only
  rw [Blocks.modMember, Blocks.modForm_modForm]
  refine Blocks.modForm_congr ?_
  refine Formation.modMember_congr (m := { b.form f with notes := (b.form f).notes.withPlan q })
    (h := fun k => { k with plan := some q, arrival := none }) ?_
  have kept : (Formation.mem { b.form f with notes := (b.form f).notes.withPlan q } d).wrapAz = some c := hwrap
  rw [kept]

/-- The claim of FP for the axes that a plan moves stands alone in the queue, and the power page is published (R75,
R89). -/
def Blocks.claimPosted (d : DishId) (q : PlanResult) (b : Blocks) : Blocks :=
  (b.modFa (Arbiter.claimed (makeClaim b d .fp .move q.az.moves q.el.moves))).publish .power

@[simp] theorem Blocks.claimPosted_form (d : DishId) (q : PlanResult) (b : Blocks) (k : FormationId) :
    (b.claimPosted d q).form k = b.form k := rfl

theorem Blocks.claimPosted_modForm (d : DishId) (q : PlanResult) (b : Blocks) (f : FormationId)
    (g : Formation → Formation) : (b.claimPosted d q).modForm f g = (b.modForm f g).claimPosted d q := rfl

/-- A planned member for whose axes no power is free waits with its claim (R51, R80). -/
theorem claimMember_waits {f : FormationId} {d : DishId} {q : PlanResult} {b : Blocks}
    (hplan : ((b.form f).mem d).plan = some q) (hmoves : (q.az.moves || q.el.moves) = true) (hpower : NoPowerFor d b) :
    claimMember f d b = (b.modMember f d (fun k => { k with stage := .claiming })).claimPosted d q := by
  unfold claimMember
  rw [hplan]
  dsimp only
  rw [if_pos hmoves, submitClaim_waits (by exact hpower) hmoves]
  rfl

/-- A formation whose member `d` claims, and whose admission wait runs (R51, R52). -/
def Formation.claiming (d : DishId) (wait : Timer) (m : Formation) : Formation :=
  { m.modMember d (fun k => { k with stage := .claiming }) with admission := wait }

/-- The admission timer once the claims are made: JOINT starts it, EACH leaves it (R51, R52). -/
def admissionTimer (f : FormationId) (b : Blocks) : Timer :=
  match (b.form f).mode with
  | .joint => b.timer b.settings.admissionWait
  | .each => (b.form f).admission

/-- The claims of an admission of one member, and its wait (R51, R52). -/
theorem claimAll_single {f : FormationId} {d : DishId} {q : PlanResult} {b : Blocks} (hone : (b.form f).active = [d])
    (hplan : ((b.form f).mem d).plan = some q) (hmoves : (q.az.moves || q.el.moves) = true) (hpower : NoPowerFor d b)
    (hwait : 0 < b.settings.admissionWait) :
    claimAll f b = (b.modForm f (Formation.claiming d (admissionTimer f b))).claimPosted d q := by
  have claimed : overDishes (b.form f).active (claimMember f) b
      = (b.modMember f d (fun k => { k with stage := .claiming })).claimPosted d q := by
    rw [hone]
    exact claimMember_waits hplan hmoves hpower
  have mode : ((b.modMember f d (fun k => { k with stage := .claiming })).form f).mode = (b.form f).mode := by
    rw [Blocks.modMember, Blocks.modForm_form_self]
    rfl
  unfold claimAll admissionTimer
  rw [claimed]
  dsimp only
  rw [Blocks.claimPosted_form, mode]
  cases (b.form f).mode with
  | joint =>
    dsimp only
    rw [if_neg (Nat.ne_of_gt hwait), Blocks.claimPosted_modForm, Blocks.modMember, Blocks.modForm_modForm]
    rfl
  | each => rfl

/-- Where every member waits for power, nothing advances a formation in ADMITTING (R52, R55). -/
theorem advanceFormation_claiming {f : FormationId} {b : Blocks} (hstate : (b.form f).state = .admitting)
    (h : ∀ d ∈ (b.form f).active, ((b.form f).mem d).stage = .claiming) : advanceFormation f b = b := by
  have ungranted : (b.form f).grantedMembers = [] :=
    List.filter_eq_nil_iff.mpr fun d hd => by rw [h d hd]; decide
  refine advanceFormation_noneReady ?_ ?_ ?_ ?_
  · rw [hstate]; rfl
  · unfold advanceGranted
    dsimp only
    rw [ungranted]
    rfl
  · intro d hd n
    rw [h d hd]
    exact Stage.noConfusion
  · rw [Formation.hasArrived, hstate]; rfl

/-- A formation in ADMITTING whose member `d` has the plan `q` and waits for power (R51). -/
def Formation.admitted (d : DishId) (q : PlanResult) (wait : Timer) (m : Formation) : Formation :=
  Formation.claiming d wait (Formation.planned d q { m with state := .admitting, waveCount := 0 })

theorem Formation.admitted_mem (d : DishId) (q : PlanResult) (wait : Timer) (m : Formation) :
    (m.admitted d q wait).mem d = { m.mem d with stage := .claiming, plan := some q, arrival := none } := by
  simp [Formation.admitted, Formation.claiming, Formation.planned, Formation.modMember, Formation.mem]

/-- The admission of one member, whose wrap position is chosen and for which no power is free (R51, R52). -/
theorem admitPiece_single {f : FormationId} {d : DishId} {c : Int} {q : PlanResult} {b : Blocks}
    (hone : (b.form f).active = [d]) (heligible : ineligible (b.snowReading d).hard (b.dish d) = none)
    (hplan : plan b.settings (b.dish d) (pieceAzimuth (b.form f) d) (pieceElevation (b.form f)) (watchFloorNow b) = .ok q)
    (hwrap : ((b.form f).mem d).wrapAz = some c) (hmoves : (q.az.moves || q.el.moves) = true)
    (hpower : NoPowerFor d b) (hwait : 0 < b.settings.admissionWait) :
    admitPiece f false b = (b.modForm f (Formation.admitted d q (admissionTimer f b))).claimPosted d q := by
  generalize hb1 : b.modForm f (fun m => { m with state := .admitting, waveCount := 0 }) = b1
  have form1 : b1.form f = { b.form f with state := .admitting, waveCount := 0 } := by
    rw [← hb1, Blocks.modForm_form_self]
  have checked : overDishes (b1.form f).active (checkMember f) b1 = b1 := by
    refine overDishes_fix _ _ _ fun e he => ?_
    rw [form1] at he
    rw [List.mem_singleton.mp (hone ▸ he : e ∈ [d])]
    unfold checkMember
    rw [← hb1, Blocks.modForm_snowReading, Blocks.modForm_dish, heligible]
  generalize hb3 : b1.modForm f (Formation.planned d q) = b3
  have planned : overDishes (b1.form f).active (planMember f) b1 = b3 := by
    have active : (b1.form f).active = [d] := by rw [form1]; exact hone
    rw [active, ← hb3]
    refine planMember_chosen (c := c) ?_ ?_
    · rw [form1, ← hb1]; exact hplan
    · rw [form1]; exact hwrap
  have form3 : b3.form f = Formation.planned d q { b.form f with state := .admitting, waveCount := 0 } := by
    rw [← hb3, Blocks.modForm_form_self, form1]
  have planned3 : ((b3.form f).mem d).plan = some q := by
    rw [form3]
    simp [Formation.planned, Formation.modMember, Formation.mem]
  have timer : admissionTimer f b3 = admissionTimer f b := by
    rw [admissionTimer, form3, ← hb3, ← hb1]
    rfl
  have claimed : claimAll f b3 = (b.modForm f (Formation.admitted d q (admissionTimer f b))).claimPosted d q := by
    refine (claimAll_single (q := q) (by rw [form3]; exact hone) planned3 hmoves ?_ ?_).trans ?_
    · rw [← hb3, ← hb1]; exact hpower
    · rw [← hb3, ← hb1]; exact hwait
    · rw [timer, ← hb3, ← hb1, Blocks.modForm_modForm, Blocks.modForm_modForm]
      rfl
  unfold admitPiece
  dsimp only
  rw [hb1, checked, planned, form3]
  refine (if_pos rfl).trans ?_
  rw [if_neg Bool.false_ne_true, claimed]
  refine advanceFormation_claiming ?_ fun e he => ?_
  · rw [Blocks.claimPosted_form, Blocks.modForm_form_self]
    rfl
  · rw [Blocks.claimPosted_form, Blocks.modForm_form_self] at he ⊢
    rw [List.mem_singleton.mp (hone ▸ he : e ∈ [d]), Formation.admitted_mem]

end Sys2Proof.Machine
end

