-- ==== Sys2Proof/Proofs/TracksInHand.lean ====
section
/-! SUPPORT. A TRACK of a formation of one dish, from its take to the claim that waits (R41, R47 to R51, R63, R176). -/

namespace Sys2Proof.Machine

/-! ### The checks at the take (R47 to R49, R68) -/

/-- The plan of a sky azimuth is the plan of the wrap position that it chose, but for the note of the choice (R29,
R49). -/
theorem plan_wrap_of_sky {st : Settings} {x : Dish} {a el : Int} {pref : WrapPreference} {floor : Option Int}
    {p : PlanResult} (h : plan st x (.sky a pref) el floor = .ok p) :
    plan st x (.wrap p.az.target) el floor = .ok { p with wrapOther := false } := by
  unfold plan at h ⊢
  split at h
  · dsimp only at h
    split at h
    · cases h
    · cases h
      rfl
  · cases h

theorem workRefused_none {b : Blocks} {m : Formation} {isTrack : Bool} (hstate : m.state ≠ .unused)
    (hsite : b.site.state ≠ .provisional) (hwind : b.wind.state = .calm ∨ b.wind.state = .watch)
    (hdata : b.wind.dataKnown = true) (htrack : isTrack = true → b.clock.valid = true
      ∧ ∃ x ∈ m.queue, b.clock.time.toNat < x.time.toNat) : workRefused b m none isTrack = none := by
  have unstowed : ¬ (b.wind.state = .stowing ∨ b.wind.state = .stowed ∨ b.wind.state = .releaseWait) := by
    rcases hwind with h | h <;> rw [h] <;> decide
  have timed : ¬ (isTrack = true ∧ b.clock.valid = false) := by
    rintro ⟨ht, hv⟩
    rw [(htrack ht).1] at hv
    cases hv
  have fresh : ¬ (isTrack = true ∧ m.queue.all (fun w => decide (w.time.toNat ≤ b.clock.time.toNat)) = true) := by
    rintro ⟨ht, hall⟩
    obtain ⟨x, hx, hlater⟩ := (htrack ht).2
    have := of_decide_eq_true (List.all_eq_true.mp hall x hx)
    omega
  unfold workRefused
  rw [if_neg hstate]
  dsimp only
  rw [if_neg hsite, if_neg unstowed, if_neg (by simp [hdata]), if_neg timed, if_neg fresh]

/-- The taken order of a formation whose one member, `d`, has the plan `p` (R48, R49). -/
def soleWork (slot : SlotId) (o : WorkOrder) (d : DishId) (p : PlanResult) : PendingWork :=
  ⟨slot, o, DishSet.single d, 0, noNotes.withPlan p, (Vector.replicate 12 none).set d (some p.az.target)⟩

theorem ofList_single (d : DishId) : DishSet.ofList [d] = DishSet.single d := by revert d; decide

theorem single_and_not (d : DishId) : DishSet.single d &&& ~~~DishSet.single d = 0 := by revert d; decide

theorem planTake_single {b : Blocks} {m : Formation} {o : WorkOrder} {d : DishId} {p : PlanResult} (fields : TargetFields)
    (hmembers : m.members = DishSet.single d) (heligible : ineligible (b.snowReading d).hard (b.dish d) = none)
    (hplan : plan b.settings (b.dish d) (.sky o.skyAz o.wrap) o.el (watchFloorNow b) = .ok p)
    (hbarAz : barRefused (b.dish d).az p.az = false) (hbarEl : barRefused (b.dish d).el p.el = false)
    (hraster : o.raster.bind (fun r => rasterFault b.settings r [(d, p)]) = none) :
    planTake b m o fields = .ok ⟨DishSet.single d, 0, noNotes.withPlan p,
      (Vector.replicate 12 none).set d (some p.az.target)⟩ := by
  have eligible : m.members.toList.filter (fun d => (ineligible (b.snowReading d).hard (b.dish d)).isNone) = [d] := by
    rw [hmembers, single_toList, List.filter_cons, heligible]
    rfl
  have plans : planAll b o [d] = [(d, .ok p)] := by rw [planAll, List.map_singleton, hplan]
  have unbarred : barField fields (b.dish d) p = none := by
    rw [barField, hbarAz, hbarEl]
    rfl
  unfold planTake
  dsimp only
  rw [eligible, plans, if_neg (by simp)]
  simp only [List.findSome?_cons, List.findSome?_nil, refusedPlan, List.filterMap_cons, List.filterMap_nil, goodPlan,
    List.isEmpty_cons, Bool.false_eq_true, if_false, unbarred, hraster, List.map_cons, List.map_nil, ofList_single,
    hmembers, single_and_not]
  rfl

/-! ### The unwrapped head of the queue (R41, R63) -/

/-- The wrap positions chosen for the members that take part (R41). -/
def Formation.chosenWraps (m : Formation) : Vector (Option Int) 12 :=
  Vector.ofFn (fun d : Fin 12 => if m.included.has d && !m.excused.has d then (m.mem d).wrapAz else none)

theorem Formation.chosenWraps_active {m : Formation} {d : DishId} (h : d ∈ m.active) :
    m.chosenWraps[d] = (m.mem d).wrapAz := by
  have part : (m.included.has d && !m.excused.has d) = true := (List.mem_filter.mp h).2
  exact (Vector.getElem_ofFn _).trans (if_pos part)

/-- The head of the queue takes the wrap positions chosen; the unwrapping of what follows may set WRAP STOP (R41,
R65). -/
theorem unwrapQueue_head {f : FormationId} {b : Blocks} {w : Waypoint} {ws : List Waypoint}
    (h : (b.form f).queue = w :: ws) : ∃ rest stop fail, unwrapQueue f b = b.modForm f (fun m => { m with
      queue := { w with unwrapped := m.chosenWraps } :: rest, wrapStop := stop, wrapFail := fail }) := by
  rcases unwrapped : unwrapFrom b.settings (b.form f).active (b.form f).chosenWraps ws with ⟨rest, fail⟩
  refine ⟨rest, fail.bind fun _ =>
    ({ w with unwrapped := (b.form f).chosenWraps } :: rest).getLast?.map Waypoint.time, fail, Blocks.modForm_congr ?_⟩
  rw [h]
  dsimp only
  rw [← Formation.chosenWraps, unwrapped]
  cases fail <;> rfl

/-! ### Taking work in hand (R50, R63) -/

/-- A formation that has a taken order in hand, before its admission (R50). -/
def Formation.takenUp (p : PendingWork) (m : Formation) : Formation :=
  { m with
    slot := some p.slot, work := some p.order.work, target := some (p.order.skyAz, p.order.el), mode := p.order.mode
    wrap := p.order.wrap, raster := p.order.raster, included := p.included, skipped := p.skipped, excused := 0
    notes := p.notes, pendingWork := none
    member := Vector.ofFn (fun d : Fin 12 => { idleMember with wrapAz := p.wraps[d], plan := none }) }

theorem takeUp_track {f : FormationId} {p : PendingWork} {b : Blocks} (h : p.order.work = .track) :
    takeUp f p b = admitPiece f false (unwrapQueue f (b.modForm f (Formation.takenUp p))) :=
  congrArg (admitPiece f false) (if_pos h)

theorem active_single {m : Formation} {d : DishId} (hi : m.included = DishSet.single d) (he : m.excused = 0) :
    m.active = [d] := by
  have part : ∀ d : DishId, allDishes.filter (fun e => (DishSet.single d).has e && !DishSet.has 0 e) = [d] := by decide
  rw [Formation.active, hi, he, part]

/-- The one member of a formation takes the wrap position of its plan (R49). -/
theorem Formation.takenUp_wrapAz (slot : SlotId) (o : WorkOrder) (d : DishId) (p : PlanResult) (m : Formation) :
    ((m.takenUp (soleWork slot o d p)).mem d).wrapAz = some p.az.target := by
  simp [Formation.takenUp, soleWork, Formation.mem]

theorem takeWork_idle {f : FormationId} {p : PendingWork} {b : Blocks} (h : (b.form f).state = .idle) :
    takeWork f p b = takeUp f p b := by
  unfold takeWork
  dsimp only
  rw [h]
  rfl

/-- A standing order that passes its checks, of an IDLE formation of one eligible dish (R47 to R50). -/
theorem takeStanding_single {slot : SlotId} {f : FormationId} {o : WorkOrder} {fields : TargetFields} {d : DishId}
    {p : PlanResult} {b : Blocks} (h : CanAdmitOne b f d o p)
    (htrack : o.work = .track → b.clock.valid = true ∧ ∃ x ∈ (b.form f).queue, b.clock.time.toNat < x.time.toNat)
    (hraster : o.raster.bind (fun r => rasterFault b.settings r [(d, p)]) = none) :
    takeStanding slot f o none fields b = (takeUp f (soleWork slot o d p) (if o.work = .track then
      b.modForm f (fun m => { m with queue := pruneQueue b.clock.time.toNat m.queue }) else b), true) := by
  obtain ⟨idle, members, eligible, planned, -, barAz, barEl, site, wind, data, -⟩ := h
  have passed : workRefused b (b.form f) none (o.work == .track) = none :=
    workRefused_none (by rw [idle]; decide) site wind data fun ht => htrack (by simpa using ht)
  unfold takeStanding
  rw [passed]
  dsimp only
  rw [planTake_single fields members eligible planned barAz barEl hraster]
  refine congrArg (·, true) (takeWork_idle ?_)
  split
  · rw [Blocks.modForm_form_self]
    exact idle
  · exact idle

/-- The formation is ADMITTING the order with its one member `d`, planned and waiting for power: what the statements
say of it. -/
def Formation.AdmitsWork (slot : SlotId) (d : DishId) (o : WorkOrder) (p : PlanResult) (m : Formation) : Prop :=
  m.state = .admitting ∧ m.work = some o.work ∧ m.slot = some slot ∧ m.target = some (o.skyAz, o.el)
    ∧ m.mode = o.mode ∧ m.wrap = o.wrap ∧ m.raster = o.raster ∧ m.members = DishSet.single d
    ∧ m.included = DishSet.single d ∧ m.skipped = 0 ∧ m.excused = 0 ∧ m.waveCount = 0
    ∧ m.notes = ⟨p.clamped, false, false, p.wrapOther⟩
    ∧ (m.mem d).stage = .claiming ∧ (m.mem d).wrapAz = some p.az.target

/-- The plan that the admission makes from the wrap position chosen notes the clamp anew and no choice (R29, R51). -/
theorem withPlan_twice (p : PlanResult) : (noNotes.withPlan p).withPlan { p with wrapOther := false }
    = ⟨p.clamped, false, false, p.wrapOther⟩ := by
  simp [Notes.withPlan, noNotes]

/-- The formation has the work of its one member `d` in hand, which aims at the wrap position of the plan `p` (R50). -/
structure Formation.SoleWork (slot : SlotId) (d : DishId) (o : WorkOrder) (p : PlanResult) (m : Formation) : Prop where
  work : m.work = some o.work
  slot : m.slot = some slot
  target : m.target = some (o.skyAz, o.el)
  mode : m.mode = o.mode
  wrap : m.wrap = o.wrap
  raster : m.raster = o.raster
  members : m.members = DishSet.single d
  included : m.included = DishSet.single d
  skipped : m.skipped = 0
  excused : m.excused = 0
  notes : m.notes = noNotes.withPlan p
  wrapAz : (m.mem d).wrapAz = some p.az.target

section
variable {slot : SlotId} {d : DishId} {o : WorkOrder} {p : PlanResult} {m : Formation}

theorem Formation.soleWork_takenUp (hm : m.members = DishSet.single d) :
    (m.takenUp (soleWork slot o d p)).SoleWork slot d o p :=
  ⟨rfl, rfl, rfl, rfl, rfl, rfl, hm, rfl, rfl, rfl, rfl, m.takenUp_wrapAz slot o d p⟩

/-- The work is the same whatever the queue. -/
theorem Formation.SoleWork.withQueue (h : m.SoleWork slot d o p) (queue : List Waypoint) (stop : Option ArrayTime)
    (fail : Option (DishId × ArrayTime × Int)) :
    ({ m with queue := queue, wrapStop := stop, wrapFail := fail } : Formation).SoleWork slot d o p :=
  ⟨h.work, h.slot, h.target, h.mode, h.wrap, h.raster, h.members, h.included, h.skipped, h.excused, h.notes, h.wrapAz⟩

theorem Formation.SoleWork.active (h : m.SoleWork slot d o p) : m.active = [d] := active_single h.included h.excused

/-- The first piece of motion aims at the wrap position chosen (R49, R51, R68). -/
theorem Formation.SoleWork.pieceAzimuth (h : m.SoleWork slot d o p) (hraster : ∀ r, o.raster = some r → r.index = 0) :
    pieceAzimuth m d = .wrap p.az.target := by
  unfold Machine.pieceAzimuth
  rw [h.wrapAz, h.raster]
  dsimp only
  split
  · next r hr => simp [hraster r hr]
  · rfl

theorem Formation.SoleWork.pieceElevation (h : m.SoleWork slot d o p)
    (hraster : ∀ r, o.raster = some r → r.index = 0 ∧ r.startEl = o.el) : pieceElevation m = o.el := by
  unfold Machine.pieceElevation
  rw [h.raster, h.target]
  split
  · next r hr =>
    obtain ⟨index, start⟩ := hraster r hr
    simp [index, start]
  · rfl

theorem Formation.SoleWork.admitsWork (h : m.SoleWork slot d o p) (wait : Timer) :
    (m.admitted d { p with wrapOther := false } wait).AdmitsWork slot d o p := by
  refine ⟨rfl, h.work, h.slot, h.target, h.mode, h.wrap, h.raster, h.members, h.included, h.skipped, h.excused, rfl,
    ?_, ?_, ?_⟩
  · rw [← withPlan_twice, ← h.notes]
    rfl
  · rw [Formation.admitted_mem]
  · rw [Formation.admitted_mem]
    exact h.wrapAz

end

/-- The admission of the work of one dish (R50, R51). -/
theorem admitPiece_soleWork {slot : SlotId} {f : FormationId} {o : WorkOrder} {d : DishId} {p : PlanResult} {b : Blocks}
    {m : Formation} (hm : m.SoleWork slot d o p) (hheat : b.HeatQuiet) (h : CanAdmitOne b f d o p)
    (hraster : ∀ r, o.raster = some r → r.index = 0 ∧ r.startEl = o.el) :
    ∃ wait, admitPiece f false (b.modForm f (fun _ => m))
      = (b.modForm f (fun _ => m.admitted d { p with wrapOther := false } wait)).claimPosted d p := by
  obtain ⟨-, -, eligible, planned, moves, -, -, -, -, -, noClaim, grant, room, azPeak, elPeak, hwait⟩ := h
  have form := b.modForm_form_self f (fun _ => m)
  have admitted := admitPiece_single (b := b.modForm f (fun _ => m)) (q := { p with wrapOther := false })
    (by rw [form]; exact hm.active) eligible
    (by
      rw [form, hm.pieceAzimuth (fun r hr => (hraster r hr).1), hm.pieceElevation hraster]
      exact plan_wrap_of_sky planned)
    (by rw [form]; exact hm.wrapAz) moves ⟨hheat, noClaim, grant, room, azPeak, elPeak⟩ hwait
  rw [Blocks.modForm_modForm] at admitted
  exact ⟨_, admitted⟩

/-- A TRACK of one eligible dish is in hand: its pruned queue unwrapped from the wrap position chosen, the dish claiming
(R41, R50, R63). -/
theorem takeTrack_single {slot : SlotId} {f : FormationId} {d : DishId} {wrap : Word} {pref : WrapPreference}
    {p : PlanResult} {w : Waypoint} {ws : List Waypoint} {b : Blocks} (hheat : b.HeatQuiet)
    (hwrap : readWrap wrap = some pref) (hprune : pruneQueue b.clock.time.toNat (b.form f).queue = w :: ws)
    (hvalid : b.clock.valid = true) (hahead : ∃ x ∈ (b.form f).queue, b.clock.time.toNat < x.time.toNat)
    (h : CanAdmitOne b f d ⟨.track, w.skyAz, w.el, pref, .joint, none⟩ p) :
    ∃ m : Formation, m.AdmitsWork slot d ⟨.track, w.skyAz, w.el, pref, .joint, none⟩ p
      ∧ m.queue.head?.map (fun x => (x.time, x.skyAz, x.el, x.unwrapped[d]))
        = some (w.time, w.skyAz, w.el, some p.az.target)
      ∧ takeTrack slot f wrap b = ((b.modForm f (fun _ => m)).claimPosted d p, true) := by
  generalize ho : (⟨.track, w.skyAz, w.el, pref, .joint, none⟩ : WorkOrder) = o at h ⊢
  have ⟨_, members, _⟩ := h
  have track : o.work = .track := by rw [← ho]
  have rasterless : o.raster = none := by rw [← ho]
  have taken : takeTrack slot f wrap b = takeStanding slot f o none ⟨10, 11⟩ b := by
    rw [takeTrack, hprune, hwrap, ← ho]
    rfl
  generalize hm : ({ b.form f with queue := w :: ws } : Formation).takenUp (soleWork slot o d p) = m
  have sole : m.SoleWork slot d o p := hm ▸ Formation.soleWork_takenUp members
  have prunedUp : (b.modForm f (fun m => { m with queue := pruneQueue b.clock.time.toNat m.queue })).modForm f
      (Formation.takenUp (soleWork slot o d p)) = b.modForm f (fun _ => m) := by
    rw [Blocks.modForm_modForm, ← hm, ← hprune]
    exact Blocks.modForm_congr rfl
  have form := b.modForm_form_self f (fun _ => m)
  obtain ⟨rest, stop, fail, unwrapped⟩ := unwrapQueue_head (w := w) (ws := ws)
    (show ((b.modForm f (fun _ => m)).form f).queue = _ by rw [form, ← hm]; rfl)
  have working := sole.withQueue ({ w with unwrapped := m.chosenWraps } :: rest) stop fail
  obtain ⟨wait, admitted⟩ := admitPiece_soleWork working hheat h (by rw [rasterless]; exact fun _ e => nomatch e)
  refine ⟨_, working.admitsWork wait, ?_, ?_⟩
  · have head : m.chosenWraps[d] = some p.az.target :=
      (Formation.chosenWraps_active (by rw [sole.active]; exact List.mem_singleton_self d)).trans sole.wrapAz
    rw [← head]
    rfl
  · rw [taken, takeStanding_single h (fun _ => ⟨hvalid, hahead⟩) (by rw [rasterless]; rfl), if_pos track,
      takeUp_track track, prunedUp, unwrapped, Blocks.modForm_modForm]
    exact congrArg (·, true) admitted

/-! ### The order stands (R174 to R176) -/

theorem nameFormation_explicit {field : Byte} {f : FormationId} (h : formationNumber field = some f)
    (last : Option FormationId) : (nameFormation field last).formation = some f := by
  unfold nameFormation
  rw [h]
  rfl

/-- An order that its owner takes with work in flight, where nothing follows but what the outputs say. -/
theorem order_stands {c : Instr} {s : State} {slot : SlotId} {o : Order} {f : FormationId} {b g : Blocks}
    {outs : List Output} {pages : List Page} (horder : orderOf c = some (slot, o)) (hslot : Takeable s slot o)
    (hf : (nameFormation o.formation s.part.xm.lastFormation).formation.getD 0 = f)
    (hgive : ∀ staging, giveOrder slot o f staging s.part.blocks = (g, true))
    (hcode : answeredCode slot g.out = none) (hsettle : settle s.part.blocks g = { b with out := outs })
    (ho : b.out = []) (hm : ∀ pg ∈ markedPages outs, pg ∈ pages)
    (ht : ∀ pg, pg ∉ pages → Untouched pg s.part.blocks b)
    (hc : Page.common ∈ pages ∨ (outs.all Output.noEntry = true ∧ b.site = s.part.blocks.site
      ∧ b.presence = s.part.blocks.presence)) :
    Stands (exec c s) s slot o b outs pages := by
  have ⟨_, _, passed⟩ := hslot
  have taken : command slot o s.part = flush (s.part.modXm (Exchange.modMem (placeOrder slot o)))
      ⟨{ b with out := outs }, takenIn slot o true none s.part.xm⟩ := by
    rw [command_takeable hslot, takeOrder]
    dsimp only [Part.modXm, Exchange.modMem]
    rw [passed]
    dsimp only
    rw [hf, hgive, hcode, hsettle]
    rfl
  have untouched : ∀ pg, pg ∉ pages → pageTouched pg (s.part.modXm (Exchange.modMem (placeOrder slot o)))
      (beforePages ⟨{ b with out := outs }, takenIn slot o true none s.part.xm⟩) = false :=
    fun pg hp => ((ht pg hp).trans (untouched_out pg b [])) _ _
  have common : Page.common ∈ pages ∨ commonPublications (s.part.modXm (Exchange.modMem (placeOrder slot o)))
      ⟨{ b with out := outs }, takenIn slot o true none s.part.xm⟩ = 0 := by
    refine hc.imp id ?_
    rintro ⟨he, hs, hp⟩
    exact commonPublications_zero he (recordTake_ready _ _ _ _ _ _) hs hp
  unfold Stands
  rw [exec_of_orderOf horder]
  refine ⟨{ s with part := command slot o s.part }, rfl, rfl, ?_, ?_⟩
  · show (command slot o s.part).blocks = b
    rw [taken, flush_blocks]
    exact Blocks.without_out ho
  · have same := flush_same _ _ pages hm untouched common
    rw [beforePages_eq] at same
    show SameButPages pages _ (command slot o s.part).xm
    rw [taken]
    exact same

/-- An order by which the one member of a formation claims power stands (R50, R75, R89, R176). -/
theorem order_claims {c : Instr} {s : State} {slot : SlotId} {o : Order} {f : FormationId} {d : DishId}
    {p : PlanResult} {m : Formation} (hq : s.part.blocks.Quiet) (horder : orderOf c = some (slot, o))
    (hslot : Takeable s slot o) (hf : (nameFormation o.formation s.part.xm.lastFormation).formation.getD 0 = f)
    (hgive : ∀ staging, giveOrder slot o f staging s.part.blocks
      = ((s.part.blocks.modForm f (fun _ => m)).claimPosted d p, true)) :
    Stands (exec c s) s slot o ((s.part.blocks.modForm f (fun _ => m)).modFa
      (Arbiter.claimed (makeClaim s.part.blocks d .fp .move p.az.moves p.el.moves))) [.page .power]
      [.formation f, .power] := by
  generalize hb : (s.part.blocks.modForm f (fun _ => m)).modFa
    (Arbiter.claimed (makeClaim s.part.blocks d .fp .move p.az.moves p.el.moves)) = b
  have still : Still none b := hb ▸ (hq.still none).of_records rfl rfl (fun _ => rfl)
  obtain ⟨hi, hout, -⟩ := hq
  have inbox : b.inbox = [] := hb ▸ hi
  have out : b.out = [] := hb ▸ hout
  have posted : (s.part.blocks.modForm f (fun _ => m)).claimPosted d p = { b with out := [.page .power] } := by
    have handed : [Output.page .power] = s.part.blocks.out ++ [.page .power] := by rw [hout]; rfl
    rw [← hb, handed]
    rfl
  rw [posted] at hgive
  refine order_stands horder hslot hf hgive rfl (settle_outs _ still inbox _) out ?_ (fun pg hp => ?_)
    (.inr ⟨rfl, ?_, ?_⟩)
  · simp [markedPages]
  · rw [← hb]
    simp only [List.mem_cons, List.not_mem_nil, or_false, not_or] at hp
    exact (untouched_modForm hp.1 _ _).trans (untouched_modFa pg rfl)
  · rw [← hb]; rfl
  · rw [← hb]; rfl

/-- An order that stands with its formation ADMITTING it, in the words of the statements. -/
theorem admitsOne_of_stands {r : Result} {s : State} {slot : SlotId} {ord : Order} {f : FormationId} {d : DishId}
    {o : WorkOrder} {p : PlanResult} {m : Formation} (hm : m.AdmitsWork slot d o p)
    (h : Stands r s slot ord ((s.part.blocks.modForm f (fun _ => m)).modFa
      (Arbiter.claimed (makeClaim s.part.blocks d .fp .move p.az.moves p.el.moves))) [.page .power]
      [.formation f, .power]) : AdmitsOne r s slot ord f d o p ∧ ∃ t, r = .next t ∧ t.part.blocks.form f = m := by
  obtain ⟨t, ht, hpending, hblocks, hsame⟩ := h
  have form : t.part.blocks.form f = m := by
    rw [hblocks, Blocks.modFa_form, Blocks.modForm_form_self]
  refine ⟨⟨t, ht, hpending, ?_, ?_⟩, t, ht, form⟩
  · rw [form, hblocks]
    rfl
  · obtain ⟨state, work, standing, target, mode, wrap, raster, members, included, skipped, excused, waves, notes,
      stage, wrapAz⟩ := hm
    rw [form]
    exact ⟨state, work, standing, target, mode, wrap, raster, members, included, skipped, excused, waves, notes,
      stage, wrapAz, hsame⟩

/-- Settles O13: the checks pass, the pruned queue is unwrapped from the wrap position chosen, and the claim waits. -/
theorem aTrackIsTakenInHand : Obligations.ATrackIsTakenInHand := by
  intro h formation f d wrap pref p w ws s b wo o hformation hq hheat hwrap hprune hvalid hahead hadmit hslot
  obtain ⟨m, admits, head, taken⟩ := takeTrack_single (slot := h.slot) hheat hwrap hprune hvalid hahead hadmit
  have named : (nameFormation o.formation s.part.xm.lastFormation).formation.getD 0 = f := by
    rw [show o.formation = formation from rfl, nameFormation_explicit hformation]
    rfl
  obtain ⟨admitted, t, ht, form⟩ := admitsOne_of_stands admits
    (order_claims (c := .track h formation wrap) hq rfl hslot named (fun _ => taken))
  exact ⟨admitted, t, ht, by rw [form]; exact head⟩

end Sys2Proof.Machine
end

