-- ==== Sys2Proof/Proofs/SlewsInHand.lean ====
section
/-! SUPPORT. A SLEW and a RASTER of a formation of one dish, from their take to the claim that waits (R47 to R51,
R68). -/

namespace Sys2Proof.Machine

/-! ### The take of a SLEW and of a RASTER (R47 to R51, R68) -/

theorem takeUp_fixed {f : FormationId} {p : PendingWork} {b : Blocks} (h : p.order.work ≠ .track) :
    takeUp f p b = admitPiece f false (b.modForm f (Formation.takenUp p)) :=
  congrArg (admitPiece f false) (if_neg h)

/-- A standing order other than TRACK of an IDLE formation of one eligible dish is in hand, the dish claiming (R47 to
R51). -/
theorem takeStanding_claims {slot : SlotId} {f : FormationId} {o : WorkOrder} {fields : TargetFields} {d : DishId}
    {p : PlanResult} {b : Blocks} (hheat : b.HeatQuiet) (h : CanAdmitOne b f d o p) (hwork : o.work ≠ .track)
    (hraster : ∀ r, o.raster = some r → (r.index = 0 ∧ r.startEl = o.el) ∧ rasterFault b.settings r [(d, p)] = none) :
    ∃ m : Formation, m.AdmitsWork slot d o p
      ∧ takeStanding slot f o none fields b = ((b.modForm f (fun _ => m)).claimPosted d p, true) := by
  have ⟨_, members, _⟩ := h
  have passed : o.raster.bind (fun r => rasterFault b.settings r [(d, p)]) = none := by
    cases raster : o.raster with
    | none => rfl
    | some r => exact (hraster r raster).2
  have sole : ((b.form f).takenUp (soleWork slot o d p)).SoleWork slot d o p := Formation.soleWork_takenUp members
  have takenUp : b.modForm f (Formation.takenUp (soleWork slot o d p))
      = b.modForm f (fun _ => (b.form f).takenUp (soleWork slot o d p)) := Blocks.modForm_congr rfl
  obtain ⟨wait, admitted⟩ := admitPiece_soleWork sole hheat h fun r hr => (hraster r hr).1
  refine ⟨_, sole.admitsWork wait, ?_⟩
  rw [takeStanding_single h (fun e => absurd e hwork) passed, if_neg hwork, takeUp_fixed (by exact hwork), takenUp,
    admitted]

/-- An order of such work is admitted, in the words of the statements. -/
theorem admitsOne_of_takeStanding {c : Instr} {s : State} {slot : SlotId} {ord : Order} {f : FormationId} {d : DishId}
    {o : WorkOrder} {p : PlanResult} {fields : TargetFields} (hq : s.part.blocks.Quiet)
    (hheat : s.part.blocks.HeatQuiet)
    (horder : orderOf c = some (slot, ord)) (hslot : Takeable s slot ord)
    (hformation : formationNumber ord.formation = some f)
    (hgive : ∀ staging, giveOrder slot ord f staging s.part.blocks = takeStanding slot f o none fields s.part.blocks)
    (hadmit : CanAdmitOne s.part.blocks f d o p) (hwork : o.work ≠ .track)
    (hraster : ∀ r, o.raster = some r →
      (r.index = 0 ∧ r.startEl = o.el) ∧ rasterFault s.part.blocks.settings r [(d, p)] = none) :
    AdmitsOne (exec c s) s slot ord f d o p := by
  obtain ⟨m, admits, taken⟩ := takeStanding_claims (slot := slot) (fields := fields) hheat hadmit hwork hraster
  have named : (nameFormation ord.formation s.part.xm.lastFormation).formation.getD 0 = f := by
    rw [nameFormation_explicit hformation]
    rfl
  exact (admitsOne_of_stands admits (order_claims hq horder hslot named fun st => (hgive st).trans taken)).1

/-- Parameters that all pass name no field (R47). -/
theorem firstBad_none {checks : List (Bool × Nat)} (h : ∀ c ∈ checks, c.1 = true) : firstBad checks = none := by
  have none_fails : checks.find? (fun c => !c.1) = none := by
    rw [List.find?_eq_none]
    intro c hc
    rw [h c hc]
    decide
  rw [firstBad, none_fails]
  rfl

/-- Settles O12: the checks of the parameters pass, and both orders are standing orders that the formation admits. -/
theorem aSlewOrRasterIsTakenInHand : Obligations.ASlewOrRasterIsTakenInHand := by
  intro h formation f d az el wrap pref p s b hformation hq hheat haz hwrap
  constructor
  · intro mode m hmode wo o hadmit hslot
    refine admitsOne_of_takeStanding (c := .slew h formation az el wrap mode) (fields := ⟨8, 9⟩) hq hheat rfl hslot
      hformation (fun _ => ?_) hadmit Work.noConfusion (fun _ e => nomatch e)
    have passed : firstBad [(decide (az.toNat ≤ 359999), 8), ((readWrap wrap).isSome, 10),
        ((readMode mode).isSome, 11)] = none := firstBad_none (by simp [haz, hwrap, hmode])
    show takeSlew h.slot f az el wrap mode b = _
    rw [takeSlew, passed, hwrap, hmode]
    rfl
  · intro stepAz stepEl dwell count r wo o hstepAz hstepEl hone hcount hdwell hfault hadmit hslot
    refine admitsOne_of_takeStanding (c := .raster h formation az el stepAz stepEl count dwell wrap)
      (fields := ⟨8, 9⟩) hq
      hheat rfl hslot hformation (fun _ => ?_) hadmit Work.noConfusion (fun q e => ?_)
    · have passed : firstBad [(decide (az.toNat ≤ 359999), 8), (decide (stepAz.toInt.natAbs ≤ 540000), 10),
          (decide (stepEl.toInt.natAbs ≤ 90000), 11), (decide (1 ≤ count.toNat) && decide (count.toNat ≤ 64), 12),
          (decide (dwell.toNat ≤ 600000), 13), ((readWrap wrap).isSome, 14)] = none :=
        firstBad_none (by simp [haz, hwrap, hstepAz, hstepEl, hone, hcount, hdwell])
      show takeRaster h.slot f az el stepAz stepEl count dwell wrap b = _
      rw [takeRaster, passed, hwrap]
      rfl
    · cases e
      exact ⟨⟨rfl, rfl⟩, hfault⟩

end Sys2Proof.Machine
end

