-- ==== Sys2Proof/Proofs/OrdersAnswered.lean ====
section
/-! SUPPORT. Orders that are answered in the event of their take and bring about nothing else (R174 to R176). -/

namespace Sys2Proof.Machine

/-! ### An order answered in the event of its take (R174 to R176) -/

/-- What the order taker makes of a copied order: its own refusal, or what the owner answers (R175). -/
def handOver (slot : SlotId) (o : Order) (named : Named) (staging : List Byte) (b : Blocks) : Blocks × Bool :=
  match takerRefused o named with
  | some a => (b.answer slot a, false)
  | none => giveOrder slot o (named.formation.getD 0) staging b

theorem handOver_refused {slot : SlotId} {o : Order} {named : Named} {a : Answer} (h : takerRefused o named = some a)
    (staging : List Byte) (b : Blocks) : handOver slot o named staging b = (b.answer slot a, false) := by
  rw [handOver, h]

theorem handOver_passed {slot : SlotId} {o : Order} {named : Named} (h : takerRefused o named = none)
    (staging : List Byte) (b : Blocks) :
    handOver slot o named staging b = giveOrder slot o (named.formation.getD 0) staging b := by
  rw [handOver, h]

theorem takeOrder_eq (slot : SlotId) (o : Order) (p : Part) : takeOrder slot o p = flush p
    ⟨settle p.blocks (handOver slot o (nameFormation o.formation p.xm.lastFormation) (stagingBytes p.xm.mem)
      p.blocks).1,
      recordTake slot o (nameFormation o.formation p.xm.lastFormation)
        (handOver slot o (nameFormation o.formation p.xm.lastFormation) (stagingBytes p.xm.mem) p.blocks).2
        (answeredCode slot
          (handOver slot o (nameFormation o.formation p.xm.lastFormation) (stagingBytes p.xm.mem) p.blocks).1.out)
            p.xm⟩ :=
  rfl

/-- An order whose answer is all that it brings about is taken: the answer is written and the pages follow. -/
theorem takeOrder_answered {slot : SlotId} {o : Order} {a : Answer} {b : Blocks} {p : Part}
    (hgive : ∀ staging, handOver slot o (nameFormation o.formation p.xm.lastFormation) staging p.blocks
      = (b.answer slot a, false)) (hstill : Still none b) (hi : b.inbox = []) (ho : b.out = []) :
    takeOrder slot o p = flush p
      ⟨{ b with out := [.answer slot a b.clock.time b.clock.valid] },
        recordTake slot o (nameFormation o.formation p.xm.lastFormation) false (some a.code) p.xm⟩ := by
  have out : (b.answer slot a).out = [.answer slot a b.clock.time b.clock.valid] := by
    rw [Blocks.answer_out, ho]
    rfl
  have settled : settle p.blocks (b.answer slot a)
      = { b with out := [.answer slot a b.clock.time b.clock.valid] } := by
    rw [← out]
    exact settle_outs _ hstill hi _
  rw [takeOrder_eq, hgive, settled, answeredCode_answer]

/-- The end of a command that has handed on one answer. -/
theorem flush_answer {old : Part} {slot : SlotId} {a : Answer} {b : Blocks} {x : Exchange} {pages : List Page}
    (ho : b.out = []) (hready : x.ready = old.xm.ready) (hsite : b.site = old.blocks.site)
    (hpresence : b.presence = old.blocks.presence) (ht : ∀ pg, pg ∉ pages → Untouched pg old.blocks b) :
    (flush old ⟨{ b with out := [.answer slot a b.clock.time b.clock.valid] }, x⟩).blocks = b
      ∧ SameButPages pages (takeOutputs b [.answer slot a b.clock.time b.clock.valid] x)
        (flush old ⟨{ b with out := [.answer slot a b.clock.time b.clock.valid] }, x⟩).xm := by
  constructor
  · rw [flush_blocks]
    exact Blocks.without_out ho
  · have untouched : ∀ pg, pg ∉ pages → pageTouched pg old
        (beforePages ⟨{ b with out := [.answer slot a b.clock.time b.clock.valid] }, x⟩) = false :=
      fun pg hp => ((ht pg hp).trans (untouched_out pg b [])) _ _
    have same := flush_same old ⟨{ b with out := [.answer slot a b.clock.time b.clock.valid] }, x⟩ pages
      (by simp [markedPages]) untouched (.inr (commonPublications_zero rfl hready hsite hpresence))
    rw [beforePages_eq] at same
    exact same

/-- An order command whose answer is all that it brings about, in the words of the statements. -/
theorem order_answered {c : Instr} {s : State} {slot : SlotId} {o : Order} {a : Answer} {b : Blocks} {pages : List Page}
    (horder : orderOf c = some (slot, o)) (hready : s.part.xm.ready = true)
    (hfree : ∀ h ∈ s.part.xm.heldList, h.slot ≠ slot)
    (hgive : ∀ staging, handOver slot o (nameFormation o.formation s.part.xm.lastFormation) staging s.part.blocks
      = (b.answer slot a, false))
    (hstill : Still none b) (hi : b.inbox = []) (ho : b.out = []) (hsite : b.site = s.part.blocks.site)
    (hpresence : b.presence = s.part.blocks.presence) (ht : ∀ pg, pg ∉ pages → Untouched pg s.part.blocks b) :
    Answers (exec c s) s slot o a b [] [] pages := by
  have taken : command slot o s.part = flush (s.part.modXm (Exchange.modMem (placeOrder slot o)))
      ⟨{ b with out := [.answer slot a b.clock.time b.clock.valid] }, takenIn slot o false
        (some a.code) s.part.xm⟩ := by
    rw [command, if_pos hready]
    dsimp only
    rw [abandonHeld_free hfree]
    exact takeOrder_answered hgive hstill hi ho
  obtain ⟨blocks, same⟩ := flush_answer (old := s.part.modXm (Exchange.modMem (placeOrder slot o))) (slot := slot)
    (a := a)
    (x := takenIn slot o false (some a.code) s.part.xm) ho (recordTake_ready _ _ _ _ _ _) hsite hpresence ht
  rw [← taken] at blocks same
  unfold Answers
  rw [exec_of_orderOf horder]
  exact ⟨{ s with part := command slot o s.part }, rfl, rfl, blocks, same⟩

/-- The same for an order that its owner, here of the formation planner, answers (R45, R175). -/
theorem formationOrder_answered {c : Instr} {s : State} {slot : SlotId} {o : Order} {f : FormationId} {a : Answer}
    {b : Blocks} {pages : List Page} (horder : orderOf c = some (slot, o)) (hslot : Takeable s slot o)
    (hf : formationNumber o.formation = some f)
    (hgive : ∀ staging, giveOrder slot o f staging s.part.blocks = (b.answer slot a, false))
    (hstill : Still none b) (hi : b.inbox = []) (ho : b.out = []) (hsite : b.site = s.part.blocks.site)
    (hpresence : b.presence = s.part.blocks.presence) (ht : ∀ pg, pg ∉ pages → Untouched pg s.part.blocks b) :
    Answers (exec c s) s slot o a b [] [] pages := by
  obtain ⟨ready, free, passed⟩ := hslot
  refine order_answered horder ready free (fun staging => ?_) hstill hi ho hsite hpresence ht
  rw [handOver_passed passed, nameFormation_explicit hf]
  exact hgive staging

end Sys2Proof.Machine
end

