-- ==== Sys2Proof/Proofs/Membership.lean ====
section
/-! SUPPORT. FORM, DISBAND and HALT of a formation without work (R44, R46, R60). -/

namespace Sys2Proof.Machine

/-! ### FORM, DISBAND and HALT of a formation without work (R44, R46, R60) -/

/-- The FORMATION field of one dish after another (R44). -/
theorem overDishes_setFormation (ds : DishSet) (v : Option FormationId) (b : Blocks) :
    overDishes ds.toList (setFormation v) b = b.modDishes ds.toList (fun x => { x with formation := v }) :=
  overDishes_records ((by decide : allDishes.Nodup).filter _) fun _ _ _ _ => rfl

theorem mem_toList_iff (ds : DishSet) (d : DishId) : d ∈ ds.toList ↔ ds.has d = true := by
  have mem : ∀ e : DishId, e ∈ allDishes := by decide
  simp [DishSet.toList, mem]

theorem has_and_not (old new : DishSet) (d : DishId) :
    (old &&& ~~~new).has d = (old.has d && !new.has d) := by
  have := d.isLt
  simp [DishSet.has]

/-- The blocks with new members of a formation: the dishes named have it in their FORMATION field, and those that it
leaves have none (R44, R46). -/
def Blocks.withMembers (f : FormationId) (new : DishSet) (b : Blocks) : Blocks :=
  { b with dishes := Vector.ofFn (fun d : Fin 12 => { b.dish d with
      formation := if new.has d then some f else if (b.form f).members.has d then none else (b.dish d).formation }) }

theorem Blocks.withMembers_dish (f : FormationId) (new : DishSet) (b : Blocks) (d : DishId) :
    (b.withMembers f new).dish d = { b.dish d with
      formation := if new.has d then some f else if (b.form f).members.has d then none else (b.dish d).formation } := by
  simp [Blocks.withMembers, Blocks.dish]

theorem setMembers_eq (f : FormationId) (new : DishSet) (b : Blocks) :
    setMembers f new b = (b.withMembers f new).modForm f (fun m => { m with members := new }) := by
  have dishes : overDishes new.toList (setFormation (some f))
      (overDishes ((b.form f).members &&& ~~~new).toList (setFormation none) b) = b.withMembers f new := by
    rw [overDishes_setFormation, overDishes_setFormation]
    refine Blocks.dishes_ext rfl fun d => ?_
    rw [Blocks.modDishes_dish, Blocks.modDishes_dish, Blocks.withMembers_dish]
    simp only [mem_toList_iff, has_and_not]
    by_cases named : new.has d = true
    · simp [named]
    · by_cases left : (b.form f).members.has d = true <;> simp [named, left]
  unfold setMembers
  dsimp only
  rw [dishes]

theorem Still.withMembers {skip : Option DishId} {b : Blocks} (h : Still skip b) (f : FormationId) (new : DishSet) :
    Still skip (b.withMembers f new) := by
  refine h.of_records rfl rfl fun d => ?_
  rw [Blocks.withMembers_dish]

theorem untouched_withMembers {pg : Page} (h : ∀ d, pg ≠ .dish d) (f : FormationId) (new : DishSet) (b : Blocks) :
    Untouched pg b (b.withMembers f new) := by
  have score : ∀ d, ((b.withMembers f new).dish d).score = (b.dish d).score := fun d => by rw [Blocks.withMembers_dish]
  have zone : (b.withMembers f new).zone = b.zone := rfl
  have shed : (b.withMembers f new).shed = b.shed := rfl
  intro x y
  rw [← pageTouched_self pg ⟨b, x⟩]
  cases pg
  case dish e => exact absurd rfl (h e)
  case zone z => simp [pageTouched, score, zone, shed]
  all_goals rfl

/-- An order by which a formation takes or leaves dishes is answered DONE (R46). -/
theorem membership_answered {c : Instr} {s : State} {slot : SlotId} {o : Order} {f : FormationId} {new : DishSet}
    {g : Formation → Formation} (hq : s.part.blocks.Quiet) (horder : orderOf c = some (slot, o))
    (hslot : Takeable s slot o) (hf : formationNumber o.formation = some f)
    (hgive : ∀ staging, giveOrder slot o f staging s.part.blocks
      = (((setMembers f new s.part.blocks).modForm f g).answer slot (plainAnswer .done), false)) :
    Answers (exec c s) s slot o ⟨.done, noNotes, 0, []⟩
      ((s.part.blocks.withMembers f new).modForm f (fun m => g { m with members := new })) [] []
      (.formation f :: allDishes.map Page.dish) := by
  have still : Still none ((s.part.blocks.withMembers f new).modForm f (fun m => g { m with members := new })) :=
    ((hq.still none).withMembers f new).of_records rfl rfl (fun _ => rfl)
  obtain ⟨inbox, out, -⟩ := hq
  rw [setMembers_eq, Blocks.modForm_modForm] at hgive
  refine formationOrder_answered horder hslot hf hgive still inbox out rfl rfl fun pg hp => ?_
  have mem : ∀ e : DishId, e ∈ allDishes := by decide
  have hdish : ∀ d, pg ≠ .dish d := fun d e => hp (by simp [e, mem])
  have hform : pg ≠ .formation f := fun e => hp (by simp [e])
  exact (untouched_withMembers hdish f new _).trans (untouched_modForm hform _ _)

/-- The checks of FORM pass where its dishes are in no other formation and none sheds snow (R46). -/
theorem formRefused_none {f : FormationId} {dishes : Word} {b : Blocks} (hset : badDishSet dishes = false)
    (hstate : (b.form f).state.busy = false) (hd : ∀ d, (dishBits dishes).has d = true →
      ((b.dish d).formation = none ∨ (b.dish d).formation = some f) ∧ (b.dish d).task ≠ .shed) :
    formRefused f dishes b = none := by
  have free : (dishBits dishes).toList.any (fun d => (b.dish d).formation.isSome && (b.dish d).formation != some f)
    = false := by
    refine List.any_eq_false.mpr fun d hmem => ?_
    rcases (hd d ((mem_toList_iff _ _).mp hmem)).1 with h | h <;> simp [h]
  have unshed : (dishBits dishes).toList.any (fun d => (b.dish d).task == .shed) = false := by
    refine List.any_eq_false.mpr fun d hmem => ?_
    simpa using (hd d ((mem_toList_iff _ _).mp hmem)).2
  unfold formRefused
  dsimp only
  rw [hset, hstate, free, unshed]
  rfl

/-- Settles O10: the checks pass, and MEMBERS with the FORMATION fields follow. -/
theorem formTakesItsDishes : Obligations.FormTakesItsDishes := by
  intro h formation f dishes s b o hformation hslot hq hstate hset hd
  have unbusy : (b.form f).state.busy = false := by rcases hstate with e | e <;> rw [e] <;> rfl
  have taken : takeForm h.slot f dishes b = ((setMembers f (dishBits dishes) b).modForm f
      (fun m => { m with state := .idle })).answer h.slot (plainAnswer .done) := by
    rw [takeForm, formRefused_none hset unbusy hd]
  exact membership_answered (c := .form h formation dishes) hq rfl hslot hformation fun _ => congrArg (·, false) taken

/-- Settles O11: DISBAND takes the members away and the record with them, HALT empties the queue. -/
theorem disbandAndHaltOfAnIdleFormation : Obligations.DisbandAndHaltOfAnIdleFormation := by
  intro h formation f s b hformation hq hidle
  refine ⟨fun hslot => ?_, fun hslot => ?_⟩
  · have taken : takeDisband h.slot f b
        = ((setMembers f 0 b).modForm f (fun _ => unusedFormation)).answer h.slot (plainAnswer .done) := by
      rw [takeDisband, hidle]
    have answered := membership_answered (c := .disband h formation) hq rfl hslot hformation
      fun _ => congrArg (·, false) taken
    have none_named : ∀ d, DishSet.has 0 d = false := by decide
    have dishes : b.withMembers f 0 = { b with dishes := Vector.ofFn (fun d : Fin 12 => { b.dish d with
        formation := if (b.form f).members.has d then none else (b.dish d).formation }) } := by
      simp only [Blocks.withMembers, none_named, Bool.false_eq_true, if_false]
    rw [dishes] at answered
    exact answered
  · have taken : takeHalt h.slot f b = (emptyQueue f b).answer h.slot (plainAnswer .done) := by rw [takeHalt, hidle]
    have still : Still none (emptyQueue f b) := (hq.still none).of_records rfl rfl (fun _ => rfl)
    obtain ⟨inbox, out, -⟩ := hq
    have answered := formationOrder_answered (c := .halt h formation) (b := emptyQueue f b)
      (pages := [.formation f]) rfl
      hslot hformation (fun _ => congrArg (·, false) taken) still inbox out rfl rfl
      fun pg hp => untouched_modForm (by simpa using hp) _ _
    exact answered

end Sys2Proof.Machine
end

