-- ==== Sys2Proof/Proofs/TrackLoads.lean ====
section
/-! SUPPORT. TRACK_LOAD to a formation without a track in hand (R62). -/

namespace Sys2Proof.Machine

/-! ### TRACK_LOAD (R62) -/

theorem pairwise_of_toList_append {t : Option Nat} {l : List Nat} (h : (t.toList ++ l).Pairwise (· < ·)) :
    l.Pairwise (· < ·) := (List.pairwise_append.mp h).2.1

/-- Times that rise from the last queued one on pass the check of their order (R62). -/
theorem timesRise_of_pairwise {last : Option Nat} {ps : List RawWaypoint}
    (h : (last.toList ++ ps.map (fun q => q.time.toNat)).Pairwise (· < ·)) : timesRise last ps = true := by
  induction ps generalizing last with
  | nil => rfl
  | cons p ps ih =>
    have rest : timesRise (some p.time.toNat) ps = true := ih (pairwise_of_toList_append h)
    have first : last.all (fun t => decide (t < p.time.toNat)) = true := by
      cases last with
      | none => rfl
      | some t => simpa using (List.pairwise_append.mp h).2.2 t (by simp) p.time.toNat (by simp)
    rw [timesRise, first, rest]
    rfl

/-- The last of rising times is later than `now` where one of them is (R62). -/
theorem last_later {now : Nat} {ps : List RawWaypoint} (hrise : (ps.map (fun q => q.time.toNat)).Pairwise (· < ·))
    (h : ∃ q ∈ ps, now < q.time.toNat) : ps.getLast?.all (fun p => decide (p.time.toNat ≤ now)) = false := by
  obtain ⟨q, hq, later⟩ := h
  obtain ⟨init, last, rfl⟩ : ∃ init last, ps = init ++ [last] :=
    ⟨_, _, (List.dropLast_append_getLast (List.ne_nil_of_mem hq)).symm⟩
  have bound : q.time.toNat ≤ last.time.toNat := by
    rcases List.mem_append.mp hq with hi | hl
    · rw [List.map_append] at hrise
      exact Nat.le_of_lt ((List.pairwise_append.mp hrise).2.2 _ (List.mem_map_of_mem hi) _ (by simp))
    · rw [List.mem_singleton.mp hl]
  rw [List.getLast?_concat]
  simpa using Nat.lt_of_lt_of_le later bound

/-- The checks of TRACK_LOAD pass (R62). -/
theorem loadRefused_none {m : Formation} {count : Nat} {ps : List RawWaypoint} {c : Clock} (hstate : m.state ≠ .unused)
    (hone : 1 ≤ count) (hcount : count ≤ 6) (hlength : ps.length = count) (haz : ∀ q ∈ ps, q.skyAz.toNat ≤ 359999)
    (hvalid : c.valid = true)
    (hrise : ((m.queue.map (fun w => w.time.toNat)).getLast?.toList ++ ps.map (fun q => q.time.toNat)).Pairwise (· < ·))
    (hlater : ∃ q ∈ ps, c.time.toNat < q.time.toNat) (hroom : m.queue.length + count ≤ 32) :
    loadRefused m count ps c = none := by
  have fields : loadField count ps = none := by
    have azimuths : ps.findIdx? (fun p => decide (359999 < p.skyAz.toNat)) = none :=
      List.findIdx?_eq_none_iff.mpr fun q hq => by simpa using haz q hq
    rw [loadField, if_neg (by omega), azimuths]
    rfl
  rw [List.getLast?_map] at hrise
  unfold loadRefused
  rw [if_neg hstate, fields]
  dsimp only
  rw [if_neg (by simp [hvalid]), if_neg (by simp [timesRise_of_pairwise hrise]),
    if_neg (by simp [last_later (pairwise_of_toList_append hrise) hlater]), if_neg (by omega)]

/-- Waypoints join the queue as they are where no TRACK is in hand (R62). -/
theorem joinWaypoints_untracked {f : FormationId} {b : Blocks} (h : (b.form f).work ≠ some .track)
    (ws : List Waypoint) :
    joinWaypoints f ws b = b.modForm f (fun m => { m with queue := m.queue ++ ws }) := by
  refine Blocks.modForm_congr ?_
  split
  · next tracked _ _ => exact absurd tracked h
  · rfl

/-- Settles O14: the checks pass, and the queue takes the waypoints as they are. -/
theorem aTrackLoadExtendsTheQueue : Obligations.ATrackLoadExtendsTheQueue := by
  intro h formation f count points s b o ps hformation hslot hq hunused hstarved hwork hone hcount haz hvalid hrise
    hlater
    hroom
  have length : ps.length = count.toNat := by simp [ps, hcount]
  have passed : loadRefused (b.form f) count.toNat ps b.clock = none :=
    loadRefused_none hunused hone hcount length haz hvalid hrise hlater hroom
  have taken : takeTrackLoad h.slot f count points b
      = (b.modForm f (fun m => { m with queue := m.queue ++ ps.map (loadedWaypoint b.settings) })).answer h.slot
        ⟨.done, { noNotes with clamped := ps.any (loadClamps b.settings) }, 0, []⟩ := by
    unfold takeTrackLoad
    dsimp only
    rw [passed]
    dsimp only
    rw [if_neg hstarved, joinWaypoints_untracked hwork]
  have still : Still none (b.modForm f (fun m => { m with queue := m.queue ++ ps.map (loadedWaypoint b.settings) })) :=
    (hq.still none).of_records rfl rfl (fun _ => rfl)
  obtain ⟨inbox, out, -⟩ := hq
  exact formationOrder_answered (c := .trackLoad h formation count points) rfl hslot hformation
    (fun _ => congrArg (·, false) taken) still inbox out rfl rfl fun pg hp => untouched_modForm (by simpa using hp) _ _

end Sys2Proof.Machine
end

