-- ==== Sys2Proof/Proofs/Refusals.lean ====
section
/-! SUPPORT. Orders that the order taker or the lock table refuses (R45, R146, R154, R175). -/

namespace Sys2Proof.Machine

/-! ### Orders that the order taker refuses (R45, R175) -/

/-- An order command carries a verb that is known (10.4). -/
theorem orderOf_verb {c : Instr} {slot : SlotId} {o : Order} (h : orderOf c = some (slot, o)) (v : Word) :
    o.body ≠ .unknown v := by
  cases c <;> cases h <;> exact OrderBody.noConfusion

theorem takerRefused_unknown {o : Order} {v : Word} (h : o.body = .unknown v) (named : Named) :
    takerRefused o named = some (plainAnswer .unknownVerb) := by
  unfold takerRefused
  rw [h]

/-- FLAGS are looked at next (R175). -/
theorem takerRefused_flags {o : Order} (hverb : ∀ v, o.body ≠ .unknown v) (h : o.flags ≠ 0) (named : Named) :
    takerRefused o named = some (badField 5) := by
  unfold takerRefused
  split
  · next v hv => exact absurd hv (hverb v)
  · exact if_pos h

/-- Then the FORMATION field of an order of the formation planner (R45). -/
theorem takerRefused_named {o : Order} {named : Named} {a : Answer} (hverb : ∀ v, o.body ≠ .unknown v) (h : o.flags = 0)
    (hfp : o.body.ofFormation = true) (hnamed : named = .refused a) : takerRefused o named = some a := by
  unfold takerRefused
  split
  · next v hv => exact absurd hv (hverb v)
  · rw [if_neg (not_not_intro h), if_pos hfp, hnamed]

theorem nameFormation_bad {field : Byte} (h : 8 ≤ field.toNat) (hlast : field ≠ 15) (last : Option FormationId) :
    nameFormation field last = .refused (badField 4) := by
  have unnumbered : formationNumber field = none := dif_neg (by omega)
  unfold nameFormation
  rw [unnumbered]
  exact if_neg hlast

theorem nameFormation_noLast : nameFormation 15 none = .refused (plainAnswer .noLast) := rfl

/-! ### A LOCK that the pool cannot take (R146, R154) -/

/-- The pool records of a dish (R145). -/
def poolRecords (b : Blocks) (d : DishId) : List LockRecord :=
  allPool.filterMap (fun k => b.pool[k].filter (fun r => r.dish == d))

/-- Whether the pool has a record of the dish that an order with this tag has placed (R146). -/
def poolHolds (b : Blocks) (d : DishId) (tag : Nat) : Bool :=
  (poolRecords b d).any (fun r => r.origin == .order && r.tag == tag)

theorem poolOf_records (b : Blocks) (d : DishId) : (poolOf b d).map Prod.snd = poolRecords b d := by
  rw [poolOf, List.map_filterMap]
  refine List.filterMap_congr fun k _ => ?_
  cases b.pool[k] with
  | none => rfl
  | some r => by_cases h : r.dish = d <;> simp [h, Option.filter]

/-- The checks of R146 in their order. -/
theorem poolPlace_checks (b : Blocks) (d : DishId) (tag : Nat) :
    (poolHolds b d tag = true → poolPlace b d .order tag = .error .alreadyHeld)
    ∧ (poolHolds b d tag = false → 3 ≤ (poolRecords b d).length → poolPlace b d .order tag = .error .dishFull)
    ∧ (poolHolds b d tag = false → (poolRecords b d).length < 3 → (∀ k : PoolId, b.pool[k].isSome = true) →
      poolPlace b d .order tag = .error .tableFull) := by
  have held : (poolOf b d).any (fun x => x.2.origin == .order && x.2.tag == tag) = poolHolds b d tag := by
    rw [poolHolds, ← poolOf_records, List.any_map]
    rfl
  have length : (poolOf b d).length = (poolRecords b d).length := by rw [← poolOf_records, List.length_map]
  unfold poolPlace
  dsimp only
  rw [held, length]
  refine ⟨fun h => ?_, fun h hfull => ?_, fun h hfew hall => ?_⟩
  · rw [h]
    rfl
  · rw [h, if_neg Bool.false_ne_true, if_pos hfull]
  · have full : allPool.find? (fun p => (b.pool[p]).isNone) = none :=
      List.find?_eq_none.mpr fun p _ => by simpa using Option.isSome_iff_ne_none.mp (hall p)
    rw [h, if_neg Bool.false_ne_true, if_neg (Nat.not_le.mpr hfew), full]

theorem dishNumber_val (d : DishId) : dishNumber (BitVec.ofNat 16 d.val).toNat = some d := by revert d; decide

theorem readLockClass_some {cls : Word} (h : cls.toNat ≤ 2) : ∃ c, readLockClass cls = some c := by
  have cases : cls.toNat = 0 ∨ cls.toNat = 1 ∨ cls.toNat = 2 := by omega
  unfold readLockClass
  rcases cases with e | e | e <;> rw [e] <;> exact ⟨_, rfl⟩

/-- A LOCK with good parameters that finds no place is answered with the failing check (R146, R154). -/
theorem takeLock_placeless {slot : SlotId} {d : DishId} {cls tag : Word} {code : AnswerCode} {b : Blocks}
    (hcls : cls.toNat ≤ 2) (htag : tag ≠ 0) (h : poolPlace b d .order tag.toNat = .error code) :
    takeLock slot (BitVec.ofNat 16 d.val) cls tag b = (b.answer slot (plainAnswer code), false) := by
  obtain ⟨c, hc⟩ := readLockClass_some hcls
  unfold takeLock
  rw [dishNumber_val, hc]
  dsimp only
  rw [if_neg htag, h]

/-- An order that is refused changes no block: it is answered, and that is all (R175). -/
theorem order_refused {c : Instr} {s : State} {slot : SlotId} {o : Order} {a : Answer} (hq : s.part.blocks.Quiet)
    (horder : orderOf c = some (slot, o)) (hready : s.part.xm.ready = true)
    (hfree : ∀ h ∈ s.part.xm.heldList, h.slot ≠ slot)
    (hgive : ∀ staging, handOver slot o (nameFormation o.formation s.part.xm.lastFormation) staging s.part.blocks
      = (s.part.blocks.answer slot a, false)) :
    Answers (exec c s) s slot o a s.part.blocks [] [] [] := by
  have still := hq.still none
  obtain ⟨inbox, out, -⟩ := hq
  exact order_answered horder hready hfree hgive still inbox out rfl rfl fun pg _ => Untouched.refl pg _

/-- The refusals of the order taker change no block (R45, R175). -/
theorem takerRefusals_answered (c : Instr) (slot : SlotId) (o : Order) (s : State)
    (horder : orderOf c = some (slot, o))
    (hready : s.part.xm.ready = true) (hfree : ∀ h ∈ s.part.xm.heldList, h.slot ≠ slot) (hq : s.part.blocks.Quiet) :
    (o.flags ≠ 0 → Answers (exec c s) s slot o ⟨.badField, noNotes, 5, []⟩ s.part.blocks [] [] [])
    ∧ (o.flags = 0 → o.body.ofFormation = true → 8 ≤ o.formation.toNat → o.formation ≠ 15 →
      Answers (exec c s) s slot o ⟨.badField, noNotes, 4, []⟩ s.part.blocks [] [] [])
    ∧ (o.flags = 0 → o.body.ofFormation = true → o.formation = 15 → s.part.xm.lastFormation = none →
      Answers (exec c s) s slot o ⟨.noLast, noNotes, 0, []⟩ s.part.blocks [] [] []) := by
  have refused := fun a (h : takerRefused o (nameFormation o.formation s.part.xm.lastFormation) = some a) =>
    order_refused hq horder hready hfree fun staging => handOver_refused h staging s.part.blocks
  have known := orderOf_verb horder
  refine ⟨fun hflags => refused _ ?_, fun hflags hfp hfield hlast => refused _ ?_, fun hflags hfp hfield hnone =>
    refused _ ?_⟩
  · exact takerRefused_flags known hflags _
  · exact takerRefused_named known hflags hfp (nameFormation_bad hfield hlast _)
  · exact takerRefused_named known hflags hfp (by rw [hfield, hnone]; exact nameFormation_noLast)

/-- The refusals of a LOCK that finds no place change no block (R146, R154). -/
theorem lockRefusals_answered (h : OrderHead) (d : DishId) (cls tag : Word) (s : State) : let b := s.part.blocks
    let o := orderWith h 0 0 0 (.lock (BitVec.ofNat 16 d.val) cls tag)
    let refused (code : AnswerCode) : Prop :=
      Answers (exec (.lock h (BitVec.ofNat 16 d.val) cls tag) s) s h.slot o ⟨code, noNotes, 0, []⟩ b [] [] []
    let mine := allPool.filterMap (fun k => b.pool[k].filter (fun r => r.dish == d))
    let same := mine.any (fun r => r.origin == .order && r.tag == tag.toNat)
    tag ≠ 0 → cls.toNat ≤ 2 → Takeable s h.slot o → b.Quiet →
    (same = true → refused .alreadyHeld)
    ∧ (same = false → 3 ≤ mine.length → refused .dishFull)
    ∧ (same = false → mine.length < 3 → (∀ k : PoolId, b.pool[k].isSome = true) → refused .tableFull) := by
  intro b o refused mine same htag hcls hslot hq
  obtain ⟨ready, free, passed⟩ := hslot
  have placeless : ∀ code, poolPlace b d .order tag.toNat = .error code → refused code := fun code hcode =>
    order_refused (c := .lock h (BitVec.ofNat 16 d.val) cls tag) hq rfl ready free fun staging =>
      (handOver_passed passed staging b).trans (takeLock_placeless hcls htag hcode)
  obtain ⟨held, dishFull, tableFull⟩ := poolPlace_checks b d tag.toNat
  exact ⟨fun hsame => placeless _ (held hsame), fun hsame hfull => placeless _ (dishFull hsame hfull),
    fun hsame hfew hall => placeless _ (tableFull hsame hfew hall)⟩

end Sys2Proof.Machine
end

