-- ==== Sys2Proof/Proofs/Sweeps.lean ====
section
/-! SUPPORT. The sweep: what outputs and publications leave of the slots, the answer marks, and the take phase (R172
to R176). -/

namespace Sys2Proof.Machine

/-! ### Folds (R172 to R174) -/

/-- A fold in which one element alone does something. -/
theorem foldl_once {α β : Type} {f : β → α → β} {l : List α} {a : α} {x y : β} (ha : a ∈ l)
    (hx : ∀ k, k ≠ a → f x k = x) (hfa : f x a = y) (hy : ∀ k, f y k = y) : l.foldl f x = y := by
  induction l with
  | nil => cases ha
  | cons k l ih =>
    by_cases hk : k = a
    · rw [List.foldl_cons, hk, hfa, List.foldl_fixed' hy]
    · rw [List.foldl_cons, hx k hk]
      exact ih ((List.mem_cons.mp ha).resolve_left fun e => hk e.symm)

theorem mem_allSlots (k : SlotId) : k ∈ allSlots := List.mem_finRange k

/-! ### The slots after outputs and publications (10.4) -/

/-- Whether an output is an answer for the slot. -/
def Output.answers (k : SlotId) : Output → Bool
  | .answer s _ _ _ => s == k
  | .trail _ _ _ => false
  | .cause _ => false
  | .page _ => false

/-- A slot reads alike in two memories: its bytes do. -/
def SameSlot (k : SlotId) (m m' : Memory) : Prop :=
  ∀ a, slotBase k ≤ a → a < slotBase k + 128 → Memory.read a m' = Memory.read a m

theorem SameSlot.trans {k : SlotId} {m1 m2 m3 : Memory} (h1 : SameSlot k m1 m2) (h2 : SameSlot k m2 m3) :
    SameSlot k m1 m3 := fun a hl hr => (h2 a hl hr).trans (h1 a hl hr)

theorem SameSlot.state {k : SlotId} {m m' : Memory} (h : SameSlot k m m') : slotState k m' = slotState k m := by
  have bytes : Memory.readBytes (slotBase k) 2 m' = Memory.readBytes (slotBase k) 2 m :=
    Memory.readBytes_congr fun a hl hr => h a hl (by omega)
  unfold slotState Memory.readWord
  rw [bytes]

theorem SameSlot.order {k : SlotId} {m m' : Memory} (h : SameSlot k m m') : orderAt k m' = orderAt k m := by
  have bytes : Memory.readBytes (slotBase k + 2) 102 m' = Memory.readBytes (slotBase k + 2) 102 m :=
    Memory.readBytes_congr fun a hl hr => h a (by omega) (by omega)
  unfold orderAt
  rw [bytes]

/-- No page has a byte in the slate (8.1). -/
theorem SameButPages.sameSlot {pages : List Page} {x y : Exchange} (h : SameButPages pages x y) (k : SlotId) :
    SameSlot k x.mem y.mem := by
  obtain ⟨-, -, reads⟩ := h
  refine fun a hl hr => reads a fun pg _ => ?_
  by_contra owned
  have := Page.owns_bounds (Bool.not_eq_false _ ▸ owned)
  have := k.isLt
  unfold slotBase at hl hr
  omega

/-- An answer writes its own slot, and the trail is no slot (10.4). -/
theorem sameSlot_takeOutput {k : SlotId} {o : Output} (h : o.answers k = false) (level : Nat) (c : Clock)
    (x : Exchange) :
    SameSlot k x.mem (takeOutput level c o x).mem := by
  intro a hl hr
  have slot := k.isLt
  cases o with
  | answer s r t v =>
    have other : s.val ≠ k.val := fun e => by simp [Output.answers, Fin.ext e] at h
    have length : (answerBytes r t v).length = 24 := by
      simp [answerBytes, byte, word, timeBytes, fit_length, lowBytes_length]
    unfold slotBase at hl hr
    simp only [takeOutput, writeAnswer, Exchange.setCause, setSlotState, Memory.writeWord, slotBase]
    rw [Memory.read_writeBytes_outside _ (by rw [lowBytes_length]; omega),
      Memory.read_writeBytes_outside _ (by rw [length]; omega)]
  | trail e t v =>
    have low : a < 0x3000 := by unfold slotBase at hr; omega
    have entry : ∀ (e : TrailEvent) (y : Exchange),
        Memory.read a (writeEntry level c.count e t v y).mem = Memory.read a y.mem := by
      intro e y
      rw [writeEntry_mem]
      exact Memory.read_writeBytes_outside _ (.inl (by omega))
    have event : Memory.read a (takeEvent level c.count e t v x).mem = Memory.read a x.mem := by
      unfold takeEvent
      dsimp only
      split_ifs <;> simp only [entry, sampleMark_mem]
    cases e <;> exact event
  | cause r => rfl
  | page pg => rfl

theorem sameSlot_takeOutputs {k : SlotId} {outs : List Output} (h : ∀ o ∈ outs, o.answers k = false) (b : Blocks)
    (x : Exchange) : SameSlot k x.mem (takeOutputs b outs x).mem := by
  unfold takeOutputs
  induction outs generalizing x with
  | nil => exact fun _ _ _ => rfl
  | cons o l ih =>
    exact (sameSlot_takeOutput (h o (by simp)) _ _ x).trans (ih (fun e he => h e (List.mem_cons_of_mem _ he)) _)

/-- An answered slot shows ANSWERED (R176). -/
theorem slotState_takeOutputs_answer (b : Blocks) (outs : List Output) (slot : SlotId) (a : Answer) (t : ArrayTime)
    (v : Bool) (x : Exchange) :
    slotState slot (takeOutputs b (outs ++ [.answer slot a t v]) x).mem = some .answered := by
  unfold takeOutputs
  rw [List.foldl_append]
  exact slotState_setSlotState slot .answered _

/-! ### Answer marks (R174, R176) -/

/-- The exchange side with other answer marks. -/
def Exchange.withMarks (n : BitVec 32) (x : Exchange) : Exchange := { x with answerMarks := n }

/-- The marks after an output: an answer sets that of its slot (R176). -/
def Output.mark (n : BitVec 32) : Output → BitVec 32
  | .answer s _ _ _ => n ||| BitVec.ofNat 32 (2 ^ s.val)
  | .trail _ _ _ => n
  | .cause _ => n
  | .page _ => n

theorem slotBit (s k : SlotId) : (BitVec.ofNat 32 (2 ^ s.val)).getLsbD k.val = (s == k) := by
  have := k.isLt
  rw [BitVec.getLsbD_ofNat, Nat.testBit_two_pow, decide_eq_true this, Bool.true_and]
  exact decide_eq_decide.mpr Fin.ext_iff.symm

theorem Output.mark_getLsbD (n : BitVec 32) (o : Output) (k : SlotId) :
    (o.mark n).getLsbD k.val = (n.getLsbD k.val || o.answers k) := by
  cases o with
  | answer s r t v => rw [Output.mark, BitVec.getLsbD_or, slotBit]; rfl
  | _ => exact (Bool.or_false _).symm

theorem foldl_mark_getLsbD (n : BitVec 32) (outs : List Output) (k : SlotId) :
    (outs.foldl Output.mark n).getLsbD k.val = (n.getLsbD k.val || outs.any (Output.answers k)) := by
  induction outs generalizing n with
  | nil => simp
  | cons o l ih => rw [List.foldl_cons, ih, Output.mark_getLsbD, List.any_cons, Bool.or_assoc]

theorem clearMark_getLsbD (s k : SlotId) (n : BitVec 32) :
    (clearMark s n).getLsbD k.val = (n.getLsbD k.val && !(s == k)) := by
  have := k.isLt
  rw [clearMark, BitVec.getLsbD_and, BitVec.getLsbD_not, slotBit]
  simp [this]

/-- Slots that have the same marks. -/
theorem marks_ext {n n' : BitVec 32} (h : ∀ k : SlotId, n.getLsbD k.val = n'.getLsbD k.val) : n = n' :=
  BitVec.eq_of_getLsbD_eq fun i hi => h ⟨i, hi⟩

@[simp] theorem unread_withMarks (n : BitVec 32) (x : Exchange) : unread (x.withMarks n) = unread x := rfl

theorem sampleMark_withMarks (count : Nat) (n : BitVec 32) (x : Exchange) :
    sampleMark count (x.withMarks n) = (sampleMark count x).withMarks n := by
  unfold sampleMark
  rw [unread_withMarks]
  unfold Exchange.withMarks
  dsimp only
  split_ifs <;> rfl

theorem writeEntry_withMarks (level count : Nat) (e : TrailEvent) (t : ArrayTime) (v : Bool) (n : BitVec 32)
    (x : Exchange) : writeEntry level count e t v (x.withMarks n) = (writeEntry level count e t v x).withMarks n := by
  unfold writeEntry Exchange.withMarks unread
  dsimp only
  split_ifs <;> rfl

/-- The trail writer does not look at the answer marks. -/
theorem takeEvent_withMarks (level count : Nat) (e : TrailEvent) (t : ArrayTime) (v : Bool) (n : BitVec 32)
    (x : Exchange) :
    takeEvent level count e t v (x.withMarks n) = (takeEvent level count e t v x).withMarks n := by
  unfold takeEvent
  rw [sampleMark_withMarks]
  generalize sampleMark count x = y
  have gap : { writeEntry level count (.trailGap y.dropped) t v (y.withMarks n) with dropped := 0 }
      = Exchange.withMarks n { writeEntry level count (.trailGap y.dropped) t v y with dropped := 0 } := by
    rw [writeEntry_withMarks]
    rfl
  dsimp only
  rw [unread_withMarks, show (y.withMarks n).dropped = y.dropped from rfl, gap, unread_withMarks]
  split_ifs
  · rfl
  · exact writeEntry_withMarks _ _ _ _ _ _ _
  · rw [writeEntry_withMarks]
    rfl
  · exact writeEntry_withMarks _ _ _ _ _ _ _

theorem takeOutput_withMarks (level : Nat) (c : Clock) (o : Output) (n : BitVec 32) (x : Exchange) :
    takeOutput level c o (x.withMarks n) = (takeOutput level c o x).withMarks (o.mark n) := by
  cases o with
  | trail e t v =>
    have event := takeEvent_withMarks level c.count e t v n x
    cases e
    case timeSet => exact congrArg (fun y => { y with shownTime := c.time, shownValid := c.valid }) event
    all_goals exact event
  | answer s r t v => rfl
  | cause k => rfl
  | page pg => rfl

/-- Outputs do the same whatever the marks, and set those of the slots that they answer. -/
theorem takeOutputs_withMarks (b : Blocks) (outs : List Output) (n : BitVec 32) (x : Exchange) :
    takeOutputs b outs (x.withMarks n) = (takeOutputs b outs x).withMarks (outs.foldl Output.mark n) := by
  unfold takeOutputs
  induction outs generalizing x n with
  | nil => rfl
  | cons o l ih => rw [List.foldl_cons, takeOutput_withMarks, ih, List.foldl_cons, List.foldl_cons]

theorem takeOutputs_marks (b : Blocks) (outs : List Output) (x : Exchange) :
    (takeOutputs b outs x).answerMarks = outs.foldl Output.mark x.answerMarks :=
  congrArg Exchange.answerMarks (takeOutputs_withMarks b outs x.answerMarks x)

theorem SameButPages.withMarks {pages : List Page} {x y : Exchange} (h : SameButPages pages x y) (n : BitVec 32) :
    SameButPages pages (x.withMarks n) (y.withMarks n) := by
  obtain ⟨same, editions, reads⟩ := h
  exact ⟨congrArg (Exchange.withMarks n) same, editions, reads⟩

theorem SameButPages.marks {pages : List Page} {x y : Exchange} (h : SameButPages pages x y) :
    y.answerMarks = x.answerMarks := by rw [h.1]

theorem SameButPages.heldList {pages : List Page} {x y : Exchange} (h : SameButPages pages x y) :
    y.heldList = x.heldList := by rw [h.1]

/-- An answer ends the order of its slot, and nothing else does (R176). -/
theorem takeOutputs_heldList (b : Blocks) (outs : List Output) (x : Exchange) : (takeOutputs b outs x).heldList
    = x.heldList.filter (fun h => outs.all (fun o => !o.answers h.slot)) := by
  have event : ∀ (e : TrailEvent) (t : ArrayTime) (v : Bool) (y : Exchange),
      (takeEvent b.settings.triggerLevel b.clock.count e t v y).heldList = y.heldList := by
    intro e t v y
    have entry : ∀ (e : TrailEvent) (z : Exchange),
        (writeEntry b.settings.triggerLevel b.clock.count e t v z).heldList = z.heldList := by
      intro e z
      unfold writeEntry
      dsimp only
      split_ifs <;> rfl
    have sample : (sampleMark b.clock.count y).heldList = y.heldList := by
      unfold sampleMark
      dsimp only
      split <;> rfl
    unfold takeEvent
    dsimp only
    split_ifs <;> simp only [entry, sample]
  unfold takeOutputs
  induction outs generalizing x with
  | nil => simp
  | cons o l ih =>
    rw [List.foldl_cons, ih]
    cases o with
    | trail e t v =>
      have kept := event e t v x
      cases e <;> exact congrArg (List.filter _) kept
    | answer s r t v =>
      show (x.heldList.filter (fun h => h.slot != s)).filter _ = _
      rw [List.filter_filter]
      refine List.filter_congr fun h _ => ?_
      rw [List.all_cons, Bool.and_comm]
      refine congrArg (· && _) ?_
      exact congrArg not (BEq.comm (a := h.slot) (b := s))
    | cause k => rfl
    | page pg => rfl

/-! ### The take phase of a sweep (R174) -/

/-- What a sweep does once the held slots are looked at: marks, cuts, takes. -/
def takePhase (p : Part) : Part :=
  let p2 := p.modXm (fun x => allSlots.foldl (fun y s => sweepEmpty s y) x)
  let p3 := allSlots.foldl (fun q s => sweepCut s q) p2
  (candidates p3.xm).foldl (fun q s => takePlaced s q) p3

theorem sweep_eq (p : Part) : sweep p = takePhase (p.xm.heldList.foldl (fun q h => sweepHeld h q) p) := rfl

/-- A slot that loses its mark at a sweep (R174). -/
def losesMark (x : Exchange) (k : SlotId) : Bool := decide (slotState k x.mem = some .empty) && !isHeld x k

/-- `n` are the marks that a sweep leaves of those of the exchange side (R174). -/
def SweptMarks (n : BitVec 32) (x : Exchange) : Prop :=
  ∀ k : SlotId, n.getLsbD k.val = (x.answerMarks.getLsbD k.val && !losesMark x k)

theorem sweepEmpty_eq (k : SlotId) (x : Exchange) :
    sweepEmpty k x = x.withMarks (if losesMark x k then clearMark k x.answerMarks else x.answerMarks) := by
  unfold sweepEmpty losesMark
  simp only [Bool.and_eq_true, decide_eq_true_eq, Bool.not_eq_true']
  split <;> rfl

theorem foldl_sweepEmpty (l : List SlotId) (x : Exchange) : ∃ n : BitVec 32,
    l.foldl (fun y s => sweepEmpty s y) x = x.withMarks n
      ∧ ∀ k : SlotId, n.getLsbD k.val = (x.answerMarks.getLsbD k.val && !(decide (k ∈ l) && losesMark x k)) := by
  induction l generalizing x with
  | nil => exact ⟨x.answerMarks, rfl, fun k => by simp⟩
  | cons s l ih =>
    obtain ⟨n, swept, marks⟩ := ih (sweepEmpty s x)
    rw [sweepEmpty_eq] at swept marks
    refine ⟨n, by rw [List.foldl_cons, sweepEmpty_eq, swept]; rfl, fun k => ?_⟩
    have loses : ∀ n', losesMark (x.withMarks n') k = losesMark x k := fun _ => rfl
    have cleared : (if losesMark x s then clearMark s x.answerMarks else x.answerMarks).getLsbD k.val
        = (x.answerMarks.getLsbD k.val && !(s == k && losesMark x k)) := by
      by_cases hs : s = k
      · subst hs
        cases losesMark x s with
        | true => exact (clearMark_getLsbD s s _).trans (by rw [beq_self_eq_true]; rfl)
        | false => exact (Bool.and_true _).symm.trans (by rw [Bool.and_false]; rfl)
      · have apart : (s == k) = false := beq_eq_false_iff_ne.mpr hs
        rw [apart, Bool.false_and]
        split
        · rw [clearMark_getLsbD, apart]
        · exact (Bool.and_true _).symm
    rw [marks, loses]
    show ((if losesMark x s then _ else _ : BitVec 32).getLsbD k.val && _) = _
    rw [cleared]
    by_cases hs : k = s
    · subst hs
      cases losesMark x k <;> simp
    · have hs' : (s == k) = false := by simpa using fun e => hs (Eq.symm e)
      simp [hs, hs']

/-- The slots found EMPTY lose their marks, and nothing else changes (R174). -/
theorem sweepEmpties_eq {n : BitVec 32} {x : Exchange} (h : SweptMarks n x) :
    allSlots.foldl (fun y s => sweepEmpty s y) x = x.withMarks n := by
  obtain ⟨n', swept, marks⟩ := foldl_sweepEmpty allSlots x
  have same : n' = n := marks_ext fun k => by rw [marks, h k, decide_eq_true (mem_allSlots k), Bool.true_and]
  rw [swept, same]

/-- A sweep has nothing to cut in the slot (R174). -/
def Uncut (x : Exchange) (k : SlotId) : Prop :=
  slotState k x.mem = some .cutAsked → isHeld x k = false → x.answerMarks.getLsbD k.val = true

theorem sweepCut_uncut {p : Part} {k : SlotId} (h : Uncut p.xm k) : sweepCut k p = p := by
  refine if_neg ?_
  rintro ⟨state, held, mark⟩
  rw [h state held] at mark
  cases mark

/-- A sweep has nothing to take from the slot (R174). -/
def Untaken (x : Exchange) (k : SlotId) : Prop := slotState k x.mem = some .placed → isHeld x k = true

theorem candidate_iff (x : Exchange) (k : SlotId) :
    (slotState k x.mem == some .placed && !isHeld x k) = true ↔ ¬ Untaken x k := by
  simp [Untaken]

theorem candidates_none {x : Exchange} (h : ∀ k, Untaken x k) : candidates x = [] := by
  have none_placed : allSlots.filter (fun s => slotState s x.mem == some .placed && !isHeld x s) = [] :=
    List.filter_eq_nil_iff.mpr fun k _ hk => (candidate_iff x k).mp hk (h k)
  rw [candidates, none_placed]
  rfl

theorem candidates_single {x : Exchange} {slot : SlotId} (hslot : ¬ Untaken x slot) (h : ∀ k, k ≠ slot → Untaken x k) :
    candidates x = [slot] := by
  have one : ∀ slot : SlotId, allSlots.filter (fun s => s == slot) = [slot] := by decide
  have placed : allSlots.filter (fun s => slotState s x.mem == some .placed && !isHeld x s) = [slot] := by
    rw [← one slot]
    refine List.filter_congr fun k _ => ?_
    rw [Bool.eq_iff_iff, candidate_iff, beq_iff_eq]
    exact ⟨fun hk => by_contra fun hne => hk (h k hne), fun e => e ▸ hslot⟩
  rw [candidates, placed]
  rfl

/-- The part with the marks that a sweep leaves. -/
def Part.withMarks (n : BitVec 32) (p : Part) : Part := p.modXm (Exchange.withMarks n)

theorem SweptMarks.uncut {n : BitVec 32} {x : Exchange} (hn : SweptMarks n x) {k : SlotId} (h : Uncut x k) :
    Uncut (x.withMarks n) k := by
  intro state held
  have cut : slotState k x.mem = some .cutAsked := state
  show n.getLsbD k.val = true
  rw [hn k, h state held, losesMark, cut]
  rfl

theorem takePhase_eq {n : BitVec 32} {p : Part} (hn : SweptMarks n p.xm) : takePhase p
    = (candidates (allSlots.foldl (fun q s => sweepCut s q) (p.withMarks n)).xm).foldl (fun q s => takePlaced s q)
      (allSlots.foldl (fun q s => sweepCut s q) (p.withMarks n)) := by
  have emptied : p.modXm (fun x => allSlots.foldl (fun y s => sweepEmpty s y) x) = p.withMarks n :=
    congrArg (fun x => ({ p with xm := x } : Part)) (sweepEmpties_eq hn)
  rw [takePhase, emptied]

/-- A sweep that finds nothing to cut and nothing to take sweeps the marks. -/
theorem takePhase_idle {n : BitVec 32} {p : Part} (hn : SweptMarks n p.xm) (hcut : ∀ k, Uncut p.xm k)
    (htake : ∀ k, Untaken p.xm k) : takePhase p = p.withMarks n := by
  have uncut : allSlots.foldl (fun q s => sweepCut s q) (p.withMarks n) = p.withMarks n :=
    List.foldl_fixed' (fun k => sweepCut_uncut (hn.uncut (hcut k))) _
  rw [takePhase_eq hn, uncut, candidates_none (x := (p.withMarks n).xm) htake]
  rfl

/-- A sweep that finds one order to take. -/
theorem takePhase_placed {n : BitVec 32} {p : Part} {slot : SlotId} (hn : SweptMarks n p.xm)
    (hcut : ∀ k, Uncut p.xm k) (hslot : ¬ Untaken p.xm slot) (htake : ∀ k, k ≠ slot → Untaken p.xm k) :
    takePhase p = takeOrder slot (orderAt slot p.xm.mem) (p.withMarks n) := by
  have uncut : allSlots.foldl (fun q s => sweepCut s q) (p.withMarks n) = p.withMarks n :=
    List.foldl_fixed' (fun k => sweepCut_uncut (hn.uncut (hcut k))) _
  rw [takePhase_eq hn, uncut, candidates_single (x := (p.withMarks n).xm) hslot htake]
  rfl

/-! ### The sweep (R172 to R174) -/

theorem foldl_fixed_mem {α β : Type} {f : β → α → β} {l : List α} {x : β} (h : ∀ a ∈ l, f x a = x) :
    l.foldl f x = x := by
  induction l with
  | nil => rfl
  | cons a l ih =>
    rw [List.foldl_cons, h a (by simp)]
    exact ih fun e he => h e (List.mem_cons_of_mem _ he)

theorem isHeld_iff (x : Exchange) (k : SlotId) : isHeld x k = true ↔ ∃ h ∈ x.heldList, h.slot = k := by
  simp [isHeld]

/-- A write of 1 to NUDGE sweeps (R169, R172). -/
theorem exec_nudgeSweep {seen : List Outside} {s : State} {p : Part} (hsee : see seen s.part = some p)
    (hready : p.xm.ready = true) : exec (.nudgeSweep seen) s = .next { s with part := sweep p } := by
  have swept : writeNudge 1 p = sweep p := by
    rw [writeNudge, if_pos hready]
    rfl
  show actSeen seen (writeNudge 1) s = _
  rw [actSeen, hsee, ← swept]
  rfl

/-- A held slot that shows TAKEN is left alone (R173). -/
theorem sweepHeld_taken {h : HeldOrder} {p : Part} (ht : slotState h.slot p.xm.mem = some .taken) :
    sweepHeld h p = p := by
  unfold sweepHeld
  rw [ht]
  exact ite_self _

theorem sweep_taken {p : Part} (h : ∀ g ∈ p.xm.heldList, slotState g.slot p.xm.mem = some .taken) :
    sweep p = takePhase p := by
  rw [sweep_eq, foldl_fixed_mem fun g hg => sweepHeld_taken (h g hg)]

/-- The marks that a sweep leaves, where no held slot is EMPTY (R174). -/
theorem sweptMarks_of_state {m : BitVec 32} {x : Exchange}
    (hheld : ∀ k, isHeld x k = true → slotState k x.mem ≠ some .empty)
    (hm : ∀ k : SlotId, m.getLsbD k.val = (x.answerMarks.getLsbD k.val && slotState k x.mem != some .empty)) :
    SweptMarks m x := by
  intro k
  rw [hm k, losesMark]
  cases held : isHeld x k with
  | true =>
    have shown := hheld k held
    simp [shown]
  | false => by_cases shown : slotState k x.mem = some .empty <;> simp [shown]

end Sys2Proof.Machine
end

