-- ==== Sys2Proof/Proofs/RefusedOrders.lean ====
section
/-! SUPPORT. Orders that are refused, at their command and at a sweep (R45, R146, R154, R174, R175). -/

namespace Sys2Proof.Machine

/-! ### An order refused at its take (R45, R146, R154, R174, R175) -/

/-- An order with an unknown verb leaves LAST FORMATION (R45). -/
theorem recordTake_unknown {o : Order} {v : Word} (h : o.body = .unknown v) (slot : SlotId) (named : Named)
    (code : Option AnswerCode) (x : Exchange) : recordTake slot o named false code x
      = { x with answerMarks := clearMark slot x.answerMarks, expectedPost := o.post + 1 } := by
  have kept : nextLast named o.body.ofFormation code x.lastFormation = x.lastFormation := by
    rw [h]
    cases named <;> rfl
  unfold recordTake
  rw [kept]
  rfl

/-- An order with an unknown verb is answered by the sweep that takes it (R174, R175). -/
theorem sweep_unknown {seen : List Outside} {s : State} {p : Part} {m : BitVec 32} {slot : SlotId} {v : Word}
    (hsee : see seen s.part = some p) (hready : p.xm.ready = true) (hq : p.blocks.Quiet)
    (hm : ∀ k : SlotId, m.getLsbD k.val = (p.xm.answerMarks.getLsbD k.val && slotState k p.xm.mem != some .empty))
    (htaken : ∀ h ∈ p.xm.heldList, slotState h.slot p.xm.mem = some .taken)
    (hothers : ∀ k, k ≠ slot → slotState k p.xm.mem ≠ some .placed
      ∧ (slotState k p.xm.mem = some .cutAsked → p.xm.answerMarks.getLsbD k.val = true))
    (hslot : slotState slot p.xm.mem = some .placed) (hverb : (orderAt slot p.xm.mem).body = .unknown v) :
    Leaves (exec (.nudgeSweep seen) s) s p.blocks
      { p.xm with answerMarks := clearMark slot m, expectedPost := (orderAt slot p.xm.mem).post + 1 }
      [.answer slot ⟨.unknownVerb, noNotes, 0, []⟩ p.blocks.clock.time p.blocks.clock.valid] [] := by
  have shown : ∀ k, isHeld p.xm k = true → slotState k p.xm.mem = some .taken := by
    intro k held
    obtain ⟨h, hh, rfl⟩ := (isHeld_iff _ _).mp held
    exact htaken h hh
  have swept : SweptMarks m p.xm := sweptMarks_of_state (fun k held => by rw [shown k held]; decide) hm
  have uncut : ∀ k, Uncut p.xm k := by
    intro k cut _
    by_cases hk : k = slot
    · rw [hk, hslot] at cut
      cases cut
    · exact (hothers k hk).2 cut
  have placed : ¬ Untaken p.xm slot := fun h => by
    have := shown slot (h hslot)
    rw [hslot] at this
    cases this
  have taken := takePhase_placed swept uncut placed fun k hk h => absurd h (hothers k hk).1
  have still := hq.still none
  obtain ⟨inbox, out, -⟩ := hq
  rw [takeOrder_answered (p := p.withMarks m) (b := p.blocks)
    (fun staging => handOver_refused (takerRefused_unknown hverb _) staging _) still inbox out,
    recordTake_unknown hverb] at taken
  obtain ⟨blocks, same⟩ := flush_answer (old := p.withMarks m) (slot := slot) (a := plainAnswer .unknownVerb)
    (x := { p.xm with answerMarks := clearMark slot m, expectedPost := (orderAt slot p.xm.mem).post + 1 })
    (pages := []) out rfl rfl rfl (fun pg _ => Untouched.refl pg p.blocks)
  rw [exec_nudgeSweep hsee hready, sweep_taken htaken, taken]
  exact ⟨_, rfl, rfl, blocks, same⟩

/-- Settles O54: the first failing check is the answer, and nothing follows. -/
theorem aRefusedOrderChangesNoBlock : Obligations.ARefusedOrderChangesNoBlock := by
  refine ⟨fun c slot o s horder hready hfree hq => takerRefusals_answered c slot o s horder hready hfree hq, ?_,
    lockRefusals_answered⟩
  intro seen s p m slot v hsee hready hq state o hm htaken hothers hslot hverb
  exact sweep_unknown hsee hready hq hm htaken hothers hslot hverb

end Sys2Proof.Machine
end

