-- ==== Sys2Proof/Proofs/SlotOrders.lean ====
section
/-! SUPPORT. An order read from the slot in which it was placed (10.4, R175, R194). -/

namespace Sys2Proof.Machine

/-! ### An order read from its slot (10.4, R175, R194) -/

theorem ofNat_word16 (w : Word) : BitVec.ofNat 16 (fromLow (word16 w)) = w := by
  have := w.isLt
  rw [word16, fromLow_lowBytes, Nat.mod_eq_of_lt (by omega), BitVec.ofNat_toNat, BitVec.setWidth_eq]

theorem ofNat_word32 (w : Word32) : BitVec.ofNat 32 (fromLow (word32 w)) = w := by
  have := w.isLt
  rw [word32, fromLow_lowBytes, Nat.mod_eq_of_lt (by omega), BitVec.ofNat_toNat, BitVec.setWidth_eq]

theorem ofNat_time48 (t : ArrayTime) : BitVec.ofNat 48 (fromLow (time48 t)) = t := by
  have := t.isLt
  rw [time48, fromLow_lowBytes, Nat.mod_eq_of_lt (by omega), BitVec.ofNat_toNat, BitVec.setWidth_eq]

theorem ofNat_byte (b : Byte) : BitVec.ofNat 8 (fromLow [b]) = b := by
  rw [fromLow, fromLow, Nat.mul_zero, Nat.add_zero, BitVec.ofNat_toNat, BitVec.setWidth_eq]

/-- A waypoint read from its bytes. -/
def reread (p : RawWaypoint) : RawWaypoint := ⟨BitVec.ofNat 48 (fromLow (time48 p.time)),
  BitVec.ofNat 32 (fromLow (word32 p.skyAz)), BitVec.ofNat 32 (fromLow (word32 p.el))⟩

theorem reread_eq (p : RawWaypoint) : reread p = p := by
  rw [reread, ofNat_time48, ofNat_word32, ofNat_word32]

theorem six_points (ps : Vector RawWaypoint 6) : ps = #v[ps[0], ps[1], ps[2], ps[3], ps[4], ps[5]] := by
  ext i hi : 1
  have : i = 0 ∨ i = 1 ∨ i = 2 ∨ i = 3 ∨ i = 4 ∨ i = 5 := by omega
  rcases this with rfl | rfl | rfl | rfl | rfl | rfl <;> rfl

/-- The six waypoints of a TRACK_LOAD stand one behind the other after their count (10.4). -/
theorem waypointsAt_params (n : Word) (p0 p1 p2 p3 p4 p5 : RawWaypoint) :
    waypointsAt (fit 88 (OrderBody.params (.trackLoad n #v[p0, p1, p2, p3, p4, p5]))) = #v[p0, p1, p2, p3, p4, p5] := by
  show #v[reread p0, reread p1, reread p2, reread p3, reread p4, reread p5] = _
  simp only [reread_eq]

/-- The parameters of a known verb are read as they were written (R194). -/
theorem readBody_params {body : OrderBody} (h : ∀ v, body ≠ .unknown v) : readBody body.verb (fit 88 body.params)
    = body := by
  cases body with
  | slew az el wrap mode =>
    show OrderBody.slew (BitVec.ofNat 32 (fromLow (word32 az))) (BitVec.ofNat 32 (fromLow (word32 el)))
      (BitVec.ofNat 16 (fromLow (word16 wrap))) (BitVec.ofNat 16 (fromLow (word16 mode))) = _
    rw [ofNat_word32, ofNat_word32, ofNat_word16, ofNat_word16]
  | trackLoad n ps =>
    show OrderBody.trackLoad (BitVec.ofNat 16 (fromLow (word16 n)))
      (waypointsAt (fit 88 (OrderBody.params (.trackLoad n ps)))) = _
    rw [ofNat_word16, six_points ps, waypointsAt_params]
  | track wrap =>
    show OrderBody.track (BitVec.ofNat 16 (fromLow (word16 wrap))) = _
    rw [ofNat_word16]
  | raster az el da de n dwell wrap =>
    show OrderBody.raster (BitVec.ofNat 32 (fromLow (word32 az))) (BitVec.ofNat 32 (fromLow (word32 el)))
      (BitVec.ofNat 32 (fromLow (word32 da))) (BitVec.ofNat 32 (fromLow (word32 de)))
        (BitVec.ofNat 16 (fromLow (word16 n)))
      (BitVec.ofNat 32 (fromLow (word32 dwell))) (BitVec.ofNat 16 (fromLow (word16 wrap))) = _
    rw [ofNat_word32, ofNat_word32, ofNat_word32, ofNat_word32, ofNat_word16, ofNat_word32, ofNat_word16]
  | meltMode mode forced =>
    show OrderBody.meltMode (BitVec.ofNat 16 (fromLow (word16 mode))) (BitVec.ofNat 16 (fromLow (word16 forced))) = _
    rw [ofNat_word16, ofNat_word16]
  | lock dish cls tag =>
    show OrderBody.lock (BitVec.ofNat 16 (fromLow (word16 dish))) (BitVec.ofNat 16 (fromLow (word16 cls)))
      (BitVec.ofNat 16 (fromLow (word16 tag))) = _
    rw [ofNat_word16, ofNat_word16, ofNat_word16]
  | unlock dish tag =>
    show OrderBody.unlock (BitVec.ofNat 16 (fromLow (word16 dish))) (BitVec.ofNat 16 (fromLow (word16 tag))) = _
    rw [ofNat_word16, ofNat_word16]
  | setBudget budget =>
    show OrderBody.setBudget (BitVec.ofNat 16 (fromLow (word16 budget))) = _
    rw [ofNat_word16]
  | setTime t =>
    show OrderBody.setTime (BitVec.ofNat 48 (fromLow (time48 t))) = _
    rw [ofNat_time48]
  | adjustTime x =>
    show OrderBody.adjustTime (BitVec.ofNat 32 (fromLow (word32 x))) = _
    rw [ofNat_word32]
  | unknown v => exact absurd rfl (h v)
  | _ => rfl

/-- The copy of an order is the order (R175). -/
theorem readOrder_orderBytes {o : Order} (h : ∀ v, o.body ≠ .unknown v) : readOrder (orderBytes o) = o := by
  have header : readOrder (orderBytes o)
    = ⟨BitVec.ofNat 16 (fromLow (word16 o.post)), BitVec.ofNat 8 (fromLow [o.formation]),
      BitVec.ofNat 8 (fromLow [o.flags]), BitVec.ofNat 16 (fromLow (word16 o.dishes)),
      BitVec.ofNat 16 (fromLow (word16 o.classes)),
      readBody (BitVec.ofNat 16 (fromLow (word16 o.body.verb))) (fit 88 o.body.params)⟩ := rfl
  rw [header, ofNat_word16, ofNat_byte, ofNat_byte, ofNat_word16, ofNat_word16, ofNat_word16, readBody_params h]

/-- The order that stands in a slot is the order that was placed there (8.8, R175). -/
theorem orderAt_placeOrder {o : Order} (h : ∀ v, o.body ≠ .unknown v) (slot : SlotId) (m : Memory) :
    orderAt slot (placeOrder slot o m) = o := by
  have written : Memory.readBytes (slotBase slot + 2) 102 (placeOrder slot o m) = orderBytes o := by
    rw [placeOrder, setSlotState, Memory.writeWord, Memory.readBytes_outside _ (by rw [lowBytes_length]; omega)]
    exact orderBytes_length o ▸ Memory.readBytes_writeBytes _ (orderBytes o) m
  rw [orderAt, written, readOrder_orderBytes h]

end Sys2Proof.Machine
end

