-- ==== Sys2Proof/Proofs/HeldOrders.lean ====
section
/-! SUPPORT. A held order that ends, and the slots around it (R173, R174, R178). -/

namespace Sys2Proof.Machine

/-! ### A block's action during a sweep -/

/-- What an action of one block leaves that settles and hands on `outs`. -/
theorem run_leaves {F : Blocks → Blocks} {p : Part} {b : Blocks} {outs : List Output} {pages : List Page}
    (hF : settle p.blocks (F p.blocks) = { b with out := outs }) (ho : b.out = [])
    (hm : ∀ pg ∈ markedPages outs, pg ∈ pages) (ht : ∀ pg, pg ∉ pages → Untouched pg p.blocks b)
    (hc : Page.common ∈ pages ∨ commonPublications p ⟨{ b with out := outs }, p.xm⟩ = 0) :
    (run F p).blocks = b ∧ SameButPages pages (takeOutputs b outs p.xm) (run F p).xm := by
  have settled : run F p = flush p ⟨{ b with out := outs }, p.xm⟩ := by rw [run, hF]
  rw [settled]
  constructor
  · rw [flush_blocks]
    exact Blocks.without_out ho
  · have same := flush_same p ⟨{ b with out := outs }, p.xm⟩ pages hm
      (fun pg hp => ((ht pg hp).trans (untouched_out pg b [])) _ _) hc
    rw [beforePages_eq] at same
    exact same

/-- The common page is republished for a change of the settings state, and for no other of the site store. -/
theorem commonPublications_site {old p : Part} {site : SiteStore} (h : site.state = old.blocks.site.state) :
    commonPublications old p = commonPublications { old with blocks := { old.blocks with site := site } } p := by
  unfold commonPublications summaryChanges
  rw [h]

/-! ### The slots after a held order has ended (R173) -/

/-- A slot that a sweep passes over (R174). -/
def PassedOver (x : Exchange) (k : SlotId) : Prop :=
  slotState k x.mem ≠ some .placed ∧ (slotState k x.mem = some .cutAsked → x.answerMarks.getLsbD k.val = true)

theorem PassedOver.uncut {x : Exchange} {k : SlotId} (h : PassedOver x k) : Uncut x k := fun cut _ => h.2 cut

theorem PassedOver.untaken {x : Exchange} {k : SlotId} (h : PassedOver x k) : Untaken x k :=
    fun placed => absurd placed h.1

section
variable {pages : List Page} {b : Blocks} {outs : List Output} {x y : Exchange} {k : SlotId}

theorem answers_false (h : outs.any (Output.answers k) = false) : ∀ o ∈ outs, o.answers k = false :=
  fun o ho => by simpa using List.any_eq_false.mp h o ho

/-- A slot that no output answers shows what it showed. -/
theorem slotState_unanswered (hsame : SameButPages pages (takeOutputs b outs x) y)
    (h : outs.any (Output.answers k) = false) : slotState k y.mem = slotState k x.mem :=
  ((sameSlot_takeOutputs (answers_false h) b x).trans (hsame.sameSlot k)).state

theorem mark_after (hsame : SameButPages pages (takeOutputs b outs x) y) :
    y.answerMarks.getLsbD k.val = (x.answerMarks.getLsbD k.val || outs.any (Output.answers k)) := by
  rw [hsame.marks, takeOutputs_marks, foldl_mark_getLsbD]

theorem PassedOver.after (h : PassedOver x k) (hsame : SameButPages pages (takeOutputs b outs x) y)
    (hans : outs.any (Output.answers k) = true → slotState k y.mem = some .answered) : PassedOver y k := by
  cases answered : outs.any (Output.answers k) with
  | true =>
    have state := hans answered
    exact ⟨by rw [state]; decide, fun cut => by rw [state] at cut; cases cut⟩
  | false =>
    have state := slotState_unanswered hsame answered
    refine ⟨state ▸ h.1, fun cut => ?_⟩
    rw [mark_after hsame, h.2 (state ▸ cut)]
    rfl

/-- The marks that a sweep leaves once its held order has ended. -/
theorem SweptMarks.after {m : BitVec 32} (hsame : SameButPages pages (takeOutputs b outs x) y) (hheld : y.heldList = [])
    (hm : ∀ k : SlotId, m.getLsbD k.val = (x.answerMarks.getLsbD k.val && slotState k x.mem != some .empty))
    (hans : ∀ k, outs.any (Output.answers k) = true → slotState k y.mem = some .answered) :
    SweptMarks (outs.foldl Output.mark m) y := by
  intro k
  have free : isHeld y k = false := by rw [isHeld, hheld]; rfl
  rw [foldl_mark_getLsbD, mark_after hsame, losesMark, free, hm k]
  cases answered : outs.any (Output.answers k) with
  | true => simp [hans k answered]
  | false =>
    rw [slotState_unanswered hsame answered]
    by_cases shown : slotState k x.mem = some .empty <;> simp [shown]

end

/-! ### A slot that is cut without a take (R174) -/

/-- A sweep that finds one slot to cut answers it. -/
theorem takePhase_cut {n : BitVec 32} {p : Part} {slot : SlotId} (hq : p.blocks.Quiet) (hn : SweptMarks n p.xm)
    (hstate : slotState slot p.xm.mem = some .cutAsked) (hfree : isHeld p.xm slot = false)
    (hmark : p.xm.answerMarks.getLsbD slot.val = false) (hothers : ∀ k, k ≠ slot → PassedOver p.xm k) :
    takePhase p = run (fun b => b.answer slot (plainAnswer .endedCut)) (p.withMarks n) := by
  generalize hcut : run (fun b => b.answer slot (plainAnswer .endedCut)) (p.withMarks n) = q
  have still := hq.still none
  obtain ⟨inbox, out, -⟩ := hq
  have handed : settle p.blocks (p.blocks.answer slot (plainAnswer .endedCut)) = { p.blocks with out :=
      [.answer slot (plainAnswer .endedCut) p.blocks.clock.time p.blocks.clock.valid] } := by
    refine (settle_outs p.blocks still inbox (p.blocks.answer slot (plainAnswer .endedCut)).out).trans ?_
    rw [Blocks.answer_out, out]
    rfl
  obtain ⟨-, same⟩ := run_leaves (F := fun b => b.answer slot (plainAnswer .endedCut)) (p := p.withMarks n)
    (pages := []) handed out (by simp [markedPages]) (fun pg _ => Untouched.refl pg _)
    (.inr (commonPublications_zero rfl rfl rfl rfl))
  rw [hcut] at same
  have cutSlot : sweepCut slot (p.withMarks n) = q := by
    refine (if_pos ⟨hstate, hfree, ?_⟩).trans hcut
    show n.getLsbD slot.val = false
    rw [hn slot, hmark, Bool.false_and]
  have answered : slotState slot q.xm.mem = some .answered := by
    rw [(same.sameSlot slot).state]
    exact slotState_takeOutputs_answer p.blocks [] slot _ _ _ _
  have passed : ∀ k, PassedOver q.xm k := by
    intro k
    by_cases hk : k = slot
    · rw [hk]
      exact ⟨by rw [answered]; decide, fun cut => by rw [answered] at cut; cases cut⟩
    · have before : PassedOver (p.withMarks n).xm k := ⟨(hothers k hk).1, fun cut => by
        have shown : slotState k p.xm.mem = some .cutAsked := cut
        show n.getLsbD k.val = true
        rw [hn k, (hothers k hk).2 shown, losesMark, shown]
        rfl⟩
      refine before.after same fun h => absurd h ?_
      simpa [Output.answers] using fun e => hk (Eq.symm e)
  have swept : allSlots.foldl (fun q s => sweepCut s q) (p.withMarks n) = q :=
    foldl_once (mem_allSlots slot) (fun k hk => sweepCut_uncut (hn.uncut (hothers k hk).uncut)) cutSlot
      fun k => sweepCut_uncut (passed k).uncut
  rw [takePhase_eq hn, swept, candidates_none fun k => (passed k).untaken]
  rfl

/-! ### A held order that ends (R173, R178) -/

/-- The entry of an abandoned order (R178). -/
def abandonedEntry (h : HeldOrder) (b : Blocks) : Output :=
  .trail (.orderAbandoned h.slot h.order.body.verb.toNat h.order.post h.formation) b.clock.time b.clock.valid

/-- What a sweep makes of the one held order by the state of its slot: ended by a cut, or lost, and then taken anew
where its slot is PLACED (R173, R178). -/
def EndsHeld (sweeps : Result) (s : State) (p : Part) (m : BitVec 32) (h : HeldOrder) (ifCut : Blocks)
    (entries : List Output) (a : Answer) (ifLost : Blocks) (pages : List Page) : Prop :=
  (slotState h.slot p.xm.mem = some .cutAsked → Leaves sweeps s ifCut { p.xm with answerMarks := m }
      (entries ++ [.answer h.slot a p.blocks.clock.time p.blocks.clock.valid]) pages)
  ∧ (slotState h.slot p.xm.mem = some .empty ∨ slotState h.slot p.xm.mem = some .answered
      ∨ slotState h.slot p.xm.mem = none →
    Leaves sweeps s ifLost { p.xm with answerMarks := m, heldList := [] } [abandonedEntry h p.blocks]
      (.common :: pages))
  ∧ (slotState h.slot p.xm.mem = some .placed → ∃ q : Part, q.blocks = ifLost
      ∧ SameButPages (.common :: pages)
        (takeOutputs ifLost [abandonedEntry h p.blocks] { p.xm with answerMarks := m, heldList := [] }) q.xm
      ∧ sweeps = .next { s with part := takeOrder h.slot (orderAt h.slot p.xm.mem) q })

section
variable {seen : List Outside} {s : State} {p : Part} {m : BitVec 32} {h : HeldOrder} {pages : List Page}

theorem sweep_held (hheld : p.xm.heldList = [h]) : sweep p = takePhase (sweepHeld h p) := by
  rw [sweep_eq, hheld]
  rfl

theorem isHeld_self (hheld : p.xm.heldList = [h]) : p.xm.heldList.any (fun g => g.slot == h.slot) = true := by
  rw [hheld]
  simp

/-- A held order whose slot is CUT_ASKED is ended by its owner and answered (R173). -/
theorem heldCut_leaves {b : Blocks} {entries : List Output} {a : Answer} {t : ArrayTime} {v : Bool}
    (hsee : see seen s.part = some p) (hready : p.xm.ready = true) (hheld : p.xm.heldList = [h])
    (hm : ∀ k : SlotId, m.getLsbD k.val = (p.xm.answerMarks.getLsbD k.val && slotState k p.xm.mem != some .empty))
    (hothers : ∀ k, k ≠ h.slot → PassedOver p.xm k) (hstate : slotState h.slot p.xm.mem = some .cutAsked)
    (hF : settle p.blocks (endOrder h (some .endedCut) p.blocks) = { b with out := entries ++ [.answer h.slot a t v] })
    (hentries : ∀ k, entries.any (Output.answers k) = false) (ho : b.out = [])
    (hp : ∀ pg ∈ markedPages entries, pg ∈ pages) (ht : ∀ pg, pg ∉ pages → Untouched pg p.blocks b)
    (hc : Page.common ∈ pages ∨ commonPublications p ⟨{ b with out := entries ++ [.answer h.slot a t v] }, p.xm⟩ = 0) :
    Leaves (exec (.nudgeSweep seen) s) s b { p.xm with answerMarks := m }
      (entries ++ [.answer h.slot a t v]) pages := by
  generalize hq : run (endOrder h (some .endedCut)) p = q
  obtain ⟨blocks, same⟩ := run_leaves (F := endOrder h (some .endedCut)) hF ho
    (by rw [markedPages_append]; simpa [markedPages] using hp) ht hc
  rw [hq] at blocks same
  have ended : sweepHeld h p = q := by
    rw [sweepHeld, if_pos (isHeld_self hheld), hstate]
    exact hq
  have answers : ∀ k, (entries ++ [Output.answer h.slot a t v]).any (Output.answers k) = (h.slot == k) := by
    intro k
    rw [List.any_append, hentries k]
    simp [Output.answers]
  have answered : slotState h.slot q.xm.mem = some .answered := by
    rw [(same.sameSlot h.slot).state]
    exact slotState_takeOutputs_answer b entries h.slot a t v p.xm
  have shown : ∀ k, (entries ++ [Output.answer h.slot a t v]).any (Output.answers k) = true →
      slotState k q.xm.mem = some .answered := by
    intro k hk
    rw [answers k, beq_iff_eq] at hk
    exact hk ▸ answered
  have free : q.xm.heldList = [] := by
    rw [same.heldList, takeOutputs_heldList, hheld]
    refine List.filter_eq_nil_iff.mpr fun g hg hall => ?_
    rw [List.mem_singleton.mp hg, List.all_append, Bool.and_eq_true] at hall
    simp [Output.answers] at hall
  have passed : ∀ k, PassedOver q.xm k := by
    intro k
    by_cases hk : k = h.slot
    · rw [hk]
      exact ⟨by rw [answered]; decide, fun cut => by rw [answered] at cut; cases cut⟩
    · exact (hothers k hk).after same (shown k)
  have swept := SweptMarks.after same free hm shown
  rw [exec_nudgeSweep hsee hready, sweep_held hheld, ended,
    takePhase_idle swept (fun k => (passed k).uncut) fun k => (passed k).untaken]
  refine ⟨_, rfl, rfl, blocks, ?_⟩
  have marked := same.withMarks ((entries ++ [Output.answer h.slot a t v]).foldl Output.mark m)
  rw [← takeOutputs_withMarks] at marked
  exact marked

/-- A held order whose slot shows neither TAKEN nor CUT_ASKED is abandoned (R173, R178). -/
theorem heldLost {b : Blocks} (hheld : p.xm.heldList = [h])
    (hm : ∀ k : SlotId, m.getLsbD k.val = (p.xm.answerMarks.getLsbD k.val && slotState k p.xm.mem != some .empty))
    (hothers : ∀ k, k ≠ h.slot → PassedOver p.xm k) (htaken : slotState h.slot p.xm.mem ≠ some .taken)
    (hcut : slotState h.slot p.xm.mem ≠ some .cutAsked)
    (hF : settle p.blocks ((endOrder h none p.blocks).trail
      (.orderAbandoned h.slot h.order.body.verb.toNat h.order.post h.formation))
      = { b with out := [abandonedEntry h p.blocks] })
    (ho : b.out = []) (ht : ∀ pg, pg ∉ pages → Untouched pg p.blocks b) :
    ∃ q : Part, q.blocks = b
      ∧ SameButPages (.common :: pages)
        (takeOutputs b [abandonedEntry h p.blocks] { p.xm with answerMarks := m, heldList := [] }) (q.withMarks m).xm
      ∧ sweepHeld h p = q ∧ SweptMarks m q.xm ∧ (∀ k, k ≠ h.slot → PassedOver q.xm k) ∧ q.xm.heldList = []
      ∧ slotState h.slot q.xm.mem = slotState h.slot p.xm.mem ∧ orderAt h.slot q.xm.mem = orderAt h.slot p.xm.mem := by
  generalize hp : p.modXm (fun x => { x with heldList := [] }) = p0
  generalize hq : run (fun b => (endOrder h none b).trail
    (.orderAbandoned h.slot h.order.body.verb.toNat h.order.post h.formation)) p0 = q
  obtain ⟨blocks, same⟩ := run_leaves (F := fun b => (endOrder h none b).trail
    (.orderAbandoned h.slot h.order.body.verb.toNat h.order.post h.formation)) (p := p0) (pages := .common :: pages)
    (by rw [← hp]; exact hF) ho (by simp [markedPages, abandonedEntry])
    (fun pg hpg => by rw [← hp]; exact ht pg fun e => hpg (List.mem_cons_of_mem _ e)) (.inl (by simp))
  rw [hq] at blocks same
  have unanswered : ∀ k, [abandonedEntry h p.blocks].any (Output.answers k) = false := fun _ => rfl
  have dropped : p.xm.heldList.filter (fun g => g.slot != h.slot) = [] := by
    rw [hheld]
    simp
  have abandoned : sweepHeld h p = q := by
    have lost : abandonSlot h p = q := by
      rw [abandonSlot, ← hq, ← hp]
      dsimp only [Part.modXm]
      rw [dropped]
    unfold sweepHeld
    rw [if_pos (isHeld_self hheld)]
    split
    · next taken => exact absurd taken htaken
    · next cut => exact absurd cut hcut
    all_goals exact lost
  have free : q.xm.heldList = [] := by
    rw [same.heldList, takeOutputs_heldList, ← hp]
    rfl
  have slot := (sameSlot_takeOutputs (answers_false (unanswered h.slot)) b p0.xm).trans (same.sameSlot h.slot)
  have passed : ∀ k, k ≠ h.slot → PassedOver q.xm k := by
    intro k hk
    refine PassedOver.after (x := p0.xm) ?_ same fun e => absurd e (by rw [unanswered k]; decide)
    rw [← hp]
    exact hothers k hk
  have swept : SweptMarks m q.xm :=
    SweptMarks.after same free (by rw [← hp]; exact hm) fun k e => absurd e (by rw [unanswered k]; decide)
  have marked := same.withMarks m
  refine ⟨q, blocks, ?_, abandoned, swept, passed, free, ?_, ?_⟩
  · rw [← hp] at marked
    have moved := takeOutputs_withMarks b [abandonedEntry h p.blocks] m { p.xm with heldList := [] }
    exact moved ▸ marked
  · rw [slot.state, ← hp]
    rfl
  · rw [slot.order, ← hp]
    rfl

/-- The three ways in which a sweep ends the one held order (R173, R178). -/
theorem endsHeld_of_settles {ifCut ifLost : Blocks} {entries : List Output} {a : Answer}
    (hsee : see seen s.part = some p) (hready : p.xm.ready = true) (hheld : p.xm.heldList = [h])
    (hm : ∀ k : SlotId, m.getLsbD k.val = (p.xm.answerMarks.getLsbD k.val && slotState k p.xm.mem != some .empty))
    (hothers : ∀ k, k ≠ h.slot → PassedOver p.xm k)
    (hcut : settle p.blocks (endOrder h (some .endedCut) p.blocks)
      = { ifCut with out := entries ++ [.answer h.slot a p.blocks.clock.time p.blocks.clock.valid] })
    (hentries : ∀ k, entries.any (Output.answers k) = false) (hpages : ∀ pg ∈ markedPages entries, pg ∈ pages)
    (hcutOut : ifCut.out = []) (htCut : ∀ pg, pg ∉ pages → Untouched pg p.blocks ifCut)
    (hc : Page.common ∈ pages ∨ commonPublications p ⟨{ ifCut with
      out := entries ++ [.answer h.slot a p.blocks.clock.time p.blocks.clock.valid] }, p.xm⟩ = 0)
    (hlost : settle p.blocks ((endOrder h none p.blocks).trail
      (.orderAbandoned h.slot h.order.body.verb.toNat h.order.post h.formation))
      = { ifLost with out := [abandonedEntry h p.blocks] })
    (hlostOut : ifLost.out = []) (htLost : ∀ pg, pg ∉ pages → Untouched pg p.blocks ifLost) :
    EndsHeld (exec (.nudgeSweep seen) s) s p m h ifCut entries a ifLost pages := by
  refine ⟨fun cut => heldCut_leaves hsee hready hheld hm hothers cut hcut hentries hcutOut hpages htCut hc,
    fun shown => ?_, fun placed => ?_⟩
  · have taken : slotState h.slot p.xm.mem ≠ some .taken := by rcases shown with e | e | e <;> rw [e] <;> decide
    have cut : slotState h.slot p.xm.mem ≠ some .cutAsked := by rcases shown with e | e | e <;> rw [e] <;> decide
    have placed : slotState h.slot p.xm.mem ≠ some .placed := by rcases shown with e | e | e <;> rw [e] <;> decide
    obtain ⟨q, blocks, same, abandoned, swept, passed, -, state, -⟩ :=
      heldLost hheld hm hothers taken cut hlost hlostOut htLost
    have all : ∀ k, PassedOver q.xm k := by
      intro k
      by_cases hk : k = h.slot
      · rw [hk]
        exact ⟨state ▸ placed, fun e => absurd (state ▸ e) cut⟩
      · exact passed k hk
    rw [exec_nudgeSweep hsee hready, sweep_held hheld, abandoned,
      takePhase_idle swept (fun k => (all k).uncut) fun k => (all k).untaken]
    exact ⟨_, rfl, rfl, blocks, same⟩
  · obtain ⟨q, blocks, same, abandoned, swept, passed, free, state, order⟩ :=
      heldLost hheld hm hothers (by rw [placed]; decide) (by rw [placed]; decide) hlost hlostOut htLost
    have uncut : ∀ k, Uncut q.xm k := by
      intro k cut
      by_cases hk : k = h.slot
      · rw [hk, state, placed] at cut
        cases cut
      · exact fun _ => (passed k hk).2 cut
    have candidate : ¬ Untaken q.xm h.slot := fun e => by
      have := e (state.trans placed)
      rw [isHeld, free] at this
      cases this
    refine ⟨q.withMarks m, blocks, same, ?_⟩
    rw [exec_nudgeSweep hsee hready, sweep_held hheld, abandoned,
      takePhase_placed swept uncut candidate fun k hk => (passed k hk).untaken, order]

end

end Sys2Proof.Machine
end

