-- ==== Sys2Proof/Proofs/OrderOwners.lean ====
section
/-! SUPPORT. What the owner of a held order does at its end (R61, R119, R190). -/

namespace Sys2Proof.Machine

/-! ### The owners of held orders (R61, R119, R190) -/

theorem Blocks.answer_eq {b : Blocks} (ho : b.out = []) (slot : SlotId) (a : Answer) :
    b.answer slot a = { b with out := [.answer slot a b.clock.time b.clock.valid] } := by
  rw [Blocks.answer, ho]
  rfl

theorem Blocks.trail_eq {b : Blocks} (ho : b.out = []) (e : TrailEvent) :
    b.trail e = { b with out := [.trail e b.clock.time b.clock.valid] } := by
  rw [Blocks.trail, ho]
  rfl

section
variable {seen : List Outside} {s : State} {p : Part} {m : BitVec 32} {h : HeldOrder} {pages : List Page}

/-- A held order whose end, answered or not, leaves blocks in which nothing follows. -/
theorem endsHeld_still {b : Blocks} {a : Answer} (hsee : see seen s.part = some p) (hready : p.xm.ready = true)
    (hheld : p.xm.heldList = [h])
    (hm : ∀ k : SlotId, m.getLsbD k.val = (p.xm.answerMarks.getLsbD k.val && slotState k p.xm.mem != some .empty))
    (hothers : ∀ k, k ≠ h.slot → PassedOver p.xm k)
    (hcut : endOrder h (some .endedCut) p.blocks = b.answer h.slot a) (hlost : endOrder h none p.blocks = b)
    (hstill : Still none b) (hi : b.inbox = []) (ho : b.out = []) (hclock : b.clock = p.blocks.clock)
    (hsite : b.site.state = p.blocks.site.state) (hpresence : b.presence = p.blocks.presence)
    (ht : ∀ pg, pg ∉ pages → Untouched pg p.blocks b) :
    EndsHeld (exec (.nudgeSweep seen) s) s p m h b [] a b pages := by
  refine endsHeld_of_settles (entries := []) hsee hready hheld hm hothers ?_ (fun _ => rfl) (by simp [markedPages])
    ho ht
    (.inr ?_) ?_ ho ht
  · have handed : b.answer h.slot a
        = { b with out := [.answer h.slot a p.blocks.clock.time p.blocks.clock.valid] } := by
      rw [← hclock]
      exact Blocks.answer_eq ho h.slot a
    rw [hcut, handed]
    exact settle_outs _ hstill hi _
  · rw [commonPublications_site hsite]
    exact commonPublications_zero rfl rfl rfl hpresence
  · have handed : b.trail (.orderAbandoned h.slot h.order.body.verb.toNat h.order.post h.formation)
        = { b with out := [abandonedEntry h p.blocks] } := by
      rw [abandonedEntry, ← hclock]
      exact Blocks.trail_eq ho _
    rw [hlost, handed]
    exact settle_outs _ hstill hi _

end

/-- The end of the one standing STOW (R119, R178). -/
theorem endStowOrder_single {o : StandingStow} {b : Blocks} (h : b.wind.standing = [o]) (code : Option AnswerCode) :
    endStowOrder o.slot code b = match code with
      | some c => (b.modWind (fun w => { w with standing := [] })).answer o.slot (plainAnswer c)
      | none => b.modWind (fun w => { w with standing := [] }) := by
  have none_left : b.modWind (fun w => { w with standing := w.standing.filter (fun x => x.slot != o.slot) })
      = b.modWind (fun w => { w with standing := [] }) := by
    simp [Blocks.modWind, h]
  have had : b.wind.standing.any (fun x => x.slot == o.slot) = true := by simp [h]
  unfold endStowOrder
  rw [none_left, had]
  cases code <;> rfl

theorem untouched_standing (pg : Page) (b : Blocks) :
    Untouched pg b (b.modWind (fun w => { w with standing := [] })) := by
  intro x y
  rw [← pageTouched_self pg ⟨b, x⟩]
  cases pg <;> rfl

/-- The end of a COMMIT_SITE that is held: the write goes on without its slot (R190). -/
theorem endCommitOrder_held {c : Commit} {slot : SlotId} {b : Blocks} (h : b.site.commit = some c)
    (hs : c.slot = some slot) :
    endCommitOrder slot (some .endedCut) b
      = ({ b with site := { b.site with commit := some { c with slot := none } } } : Blocks).answer slot
        (plainAnswer .endedCut)
    ∧ endCommitOrder slot none b = { b with site := { b.site with commit := some { c with slot := none } } } := by
  constructor <;>
  · unfold endCommitOrder
    rw [h]
    exact if_pos hs

theorem untouched_commit (pg : Page) (b : Blocks) (c : Option Commit) :
    Untouched pg b { b with site := { b.site with commit := c } } := by
  intro x y
  rw [← pageTouched_self pg ⟨b, x⟩]
  cases pg <;> rfl

/-! ### The end of the work of a formation that has no dish in hand (R61) -/

theorem withdrawClaim_free {w : Owner} {d : DishId} {b : Blocks} (h : b.fa.queue = []) : withdrawClaim w d b = b := by
  rw [withdrawClaim, hasClaim, h]
  rfl

theorem holderReturn_free {w : Owner} {d : DishId} {b : Blocks} (h : b.fa.grants[d] = none) :
    holderReturn w d b = b := by
  rw [holderReturn, h]

theorem returnUnhanded_free {f : FormationId} {d : DishId} {b : Blocks} (h : b.fa.grants[d] = none) :
    returnUnhanded f d b = b := by
  unfold returnUnhanded
  rw [holderReturn_free h]
  exact ite_self _

theorem dropClaims_free {f : FormationId} {b : Blocks} (hq : b.fa.queue = [])
    (hg : ∀ d : DishId, b.fa.grants[d] = none) :
    dropClaims f b = b :=
  overDishes_fix _ _ _ fun d _ => by rw [withdrawClaim_free hq, returnUnhanded_free (hg d)]

/-- A formation whose work has ended with its queue (R61; log entry 40). -/
def Formation.halted (m : Formation) : Formation := { m.ended with queue := [], wrapStop := none, wrapFail := none }

/-- Work that has no dish in hand is over with its halt (R60, R61). -/
theorem finishHalting_haltWork {f : FormationId} {b : Blocks} (hpending : (b.form f).pendingWork = none)
    (hdisband : (b.form f).disbandPending = false) (hstop : (b.form f).stopping = 0)
    (hfree : ∀ d, (b.dish d).worksForFp = false) (hq : b.fa.queue = []) (hg : ∀ d : DishId, b.fa.grants[d] = none) :
    finishHalting f (haltWork f none false b) = b.modForm f Formation.halted := by
  have halting : haltWork f none false b = b.modForm f (fun m =>
      { ({ m with queue := [], wrapStop := none, wrapFail := none } : Formation).clearWork with
        state := .halting, wrapStop := none, wrapFail := none }) := by
    unfold haltWork
    dsimp only
    rw [dropClaims_free hq hg, if_neg Bool.false_ne_true, emptyQueue, Blocks.modForm_modForm]
    refine overDishes_fix _ _ _ fun d _ => ?_
    rw [haltDish, Blocks.modForm_dish, hfree d, if_neg Bool.false_ne_true]
  have form := b.modForm_form_self f (fun m =>
      { ({ m with queue := [], wrapStop := none, wrapFail := none } : Formation).clearWork with
        state := .halting, wrapStop := none, wrapFail := none })
  rw [halting]
  unfold finishHalting
  rw [form]
  refine (if_pos ⟨rfl, hstop⟩).trans ?_
  have pending : ({ b.form f with queue := [], wrapStop := none, wrapFail := none } : Formation).clearWork.pendingWork
      = none := hpending
  dsimp only
  rw [pending]
  refine (if_neg (by exact Bool.eq_false_iff.mp hdisband)).trans ?_
  rw [Blocks.modForm_modForm]
  refine Blocks.modForm_congr ?_
  exact congrArg (fun m : Formation => ({ m with queue := [], wrapStop := none, wrapFail := none } : Formation))
    (Formation.clearWork_ended (b.form f))

/-- The same where the order in hand is answered (R60). -/
theorem haltWork_answered {f : FormationId} {slot : SlotId} {b : Blocks} (code : AnswerCode)
    (hs : (b.form f).slot = some slot) :
    haltWork f (some code) false b = haltWork f none false (b.answer slot (workAnswer (b.form f) code 0 0)) := by
  have answered : answerWork f code 0 0 b = b.answer slot (workAnswer (b.form f) code 0 0) := by rw [answerWork, hs]
  unfold haltWork
  dsimp only
  rw [answered]
  rfl

/-- A formation that does not have the order of the slot (R61). -/
theorem endStanding_other {slot : SlotId} {code : Option AnswerCode} {k : FormationId} {b : Blocks}
    (hs : (b.form k).slot ≠ some slot) (hp : (b.form k).pendingWork = none) : endStanding slot code k b = b := by
  unfold endStanding
  dsimp only
  rw [if_neg hs, hp]
  rfl

theorem mem_allFormations (f : FormationId) : f ∈ allFormations := by revert f; decide

/-- The order in hand of one formation ends; the others are left alone (R61). -/
theorem endFormationOrder_single {slot : SlotId} {code : Option AnswerCode} {f : FormationId} {b c : Blocks}
    (hothers : ∀ k, k ≠ f → (b.form k).slot ≠ some slot) (hpending : ∀ k, (b.form k).pendingWork = none)
    (hend : endStanding slot code f b = c.modForm f Formation.halted) (hform : ∀ k, c.form k = b.form k) :
    endFormationOrder slot code b = c.modForm f Formation.halted := by
  refine foldl_once (mem_allFormations f) (fun k hk => endStanding_other (hothers k hk) (hpending k)) hend fun k => ?_
  by_cases hk : k = f
  · subst hk
    refine endStanding_other ?_ ?_
    · rw [Blocks.modForm_form_self]
      show (none : Option SlotId) ≠ some slot
      exact (Option.some_ne_none slot).symm
    · rw [Blocks.modForm_form_self]
      exact (congrArg Formation.pendingWork (hform k)).trans (hpending k)
  · refine endStanding_other ?_ ?_ <;> rw [Blocks.modForm_form_of_ne _ hk, hform k]
    · exact hothers k hk
    · exact hpending k

/-- No dish is in the hands of FP: none works for it, and no claim and no grant is there for one (R60, R61). -/
def NoDishInHand (b : Blocks) : Prop :=
  (∀ d, (b.dish d).worksForFp = false) ∧ b.fa.queue = [] ∧ ∀ d : DishId, b.fa.grants[d] = none

/-- The work of a held order of FP ends with its slot's CUT_ASKED, answered, or with its loss, unanswered (R61,
R178). -/
theorem endFormationOrder_ended {slot : SlotId} {f : FormationId} {b : Blocks} (hs : (b.form f).slot = some slot)
    (hothers : ∀ k, k ≠ f → (b.form k).slot ≠ some slot) (hpending : ∀ k, (b.form k).pendingWork = none)
    (hstop : (b.form f).stopping = 0) (hdisband : (b.form f).disbandPending = false) (hfree : NoDishInHand b) :
    endFormationOrder slot (some .endedCut) b
      = (b.modForm f Formation.halted).answer slot (workAnswer (b.form f) .endedCut 0 0)
    ∧ endFormationOrder slot none b = b.modForm f Formation.halted := by
  obtain ⟨works, queue, grants⟩ := hfree
  have unanswered : endStanding slot none f b = b.modForm f Formation.halted := by
    unfold endStanding
    dsimp only
    rw [if_pos hs]
    exact finishHalting_haltWork (hpending f) hdisband hstop works queue grants
  have answered : endStanding slot (some .endedCut) f b
      = (b.answer slot (workAnswer (b.form f) .endedCut 0 0)).modForm f Formation.halted := by
    unfold endStanding
    dsimp only
    rw [if_pos hs, haltWork_answered _ hs]
    exact finishHalting_haltWork (b := b.answer slot _) (hpending f) hdisband hstop works queue grants
  exact ⟨endFormationOrder_single hothers hpending answered fun _ => rfl,
    endFormationOrder_single hothers hpending unanswered fun _ => rfl⟩

end Sys2Proof.Machine
end

