-- ==== Sys2Proof/Proofs/LocksCut.lean ====
section
/-! SUPPORT. A LOCK that is cut while it waits (R147, R153, R155). -/

namespace Sys2Proof.Machine

/-! ### A LOCK that is cut while it waits (R147, R153, R155) -/

theorem findSome?_only {α β : Type} {g : α → Option β} {l : List α} {a : α} {v : β} (ha : a ∈ l) (hg : g a = some v)
    (ho : ∀ q, q ≠ a → g q = none) : l.findSome? g = some v := by
  induction l with
  | nil => cases ha
  | cons q l ih =>
    by_cases hq : q = a
    · rw [List.findSome?_cons, hq, hg]
    · rw [List.findSome?_cons, ho q hq]
      exact ih ((List.mem_cons.mp ha).resolve_left fun e => hq e.symm)

/-- The pool record `k` is the one record of its dish, and of the slot (R145, R155). -/
def SoleRecord (b : Blocks) (slot : SlotId) (k : PoolId) (r : LockRecord) : Prop :=
  b.pool[k] = some r ∧ r.slot = some slot ∧ b.keySlots[r.dish] = none
    ∧ ∀ (q : PoolId) (y : LockRecord), b.pool[q] = some y → q ≠ k → y.dish ≠ r.dish ∧ y.slot ≠ some slot

section
variable {b : Blocks} {slot : SlotId} {k : PoolId} {r : LockRecord}

theorem SoleRecord.recordOfSlot (h : SoleRecord b slot k r) : recordOfSlot b slot = some (k, r) := by
  obtain ⟨hk, hs, -, others⟩ := h
  refine findSome?_only (List.mem_finRange k) ?_ fun q hq => ?_
  · rw [hk]
    exact if_pos hs
  · cases hy : b.pool[q] with
    | none => rfl
    | some y => exact if_neg (others q y hy hq).2

theorem SoleRecord.endLockOrder (h : SoleRecord b slot k r) (c : AnswerCode) :
    endLockOrder slot (some c) b = (removeAlone (.pool k) r .cut b).answer slot (plainAnswer c)
      ∧ endLockOrder slot none b = putRecord (.pool k) (some { r with slot := none }) b := by
  constructor <;>
  · unfold Machine.endLockOrder
    rw [h.recordOfSlot]

theorem putRecord_pool (b : Blocks) (k q : PoolId) (x : Option LockRecord) :
    (putRecord (.pool k) x b).pool[q] = if q = k then x else b.pool[q] := by
  by_cases hq : q = k
  · subst hq
    simp [putRecord]
  · have hq' : k.val ≠ q.val := fun e => hq (Fin.ext e.symm)
    simp [putRecord, hq, hq']

theorem SoleRecord.placesOf_removed (h : SoleRecord b slot k r) : placesOf (putRecord (.pool k) none b) r.dish
    = [] := by
  obtain ⟨-, -, key, others⟩ := h
  refine List.filter_eq_nil_iff.mpr fun pl hpl => ?_
  rcases List.mem_cons.mp hpl with rfl | hpool
  · have unkeyed : recordAt (putRecord (.pool k) none b) (.key r.dish) = none := key
    rw [unkeyed]
    exact Bool.false_ne_true
  · obtain ⟨q, -, rfl⟩ := List.mem_map.mp hpool
    have record : recordAt (putRecord (.pool k) none b) (.pool q) = if q = k then none else b.pool[q] :=
      putRecord_pool b k q none
    rw [record]
    by_cases hq : q = k
    · rw [if_pos hq]
      exact Bool.false_ne_true
    · rw [if_neg hq]
      cases hy : b.pool[q] with
      | none => exact Bool.false_ne_true
      | some y => simpa using (others q y hy hq).1

/-- Without its one record a dish is free of locks (R147). -/
theorem SoleRecord.summary_removed (h : SoleRecord b slot k r) :
    summaryOf (putRecord (.pool k) none b) r.dish = ⟨false, false, false, false⟩
      ∧ motionRecords (putRecord (.pool k) none b) r.dish = [] := by
  have no_records : recordsOf (putRecord (.pool k) none b) r.dish = [] := by rw [recordsOf, h.placesOf_removed]; rfl
  have no_motion : motionRecords (putRecord (.pool k) none b) r.dish = [] := by rw [motionRecords, no_records]; rfl
  refine ⟨?_, no_motion⟩
  rw [summaryOf, no_motion, no_records]
  rfl

theorem motionRecords_of_pool (hk : b.pool[k] = some r) (hc : r.cls.holdsMotion = true) :
    (motionRecords b r.dish).isEmpty = false := by
  have place : LockPlace.pool k ∈ placesOf b r.dish := by
    refine List.mem_filter.mpr ⟨List.mem_cons_of_mem _ (List.mem_map_of_mem (List.mem_finRange k)), ?_⟩
    show (b.pool[k]).any _ = true
    rw [hk]
    exact beq_self_eq_true r.dish
  have record : r ∈ motionRecords b r.dish :=
    List.mem_filter.mpr ⟨List.mem_filterMap.mpr ⟨_, place, hk⟩, hc⟩
  simpa using List.ne_nil_of_mem record

theorem seizeLocked_free {d : DishId} (h : b.fa.grants[d] = none) : seizeLocked d b = b := by
  rw [seizeLocked, h]

/-- The end of a lock event that frees a dish which waited for its stop: the summary, the removal mark, the entry, and
the news to the wind watch (R147, R153). -/
theorem endLockEvent_freed {d : DishId} {before : Blocks} {e : TrailEvent}
    (hlock : (before.dish d).lock = ⟨false, false, true, false⟩)
    (hmotion : (motionRecords before d).isEmpty = false)
    (hsummary : summaryOf b d = ⟨false, false, false, false⟩ ∧ motionRecords b d = []) (hq : b.fa.queue = [])
    (hg : ∀ d : DishId, b.fa.grants[d] = none) :
    endLockEvent d before ⟨[e], false⟩ b
      = (((b.modDish d (fun x => { x with lock := ⟨false, false, false, false⟩, removalMark := true })).trail e).cause
        .lock).tell (.lockChanged d) := by
  obtain ⟨summary, no_motion⟩ := hsummary
  have marked : b.modDish d (fun x =>
    { x with lock := ⟨false, false, false, false⟩, removalMark := x.removalMark || true })
      = b.modDish d (fun x => { x with lock := ⟨false, false, false, false⟩, removalMark := true }) :=
    Blocks.modDish_congr (by rw [Bool.or_true])
  generalize hc : ((b.modDish d (fun x =>
    { x with lock := ⟨false, false, false, false⟩, removalMark := true })).trail e).cause
    .lock = c
  have lock : (c.dish d).lock = ⟨false, false, false, false⟩ := by
    rw [← hc, Blocks.cause_dish, Blocks.trail_dish, Blocks.modDish_dish_self]
  have queue : c.fa.queue = [] := by rw [← hc]; exact hq
  have seized : overDishes allDishes seizeLocked c = c :=
    overDishes_fix _ _ _ fun k _ => seizeLocked_free (by rw [← hc]; exact hg k)
  have spread : spreadSummary d ⟨false, false, true, false⟩ c = c.tell (.lockChanged d) := by
    have unclaimed : queuedClaim c d = none := by rw [queuedClaim, queue]; rfl
    unfold spreadSummary
    rw [lock, unclaimed]
    rfl
  unfold endLockEvent
  dsimp only
  rw [hlock, summary, hmotion, no_motion, show (!false && ([] : List LockRecord).isEmpty) = true from rfl, marked]
  simp only [Bool.false_eq_true, if_false, writeEntries, List.foldl_cons, List.foldl_nil, hc, seized, spread]
  exact if_neg (by decide)

/-- A dish that waits for a lock stop and that WW is not stowing: the news of its locks changes nothing (R114, R117). -/
theorem onLockChanged_waiting {d : DishId} (hd : (b.dish d).drive = .stopping) (ht : (b.dish d).task = .lockStop)
    (hp : (b.stow d).phase = .none) (hu : (b.stow d).unpinWanted = false) : onLockChanged d b = b := by
  have unblocked : blockEvent d .lock b = b := by
    unfold blockEvent movingToStow
    rw [hp]
    simp
  have blocked : blockedBy (b.dish d) = some .lock := by
    unfold blockedBy
    rw [hd, ht]
    simp
  unfold onLockChanged
  rw [hp, blocked, unblocked]
  simp [hu]

end

/-- A pool record is shown by its own entry of the lock view alone (R165). -/
theorem untouched_pool {pg : Page} {k : PoolId} (h : pg ≠ .lockEntry ⟨12 + k.val, by omega⟩) (x : Option LockRecord)
    (b : Blocks) : Untouched pg b { b with pool := b.pool.set k x } := by
  intro y z
  rw [← pageTouched_self pg ⟨b, y⟩]
  cases pg
  case lockEntry e =>
    have same : lockEntry e { b with pool := b.pool.set k x } = lockEntry e b := by
      unfold lockEntry
      split
      · rfl
      · next he =>
        have other : (⟨e.val - 12, by omega⟩ : PoolId) ≠ k := by
          rintro rfl
          exact h (congrArg Page.lockEntry (Fin.ext (by simp only; omega)))
        unfold poolEntry
        rw [show ({ b with pool := b.pool.set k x } : Blocks).pool[(⟨e.val - 12, by omega⟩ : PoolId)] = b.pool[_] from
          (putRecord_pool b k _ x).trans (if_neg other)]
    show (lockEntry e b != lockEntry e { b with pool := b.pool.set k x }) = (lockEntry e b != lockEntry e b)
    rw [same]
  all_goals rfl

/-- A LOCK that waits is cut: its record goes, and its dish is free (R153, R155). -/
theorem lock_endsHeld {seen : List Outside} {s : State} {p : Part} {m : BitVec 32} {h : HeldOrder} {k : PoolId}
    {r : LockRecord} {dish cls tag : Word} (hsee : see seen s.part = some p) (hready : p.xm.ready = true)
    (hheld : p.xm.heldList = [h])
    (hm : ∀ k : SlotId, m.getLsbD k.val = (p.xm.answerMarks.getLsbD k.val && slotState k p.xm.mem != some .empty))
    (hothers : ∀ k, k ≠ h.slot → PassedOver p.xm k) (hbody : h.order.body = .lock dish cls tag)
    (hquiet : p.blocks.Quiet)
    (hrecord : SoleRecord p.blocks h.slot k r) (horigin : r.origin = .order) (hcls : r.cls = .motion)
    (hstate : r.state = .waiting) (hd : (p.blocks.dish r.dish).drive = .stopping)
    (ht : (p.blocks.dish r.dish).task = .lockStop)
    (hlock : (p.blocks.dish r.dish).lock = ⟨false, false, true, false⟩) (hp : (p.blocks.stow r.dish).phase = .none)
    (hu : (p.blocks.stow r.dish).unpinWanted = false) (hq : p.blocks.fa.queue = [])
    (hg : ∀ d : DishId, p.blocks.fa.grants[d] = none) :
    EndsHeld (exec (.nudgeSweep seen) s) s p m h
      { p.blocks.modDish r.dish (fun y => { y with lock := ⟨false, false, false, false⟩, removalMark := true }) with
        pool := p.blocks.pool.set k none }
      [.trail (.lockRemoved ⟨r.dish, 12 + k.val, .order, .motion, r.tag⟩ .waiting .cut) p.blocks.clock.time
        p.blocks.clock.valid, .cause .lock]
      (plainAnswer .endedCut) { p.blocks with pool := p.blocks.pool.set k (some { r with slot := none }) }
      [.dish r.dish, .lockEntry ⟨12 + k.val, by omega⟩, .common] := by
  generalize hb : p.blocks = b at *
  generalize hfreed : ({ b.modDish r.dish (fun y =>
    { y with lock := ⟨false, false, false, false⟩, removalMark := true }) with pool := b.pool.set k none } : Blocks)
      = freed
  have still := hquiet.still none
  obtain ⟨inbox, out, -⟩ := hquiet
  have ends : ∀ code, endOrder h code b = endLockOrder h.slot code b := fun code => by rw [endOrder, hbody]
  obtain ⟨cutOrder, lostOrder⟩ := hrecord.endLockOrder .endedCut
  have ⟨hk, _⟩ := hrecord
  have removed : removeAlone (.pool k) r .cut b = (((freed.trail (.lockRemoved
      ⟨r.dish, 12 + k.val, .order, .motion, r.tag⟩ .waiting .cut)).cause .lock).tell (.lockChanged r.dish)) := by
    have mark : markOf (.pool k) r = ⟨r.dish, 12 + k.val, .order, .motion, r.tag⟩ := by
      rw [markOf, horigin, hcls]
      rfl
    rw [removeAlone, removeRecord, mark, hstate]
    rw [endLockEvent_freed hlock (motionRecords_of_pool hk (by rw [hcls]; rfl)) hrecord.summary_removed hq hg, ← hfreed]
    rfl
  have freedStill : Still none freed := by
    rw [← hfreed]
    exact (still.modDish r.dish (f := fun y =>
      { y with lock := ⟨false, false, false, false⟩, removalMark := true }) rfl).of_records rfl rfl (fun _ => rfl)
  have dish : freed.dish r.dish = { b.dish r.dish with lock := ⟨false, false, false, false⟩, removalMark := true } := by
    rw [← hfreed]
    exact b.modDish_dish_self r.dish (fun y => { y with lock := ⟨false, false, false, false⟩, removalMark := true })
  have freedOut : freed.out = [] := by rw [← hfreed]; exact out
  have freedInbox : freed.inbox = [] := by rw [← hfreed]; exact inbox
  have freedClock : freed.clock = b.clock := by rw [← hfreed]; rfl
  generalize houts : ([.trail (.lockRemoved ⟨r.dish, 12 + k.val, .order, .motion, r.tag⟩ .waiting .cut) b.clock.time
    b.clock.valid, .cause .lock] : List Output) = entries
  have handed : endOrder h (some .endedCut) b = { freed with
      inbox := [.lockChanged r.dish]
      out := entries ++ [.answer h.slot (plainAnswer .endedCut) b.clock.time b.clock.valid] } := by
    rw [ends, cutOrder, removed, ← houts, ← freedClock]
    simp only [Blocks.answer, Blocks.tell, Blocks.cause, Blocks.trail, freedInbox, freedOut, List.nil_append,
      List.cons_append]
  refine endsHeld_of_settles hsee hready hheld hm hothers ?_ ?_ ?_ freedOut ?_ ?_ ?_ out ?_
  · rw [hb, handed]
    have drive : (freed.dish r.dish).drive = .stopping := by rw [dish]; exact hd
    have task : (freed.dish r.dish).task = .lockStop := by rw [dish]; exact ht
    have stow : freed.stow r.dish = b.stow r.dish := by rw [← hfreed]; rfl
    have unmoved := onLockChanged_waiting
      (b := { freed with
        inbox := []
        out := entries ++ [.answer h.slot (plainAnswer .endedCut) b.clock.time b.clock.valid] })
      drive task (by exact stow ▸ hp) (by exact stow ▸ hu)
    refine settle_message (skip := none) (skip' := none) b (m := .lockChanged r.dish) (freedStill.boxes _ _) rfl ?_
      (freedStill.of_records rfl rfl (fun _ => rfl)) freedInbox
    exact unmoved.trans (Blocks.without_inbox freedInbox)
  · intro _
    rw [← houts]
    rfl
  · rw [← houts]
    simp [markedPages]
  · intro pg hpg
    rw [hb, ← hfreed]
    simp only [List.mem_cons, List.not_mem_nil, or_false, not_or] at hpg
    obtain ⟨notDish, notEntry, -⟩ := hpg
    exact (untouched_modDish (f := fun y => { y with lock := ⟨false, false, false, false⟩, removalMark := true })
      notDish
      rfl).trans (untouched_pool notEntry none _)
  · exact .inl (by simp)
  · rw [hb, ends, lostOrder, Blocks.trail_eq (by exact out)]
    exact settle_outs b (b := putRecord (.pool k) (some { r with slot := none }) b)
      (still.of_records rfl rfl (fun _ => rfl)) inbox _
  · intro pg hpg
    rw [hb]
    simp only [List.mem_cons, List.not_mem_nil, or_false, not_or] at hpg
    exact untouched_pool hpg.2.1 _ b

end Sys2Proof.Machine
end

