-- ==== Sys2Proof/Proofs/SweepClauses.lean ====
section
/-! SUPPORT. The clauses of a sweep (R119, R155, R171 to R174, R178, R190). -/

namespace Sys2Proof.Machine

/-! ### The clauses (R119, R155, R171 to R174, R178, R190) -/

/-- The sweep timer runs on by 50 ms, and its sweep is that of NUDGE (R171, R172). -/
theorem exec_sweepTimerExpiry {seen : List Outside} {s : State} {p : Part} (hsee : see seen s.part = some p)
    (hready : p.xm.ready = true) :
    exec (.sweepTimerExpiry seen) s = exec (.nudgeSweep []) { s with part :=
      { blocks := p.blocks.runTo p.xm.sweepDue
        xm := { p.xm with sweepDue := max p.blocks.clock.count p.xm.sweepDue + 50 } } } := by
  have due : p.blocks.clock.count + (p.xm.sweepDue - p.blocks.clock.count) + 50
      = max p.blocks.clock.count p.xm.sweepDue + 50 := by omega
  rw [exec_nudgeSweep (p := ⟨p.blocks.runTo p.xm.sweepDue,
    { p.xm with sweepDue := max p.blocks.clock.count p.xm.sweepDue + 50 }⟩) rfl hready]
  show actSeen seen (whileReady sweepExpiry) s = _
  rw [actSeen, hsee]
  dsimp only [act, State.modPart]
  rw [whileReady, if_pos hready, ← due]
  rfl

section
variable {seen : List Outside} {s : State} {p : Part} {m : BitVec 32}

theorem held_shown (htaken : ∀ h ∈ p.xm.heldList, slotState h.slot p.xm.mem = some .taken) {k : SlotId}
    (held : isHeld p.xm k = true) : slotState k p.xm.mem = some .taken := by
  obtain ⟨h, hh, rfl⟩ := (isHeld_iff _ _).mp held
  exact htaken h hh

theorem sweptMarks_taken (htaken : ∀ h ∈ p.xm.heldList, slotState h.slot p.xm.mem = some .taken)
    (hm : ∀ k : SlotId, m.getLsbD k.val = (p.xm.answerMarks.getLsbD k.val && slotState k p.xm.mem != some .empty)) :
    SweptMarks m p.xm := sweptMarks_of_state (fun k held => by rw [held_shown htaken held]; decide) hm

/-- A sweep that finds every held order TAKEN and one order PLACED takes it as its order command does (R173, R174). -/
theorem sweep_takes {c : Instr} {o : Order} {before : Memory} {slot : SlotId} (hsee : see seen s.part = some p)
    (hready : p.xm.ready = true) (htaken : ∀ h ∈ p.xm.heldList, slotState h.slot p.xm.mem = some .taken)
    (hm : ∀ k : SlotId, m.getLsbD k.val = (p.xm.answerMarks.getLsbD k.val && slotState k p.xm.mem != some .empty))
    (hothers : ∀ k, k ≠ slot → PassedOver p.xm k) (hplaced : slotState slot p.xm.mem = some .placed)
    (horder : orderOf c = some (slot, o)) (hmem : p.xm.mem = placeOrder slot o before) :
    exec (.nudgeSweep seen) s
      = exec c { s with part := { p with xm := { p.xm with answerMarks := m, mem := before } } } := by
  have free : isHeld p.xm slot = false := by
    cases held : isHeld p.xm slot with
    | false => rfl
    | true =>
      have := held_shown htaken held
      rw [hplaced] at this
      cases this
  have uncut : ∀ k, Uncut p.xm k := by
    intro k cut _
    by_cases hk : k = slot
    · rw [hk, hplaced] at cut
      cases cut
    · exact (hothers k hk).2 cut
  have read : orderAt slot p.xm.mem = o := by
    rw [hmem]
    exact orderAt_placeOrder (orderOf_verb horder) slot before
  have swept := takePhase_placed (sweptMarks_taken htaken hm) uncut
    (fun taken => by rw [taken hplaced] at free; cases free) fun k hk => (hothers k hk).untaken
  have unheld : ∀ g ∈ p.xm.heldList, g.slot ≠ slot := fun g hg e => by
    rw [(isHeld_iff p.xm slot).mpr ⟨g, hg, e⟩] at free
    cases free
  have commanded : command slot o { p with xm := { p.xm with answerMarks := m, mem := before } }
      = takeOrder slot o (p.withMarks m) := by
    rw [command, if_pos (by exact hready), abandonHeld_free (by exact unheld)]
    dsimp only [Part.modXm, Exchange.modMem, Part.withMarks, Exchange.withMarks]
    rw [← hmem]
  rw [exec_nudgeSweep hsee hready, sweep_taken htaken, swept, read, exec_of_orderOf horder, act, State.modPart,
    commanded]

/-- A sweep that finds every held order TAKEN and one slot CUT_ASKED without a mark answers it (R174). -/
theorem sweep_cuts {slot : SlotId} (hsee : see seen s.part = some p) (hready : p.xm.ready = true)
    (htaken : ∀ h ∈ p.xm.heldList, slotState h.slot p.xm.mem = some .taken)
    (hm : ∀ k : SlotId, m.getLsbD k.val = (p.xm.answerMarks.getLsbD k.val && slotState k p.xm.mem != some .empty))
    (hothers : ∀ k, k ≠ slot → PassedOver p.xm k) (hcut : slotState slot p.xm.mem = some .cutAsked)
    (hmark : p.xm.answerMarks.getLsbD slot.val = false) (hq : p.blocks.Quiet) :
    Leaves (exec (.nudgeSweep seen) s) s p.blocks { p.xm with answerMarks := m }
      [.answer slot (plainAnswer .endedCut) p.blocks.clock.time p.blocks.clock.valid] [] := by
  have free : isHeld p.xm slot = false := by
    cases held : isHeld p.xm slot with
    | false => rfl
    | true =>
      have := held_shown htaken held
      rw [hcut] at this
      cases this
  have swept := takePhase_cut hq (sweptMarks_taken htaken hm) hcut free hmark hothers
  have still := hq.still none
  obtain ⟨inbox, out, -⟩ := hq
  obtain ⟨blocks, same⟩ := run_leaves (F := fun b => b.answer slot (plainAnswer .endedCut)) (p := p.withMarks m)
    (pages := []) (b := p.blocks)
    (outs := [.answer slot (plainAnswer .endedCut) p.blocks.clock.time p.blocks.clock.valid])
    (by
      show settle p.blocks (p.blocks.answer slot (plainAnswer .endedCut)) = _
      rw [Blocks.answer_eq out]
      exact settle_outs _ still inbox _)
    out (by simp [markedPages]) (fun pg _ => Untouched.refl pg _) (.inr (commonPublications_zero rfl rfl rfl rfl))
  rw [exec_nudgeSweep hsee hready, sweep_taken htaken, swept]
  exact ⟨_, rfl, rfl, blocks, same⟩

variable {h : HeldOrder} (hsee : see seen s.part = some p) (hready : p.xm.ready = true) (hheld : p.xm.heldList = [h])
  (hm : ∀ k : SlotId, m.getLsbD k.val = (p.xm.answerMarks.getLsbD k.val && slotState k p.xm.mem != some .empty))
  (hothers : ∀ k, k ≠ h.slot → PassedOver p.xm k)
include hsee hready hheld hm hothers

/-- A STOW leaves STANDING STOWS (R119). -/
theorem stow_endsHeld {o : StandingStow} (hbody : h.order.body = .stow) (hstanding : p.blocks.wind.standing = [o])
    (hslot : o.slot = h.slot) (hq : (p.blocks.modWind (fun w => { w with standing := [] })).Quiet) :
    EndsHeld (exec (.nudgeSweep seen) s) s p m h (p.blocks.modWind (fun w => { w with standing := [] })) []
      (plainAnswer .endedCut) (p.blocks.modWind (fun w => { w with standing := [] })) [] := by
  have ends : ∀ code, endOrder h code p.blocks = endStowOrder o.slot code p.blocks := fun code => by
    rw [endOrder, hbody, hslot]
  have still := hq.still none
  obtain ⟨inbox, out, -⟩ := hq
  refine endsHeld_still hsee hready hheld hm hothers ?_ ?_ still inbox out rfl rfl rfl fun pg _ =>
    untouched_standing pg _
  · rw [ends, endStowOrder_single hstanding, hslot]
  · rw [ends, endStowOrder_single hstanding]

/-- A COMMIT_SITE writes on without its slot (R190). -/
theorem commit_endsHeld {c : Commit} (hq : p.blocks.Quiet) (hbody : h.order.body = .commitSite)
    (hcommit : p.blocks.site.commit = some c) (hslot : c.slot = some h.slot) :
    EndsHeld (exec (.nudgeSweep seen) s) s p m h
      { p.blocks with site := { p.blocks.site with commit := some { c with slot := none } } } []
      (plainAnswer .endedCut)
      { p.blocks with site := { p.blocks.site with commit := some { c with slot := none } } } [] := by
  obtain ⟨cut, lost⟩ := endCommitOrder_held hcommit hslot
  have ends : ∀ code, endOrder h code p.blocks = endCommitOrder h.slot code p.blocks := fun code => by
    rw [endOrder, hbody]
  have still : Still none { p.blocks with site := { p.blocks.site with commit := some { c with slot := none } } } :=
    (hq.still none).of_records rfl rfl (fun _ => rfl)
  obtain ⟨inbox, out, -⟩ := hq
  refine endsHeld_still hsee hready hheld hm hothers ?_ ?_ still inbox out rfl rfl rfl fun pg _ =>
    untouched_commit pg _ _
  · rw [ends, cut]
  · rw [ends, lost]

/-- The work of a formation that has no dish in hand is over (R61). -/
theorem work_endsHeld {f : FormationId} (hq : p.blocks.Quiet)
    (hbody : (∃ az el wrap mode, h.order.body = .slew az el wrap mode) ∨ (∃ wrap, h.order.body = .track wrap)
      ∨ (∃ az el da de n dwell wrap, h.order.body = .raster az el da de n dwell wrap))
    (hs : (p.blocks.form f).slot = some h.slot) (hstop : (p.blocks.form f).stopping = 0)
    (hslots : ∀ k, k ≠ f → (p.blocks.form k).slot ≠ some h.slot) (hpending : ∀ k, (p.blocks.form k).pendingWork = none)
    (hdisband : (p.blocks.form f).disbandPending = false) (hfree : NoDishInHand p.blocks) :
    EndsHeld (exec (.nudgeSweep seen) s) s p m h (p.blocks.modForm f Formation.halted) []
      (workAnswer (p.blocks.form f) .endedCut 0 0) (p.blocks.modForm f Formation.halted) [.formation f] := by
  obtain ⟨cut, lost⟩ := endFormationOrder_ended hs hslots hpending hstop hdisband hfree
  have ends : ∀ code, endOrder h code p.blocks = endFormationOrder h.slot code p.blocks := by
    intro code
    unfold endOrder
    rcases hbody with ⟨az, el, wrap, mode, e⟩ | ⟨wrap, e⟩ | ⟨az, el, da, de, n, dwell, wrap, e⟩ <;> rw [e]
  have still : Still none (p.blocks.modForm f Formation.halted) := (hq.still none).of_records rfl rfl (fun _ => rfl)
  obtain ⟨inbox, out, -⟩ := hq
  refine endsHeld_still hsee hready hheld hm hothers ?_ ?_ still inbox out rfl rfl rfl fun pg hp =>
    untouched_modForm (by simpa using hp) _ _
  · rw [ends, cut]
  · rw [ends, lost]

end

/-- Settles O6: the held phase and the take phase of the sweep, clause by clause. -/
theorem aSweepServesTheSlots : Obligations.ASweepServesTheSlots := by
  intro seen s p m hsee hready b x sweeps state passed cut answered hm
  refine ⟨exec_sweepTimerExpiry hsee hready, fun htaken => ⟨fun hall => ?_, fun slot hothers =>
    ⟨fun c o before hplaced horder hmem => ?_, fun hcut hmark hq => ?_⟩⟩, fun h hheld hothers => ?_⟩
  · have swept : takePhase p = p.withMarks m := takePhase_idle (sweptMarks_taken htaken hm)
      (fun k => PassedOver.uncut (hall k)) fun k => PassedOver.untaken (hall k)
    show exec (.nudgeSweep seen) s = _
    rw [exec_nudgeSweep hsee hready, sweep_taken htaken, swept]
    rfl
  · exact sweep_takes hsee hready htaken hm hothers hplaced horder hmem
  · exact sweep_cuts hsee hready htaken hm hothers hcut hmark hq
  · intro ended
    refine ⟨?_, ?_, ?_, ?_⟩
    · intro o hbody hstanding hslot b' hq
      exact stow_endsHeld hsee hready hheld hm hothers hbody hstanding hslot hq
    · intro f hq hbody hworking hs hstop hslots hpending hdisband hworks hqueue hgrants k b'
      exact work_endsHeld hsee hready hheld hm hothers hq hbody hs hstop hslots hpending hdisband
        ⟨hworks, hqueue, hgrants⟩
    · intro c hq hbody hcommit hslot b'
      exact commit_endsHeld hsee hready hheld hm hothers hq hbody hcommit hslot
    · intro dish cls tag k r hbody hq hk hs horigin hcls hstate hsole hkey hd ht hlock hp hu hqueue hgrants
      exact lock_endsHeld hsee hready hheld hm hothers hbody hq ⟨hk, hs, hkey, hsole⟩ horigin hcls hstate hd ht hlock hp
        hu hqueue hgrants

end Sys2Proof.Machine
end

