-- ==== Sys2Proof/Proofs/SecondValues.lean ====
section
/-! SUPPORT. The value of a wind second, and the watch that it leaves (R97, R98, R100). -/

namespace Sys2Proof.Machine

/-! ### The second value, GUST, MEAN and DIRECTION (R97, R98, R100) -/

theorem presentMean_eq (l : List (Option Nat)) :
    presentMean l = if l.filterMap id = [] then none else some ((l.filterMap id).sum / (l.filterMap id).length) := by
  unfold presentMean
  cases l.filterMap id <;> rfl

/-- The line of largest mean among those looked at, the lower-numbered of two (R97). -/
def BestOf (b : Blocks) (seen : List LineId) : Option (LineId × Nat) → Prop
  | none => ∀ l ∈ seen, lineMean (b.line l) = none
  | some (k, n) => (k ∈ seen ∧ lineMean (b.line k) = some n)
      ∧ ∀ l ∈ seen, ∀ m, lineMean (b.line l) = some m → m ≤ n ∧ (m = n → k ≤ l)

/-- One line more, of a number above those looked at. -/
def betterLine (b : Blocks) (best : Option (LineId × Nat)) (l : LineId) : Option (LineId × Nat) :=
  match lineMean (b.line l), best with
  | none, _ => best
  | some m, none => some (l, m)
  | some m, some (k, n) => if n < m then some (l, m) else some (k, n)

theorem bestLine_eq (b : Blocks) : bestLine b = allLines.foldl (betterLine b) none := rfl

theorem BestOf.better {b : Blocks} {seen : List LineId} {best : Option (LineId × Nat)} {l : LineId}
    (h : BestOf b seen best) (hl : ∀ k ∈ seen, k < l) : BestOf b (seen ++ [l]) (betterLine b best l) := by
  unfold betterLine
  cases hm : lineMean (b.line l) with
  | none =>
    cases best with
    | none => exact fun k hk => (List.mem_append.mp hk).elim (h k) fun e => List.mem_singleton.mp e ▸ hm
    | some p =>
      obtain ⟨⟨mem, mean⟩, most⟩ := h
      refine ⟨⟨List.mem_append_left _ mem, mean⟩, fun k hk m e => ?_⟩
      rcases List.mem_append.mp hk with hk | hk
      · exact most k hk m e
      · rw [List.mem_singleton.mp hk, hm] at e
        cases e
  | some m =>
    cases best with
    | none =>
      refine ⟨⟨by simp, hm⟩, fun k hk n e => ?_⟩
      rcases List.mem_append.mp hk with hk | hk
      · rw [h k hk] at e
        cases e
      · rw [List.mem_singleton.mp hk, hm] at e
        cases e
        exact ⟨le_refl _, fun _ => (List.mem_singleton.mp hk).ge⟩
    | some p =>
      obtain ⟨⟨mem, mean⟩, most⟩ := h
      dsimp only
      split
      · next larger =>
        refine ⟨⟨by simp, hm⟩, fun k hk n e => ?_⟩
        rcases List.mem_append.mp hk with hk | hk
        · have := (most k hk n e).1
          omega
        · rw [List.mem_singleton.mp hk, hm] at e
          cases e
          exact ⟨le_refl _, fun _ => (List.mem_singleton.mp hk).ge⟩
      · next notLarger =>
        refine ⟨⟨List.mem_append_left _ mem, mean⟩, fun k hk n e => ?_⟩
        rcases List.mem_append.mp hk with hk | hk
        · exact most k hk n e
        · rw [List.mem_singleton.mp hk] at e ⊢
          cases hm.symm.trans e
          exact ⟨by omega, fun _ => (hl _ mem).le⟩

theorem bestLine_best (b : Blocks) : BestOf b allLines (bestLine b) := by
  have none : BestOf b [] none := fun l hl => absurd hl (by simp)
  have zero := none.better (l := 0) (by simp)
  have one := zero.better (l := 1) (by decide)
  exact one.better (l := 2) (by decide)

/-- The line means of a wind second, each with its line (R97). -/
def lineMeans (b : Blocks) : List (LineId × Nat) :=
  allLines.filterMap (fun l => (lineMean (b.line l)).map (fun m => (l, m)))

theorem mem_lineMeans {b : Blocks} {l : LineId} {m : Nat} :
    (l, m) ∈ lineMeans b ↔ lineMean (b.line l) = some m := by
  have all : ∀ k : LineId, k ∈ allLines := by decide
  simp only [lineMeans, List.mem_filterMap, Option.map_eq_some_iff]
  constructor
  · rintro ⟨k, -, n, e, pair⟩
    cases pair
    exact e
  · exact fun e => ⟨l, all l, m, e, rfl⟩

theorem bestLine_none {b : Blocks} (h : lineMeans b = []) : bestLine b = none := by
  have best := bestLine_best b
  cases e : bestLine b with
  | none => rfl
  | some p =>
    rw [e] at best
    have mem : (p.1, p.2) ∈ lineMeans b := mem_lineMeans.mpr best.1.2
    rw [h] at mem
    cases mem

theorem bestLine_some {b : Blocks} {l : LineId} {m : Nat} (h : (l, m) ∈ lineMeans b)
    (hmost : ∀ q ∈ lineMeans b, q.2 ≤ m ∧ (q.2 = m → l ≤ q.1)) : bestLine b = some (l, m) := by
  have mean := mem_lineMeans.mp h
  have all : ∀ k : LineId, k ∈ allLines := by decide
  have best := bestLine_best b
  cases e : bestLine b with
  | none =>
    rw [e] at best
    cases mean.symm.trans (best l (all l))
  | some p =>
    obtain ⟨k, n⟩ := p
    rw [e] at best
    obtain ⟨⟨-, own⟩, most⟩ := best
    obtain ⟨le, low⟩ := most l (all l) m mean
    obtain ⟨ge, high⟩ := hmost (k, n) (mem_lineMeans.mpr own)
    have value : n = m := Nat.le_antisymm ge le
    have line : k = l := le_antisymm (low value.symm) (high value)
    rw [value, line]

/-- The list of the last 600 second values (R97). -/
@[irreducible] def secondList (seconds : List (Option Nat)) (value : Option Nat) : List (Option Nat) :=
  lastEntries 600 (seconds ++ [value])

/-- The wind watch after the second value, its means and the reading of the settings (R97, R98, R100). -/
def secondWatch (b : Blocks) (value direction : Option Nat) : WindWatch :=
  let list := secondList b.wind.seconds value
  { b.wind with
    seconds := list, gust := presentMean (lastEntries 3 list), mean := presentMean list, direction := direction
    secondDue := b.clock.count + 1000
    reading := ⟨b.presence.attended, b.settings.thresholds b.presence.attended, b.settings.fallback,
      b.settings.autoRelease⟩ }

/-- The blocks at a wind second before the wind state is evaluated (R97, R98, R100). -/
def atSecond (b : Blocks) (value direction : Option Nat) : Blocks :=
  { b with
    wind := secondWatch b value direction
    lines := b.lines.map (fun x => { x with secondSum := 0, secondCount := 0 }) }

/-- The value and the direction of a wind second (R97, R98). -/
def SecondValue (b : Blocks) (value direction : Option Nat) : Prop :=
  (value = none ∧ lineMeans b = [] ∧ direction = none)
    ∨ ∃ l m, value = some m ∧ (l, m) ∈ lineMeans b ∧ (∀ q ∈ lineMeans b, q.2 ≤ m ∧ (q.2 = m → l ≤ q.1))
      ∧ direction = (b.line l).lastGood.map Frame.direction

theorem SecondValue.best {b : Blocks} {value direction : Option Nat} (h : SecondValue b value direction) :
    (bestLine b).map Prod.snd = value
      ∧ (bestLine b).bind (fun p => (b.line p.1).lastGood.map Frame.direction) = direction := by
  rcases h with ⟨rfl, means, rfl⟩ | ⟨l, m, rfl, mem, most, rfl⟩
  · rw [bestLine_none means]
    exact ⟨rfl, rfl⟩
  · rw [bestLine_some mem most]
    exact ⟨rfl, rfl⟩

/-- The second value joins the list at blocks whose next wind second is already set (R97, R98, R100). -/
theorem atSecond_eq {b : Blocks} {value direction : Option Nat} (h : SecondValue b value direction) :
    readSettings (takeSecond (b.modWind (fun w => { w with secondDue := b.clock.count + 1000 })))
      = atSecond b value direction := by
  obtain ⟨rfl, rfl⟩ := h.best
  have best : bestLine (b.modWind (fun w => { w with secondDue := b.clock.count + 1000 })) = bestLine b := rfl
  unfold readSettings takeSecond atSecond secondWatch secondList
  rw [best]
  generalize bestLine b = p
  simp only [Blocks.modWind]
  rfl

theorem windSecond_eq {b c : Blocks} {value direction : Option Nat} (hc : b.runTo b.wind.secondDue = c)
    (h : SecondValue c value direction) :
    ∃ present, windSecond b
      = (recheckPositions (evaluateWind present (atSecond c value direction))).publish .wind := by
  refine ⟨((atSecond c value direction).wind.seconds.getLast?.join).isSome, ?_⟩
  unfold windSecond
  dsimp only
  rw [hc, atSecond_eq h]

end Sys2Proof.Machine
end

