-- ==== Sys2Proof/Proofs/StowEntries.lean ====
section
/-! SUPPORT. What the entry into STOWING does with each dish (R107, R108). -/

namespace Sys2Proof.Machine

/-! ### One dish at the entry into STOWING (R107, R108) -/

/-- The records of a vector with one updated. -/
theorem ofFn_single {α : Type} {n : Nat} (v : Vector α n) (d : Fin n) (f : Fin n → α) :
    Vector.ofFn (fun e => if e ∈ [d] then f e else v[e]) = v.set d (f d) := by
  refine Vector.ext fun i hi => ?_
  rw [Vector.getElem_ofFn, Vector.getElem_set]
  by_cases h : d.val = i
  · subst h
    simp
  · have ne : (⟨i, hi⟩ : Fin n) ≠ d := fun e => h (congrArg Fin.val e.symm)
    rw [if_neg h, if_neg (by simpa using ne)]
    rfl

/-- The dish gains WIND where it is neither BLOCKED already nor blocked now (R108). -/
def Dish.windTaken (r : StowRecord) (x : Dish) : Dish :=
  if r.phase = .blocked ∨ blockedBy x ≠ none then x else { x with reasons := { x.reasons with wind := true } }

/-- The stow record of a dish after the entry into STOWING (R108). -/
def StowRecord.entered (x : Dish) (r : StowRecord) : StowRecord :=
  if r.phase = .blocked then r
  else
    match blockedBy x with
    | some c => { r with phase := .blocked, cause := some c, rehand := false }
    | none => if r.phase = .stowed then r
      else { r with phase := .claiming, cause := none, unpinWanted := false, rehand := false }

/-- The entry of a dish that becomes BLOCKED (R108). -/
def blockedEntry (b : Blocks) (d : DishId) : List Output :=
  if (b.stow d).phase = .blocked then []
  else ((blockedBy (b.dish d)).map (fun c => Output.trail (.stowBlocked d c) b.clock.time b.clock.valid)).toList

/-- Whether the dish claims at the entry (R108, R109). -/
def claimsStow (b : Blocks) (d : DishId) : Bool := (blockedBy (b.dish d)).isNone && (b.stow d).phase == .none

/-- The blocks after these dishes have been worked (R108). -/
def Blocks.stowEntered (l : List DishId) (b : Blocks) : Blocks :=
  { b with
    dishes := Vector.ofFn (fun e : Fin 12 => if e ∈ l then (b.dish e).windTaken (b.stow e) else b.dish e)
    wind := { b.wind with
      records := Vector.ofFn (fun e : Fin 12 => if e ∈ l then (b.stow e).entered (b.dish e) else b.stow e) }
    out := b.out ++ l.flatMap (blockedEntry b) }

theorem Blocks.stowEntered_dish (l : List DishId) (b : Blocks) (e : DishId) :
    (b.stowEntered l).dish e = if e ∈ l then (b.dish e).windTaken (b.stow e) else b.dish e := by
  simp [Blocks.stowEntered, Blocks.dish]

theorem Blocks.stowEntered_stow (l : List DishId) (b : Blocks) (e : DishId) :
    (b.stowEntered l).stow e = if e ∈ l then (b.stow e).entered (b.dish e) else b.stow e := by
  simp [Blocks.stowEntered, Blocks.stow]

theorem Blocks.stowEntered_single (d : DishId) (b : Blocks) :
    b.stowEntered [d] = { (b.modDish d (Dish.windTaken (b.stow d))).modStow d (StowRecord.entered (b.dish d)) with
      out := b.out ++ blockedEntry b d } := by
  have dishes := ofFn_single b.dishes d (fun e => (b.dish e).windTaken (b.stow e))
  have records := ofFn_single b.wind.records d (fun e => (b.stow e).entered (b.dish e))
  unfold Blocks.stowEntered
  rw [List.flatMap_singleton]
  exact congrArg₂ (fun ds rs => ({ b with
    dishes := ds, wind := { b.wind with records := rs }, out := b.out ++ blockedEntry b d } : Blocks)) dishes records

/-- What the entry into STOWING needs of a dish: no phase of a stow on its way, no unused grant of the wind watch, and
a stow to begin that needs the elevation drive (R107 to R109). -/
def MayEnter (b : Blocks) (d : DishId) : Prop :=
  b.fa.grants[d].map Grant.holder ≠ some .ww
    ∧ ((b.stow d).phase = .none ∨ (b.stow d).phase = .stowed ∨ (b.stow d).phase = .blocked)
    ∧ (blockedBy (b.dish d) = none → (b.stow d).phase = .stowed → (b.stow d).unpinWanted = false)
    ∧ (blockedBy (b.dish d) = none → (b.stow d).phase = .none → (b.dish d).drive ≠ .pinned
      ∧ (b.dish d).drive ≠ .pinning ∧ ∃ p, stowPlan b d = .ok p ∧ p.el.moves = true)

theorem holderReturn_other {w : Owner} {d : DishId} {b : Blocks} (h : b.fa.grants[d].map Grant.holder ≠ some w) :
    holderReturn w d b = b := by
  unfold holderReturn
  split
  · next g hg =>
    rw [if_neg]
    rintro ⟨rfl, -⟩
    exact h (by rw [hg]; rfl)
  · rfl

theorem blockDish_unclaimed {d : DishId} {b : Blocks} (c : BlockCause) (hp : (b.stow d).phase ≠ .claiming)
    (hg : b.fa.grants[d].map Grant.holder ≠ some .ww) :
    blockDish d c b = (b.modStow d (fun r => { r with phase := .blocked, cause := some c, rehand := false })).trail
      (.stowBlocked d c) := by
  unfold blockDish
  rw [if_neg hp]
  dsimp only
  rw [holderReturn_other hg]

theorem beginStow_claims {d : DishId} {b : Blocks} {p : PlanResult} (hf : (b.dish d).drive ≠ .faulted)
    (hd : (b.dish d).drive ≠ .pinned) (hg : (b.dish d).drive ≠ .pinning) (hp : stowPlan b d = .ok p)
    (hm : p.el.moves = true) :
    beginStow d b = (b.modStow d (fun r =>
      { r with phase := .claiming, cause := none, unpinWanted := false, rehand := false }), true) := by
  have plan : stowPlan (b.modStow d (fun r => { r with unpinWanted := false, cause := none, rehand := false })) d
      = .ok p := hp
  have claiming : setStowPhase d .claiming
      (b.modStow d (fun r => { r with unpinWanted := false, cause := none, rehand := false }))
      = b.modStow d (fun r => { r with phase := .claiming, cause := none, unpinWanted := false, rehand := false }) := by
    rw [setStowPhase, Blocks.modStow_modStow]
  unfold beginStow
  dsimp only
  rw [plan, Blocks.modStow_dish]
  cases e : (b.dish d).drive
  case pinned => exact absurd e hd
  case pinning => exact absurd e hg
  case faulted => exact absurd e hf
  all_goals
    dsimp only
    rw [hm, Bool.or_true, if_pos rfl, claiming]

theorem Dish.windTaken_kept {r : StowRecord} {x : Dish} (h : r.phase = .blocked ∨ blockedBy x ≠ none) :
    x.windTaken r = x := if_pos h

theorem Dish.windTaken_wind {r : StowRecord} {x : Dish} (hr : r.phase ≠ .blocked) (hx : blockedBy x = none) :
    x.windTaken r = { x with reasons := { x.reasons with wind := true } } :=
  if_neg (fun h => h.elim hr fun g => g hx)

theorem Blocks.modDish_same {b : Blocks} {d : DishId} {g : Dish → Dish} (h : g (b.dish d) = b.dish d) :
    b.modDish d g = b := by
  refine (Blocks.modDish_congr (g := id) h).trans ?_
  simp [Blocks.modDish]

theorem Blocks.modStow_congr {b : Blocks} {d : DishId} {f g : StowRecord → StowRecord}
    (e : f (b.stow d) = g (b.stow d)) : b.modStow d f = b.modStow d g :=
  congrArg (fun r => b.modWind (fun w => { w with records := w.records.set d r })) e

theorem Blocks.modStow_same {b : Blocks} {d : DishId} {g : StowRecord → StowRecord} (h : g (b.stow d) = b.stow d) :
    b.modStow d g = b := by
  refine (Blocks.modStow_congr (g := id) h).trans ?_
  simp [Blocks.modStow, Blocks.modWind]

/-- One dish at the entry (R108). -/
theorem enterStow_eq {b : Blocks} {d : DishId} (h : MayEnter b d) (l : List DishId) :
    enterStow (b, l) d = (b.stowEntered [d], l ++ [d].filter (claimsStow b)) := by
  obtain ⟨holder, phases, wanted, moves⟩ := h
  unfold enterStow
  dsimp only
  rw [Blocks.stowEntered_single]
  by_cases blocked : (b.stow d).phase = .blocked
  · have dish : b.modDish d (Dish.windTaken (b.stow d)) = b := Blocks.modDish_same (Dish.windTaken_kept (.inl blocked))
    have record : b.modStow d (StowRecord.entered (b.dish d)) = b := Blocks.modStow_same (if_pos blocked)
    have noEntry : blockedEntry b d = [] := if_pos blocked
    have noClaim : [d].filter (claimsStow b) = [] := by simp [claimsStow, blocked]
    rw [if_pos blocked, dish, record, noEntry, noClaim, List.append_nil, List.append_nil]
  rw [if_neg blocked]
  cases cause : blockedBy (b.dish d) with
  | some c =>
    have unclaimed : (b.stow d).phase ≠ .claiming := by rcases phases with e | e | e <;> rw [e] <;> decide
    have dish : b.modDish d (Dish.windTaken (b.stow d)) = b :=
      Blocks.modDish_same (Dish.windTaken_kept (.inr (by rw [cause]; simp)))
    have record : StowRecord.entered (b.dish d) (b.stow d)
        = { b.stow d with phase := .blocked, cause := some c, rehand := false } := by
      unfold StowRecord.entered
      rw [if_neg blocked, cause]
    have entry : blockedEntry b d = [.trail (.stowBlocked d c) b.clock.time b.clock.valid] := by
      unfold blockedEntry
      rw [if_neg blocked, cause]
      rfl
    have noClaim : [d].filter (claimsStow b) = [] := by simp [claimsStow, cause]
    dsimp only
    rw [blockDish_unclaimed c unclaimed holder, dish, entry, noClaim, List.append_nil,
      Blocks.modStow_congr (g := fun r => { r with phase := .blocked, cause := some c, rehand := false }) record]
    rfl
  | none =>
    have dish : b.modDish d (Dish.windTaken (b.stow d)) = setReasons d (fun r => { r with wind := true }) b :=
      Blocks.modDish_congr (Dish.windTaken_wind blocked cause)
    have noEntry : blockedEntry b d = [] := by
      unfold blockedEntry
      rw [if_neg blocked, cause]
      rfl
    have record : StowRecord.entered (b.dish d) (b.stow d) = if (b.stow d).phase = .stowed then b.stow d
        else { b.stow d with phase := .claiming, cause := none, unpinWanted := false, rehand := false } := by
      unfold StowRecord.entered
      rw [if_neg blocked, cause]
    rw [dish, noEntry, List.append_nil]
    dsimp only
    have stow : (setReasons d (fun r => { r with wind := true }) b).stow d = b.stow d := rfl
    rw [stow]
    rcases phases with phase | phase | phase
    · obtain ⟨unpinned, notPinning, p, plan, el⟩ := moves cause phase
      have begins : (b.stow d).goesOn = false := by
        unfold StowRecord.goesOn
        rw [phase]
        rfl
      have sound : (b.dish d).drive ≠ .faulted := by
        intro e
        unfold blockedBy at cause
        rw [if_pos e] at cause
        cases cause
      have drive : ((setReasons d (fun r => { r with wind := true }) b).dish d).drive = (b.dish d).drive := by
        rw [setReasons, Blocks.modDish_dish_self]
      have plan' : stowPlan (setReasons d (fun r => { r with wind := true }) b) d = .ok p := by
        unfold stowPlan at plan ⊢
        rw [setReasons, Blocks.modDish_dish_self]
        exact plan
      have claim : [d].filter (claimsStow b) = [d] := by simp [claimsStow, cause, phase]
      have started := beginStow_claims (drive ▸ sound) (drive ▸ unpinned) (drive ▸ notPinning) plan' el
      rw [phase, if_neg (by decide)] at record
      rw [begins, if_neg Bool.false_ne_true, started, claim, if_pos rfl]
      have entered : (setReasons d (fun r => { r with wind := true }) b).modStow d (fun r =>
            { r with phase := .claiming, cause := none, unpinWanted := false, rehand := false })
          = (setReasons d (fun r => { r with wind := true }) b).modStow d (StowRecord.entered (b.dish d)) :=
        Blocks.modStow_congr (by rw [stow, record])
      exact congrArg (fun x => (x, l ++ [d])) entered
    · have goes : (b.stow d).goesOn = true := by
        unfold StowRecord.goesOn
        rw [phase, wanted cause phase]
        rfl
      have noClaim : [d].filter (claimsStow b) = [] := by simp [claimsStow, phase]
      rw [if_pos phase] at record
      have entered : (setReasons d (fun r => { r with wind := true }) b).modStow d (StowRecord.entered (b.dish d))
          = setReasons d (fun r => { r with wind := true }) b := Blocks.modStow_same (by rw [stow, record])
      rw [if_pos goes, noClaim, List.append_nil, entered]
      rfl
    · exact absurd phase blocked

/-- What a dish sees is left by the entry of another. -/
theorem MayEnter.other {b : Blocks} {d e : DishId} (h : MayEnter b e) (hne : e ≠ d) :
    MayEnter (b.stowEntered [d]) e := by
  have dish : (b.stowEntered [d]).dish e = b.dish e := by rw [Blocks.stowEntered_dish, if_neg (by simpa using hne)]
  have stow : (b.stowEntered [d]).stow e = b.stow e := by rw [Blocks.stowEntered_stow, if_neg (by simpa using hne)]
  unfold MayEnter stowPlan
  rw [dish, stow]
  exact h

theorem stowEntered_cons {b : Blocks} {d : DishId} {l : List DishId} (hd : d ∉ l) :
    (b.stowEntered [d]).stowEntered l = b.stowEntered (d :: l)
      ∧ l.filter (claimsStow (b.stowEntered [d])) = l.filter (claimsStow b) := by
  have dish : ∀ e ∈ l, (b.stowEntered [d]).dish e = b.dish e := fun e he => by
    rw [Blocks.stowEntered_dish, if_neg (by simpa using ne_of_mem_of_not_mem he hd)]
  have stow : ∀ e ∈ l, (b.stowEntered [d]).stow e = b.stow e := fun e he => by
    rw [Blocks.stowEntered_stow, if_neg (by simpa using ne_of_mem_of_not_mem he hd)]
  have entries : l.flatMap (blockedEntry (b.stowEntered [d])) = l.flatMap (blockedEntry b) := by
    refine List.flatMap_congr fun e he => ?_
    unfold blockedEntry
    rw [dish e he, stow e he]
    rfl
  refine ⟨?_, List.filter_congr fun e he => by rw [claimsStow, claimsStow, dish e he, stow e he]⟩
  have dishes : ((b.stowEntered [d]).stowEntered l).dishes = (b.stowEntered (d :: l)).dishes := by
    refine Vector.ext fun i hi => ?_
    show ((b.stowEntered [d]).stowEntered l).dish ⟨i, hi⟩ = (b.stowEntered (d :: l)).dish ⟨i, hi⟩
    rw [Blocks.stowEntered_dish l, Blocks.stowEntered_dish (d :: l)]
    by_cases he : (⟨i, hi⟩ : DishId) ∈ l
    · rw [if_pos he, if_pos (List.mem_cons_of_mem _ he), dish _ he, stow _ he]
    · rw [if_neg he, Blocks.stowEntered_dish [d]]
      simp [he]
  have records : ((b.stowEntered [d]).stowEntered l).wind.records = (b.stowEntered (d :: l)).wind.records := by
    refine Vector.ext fun i hi => ?_
    show ((b.stowEntered [d]).stowEntered l).stow ⟨i, hi⟩ = (b.stowEntered (d :: l)).stow ⟨i, hi⟩
    rw [Blocks.stowEntered_stow l, Blocks.stowEntered_stow (d :: l)]
    by_cases he : (⟨i, hi⟩ : DishId) ∈ l
    · rw [if_pos he, if_pos (List.mem_cons_of_mem _ he), dish _ he, stow _ he]
    · rw [if_neg he, Blocks.stowEntered_stow [d]]
      simp [he]
  have out : ((b.stowEntered [d]).stowEntered l).out = (b.stowEntered (d :: l)).out := by
    show b.out ++ [d].flatMap (blockedEntry b) ++ l.flatMap (blockedEntry (b.stowEntered [d])) = _
    rw [entries, List.append_assoc, ← List.flatMap_append]
    rfl
  have parts : ∀ (n : List DishId) (c : Blocks), c.stowEntered n = { c with
      dishes := (c.stowEntered n).dishes, wind := { c.wind with records := (c.stowEntered n).wind.records }
      out := (c.stowEntered n).out } := fun _ _ => rfl
  rw [parts l, parts (d :: l), dishes, records, out]
  rfl

/-- The dishes are worked one after another; those still to claim are gathered (R108). -/
theorem enterStow_all {l : List DishId} (hn : l.Nodup) {b : Blocks} (h : ∀ d ∈ l, MayEnter b d) (m : List DishId) :
    l.foldl enterStow (b, m) = (b.stowEntered l, m ++ l.filter (claimsStow b)) := by
  induction l generalizing b m with
  | nil =>
    have none : b.stowEntered [] = b := by
      have dishes : Vector.ofFn (fun e : Fin 12 => b.dish e) = b.dishes := Vector.ext fun i hi => by simp [Blocks.dish]
      have records : Vector.ofFn (fun e : Fin 12 => b.stow e) = b.wind.records :=
        Vector.ext fun i hi => by simp [Blocks.stow]
      simp [Blocks.stowEntered, dishes, records]
    rw [List.foldl_nil, none, List.filter_nil, List.append_nil]
  | cons d l ih =>
    obtain ⟨hd, hl⟩ := List.nodup_cons.mp hn
    obtain ⟨blocks, claims⟩ := stowEntered_cons (b := b) hd
    have rest := ih hl (b := b.stowEntered [d])
      (fun e he => (h e (List.mem_cons_of_mem _ he)).other (ne_of_mem_of_not_mem he hd))
      (m ++ [d].filter (claimsStow b))
    rw [List.foldl_cons, enterStow_eq (h d (by simp)), rest, blocks, claims, List.append_assoc, ← List.filter_append]
    rfl

end Sys2Proof.Machine
end

