-- ==== Sys2Proof/Proofs/StowBatches.lean ====
section
/-! SUPPORT. A batch of STOW claims that no power is left for (R75, R76, R80). -/

namespace Sys2Proof.Machine

/-! ### The STOW claims of an entry (R75, R76, R80) -/

/-- The claim of a stow that needs the elevation drive alone (R109). -/
def stowClaim (b : Blocks) (d : DishId) (n : Nat) : Claim :=
  ⟨d, .ww, .stow, false, true, b.settings.elPeak, b.settings.azPeak, b.settings.elPeak, n⟩

/-- The claims of several dishes, in their order. -/
def stowClaims (b : Blocks) (n : Nat) (ds : List DishId) : List Claim :=
  (List.range ds.length).zipWith (fun i d => stowClaim b d (n + i)) ds

theorem stowClaims_cons (b : Blocks) (n : Nat) (d : DishId) (ds : List DishId) :
    stowClaims b n (d :: ds) = stowClaim b d n :: stowClaims b (n + 1) ds := by
  unfold stowClaims
  rw [List.length_cons, List.range_succ_eq_map, List.zipWith_cons_cons, List.zipWith_map_left]
  simp only [Nat.add_zero, Nat.succ_eq_add_one, Nat.add_assoc, Nat.add_comm 1]

/-- Blocks in which these claims have joined the queue (R75). -/
def Blocks.claimed (cs : List Claim) (b : Blocks) : Blocks :=
  b.modFa (fun fa => { fa with queue := fa.queue ++ cs, sequence := fa.sequence + cs.length })

theorem enqueue_stow {c : Claim} {q : List Claim} (hc : c.cls = .stow) (hq : ∀ e ∈ q, e.cls = .stow) :
    enqueue c q = q ++ [c] := by
  induction q with
  | nil => rfl
  | cons e es ih =>
    have rank : ¬ c.cls.rank < e.cls.rank := by
      rw [hc, hq e (by simp)]
      exact Nat.lt_irrefl _
    rw [enqueue, if_neg rank, ih fun x hx => hq x (List.mem_cons_of_mem _ hx)]
    rfl

/-- A STOW claim joins behind the STOW claims before it (R76). -/
theorem submitQuiet_stow {b : Blocks} {d : DishId} (hg : b.fa.grants[d] = none)
    (hd : ∀ c ∈ b.fa.queue, c.dish ≠ d) (hs : ∀ c ∈ b.fa.queue, c.cls = .stow) :
    submitQuiet (makeClaim b d .ww .stow false true) b
      = (b.claimed [stowClaim b d b.fa.sequence], .joined) := by
  have claim : makeClaim b d .ww .stow false true = stowClaim b d b.fa.sequence := by
    simp [makeClaim, stowClaim]
  have unqueued : queuedClaim b d = none :=
    List.find?_eq_none.mpr fun c hc => by simpa using hd c hc
  have joined : joinQueue (stowClaim b d b.fa.sequence) b = b.claimed [stowClaim b d b.fa.sequence] := by
    unfold joinQueue Blocks.claimed
    rw [Blocks.modFa, enqueue_stow rfl hs]
    rfl
  have free : b.fa.grants[(stowClaim b d b.fa.sequence).dish] = none := hg
  have first : queuedClaim b (stowClaim b d b.fa.sequence).dish = none := unqueued
  rw [claim]
  unfold submitQuiet
  rw [free, first, joined]
  rfl

/-- One claim of a batch is submitted (R76). -/
def joinStow (acc : Blocks × Bool) (d : DishId) : Blocks × Bool :=
  match submitQuiet (makeClaim acc.1 d .ww .stow false true) acc.1 with
  | (b', .joined) => (b', true)
  | (b', _) => (b', acc.2)

theorem submitStows_eq (ds : List DishId) (b : Blocks) : submitStows ds b =
    if (ds.foldl joinStow (b, false)).2 then grantEvent (ds.foldl joinStow (b, false)).1
    else (ds.foldl joinStow (b, false)).1 := rfl

/-- The claims of a batch before their grant event (R76). -/
theorem submitQuiet_batch {ds : List DishId} (hn : ds.Nodup) {b : Blocks} (hg : ∀ d ∈ ds, b.fa.grants[d] = none)
    (hd : ∀ c ∈ b.fa.queue, c.dish ∉ ds) (hs : ∀ c ∈ b.fa.queue, c.cls = .stow) (any : Bool) :
    ds.foldl joinStow (b, any) = (b.claimed (stowClaims b b.fa.sequence ds), any || !ds.isEmpty) := by
  induction ds generalizing b any with
  | nil => simp [stowClaims, Blocks.claimed, Blocks.modFa]
  | cons d ds ih =>
    obtain ⟨head, tail⟩ := List.nodup_cons.mp hn
    have first := submitQuiet_stow (hg d (by simp)) (fun c hc e => hd c hc (e ▸ by simp)) hs
    have queue : ∀ c ∈ (b.claimed [stowClaim b d b.fa.sequence]).fa.queue,
        c ∈ b.fa.queue ∨ c = stowClaim b d b.fa.sequence := fun c hc =>
      (List.mem_append.mp hc).imp id List.mem_singleton.mp
    have rest := ih tail (b := b.claimed [stowClaim b d b.fa.sequence]) (fun e he => hg e (List.mem_cons_of_mem _ he))
      (fun c hc => by
        rcases queue c hc with old | rfl
        · exact fun he => hd c old (List.mem_cons_of_mem _ he)
        · exact head)
      (fun c hc => by
        rcases queue c hc with old | rfl
        · exact hs c old
        · rfl) true
    have joins : joinStow (b, any) d = (b.claimed [stowClaim b d b.fa.sequence], true) := by
      unfold joinStow
      rw [first]
    rw [List.foldl_cons, joins]
    refine rest.trans ?_
    rw [stowClaims_cons]
    have together : (b.claimed [stowClaim b d b.fa.sequence]).claimed (stowClaims b (b.fa.sequence + 1) ds)
        = b.claimed (stowClaim b d b.fa.sequence :: stowClaims b (b.fa.sequence + 1) ds) := by
      simp [Blocks.claimed, Blocks.modFa, Nat.add_assoc, Nat.add_comm 1]
    refine congrArg₂ Prod.mk together ?_
    simp

theorem stowClaims_pos {b : Blocks} (h : 0 < b.settings.elPeak) {n : Nat} {ds : List DishId} {c : Claim}
    (hc : c ∈ stowClaims b n ds) : 0 < c.amount := by
  induction ds generalizing n with
  | nil => cases hc
  | cons d ds ih =>
    rw [stowClaims_cons] at hc
    rcases List.mem_cons.mp hc with rfl | hc
    · exact h
    · exact ih hc

/-- A batch of STOW claims for which no power is free waits in its order (R76, R80). -/
theorem submitStows_wait {ds : List DishId} (hn : ds.Nodup) {b : Blocks} (hg : ∀ d ∈ ds, b.fa.grants[d] = none)
    (hheat : b.HeatQuiet) (hq : b.fa.queue = []) (hroom : remainder b.fa = 0) (hel : 0 < b.settings.elPeak) :
    submitStows ds b = { b.claimed (stowClaims b b.fa.sequence ds) with
      out := b.out ++ if ds = [] then [] else [.page .power] } := by
  have none : ∀ c, c ∉ b.fa.queue := fun c hc => by rw [hq] at hc; cases hc
  have batch := submitQuiet_batch hn hg (fun c hc => absurd hc (none c)) (fun c hc => absurd hc (none c)) false
  rw [submitStows_eq, batch]
  cases ds with
  | nil =>
    rw [if_pos rfl, List.append_nil]
    rfl
  | cons d ds =>
    have queue : (b.claimed (stowClaims b b.fa.sequence (d :: ds))).fa.queue = stowClaims b b.fa.sequence
      (d :: ds) := by
      show b.fa.queue ++ _ = _
      rw [hq, List.nil_append]
    refine (if_pos rfl).trans ?_
    rw [grantEvent_noRoom (b := b.claimed (stowClaims b b.fa.sequence (d :: ds))) hheat hroom
      (fun c hc => stowClaims_pos hel (queue ▸ hc)), if_neg (by simp)]
    rfl

/-! ### Ascending elevation (R76) -/

/-- The order of a batch: ascending elevation, equal ones by dish number (R76). -/
def Lower (el : DishId → Int) (d e : DishId) : Prop := el d < el e ∨ (el d = el e ∧ d.val < e.val)

theorem Lower.trans {el : DishId → Int} {d e g : DishId} (h1 : Lower el d e) (h2 : Lower el e g) : Lower el d g := by
  unfold Lower at *
  omega

theorem Lower.irrefl (el : DishId → Int) (d : DishId) : ¬ Lower el d d := by
  unfold Lower
  omega

theorem mem_insertByElevation {el : DishId → Int} {d e : DishId} {l : List DishId} :
    e ∈ insertByElevation el d l ↔ e = d ∨ e ∈ l := by
  induction l with
  | nil => exact List.mem_cons
  | cons g l ih =>
    unfold insertByElevation
    split
    · exact List.mem_cons
    · rw [List.mem_cons, ih, List.mem_cons]
      tauto

theorem insertByElevation_lower {el : DishId → Int} {d : DishId} {l : List DishId} (hl : l.Pairwise (Lower el))
    (hd : ∀ e ∈ l, e < d) : (insertByElevation el d l).Pairwise (Lower el) := by
  induction l with
  | nil => exact List.pairwise_singleton _ _
  | cons g l ih =>
    obtain ⟨first, rest⟩ := List.pairwise_cons.mp hl
    unfold insertByElevation
    split
    · next below =>
      have lower : Lower el d g := .inl below
      refine List.pairwise_cons.mpr ⟨fun e he => ?_, hl⟩
      rcases List.mem_cons.mp he with rfl | he
      · exact lower
      · exact lower.trans (first e he)
    · next notBelow =>
      refine List.pairwise_cons.mpr ⟨fun e he => ?_, ih rest fun e he => hd e (List.mem_cons_of_mem _ he)⟩
      rcases mem_insertByElevation.mp he with rfl | he
      · have number : g.val < e.val := hd g (by simp)
        unfold Lower
        omega
      · exact first e he

/-- Dishes gathered in ascending number end up in the order of the batch (R76). -/
theorem byElevation_lower (el : DishId → Int) {l : List DishId} (hl : l.Pairwise (· < ·)) :
    (byElevation el l).Pairwise (Lower el) ∧ ∀ e, e ∈ byElevation el l ↔ e ∈ l := by
  induction l using List.reverseRecOn with
  | nil => exact ⟨List.Pairwise.nil, fun e => Iff.rfl⟩
  | append_singleton l d ih =>
    obtain ⟨before, -, above⟩ := List.pairwise_append.mp hl
    obtain ⟨sorted, mem⟩ := ih before
    have last : byElevation el (l ++ [d]) = insertByElevation el d (byElevation el l) := by
      unfold byElevation
      rw [List.foldl_append]
      rfl
    rw [last]
    refine ⟨insertByElevation_lower sorted fun e he => above e ((mem e).mp he) d (by simp), fun e => ?_⟩
    rw [mem_insertByElevation, mem, List.mem_append, List.mem_singleton, or_comm]

/-- The order is the only one of its dishes (R76). -/
theorem lower_unique {el : DishId → Int} {l m : List DishId} (hl : l.Pairwise (Lower el)) (hm : m.Pairwise (Lower el))
    (h : ∀ e, e ∈ l ↔ e ∈ m) : l = m := by
  have asymm : ∀ d e, Lower el d e → ¬ Lower el e d := fun d e h1 h2 => Lower.irrefl el d (h1.trans h2)
  have nodup : ∀ {k : List DishId}, k.Pairwise (Lower el) → k.Nodup := fun hk =>
    hk.imp fun {d e} (h : Lower el d e) (same : d = e) => Lower.irrefl el e (same ▸ h)
  exact ((List.perm_ext_iff_of_nodup (nodup hl) (nodup hm)).mpr h).eq_of_pairwise
    (fun d e _ _ h1 h2 => absurd h2 (asymm d e h1)) hl hm

end Sys2Proof.Machine
end

