-- ==== Sys2Proof/Proofs/StowingEntered.lean ====
section
/-! SUPPORT. The entry into STOWING as a whole, and what ends it (R59, R107 to R115). -/

namespace Sys2Proof.Machine

/-! ### What a stow trigger enters (R59, R107 to R109, R112) -/

/-- A stopping dish of FP after its release (R59). -/
def Dish.stopped (x : Dish) : Dish := if x.owner = some .fp then { x with task := .none, owner := none } else x

theorem releaseDish_stopped {d : DishId} {b : Blocks} (h : (b.dish d).owner = some .fp → (b.dish d).drive = .stopping) :
    releaseDish .fp d b = b.modDish d Dish.stopped := by
  unfold releaseDish
  dsimp only
  by_cases ho : (b.dish d).owner = some .fp
  · rw [if_neg (not_not.mpr ho), h ho]
    exact Blocks.modDish_congr (if_pos ho).symm
  · have same : (b.dish d).stopped = b.dish d := if_neg ho
    rw [if_pos ho, Blocks.modDish_same same]

theorem blockedBy_stopped {x : Dish} (h : x.owner = some .fp → x.task = .formation) :
    blockedBy x.stopped = blockedBy x := by
  unfold Dish.stopped
  split
  · next ho =>
    have task := h ho
    unfold blockedBy
    dsimp only
    rw [task]
    rfl
  · rfl

theorem stowPlan_stopped (st : Settings) (x : Dish) (az : AzimuthTarget) (el : Int) (floor : Option Int) :
    plan st x.stopped az el floor = plan st x az el floor := by
  unfold Dish.stopped
  split <;> rfl

theorem Dish.stopped_drive (x : Dish) : x.stopped.drive = x.drive := by
  unfold Dish.stopped
  split <;> rfl

theorem Dish.stopped_el (x : Dish) : x.stopped.el = x.el := by
  unfold Dish.stopped
  split <;> rfl

theorem Dish.stopped_score (x : Dish) : x.stopped.score = x.score := by
  unfold Dish.stopped
  split <;> rfl

theorem Dish.windTaken_el (r : StowRecord) (x : Dish) : (x.windTaken r).el = x.el := by
  unfold Dish.windTaken
  split <;> rfl

theorem Dish.windTaken_score (r : StowRecord) (x : Dish) : (x.windTaken r).score = x.score := by
  unfold Dish.windTaken
  split <;> rfl

/-- The dishes of the blocks may all enter STOWING, and no formation and no shed hinders it (R59, R107 to R109). -/
structure MayStow (b : Blocks) : Prop where
  forms : ∀ f, (b.form f).state = .unused ∨ (b.form f).state = .idle
  sheds : ∀ d, (b.shed d).phase = .none
  fp : ∀ d, (b.dish d).owner = some .fp → (b.dish d).drive = .stopping ∧ (b.dish d).task = .formation
  dishes : ∀ d, MayEnter b d

/-- No power is free for the STOW claims of these dishes (R80). -/
structure StowsWait (b : Blocks) (moving : List DishId) : Prop where
  heat : b.HeatQuiet
  queue : b.fa.queue = []
  room : remainder b.fa = 0
  peak : 0 < b.settings.elPeak
  grants : ∀ d ∈ moving, b.fa.grants[d] = none
  order : moving.Pairwise (Lower (fun d => standingElevation (b.dish d)))
  mem : ∀ d, d ∈ moving ↔ claimsStow b d = true

/-- The blocks before the dishes are classed: the formations and sheds ended, the deadline started (R59, R108,
R113). -/
def stowingBegun (b : Blocks) : Blocks :=
  { b with
    dishes := Vector.ofFn (fun d : Fin 12 => (b.dish d).stopped)
    wind := { b.wind with
      state := .stowing, records := b.wind.records.map (fun r => { r with late := false })
      deadline := b.timer (1000 * b.settings.stowDeadline) } }

theorem stowingBegun_dish (b : Blocks) (d : DishId) : (stowingBegun b).dish d = (b.dish d).stopped := by
  simp [stowingBegun, Blocks.dish]

theorem stowingBegun_stow (b : Blocks) (d : DishId) : (stowingBegun b).stow d = { b.stow d with late := false } := by
  simp [stowingBegun, Blocks.stow]

theorem stowFormation_idle {b : Blocks} {f : FormationId} (h : (b.form f).state = .unused ∨ (b.form f).state = .idle) :
    stowFormation f b = b := by
  unfold stowFormation
  rcases h with e | e
  · dsimp only
    rw [e]
    rfl
  · dsimp only
    rw [e]
    rfl

theorem stowFormations_stopped {b : Blocks} (hforms : ∀ f, (b.form f).state = .unused ∨ (b.form f).state = .idle)
    (hfp : ∀ d, (b.dish d).owner = some .fp → (b.dish d).drive = .stopping) :
    stowFormations b = b.modDishes allDishes Dish.stopped := by
  have forms : overFormations stowFormation b = b :=
    foldl_fixed_mem fun f _ => stowFormation_idle (hforms f)
  rw [stowFormations, forms]
  refine overDishes_records (by decide) fun d _ v hv => releaseDish_stopped ?_
  have same : ({ b with dishes := v } : Blocks).dish d = b.dish d := hv
  rw [same]
  exact hfp d

theorem endSheds_none {b : Blocks} (h : ∀ d, (b.shed d).phase = .none) : endSheds b = b := by
  refine overDishes_fix _ _ _ fun d _ => ?_
  unfold endShed
  rw [h d]

theorem mem_allDishes (d : DishId) : d ∈ allDishes := by revert d; decide

/-- The formations, the sheds, the marks and the deadline at the entry (R59, R108, R113). -/
theorem stowingBegun_eq {b : Blocks} (h : MayStow b) :
    let b1 := endSheds (stowFormations (b.modWind (fun x => { x with state := .stowing })))
    b1.modWind (fun x => { x with
      records := x.records.map (fun r => { r with late := false })
      deadline := b1.timer (1000 * b1.settings.stowDeadline) }) = stowingBegun b := by
  obtain ⟨forms, sheds, fp, -⟩ := h
  have stopped := stowFormations_stopped (b := b.modWind (fun x => { x with state := .stowing })) forms
    fun d ho => (fp d ho).1
  have ended : endSheds ((b.modWind (fun x => { x with state := .stowing })).modDishes allDishes Dish.stopped)
      = (b.modWind (fun x => { x with state := .stowing })).modDishes allDishes Dish.stopped := endSheds_none sheds
  have dishes : ((b.modWind (fun x => { x with state := .stowing })).modDishes allDishes Dish.stopped).dishes
      = (stowingBegun b).dishes := by
    refine Vector.ext fun i hi => ?_
    simp [Blocks.modDishes, stowingBegun, mem_allDishes]
  intro b1
  have begun : b1 = { b.modWind (fun x => { x with state := .stowing }) with dishes := (stowingBegun b).dishes } := by
    show endSheds (stowFormations (b.modWind (fun x => { x with state := .stowing }))) = _
    rw [stopped, ended, ← dishes]
    rfl
  rw [begun]
  rfl

theorem MayEnter.begun {b : Blocks} (h : MayStow b) (d : DishId) : MayEnter (stowingBegun b) d := by
  obtain ⟨holder, phases, wanted, moves⟩ := h.dishes d
  unfold MayEnter
  unfold stowPlan at moves ⊢
  rw [stowingBegun_dish, stowingBegun_stow, blockedBy_stopped fun ho => (h.fp d ho).2, Dish.stopped_drive]
  refine ⟨holder, phases, wanted, fun free phase => ?_⟩
  obtain ⟨unpinned, notPinning, p, plan, el⟩ := moves free phase
  exact ⟨unpinned, notPinning, p, (stowPlan_stopped _ _ _ _ _).trans plan, el⟩

theorem claimsStow_begun {b : Blocks} (h : MayStow b) (d : DishId) :
    claimsStow (stowingBegun b) d = claimsStow b d := by
  unfold claimsStow
  rw [stowingBegun_dish, stowingBegun_stow, blockedBy_stopped fun ho => (h.fp d ho).2]

theorem blockedEntry_begun {b : Blocks} (h : MayStow b) (d : DishId) :
    blockedEntry (stowingBegun b) d = blockedEntry b d := by
  unfold blockedEntry
  rw [stowingBegun_dish, stowingBegun_stow, blockedBy_stopped fun ho => (h.fp d ho).2]
  rfl

/-- The blocks in STOWING: every dish classed, the claims of those that move queued (R108, R109). -/
def stowingEntered (moving : List DishId) (b : Blocks) : Blocks :=
  { ((stowingBegun b).stowEntered allDishes).claimed (stowClaims b b.fa.sequence moving) with out := b.out }

theorem stowingEntered_frame (moving : List DishId) (b : Blocks) : stowingEntered moving b = { b with
    dishes := (stowingEntered moving b).dishes
    wind := { b.wind with
      state := .stowing, records := (stowingEntered moving b).wind.records
      deadline := b.timer (1000 * b.settings.stowDeadline) }
    fa := { b.fa with
      queue := b.fa.queue ++ stowClaims b b.fa.sequence moving
      sequence := b.fa.sequence + (stowClaims b b.fa.sequence moving).length } } := by
  unfold stowingEntered Blocks.claimed Blocks.modFa Blocks.stowEntered stowingBegun
  dsimp only

theorem stowingEntered_state (moving : List DishId) (b : Blocks) :
    (stowingEntered moving b).wind.state = .stowing := by rw [stowingEntered_frame]

theorem stowingEntered_standing (moving : List DishId) (b : Blocks) :
    (stowingEntered moving b).wind.standing = b.wind.standing := by rw [stowingEntered_frame]

theorem stowingEntered_sheds (moving : List DishId) (b : Blocks) : (stowingEntered moving b).sheds = b.sheds := by
  rw [stowingEntered_frame]

theorem stowingEntered_inbox (moving : List DishId) (b : Blocks) : (stowingEntered moving b).inbox = b.inbox := by
  rw [stowingEntered_frame]

theorem stowingEntered_dishes (moving : List DishId) (b : Blocks) :
    (stowingEntered moving b).dishes = ((stowingBegun b).stowEntered allDishes).dishes := by
  unfold stowingEntered Blocks.claimed Blocks.modFa
  dsimp only

theorem stowingEntered_records (moving : List DishId) (b : Blocks) :
    (stowingEntered moving b).wind.records = ((stowingBegun b).stowEntered allDishes).wind.records := by
  unfold stowingEntered Blocks.claimed Blocks.modFa
  dsimp only

theorem stowingEntered_dish (moving : List DishId) (b : Blocks) (d : DishId) :
    (stowingEntered moving b).dish d = (b.dish d).stopped.windTaken { b.stow d with late := false } := by
  have entered := Blocks.stowEntered_dish allDishes (stowingBegun b) d
  rw [if_pos (mem_allDishes d), stowingBegun_dish, stowingBegun_stow] at entered
  rw [Blocks.dish, stowingEntered_dishes]
  exact entered

theorem stowingEntered_stow (moving : List DishId) (b : Blocks) (d : DishId) :
    (stowingEntered moving b).stow d = StowRecord.entered (b.dish d).stopped { b.stow d with late := false } := by
  have entered := Blocks.stowEntered_stow allDishes (stowingBegun b) d
  rw [if_pos (mem_allDishes d), stowingBegun_dish, stowingBegun_stow] at entered
  rw [Blocks.stow, stowingEntered_records]
  exact entered

/-- The entry of a change of WIND STATE, with its republication and its cause (R105, R168). -/
def windEntry (b : Blocks) (old new : WindState) (t : WindTrigger) : List Output :=
  [.trail (.windState old new b.wind.gust b.wind.mean b.wind.reading.set t) b.clock.time b.clock.valid,
    .page .common, .cause .wind]

/-- The dishes that claim, in the order of the batch (R76, R109). -/
theorem byElevation_moving {moving : List DishId} {b : Blocks} (h : MayStow b) (hw : StowsWait b moving) :
    byElevation (fun d => standingElevation (((stowingBegun b).stowEntered allDishes).dish d))
      (allDishes.filter (claimsStow (stowingBegun b))) = moving := by
  have elevation : (fun d => standingElevation (((stowingBegun b).stowEntered allDishes).dish d))
      = fun d => standingElevation (b.dish d) := funext fun d => by
    rw [Blocks.stowEntered_dish, if_pos (mem_allDishes d), stowingBegun_dish, standingElevation, standingElevation,
      Dish.windTaken_el, Dish.stopped_el]
  have ascending : allDishes.Pairwise (· < ·) := by decide
  obtain ⟨sorted, mem⟩ := byElevation_lower (fun d => standingElevation (b.dish d))
    (ascending.filter (claimsStow (stowingBegun b)))
  rw [elevation]
  refine lower_unique sorted hw.order fun d => ?_
  rw [mem, List.mem_filter, claimsStow_begun h, hw.mem]
  exact and_iff_right (mem_allDishes d)

/-- The entry into STOWING (R59, R107 to R109, R113). -/
theorem enterStowing_eq {moving : List DishId} {b : Blocks} (h : MayStow b) (hw : StowsWait b moving)
    (t : WindTrigger) : enterStowing t b = { stowingEntered moving b with
      out := b.out ++ allDishes.flatMap (blockedEntry b) ++ (if moving = [] then [] else [.page .power])
        ++ windEntry b b.wind.state .stowing t } := by
  have classed := enterStow_all (l := allDishes) (by decide) (fun d _ => MayEnter.begun h d) []
  have entries : allDishes.flatMap (blockedEntry (stowingBegun b)) = allDishes.flatMap (blockedEntry b) :=
    List.flatMap_congr fun d _ => blockedEntry_begun h d
  obtain ⟨heat, queue, room, peak, grants, order, -⟩ := id hw
  have distinct : moving.Nodup := order.imp fun {d e} (hl : Lower _ d e) (same : d = e) => Lower.irrefl _ e (same ▸ hl)
  have submitted := submitStows_wait distinct (b := (stowingBegun b).stowEntered allDishes) grants heat queue room peak
  have begun := stowingBegun_eq h
  dsimp only at begun
  unfold enterStowing
  dsimp only
  rw [begun, classed, List.nil_append, byElevation_moving h hw, submitted]
  unfold stowingEntered
  simp only [Blocks.cause, Blocks.publish, Blocks.trail, windEntry]
  rw [show ((stowingBegun b).stowEntered allDishes).out = b.out ++ allDishes.flatMap (blockedEntry b) from
    congrArg (b.out ++ ·) entries]
  simp only [List.append_assoc, List.cons_append, List.nil_append]
  rfl

/-! ### The rest of a wind second (R112, R115) -/

theorem blockedBy_cause {x : Dish} {c : BlockCause} (h : blockedBy x = some c) : c = .fault ∨ c = .lock := by
  unfold blockedBy at h
  split_ifs at h <;> cases h <;> simp

/-- The causes of a dish that is BLOCKED already: one that R115 does not look at each second, or a POSITION that is
still unknown. -/
def BlockedStill (b : Blocks) (d : DishId) : Prop :=
  (b.stow d).phase = .blocked → (b.stow d).cause = some .lock ∨ (b.stow d).cause = some .fault
    ∨ ((b.stow d).cause = some .position ∧ blockedBy (b.dish d) = none ∧ (b.dish d).el.encoder = none)

/-- A dish BLOCKED for a POSITION that is still unknown stays as it is (R115). -/
theorem recheckBlocked_position {b : Blocks} {d : DishId} (hc : (b.stow d).cause = some .position)
    (hb : blockedBy (b.dish d) = none) (he : (b.dish d).el.encoder = none) : recheckBlocked d b = b := by
  have still : stillBlocked b d = some .position := by
    unfold stillBlocked
    dsimp only
    rw [hb, hc]
    exact if_pos (.inr he)
  unfold recheckBlocked
  rw [still]
  refine Blocks.modStow_same ?_
  rw [← hc]

theorem recheckPositions_fix {b : Blocks}
    (h : ∀ d, isBlocked b d [.position, .barred] = true → recheckBlocked d b = b) : recheckPositions b = b := by
  refine overDishes_fix _ _ _ fun d _ => ?_
  split
  · next blocked => exact h d blocked
  · rfl

theorem isBlocked_elim {b : Blocks} {d : DishId} (h : isBlocked b d [.position, .barred] = true) :
    (b.stow d).phase = .blocked ∧ ((b.stow d).cause = some .position ∨ (b.stow d).cause = some .barred) := by
  simpa [isBlocked] using h

theorem stowingEntered_rechecked {moving : List DishId} {b : Blocks} {outs : List Output} (h : MayStow b)
    (hb : ∀ d, BlockedStill b d) :
    recheckPositions { stowingEntered moving b with out := outs } = { stowingEntered moving b with out := outs } := by
  refine recheckPositions_fix fun d blocked => ?_
  obtain ⟨phase, cause⟩ := isBlocked_elim blocked
  have stow : ({ stowingEntered moving b with out := outs } : Blocks).stow d
      = StowRecord.entered (b.dish d).stopped { b.stow d with late := false } := stowingEntered_stow moving b d
  have dish : ({ stowingEntered moving b with out := outs } : Blocks).dish d
      = (b.dish d).stopped.windTaken { b.stow d with late := false } := stowingEntered_dish moving b d
  have same : blockedBy (b.dish d).stopped = blockedBy (b.dish d) := blockedBy_stopped fun ho => (h.fp d ho).2
  rw [stow] at phase cause
  unfold StowRecord.entered at phase cause
  by_cases old : (b.stow d).phase = .blocked
  · have kept : StowRecord.entered (b.dish d).stopped { b.stow d with late := false }
        = { b.stow d with late := false } := if_pos old
    rw [if_pos old] at cause
    have position : (b.stow d).cause = some .position ∧ blockedBy (b.dish d) = none ∧ (b.dish d).el.encoder = none := by
      rcases hb d old with e | e | e
      · simp [e] at cause
      · simp [e] at cause
      · exact e
    obtain ⟨unknown, free, encoder⟩ := position
    have untaken : (b.dish d).stopped.windTaken { b.stow d with late := false } = (b.dish d).stopped :=
      Dish.windTaken_kept (.inl old)
    refine recheckBlocked_position ?_ ?_ ?_
    · rw [stow, kept, unknown]
    · rw [dish, untaken, same, free]
    · rw [dish, untaken, Dish.stopped_el, encoder]
  · rw [if_neg old] at phase cause
    cases e : blockedBy (b.dish d).stopped with
    | some c =>
      rw [e] at cause
      rcases blockedBy_cause e with rfl | rfl <;> simp at cause
    | none =>
      rw [e] at phase
      dsimp only at phase
      split at phase
      · exact absurd phase old
      · cases phase

/-- Whether a dish moves to stow after the entry (R106). -/
theorem movingToStow_entered {moving : List DishId} {b : Blocks} {d : DishId} (h : MayStow b) (outs : List Output) :
    movingToStow { stowingEntered moving b with out := outs } d = claimsStow b d := by
  have stow : ({ stowingEntered moving b with out := outs } : Blocks).stow d
      = StowRecord.entered (b.dish d).stopped { b.stow d with late := false } := stowingEntered_stow moving b d
  have dish : ({ stowingEntered moving b with out := outs } : Blocks).dish d
      = (b.dish d).stopped.windTaken { b.stow d with late := false } := stowingEntered_dish moving b d
  have same : blockedBy (b.dish d).stopped = blockedBy (b.dish d) := blockedBy_stopped fun ho => (h.fp d ho).2
  obtain ⟨-, phases, -, -⟩ := h.dishes d
  unfold movingToStow claimsStow
  rw [stow, dish]
  unfold StowRecord.entered Dish.windTaken
  rw [same]
  cases cause : blockedBy (b.dish d) with
  | some c => rcases phases with e | e | e <;> simp [e]
  | none => rcases phases with e | e | e <;> simp [e, Dish.reasonsEmpty, beq_eq_decide]

/-- STOWING goes on while a dish is moving to stow, and ends at once where none is (R112). -/
theorem settle_stowing {b : Blocks} {moving : List DishId} (old : Blocks)
    (hm : ∀ d, movingToStow b d = true ↔ d ∈ moving) (hw : b.wind.state = .stowing) (hs : b.wind.standing = [])
    (hc : ∀ d, (b.shed d).phase ≠ .claiming) (hi : b.inbox = []) :
    settle old b = if moving = [] then changeWind .stowed .complete b else b := by
  split
  · next idle =>
    have noneMoves : allDishes.any (movingToStow b) = false := by
      refine List.any_eq_false.mpr fun d _ moves => ?_
      rw [hm, idle] at moves
      cases moves
    have unclaimed : overDishes allDishes (fun d x =>
        if shedTouched (old.dish d) (x.dish d) then recheckShed d x else x) b = b :=
      overDishes_fix _ _ _ fun d _ => by simp [recheckShed_fix d b (hc d)]
    have tidied : tidy old b = changeWind .stowed .complete b := by
      unfold tidy
      dsimp only
      rw [unclaimed, reviewStows_fix b hs, checkStowed, if_pos ⟨hw, noneMoves⟩]
    have inbox : (changeWind .stowed .complete b).inbox = b.inbox := by
      unfold changeWind
      dsimp only
      split <;> rfl
    rw [settle, tidied, drain_empty _ _ (inbox.trans hi)]
  · next some =>
    obtain ⟨d, rest, list⟩ := List.exists_cons_of_ne_nil some
    have moves : movingToStow b d = true := (hm d).mpr (list ▸ List.mem_cons_self)
    exact settle_still (skip := none) old ⟨hs, fun _ => ⟨d, by simp, moves⟩, hc⟩ hi

/-- The entry into STOWED from STOWING (R105, R112). -/
theorem changeWind_complete {b : Blocks} (h : b.wind.state = .stowing) :
    changeWind .stowed .complete b = { b.modWind (fun w => { w with state := .stowed }) with
      out := b.out ++ windEntry b .stowing .stowed .complete } := by
  unfold changeWind windEntry
  dsimp only
  rw [h, if_pos (by decide)]
  simp only [Blocks.cause, Blocks.publish, Blocks.trail, List.append_assoc, List.cons_append, List.nil_append]
  rfl

/-- Blocks that differ in the dishes, the lines, the wind watch and the arbiter touch no page of a formation, of a
zone or of the lock view, but by a score. -/
theorem untouched_entry {pg : Page} {b b' : Blocks}
    (hpg : pg ∉ [Page.wind, .power, .common] ++ allDishes.map Page.dish)
    (h : b' = { b with
      clock := b'.clock, dishes := b'.dishes, lines := b'.lines, wind := b'.wind, fa := b'.fa, out := b'.out })
    (hs : ∀ d, (b'.dish d).score = (b.dish d).score) : Untouched pg b b' := by
  have zone : b'.zone = b.zone := by rw [h]; rfl
  have shed : b'.shed = b.shed := by rw [h]; rfl
  have form : b'.form = b.form := by rw [h]; rfl
  have keys : ∀ e, lockEntry e b' = lockEntry e b := fun e => by rw [h]; rfl
  intro x y
  rw [← pageTouched_self pg ⟨b, x⟩]
  cases pg
  case common => rfl
  case dish d => exact absurd (by simp [mem_allDishes]) hpg
  case wind => exact absurd (by simp) hpg
  case power => exact absurd (by simp) hpg
  case formation f => simp [pageTouched, form]
  case zone z => simp [pageTouched, zone, shed, hs]
  case lockEntry e => simp [pageTouched, keys]

end Sys2Proof.Machine
end

