-- ==== Sys2Proof/Proofs/WindSeconds.lean ====
section
/-! SUPPORT. The wind second as a command (R97 to R115). -/

namespace Sys2Proof.Machine

/-! ### A wind second, as a command (R97 to R115) -/

theorem atSecond_still {b : Blocks} (h : Still none b) (value direction : Option Nat) :
    Still none (atSecond b value direction) :=
  h.congr rfl rfl (fun _ _ => rfl) h.2.2

theorem untouched_second {pg : Page} (h : pg ≠ .wind) (b : Blocks) (value direction : Option Nat) :
    Untouched pg b (atSecond b value direction) := by
  intro x y
  rw [← pageTouched_self pg ⟨b, x⟩]
  cases pg
  case wind => exact absurd rfl h
  all_goals rfl

/-- With the data flag KNOWN a stow trigger is taken (R101). -/
theorem evaluateWind_trigger {b : Blocks} {t : WindTrigger} (h : b.wind.dataKnown = true)
    (ht : stowTrigger b.wind = some t) (present : Bool) : evaluateWind present b = takeTrigger t b := by
  unfold evaluateWind
  dsimp only
  rw [if_neg (by simp [h]), ht]

/-- With the data flag KNOWN and no stow trigger the quiet transitions are left (R101, R103). -/
theorem evaluateWind_quiet {b : Blocks} (h : b.wind.dataKnown = true) (ht : stowTrigger b.wind = none)
    (present : Bool) : evaluateWind present b = quietSecond present b := by
  unfold evaluateWind
  dsimp only
  rw [if_neg (by simp [h]), ht]

/-- A wind second in CALM without a trigger (R97, R98, R101). -/
theorem windSecond_calm {s : State} {b : Blocks} {value direction : Option Nat}
    (hb : s.part.blocks.runTo s.part.blocks.wind.secondDue = b) (hv : SecondValue b value direction)
    (hq : s.part.blocks.Quiet) (hdata : b.wind.dataKnown = true) (hstate : b.wind.state = .calm)
    (hstow : stowTrigger (secondWatch b value direction) = none)
    (hwatch : watchTrigger (secondWatch b value direction) = none)
    (hblocked : ∀ d, isBlocked b d [.position, .barred] = false) :
    Leaves (exec .windSecond s) s (atSecond b value direction) s.part.xm [.page .wind] [.wind] := by
  obtain ⟨present, second⟩ := windSecond_eq hb hv
  have quiet : evaluateWind present (atSecond b value direction) = atSecond b value direction := by
    have trigger : stowTrigger (atSecond b value direction).wind = none := hstow
    have watch : watchTrigger (atSecond b value direction).wind = none := hwatch
    have state : (atSecond b value direction).wind.state = .calm := hstate
    rw [evaluateWind_quiet (b := atSecond b value direction) hdata trigger]
    unfold quietSecond
    dsimp only
    rw [state]
    dsimp only
    rw [watch]
  have unblocked : recheckPositions (atSecond b value direction) = atSecond b value direction :=
    recheckPositions_fix fun d blocked => absurd (blocked.symm.trans (hblocked d)) (by decide)
  rw [quiet, unblocked] at second
  have still : Still none b := hb ▸ (hq.still none).runTo _
  obtain ⟨inbox, out, -⟩ := hq
  subst hb
  exact actBlocks_published (f := windSecond) second (atSecond_still still _ _) inbox out rfl rfl fun pg hp =>
    (untouched_runTo pg _ _).trans (untouched_second (by simpa using hp) _ _ _)

/-- The blocks in which the entry into STOWING ends (R112). -/
def stowingLeft (moving : List DishId) (b : Blocks) : Blocks :=
  (stowingEntered moving b).modWind (fun w => { w with state := if moving = [] then .stowed else .stowing })

theorem stowingLeft_frame (moving : List DishId) (b : Blocks) : stowingLeft moving b = { b with
    dishes := (stowingEntered moving b).dishes
    wind := { b.wind with
      state := if moving = [] then .stowed else .stowing, records := (stowingEntered moving b).wind.records
      deadline := b.timer (1000 * b.settings.stowDeadline) }
    fa := { b.fa with
      queue := b.fa.queue ++ stowClaims b b.fa.sequence moving
      sequence := b.fa.sequence + (stowClaims b b.fa.sequence moving).length } } := by
  unfold stowingLeft Blocks.modWind
  rw [stowingEntered_frame]

/-- What the entry into STOWING hands on at a wind second (R105, R108, R112). -/
def stowingOutputs (moving : List DishId) (t : WindTrigger) (b : Blocks) : List Output :=
  allDishes.flatMap (blockedEntry b) ++ (if moving = [] then [] else [.page .power])
    ++ windEntry b b.wind.state .stowing t ++ [.page .wind]
    ++ (if moving = [] then windEntry b .stowing .stowed .complete else [])

theorem stowingEntered_changes {moving : List DishId} {b : Blocks} (outs : List Output) :
    (if moving = [] then changeWind .stowed .complete { stowingEntered moving b with out := outs }
      else { stowingEntered moving b with out := outs })
    = { stowingLeft moving b with
      out := outs ++ if moving = [] then windEntry b .stowing .stowed .complete else [] } := by
  unfold stowingLeft
  split
  · have state : ({ stowingEntered moving b with out := outs } : Blocks).wind.state = .stowing :=
      stowingEntered_state moving b
    have entry : windEntry { stowingEntered moving b with out := outs } = windEntry b := by
      unfold windEntry
      rw [stowingEntered_frame]
    rw [changeWind_complete state, entry]
    unfold Blocks.modWind
    dsimp only
  · rw [List.append_nil, stowingEntered_frame]
    rfl

/-- The blocks of a wind second whose trigger enters STOWING (R101, R107 to R115). -/
theorem windSecond_entered {b c : Blocks} {value direction : Option Nat} {t : WindTrigger} {moving : List DishId}
    (hv : SecondValue (b.runTo b.wind.secondDue) value direction)
    (hc : atSecond (b.runTo b.wind.secondDue) value direction = c) (hdata : c.wind.dataKnown = true)
    (hstate : c.wind.state = .calm ∨ c.wind.state = .watch) (htrigger : stowTrigger c.wind = some t)
    (h : MayStow c) (hw : StowsWait c moving) (hblocked : ∀ d, BlockedStill c d) :
    windSecond b = { stowingEntered moving c with
      out := c.out ++ allDishes.flatMap (blockedEntry c) ++ (if moving = [] then [] else [.page .power])
        ++ windEntry c c.wind.state .stowing t ++ [.page .wind] } := by
  obtain ⟨present, second⟩ := windSecond_eq rfl hv
  have entered : evaluateWind present c = enterStowing t c := by
    rw [evaluateWind_trigger hdata htrigger]
    dsimp only [takeTrigger]
    rcases hstate with e | e <;> rw [e]
  rw [second, hc, entered, enterStowing_eq h hw, stowingEntered_rechecked h hblocked]
  rfl

theorem windSecond_settles {s c : Blocks} {moving : List DishId} {outs : List Output} (h : MayStow c)
    (hw : StowsWait c moving) (hi : c.inbox = []) (hs : c.wind.standing = []) :
    settle s { stowingEntered moving c with out := outs } = { stowingLeft moving c with
      out := outs ++ if moving = [] then windEntry c .stowing .stowed .complete else [] } := by
  have noShed : ∀ d, (({ stowingEntered moving c with out := outs } : Blocks).shed d).phase ≠ .claiming := fun d => by
    have none : c.sheds[d].phase = .none := h.sheds d
    dsimp only [Blocks.shed]
    rw [stowingEntered_sheds, none]
    decide
  have moves : ∀ d, movingToStow { stowingEntered moving c with out := outs } d = true ↔ d ∈ moving := fun d => by
    rw [movingToStow_entered h, hw.mem]
  have state : ({ stowingEntered moving c with out := outs } : Blocks).wind.state = .stowing :=
    stowingEntered_state moving c
  have noOrder : ({ stowingEntered moving c with out := outs } : Blocks).wind.standing = [] :=
    (stowingEntered_standing moving c).trans hs
  have noMessage : ({ stowingEntered moving c with out := outs } : Blocks).inbox = [] :=
    (stowingEntered_inbox moving c).trans hi
  exact (settle_stowing s moves state noOrder noShed noMessage).trans (stowingEntered_changes outs)

theorem stowingOutputs_pages (moving : List DishId) (t : WindTrigger) (b : Blocks) :
    ∀ pg ∈ markedPages (stowingOutputs moving t b), pg ∈ [Page.wind, .power, .common] ++ allDishes.map Page.dish := by
  have blocked : markedPages (allDishes.flatMap (blockedEntry b)) = [] := by
    refine List.filterMap_eq_nil_iff.mpr fun o ho => ?_
    obtain ⟨d, -, hd⟩ := List.mem_flatMap.mp ho
    unfold blockedEntry at hd
    split at hd
    · cases hd
    · simp only [Option.mem_toList, Option.map_eq_some_iff] at hd
      obtain ⟨_, -, rfl⟩ := hd
      rfl
  have split : markedPages (stowingOutputs moving t b) = if moving = [] then [.common, .wind, .common]
      else [.power, .common, .wind] := by
    unfold markedPages at blocked
    unfold stowingOutputs markedPages windEntry
    rw [List.filterMap_append, List.filterMap_append, List.filterMap_append, List.filterMap_append, blocked]
    by_cases idle : moving = []
    · simp only [if_pos idle]
      rfl
    · simp only [if_neg idle]
      rfl
  rw [split]
  split <;> simp

/-- A wind second whose trigger enters STOWING, as a command (R101, R107 to R115). -/
theorem windSecond_stows {s : State} {b c : Blocks} {value direction : Option Nat} {t : WindTrigger}
    {moving : List DishId} (hb : s.part.blocks.runTo s.part.blocks.wind.secondDue = b)
    (hv : SecondValue b value direction) (hc : atSecond b value direction = c) (hq : s.part.blocks.Quiet)
    (hdata : c.wind.dataKnown = true) (hstate : c.wind.state = .calm ∨ c.wind.state = .watch)
    (htrigger : stowTrigger c.wind = some t) (h : MayStow c) (hw : StowsWait c moving)
    (hblocked : ∀ d, BlockedStill c d) :
    Leaves (exec .windSecond s) s (stowingLeft moving c) s.part.xm (stowingOutputs moving t c)
      ([.wind, .power, .common] ++ allDishes.map Page.dish) := by
  subst hb
  have second := windSecond_entered hv hc hdata hstate htrigger h hw hblocked
  obtain ⟨inbox, out, standing, -⟩ := hq
  have cInbox : c.inbox = [] := by subst hc; exact inbox
  have cOut : c.out = [] := by subst hc; exact out
  have cStanding : c.wind.standing = [] := by subst hc; exact standing
  have settled := windSecond_settles (s := s.part.blocks) (outs := c.out ++ allDishes.flatMap (blockedEntry c)
    ++ (if moving = [] then [] else [.page .power]) ++ windEntry c c.wind.state .stowing t ++ [.page .wind])
    h hw cInbox cStanding
  rw [← second, cOut, List.nil_append] at settled
  have leftOut : (stowingLeft moving c).out = [] := by
    rw [stowingLeft_frame]
    exact cOut
  refine actBlocks_leaves_untouched (f := windSecond) settled leftOut (stowingOutputs_pages moving t c)
    (fun pg hp => untouched_entry hp ?_ fun d => ?_) (.inl (by simp))
  · rw [stowingLeft_frame]
    subst hc
    rfl
  · have dishes : (stowingLeft moving c).dishes = (stowingEntered moving c).dishes := by rw [stowingLeft_frame]
    have dish : (stowingLeft moving c).dish d = (c.dish d).stopped.windTaken { c.stow d with late := false } := by
      rw [Blocks.dish, dishes]
      exact stowingEntered_dish moving c d
    rw [dish, Dish.windTaken_score, Dish.stopped_score]
    subst hc
    rfl

/-! ### The entry, as the rules state it (R101, R107 to R109) -/

/-- R107, in the order of its checks. -/
theorem blockedBy_eq (x : Dish) : blockedBy x =
    if x.drive = .faulted then some .fault
    else if x.lock.stopPending = true ∨ x.task = .lockStop then some .lock
    else if x.lock.motionLocked = true ∧ x.lock.stowYielding = false then some .lock
    else none := by
  simp [blockedBy]

theorem blockedEntries_eq (b : Blocks) (l : List DishId) : l.flatMap (blockedEntry b)
    = (l.filter (fun d => (blockedBy (b.dish d)).isSome && (b.stow d).phase != .blocked)).map (fun d =>
      .trail (.stowBlocked d ((blockedBy (b.dish d)).getD .lock)) b.clock.time b.clock.valid) := by
  induction l with
  | nil => rfl
  | cons d l ih =>
    rw [List.flatMap_cons, ih, List.filter_cons]
    unfold blockedEntry
    by_cases phase : (b.stow d).phase = .blocked
    · simp [phase]
    · cases cause : blockedBy (b.dish d) <;> simp [phase, cause]

theorem Dish.stopped_reasons (x : Dish) : x.stopped.reasons = x.reasons := by
  unfold Dish.stopped
  split <;> rfl

theorem Dish.windTaken_eq {x : Dish} (r : StowRecord) (h : x.owner = some .fp → x.task = .formation) :
    x.stopped.windTaken r = if blockedBy x = none ∧ r.phase ≠ .blocked
      then { x.stopped with reasons := { x.reasons with wind := true } } else x.stopped := by
  unfold Dish.windTaken
  rw [blockedBy_stopped h, Dish.stopped_reasons]
  by_cases cause : blockedBy x = none
  · by_cases phase : r.phase = .blocked
    · rw [if_pos (.inl phase), if_neg fun e => e.2 phase]
    · rw [if_neg (by simp [cause, phase]), if_pos ⟨cause, phase⟩]
  · rw [if_pos (.inr cause), if_neg fun e => cause e.1]

theorem StowRecord.entered_eq {x : Dish} {r : StowRecord} (h : x.owner = some .fp → x.task = .formation) :
    StowRecord.entered x.stopped { r with late := false } =
      if r.phase = .blocked then { r with late := false }
      else if (blockedBy x).isSome = true then
        { r with phase := .blocked, cause := blockedBy x, rehand := false, late := false }
      else if r.phase = .stowed then { r with late := false }
      else ⟨.claiming, none, false, false, false⟩ := by
  unfold StowRecord.entered
  rw [blockedBy_stopped h]
  by_cases phase : r.phase = .blocked
  · rw [if_pos phase, if_pos phase]
  · rw [if_neg phase, if_neg phase]
    cases blockedBy x <;> rfl

/-- The same command leaves the same blocks and hands on the same outputs, however they are written. -/
theorem Leaves.congr {r : Result} {s : State} {b b' : Blocks} {x : Exchange} {o o' : List Output} {pages : List Page}
    (h : Leaves r s b x o pages) (hb : b = b') (ho : o = o') : Leaves r s b' x o' pages := hb ▸ ho ▸ h

theorem standingElevation_planned {st : Settings} {x : Dish} {az : AzimuthTarget} {el : Int} {floor : Option Int}
    {p : PlanResult} (h : plan st x az el floor = .ok p) : standingElevation x = x.el.encoder.getD 0 := by
  cases e : x.el.encoder with
  | none =>
    have unknown : presentPosition x.drive x.el = none := by rw [presentPosition, e]
    have failed : plan st x az el floor = .error .noPosition := by
      unfold plan
      rw [unknown]
      cases presentPosition x.drive x.az <;> rfl
    cases failed.symm.trans h
  | some v => rw [standingElevation, e]; rfl

theorem stowClaims_length (b : Blocks) (n : Nat) (ds : List DishId) : (stowClaims b n ds).length = ds.length := by
  simp [stowClaims]

/-- Settles O42: the second value, and what each of the two branches makes of it. -/
theorem aWindSecondMayEnterStowing : Obligations.AWindSecondMayEnterStowing := by
  intro s b means st mean value list direction hvalue hlist w lines hq hdata
  have second : SecondValue b value direction := hvalue
  have watch : w = secondWatch b value direction := by
    have meanEq : mean = presentMean := funext fun l => (presentMean_eq l).symm
    have listEq : list = secondList b.wind.seconds value := by
      unfold secondList lastEntries
      rw [hlist, List.length_append]
      rfl
    show ({ b.wind with
      seconds := list, gust := mean (list.drop (list.length - 3)), mean := mean list, direction := direction
      secondDue := b.clock.count + 1000
      reading := ⟨b.presence.attended, st.thresholds b.presence.attended, st.fallback, st.autoRelease⟩ } :
        WindWatch) = _
    rw [meanEq, listEq]
    rfl
  clear_value w
  subst watch
  refine ⟨fun hstate hstow hwatch hblocked => windSecond_calm rfl second hq hdata hstate hstow hwatch hblocked, ?_⟩
  intro trigger moving plans held elevation entry freed hstate htrigger hforms hsheds hfp hheat hqueue hroom hpeak hww
    hphases horder hmoving hplans
  have heldEq : ∀ d, held d = blockedBy (b.dish d) := fun d => (blockedBy_eq (b.dish d)).symm
  clear_value held
  have may : MayStow (atSecond b value direction) := by
    refine ⟨hforms, hsheds, hfp, fun d => ⟨hww d, ?_, fun free stowed => ?_, fun free none => ?_⟩⟩
    · rcases hphases d with e | ⟨e, -⟩ | ⟨e, -⟩
      · exact .inl e
      · exact .inr (.inl e)
      · exact .inr (.inr e)
    · rcases hphases d with e | ⟨-, unwanted⟩ | ⟨e, -⟩
      · cases stowed.symm.trans e
      · exact unwanted ((heldEq d).trans free)
      · cases stowed.symm.trans e
    · obtain ⟨unpinned, notPinning, -, plan, el⟩ := hplans d ((hmoving d).mpr ⟨(heldEq d).trans free, none⟩)
      exact ⟨unpinned, notPinning, plans d, plan, el⟩
  have wait : StowsWait (atSecond b value direction) moving := by
    refine ⟨hheat, hqueue, hroom, hpeak, fun d hd => (hplans d hd).2.2.1, ?_, fun d => ?_⟩
    · refine List.Pairwise.imp_of_mem (fun {d e} hd he lower => ?_) horder
      have standing : ∀ g ∈ moving, standingElevation (b.dish g) = elevation g := fun g hg =>
        standingElevation_planned (hplans g hg).2.2.2.1
      show standingElevation (b.dish d) < standingElevation (b.dish e)
        ∨ (standingElevation (b.dish d) = standingElevation (b.dish e) ∧ d.val < e.val)
      rw [standing d hd, standing e he]
      exact lower
    · rw [hmoving, heldEq]
      show _ ↔ ((blockedBy (b.dish d)).isNone && (b.stow d).phase == .none) = true
      rw [Bool.and_eq_true, Option.isNone_iff_eq_none, beq_iff_eq]
  have still : ∀ d, BlockedStill (atSecond b value direction) d := fun d phase => by
    rcases hphases d with e | ⟨e, -⟩ | ⟨-, cause⟩
    · cases phase.symm.trans e
    · cases phase.symm.trans e
    · rw [heldEq] at cause
      exact cause
  refine (windSecond_stows rfl second rfl hq hdata hstate htrigger may wait still).congr ?_ ?_
  · have dishes : (stowingEntered moving (atSecond b value direction)).dishes
        = Vector.ofFn (fun d : Fin 12 => if held d = none ∧ (b.stow d).phase ≠ .blocked then
          { freed (b.dish d) with reasons := { (b.dish d).reasons with wind := true } } else freed (b.dish d)) := by
      refine Vector.ext fun i hi => ?_
      rw [Vector.getElem_ofFn, heldEq]
      exact (stowingEntered_dish moving _ ⟨i, hi⟩).trans (Dish.windTaken_eq _ fun ho => (hfp _ ho).2)
    have records : (stowingEntered moving (atSecond b value direction)).wind.records
        = Vector.ofFn (fun d : Fin 12 =>
          let r := b.stow d
          if r.phase = .blocked then { r with late := false }
          else if (held d).isSome = true then
            { r with phase := .blocked, cause := held d, rehand := false, late := false }
          else if r.phase = .stowed then { r with late := false }
          else ⟨.claiming, none, false, false, false⟩) := by
      refine Vector.ext fun i hi => ?_
      rw [Vector.getElem_ofFn, heldEq]
      exact (stowingEntered_stow moving _ ⟨i, hi⟩).trans (StowRecord.entered_eq fun ho => (hfp _ ho).2)
    have queue : (atSecond b value direction).fa.queue
        ++ stowClaims (atSecond b value direction) (atSecond b value direction).fa.sequence moving
        = (List.range moving.length).zipWith (fun i d =>
          ⟨d, .ww, .stow, false, true, st.elPeak, st.azPeak, st.elPeak, b.fa.sequence + i⟩) moving := by
      show b.fa.queue ++ _ = _
      rw [hqueue, List.nil_append]
      rfl
    rw [stowingLeft_frame, dishes, records, queue, stowClaims_length]
    rfl
  · have entries := blockedEntries_eq (atSecond b value direction) allDishes
    have heldAll : held = fun d => blockedBy (b.dish d) := funext heldEq
    unfold stowingOutputs
    rw [entries, heldAll]
    rfl

end Sys2Proof.Machine
end

