-- ==== Sys2Proof/Proofs/GrantBounds.lean ====
section
/-! SUPPORT. What a grant event may give: the motion walk keeps within its room, the heater walk within what motion
leaves (R73, R80, R83). -/

namespace Sys2Proof.Machine

/-! ### The sums of the two tables (R71, R83) -/

/-- What an entry of the motion grant table holds. -/
def grantAmount (g : Option Grant) : Nat := (g.map Grant.amount).getD 0

theorem vector_foldl_add {α : Type} {n : Nat} (v : Vector α n) (f : α → Nat) :
    v.toList.foldl (fun k a => k + f a) 0 = ∑ i : Fin n, f v[i] := by
  have entries : v.toList.map f = List.ofFn (fun i : Fin n => f v[i]) := by
    refine List.ext_getElem (by simp) fun i h1 h2 => ?_
    simp
  calc v.toList.foldl (fun k a => k + f a) 0
      = (v.toList.map f).foldl (· + ·) 0 := by rw [List.foldl_map]
    _ = (v.toList.map f).sum := (List.sum_eq_foldl).symm
    _ = ∑ i : Fin n, f v[i] := by rw [entries, List.sum_ofFn]

theorem motionSum_eq (fa : Arbiter) : motionSum fa = ∑ d : Fin 12, grantAmount fa.grants[d] :=
  vector_foldl_add fa.grants grantAmount

theorem motionSum_congr {fa fa' : Arbiter} (h : fa'.grants = fa.grants) : motionSum fa' = motionSum fa := by
  rw [motionSum, h]
  rfl

theorem heaterSum_eq (b : Blocks) : heaterSum b = ∑ z : Fin 36, (b.zone z).grant :=
  vector_foldl_add b.zones Zone.grant

/-! ### The budget in force (R73) -/

theorem recomputeForce_fa (b : Blocks) : (recomputeForce b).fa = { b.fa with
    inForce := max b.fa.target (motionSum b.fa), held := decide (b.fa.target < motionSum b.fa) } := by
  unfold recomputeForce
  dsimp only
  split_ifs <;> rfl

/-! ### The motion walk (R80) -/

/-- The claims that the walk grants are among those considered, and fit its room together. -/
theorem walkClaims_fits (ok : Claim → Bool) (room : Nat) (cs : List Claim) :
    (∀ c ∈ (walkClaims ok room cs).1, ok c = true)
      ∧ ((walkClaims ok room cs).1.map Claim.amount).sum ≤ room := by
  induction cs generalizing room with
  | nil => exact ⟨fun _ h => absurd h List.not_mem_nil, Nat.zero_le _⟩
  | cons c cs ih =>
    unfold walkClaims
    by_cases passed : ok c = true
    · rw [if_neg (by simp [passed])]
      by_cases fits : c.amount ≤ room
      · obtain ⟨considered, sum⟩ := ih (room - c.amount)
        rw [if_pos fits]
        refine ⟨fun e he => ?_, ?_⟩
        · rcases List.mem_cons.mp he with rfl | he
          · exact passed
          · exact considered e he
        · rw [List.map_cons, List.sum_cons]
          omega
      · rw [if_neg fits]
        exact ⟨fun _ h => absurd h List.not_mem_nil, Nat.zero_le _⟩
    · rw [if_pos (by simpa using passed)]
      exact ih room

/-- An entry of the motion grant table after one claim is granted (R71). -/
theorem grantClaim_grant (c : Claim) (b : Blocks) (d : DishId) :
    grantAmount (grantClaim c b).fa.grants[d] = if d = c.dish then c.amount else grantAmount b.fa.grants[d] := by
  have table : (grantClaim c b).fa.grants
      = b.fa.grants.set c.dish (some ⟨c.amount, c.cls, c.claimant, .reserved, c.azPeak, c.elPeak⟩) := rfl
  rw [table]
  by_cases h : d = c.dish
  · subst h
    simp [grantAmount]
  · have h' : c.dish.val ≠ d.val := fun e => h (Fin.ext e.symm)
    simp [h, h']

theorem motionSum_grantClaim_le (c : Claim) (b : Blocks) :
    motionSum (grantClaim c b).fa ≤ motionSum b.fa + c.amount := by
  rw [motionSum_eq, motionSum_eq]
  calc ∑ d : Fin 12, grantAmount (grantClaim c b).fa.grants[d]
      ≤ ∑ d : Fin 12, (grantAmount b.fa.grants[d] + if d = c.dish then c.amount else 0) :=
        Finset.sum_le_sum fun d _ => by rw [grantClaim_grant]; split <;> omega
    _ = _ := by rw [Finset.sum_add_distrib, Finset.sum_ite_eq' Finset.univ c.dish, if_pos (Finset.mem_univ _)]

/-- An entry of the table is not lowered by claims of dishes that had nothing in an earlier table. -/
theorem grantAmount_le_grantClaims {cs : List Claim} {old : Vector (Option Grant) 12} {b : Blocks}
    (h : ∀ c ∈ cs, old[c.dish] = none) (hb : ∀ d : DishId, grantAmount old[d] ≤ grantAmount b.fa.grants[d])
    (d : DishId) :
    grantAmount old[d] ≤ grantAmount (cs.foldl (fun x c => grantClaim c x) b).fa.grants[d] := by
  induction cs generalizing b with
  | nil => exact hb d
  | cons c cs ih =>
    refine ih (fun e he => h e (List.mem_cons_of_mem _ he)) fun e => ?_
    rw [grantClaim_grant]
    split
    · next same =>
      rw [same, h c (by simp)]
      exact Nat.zero_le _
    · exact hb e

theorem motionSum_le_grantClaims {cs : List Claim} {b : Blocks} (h : ∀ c ∈ cs, b.fa.grants[c.dish] = none) :
    motionSum b.fa ≤ motionSum (cs.foldl (fun x c => grantClaim c x) b).fa := by
  rw [motionSum_eq, motionSum_eq]
  exact Finset.sum_le_sum fun d _ => grantAmount_le_grantClaims h (fun _ => le_refl _) d

/-- Granted claims add at most their amounts to what motion holds. -/
theorem motionSum_grantClaims_le (cs : List Claim) (b : Blocks) :
    motionSum (cs.foldl (fun x c => grantClaim c x) b).fa ≤ motionSum b.fa + (cs.map Claim.amount).sum := by
  induction cs generalizing b with
  | nil => exact le_refl _
  | cons c cs ih =>
    have first := motionSum_grantClaim_le c b
    have rest := ih (grantClaim c b)
    rw [List.foldl_cons, List.map_cons, List.sum_cons]
    omega

theorem tellGranted_fa (gs : List Claim) (w : Owner) (b : Blocks) : (tellGranted gs w b).fa = b.fa := by
  unfold tellGranted
  split <;> rfl

theorem grantClaims_inForce (cs : List Claim) (b : Blocks) :
    (cs.foldl (fun x c => grantClaim c x) b).fa.inForce = b.fa.inForce := by
  induction cs generalizing b with
  | nil => rfl
  | cons c cs ih => exact ih (grantClaim c b)

/-- The motion step takes no grant away, gives at most the remainder, and leaves the budget in force (R80). -/
theorem motionStep_bounds (b : Blocks) : (motionStep b).fa.inForce = b.fa.inForce
    ∧ motionSum b.fa ≤ motionSum (motionStep b).fa
    ∧ motionSum (motionStep b).fa ≤ motionSum b.fa + remainder b.fa := by
  unfold motionStep
  dsimp only
  obtain ⟨free, fits⟩ := walkClaims_fits
    (fun c => considered (b.dish c.dish) b.fa.grants[c.dish] c.cls) (remainder b.fa) b.fa.queue
  generalize walkClaims _ _ _ = r at free fits ⊢
  rw [tellGranted_fa, tellGranted_fa, tellGranted_fa]
  have unheld : ∀ c ∈ r.1, (b.modFa (fun fa => { fa with queue := r.2 })).fa.grants[c.dish] = none := by
    intro c hc
    have ok := free c hc
    simp only [considered, Bool.and_eq_true, Option.isNone_iff_eq_none] at ok
    exact ok.2
  exact ⟨grantClaims_inForce _ _, motionSum_le_grantClaims unheld,
    (motionSum_grantClaims_le r.1 _).trans (Nat.add_le_add_left fits _)⟩

/-! ### The heater walk (R83, R84) -/

/-- The walk shares out no more than its room, however often a zone stands in it. -/
theorem shareHeat_sum_le (request : ZoneId → Nat) (room : Nat) (l : List ZoneId) :
    ∑ z : Fin 36, ((shareHeat request room l).lookup z).getD 0 ≤ room := by
  induction l generalizing room with
  | nil => simp [shareHeat]
  | cons y l ih =>
    have entry : ∀ z : Fin 36, ((shareHeat request room (y :: l)).lookup z).getD 0
        ≤ (if z = y then min (request y) room else 0)
          + ((shareHeat request (room - min (request y) room) l).lookup z).getD 0 := by
      intro z
      rw [shareHeat, List.lookup_cons]
      by_cases h : z = y
      · simp [h]
      · simp [h, beq_false_of_ne h]
    calc ∑ z : Fin 36, ((shareHeat request room (y :: l)).lookup z).getD 0
        ≤ ∑ z : Fin 36, ((if z = y then min (request y) room else 0)
            + ((shareHeat request (room - min (request y) room) l).lookup z).getD 0) :=
          Finset.sum_le_sum fun z _ => entry z
      _ = min (request y) room
            + ∑ z : Fin 36, ((shareHeat request (room - min (request y) room) l).lookup z).getD 0 := by
          rw [Finset.sum_add_distrib, Finset.sum_ite_eq' Finset.univ y, if_pos (Finset.mem_univ _)]
      _ ≤ room := by
          have rest := ih (room - min (request y) room)
          omega

theorem applyDuty_grant (z y : ZoneId) (duty : Nat) (b : Blocks) :
    ((applyDuty z duty b).zone y).grant = (b.zone y).grant := by
  rw [applyDuty, Blocks.modHeater_zone, Blocks.modZone_zone]
  split
  · next h => rw [h]
  · rfl

theorem zoneOff_grant (z y : ZoneId) (b : Blocks) : ((zoneOff z b).zone y).grant = (b.zone y).grant := by
  rw [zoneOff, Blocks.modZone_zone, ← applyDuty_grant z y 0 b]
  split
  · next h => rw [h]
  · rfl

/-- What MC makes of a grant changes neither the grants nor the arbiter (R127). -/
theorem takeGrant_keeps (z : ZoneId) (b : Blocks) :
    (takeGrant z b).fa = b.fa ∧ ∀ y, ((takeGrant z b).zone y).grant = (b.zone y).grant := by
  unfold takeGrant
  dsimp only
  split
  · exact ⟨rfl, fun _ => rfl⟩
  · exact ⟨rfl, fun _ => rfl⟩
  all_goals
    split_ifs
    · exact ⟨rfl, fun y => zoneOff_grant z y b⟩
    · exact ⟨rfl, fun y => applyDuty_grant z y _ b⟩
    · exact ⟨rfl, fun _ => rfl⟩

theorem giveHeat_fa (z : ZoneId) (n : Nat) (b : Blocks) : (giveHeat z n b).fa = b.fa := by
  unfold giveHeat
  split
  · rfl
  · exact (takeGrant_keeps z _).1

theorem giveHeat_grant (z y : ZoneId) (n : Nat) (b : Blocks) :
    ((giveHeat z n b).zone y).grant = if y = z then n else (b.zone y).grant := by
  unfold giveHeat
  split
  · next h =>
    split
    · next e => rw [e, h]
    · rfl
  · rw [(takeGrant_keeps z _).2 y, Blocks.modZone_zone]
    split <;> rfl

/-- Zones given heat one after another each hold what they were given. -/
theorem giveHeats_grant (share : ZoneId → Nat) (l : List ZoneId) (b : Blocks) (y : ZoneId) :
    ((l.foldl (fun x z => giveHeat z (share z) x) b).zone y).grant
      = if y ∈ l then share y else (b.zone y).grant := by
  induction l using List.reverseRecOn with
  | nil => rfl
  | append_singleton l z ih =>
    rw [List.foldl_append, List.foldl_cons, List.foldl_nil, giveHeat_grant, ih]
    by_cases h : y = z
    · simp [h]
    · simp [h]

theorem giveHeats_fa (share : ZoneId → Nat) (l : List ZoneId) (b : Blocks) :
    (l.foldl (fun x z => giveHeat z (share z) x) b).fa = b.fa := by
  induction l generalizing b with
  | nil => rfl
  | cons z l ih => exact (ih _).trans (giveHeat_fa z _ b)

theorem mem_allZones (z : ZoneId) : z ∈ allZones := List.mem_finRange z

/-- The heater step leaves the arbiter alone, and the heat that it gives lies within the remainder (R83, R84). -/
theorem heaterStep_bounds (b : Blocks) :
    (heaterStep b).fa = b.fa ∧ heaterSum (heaterStep b) ≤ remainder b.fa := by
  unfold heaterStep
  dsimp only
  refine ⟨giveHeats_fa _ allZones b, ?_⟩
  rw [heaterSum_eq]
  simp only [giveHeats_grant, mem_allZones, if_true]
  exact shareHeat_sum_le _ _ _

/-- What a grant event makes of the arbiter and of the heat (R79). -/
theorem grantEvent_bounds (b : Blocks) :
    (grantEvent b).fa = (motionStep (recomputeForce b)).fa
      ∧ heaterSum (grantEvent b) ≤ remainder (motionStep (recomputeForce b)).fa := by
  unfold grantEvent
  obtain ⟨arbiter, heat⟩ := heaterStep_bounds (motionStep (recomputeForce b))
  generalize heaterStep (motionStep (recomputeForce b)) = c at arbiter heat
  exact ⟨arbiter, heat⟩

/-- Settles O58: motion keeps within the remainder of the budget in force, and heat within what motion leaves. -/
theorem aGrantEventKeepsWithinTheBudget : Obligations.AGrantEventKeepsWithinTheBudget := by
  intro b b'
  obtain ⟨force, below, above⟩ := motionStep_bounds (recomputeForce b)
  obtain ⟨arbiter, heat⟩ : b'.fa = _ ∧ heaterSum b' ≤ _ := grantEvent_bounds b
  have recomputed : (recomputeForce b).fa.inForce = max b.fa.target (motionSum b.fa) := by rw [recomputeForce_fa]
  have held : motionSum (recomputeForce b).fa = motionSum b.fa := motionSum_congr (by rw [recomputeForce_fa])
  rw [remainder] at above heat
  rw [held] at below above
  rw [recomputed] at force above
  rw [force] at heat
  rw [arbiter, force]
  exact ⟨rfl, below, by omega⟩

end Sys2Proof.Machine
end

