-- ==== Sys2Proof/Proofs/HeaterTails.lean ====
section
/-! SUPPORT. A zone that alone has heat loses it: the end of its tail (R83, R84, R126, R130). -/

namespace Sys2Proof.Machine

theorem Blocks.modZone_modZone (b : Blocks) (z : ZoneId) (f g : Zone → Zone) :
    (b.modZone z f).modZone z g = b.modZone z (fun x => g (f x)) := by
  simp [Blocks.modZone]

theorem Blocks.modZone_congr {b : Blocks} {z : ZoneId} {f g : Zone → Zone} (h : f (b.zone z) = g (b.zone z)) :
    b.modZone z f = b.modZone z g :=
  congrArg (fun x => ({ b with zones := b.zones.set z x } : Blocks)) h

theorem Blocks.modHeater_congr {b : Blocks} {z : ZoneId} {f g : HeaterOutput → HeaterOutput}
    (h : f (b.heater z) = g (b.heater z)) : b.modHeater z f = b.modHeater z g :=
  congrArg (fun x => ({ b with heaters := b.heaters.set z x } : Blocks)) h

theorem Blocks.modHeater_modZone (b : Blocks) (z : ZoneId) (f : HeaterOutput → HeaterOutput) (g : Zone → Zone) :
    (b.modHeater z f).modZone z g = (b.modZone z g).modHeater z f := rfl

theorem Blocks.publish_eq {b : Blocks} (ho : b.out = []) (p : Page) : b.publish p = { b with out := [.page p] } := by
  rw [Blocks.publish, ho]
  rfl

theorem untouched_modZone {pg : Page} {z : ZoneId} (h : pg ≠ .zone z) (f : Zone → Zone) (b : Blocks) :
    Untouched pg b (b.modZone z f) := by
  intro x y
  rw [← pageTouched_self pg ⟨b, x⟩]
  cases pg
  case zone y =>
    have hy : y ≠ z := fun e => h (e ▸ rfl)
    simp [pageTouched, hy]
  all_goals rfl

/-! ### A zone enters OFF (R25, R127 to R130) -/

/-- An output that follows the duty 0 is off (R25). -/
theorem followDuty_zero (count : Nat) (h : HeaterOutput) : followDuty 0 count h = { h with on := false } := by
  simp [followDuty]

theorem zoneOff_eq (z : ZoneId) (b : Blocks) :
    zoneOff z b = (b.modZone z (fun y => { y with applied := 0, state := .off, tail := none })).modHeater z
      (fun o => { o with on := false }) := by
  unfold zoneOff applyDuty
  rw [Blocks.modHeater_modZone, Blocks.modZone_modZone]
  exact Blocks.modHeater_congr (followDuty_zero _ _)

/-- A zone that is OFF asks for nothing below the start value (R126). -/
theorem requestOf_off {r : MeltReading} {x : Zone} (h : x.state = .off) (hd : x.demand < r.startValue) :
    requestOf r x = 0 := by
  unfold requestOf
  rw [h, if_neg (by decide), if_neg (by omega), if_neg (by simp), if_neg (by decide)]

/-! ### The only grant goes (R83, R84) -/

/-- Where no zone asks for heat, the one that is OFF and has a grant loses it. -/
theorem heaterStep_sole {z : ZoneId} {b : Blocks} (hr : ∀ y, (b.zone y).request = 0)
    (hg : ∀ y, y ≠ z → (b.zone y).grant = 0) (hz : (b.zone z).grant ≠ 0) (hs : (b.zone z).state = .off) :
    heaterStep b = b.modZone z (fun y => { y with grant := 0, grantedDuty := 0 }) := by
  have nothing : ∀ y, ((shareHeat (fun z => (b.zone z).request) (remainder b.fa)
      (heaterOrder (fun d => (b.snowReading d).soft) (fun d => (b.dish d).score))).lookup y).getD 0 = 0 :=
    shareHeat_idle _ _ _ hr
  have already : ∀ (y : ZoneId) (c : Blocks), (c.zone y).grant = 0 → giveHeat y 0 c = c := fun _ _ h => if_pos h
  have loses : giveHeat z 0 b = b.modZone z (fun y => { y with grant := 0, grantedDuty := 0 }) := by
    have duty : grantedDuty (b.zone z).rated 0 = 0 := by simp [grantedDuty]
    have off : ((b.modZone z (fun x => { x with grant := 0, grantedDuty := grantedDuty x.rated 0 })).zone z).state
        = .off := by rw [Blocks.modZone_zone_self]; exact hs
    unfold giveHeat
    rw [if_neg hz]
    unfold takeGrant
    dsimp only
    rw [off]
    exact Blocks.modZone_congr (by rw [duty])
  unfold heaterStep
  dsimp only
  simp only [nothing]
  refine foldl_once (a := z) (mem_allZones z) (fun y hy => already y b (hg y hy)) loses fun y => already y _ ?_
  by_cases h : y = z
  · rw [h, Blocks.modZone_zone_self]
  · rw [Blocks.modZone_zone_of_ne _ h, hg y h]

/-- Zone `z` alone asks for heat and has it, no claim waits, and the budget in force follows from the target and the
motion held (R73, R83). -/
structure SoleHeat (z : ZoneId) (b : Blocks) : Prop where
  request : (b.zone z).request ≠ 0
  grant : (b.zone z).grant ≠ 0
  others : ∀ y, y ≠ z → (b.zone y).request = 0 ∧ (b.zone y).grant = 0
  queue : b.fa.queue = []
  force : b.fa.inForce = max b.fa.target (motionSum b.fa)
  held : b.fa.held = decide (b.fa.target < motionSum b.fa)

theorem zoneOff_zone (z y : ZoneId) (b : Blocks) : (zoneOff z b).zone y =
    if y = z then { b.zone z with applied := 0, state := .off, tail := none } else b.zone y := by
  rw [zoneOff_eq, Blocks.modHeater_zone, Blocks.modZone_zone]

theorem SoleHeat.zoneOff {z : ZoneId} {b : Blocks} (h : SoleHeat z b) : SoleHeat z (zoneOff z b) := by
  refine ⟨?_, ?_, fun y hy => ?_, h.queue, h.force, h.held⟩
  · rw [zoneOff_zone, if_pos rfl]
    exact h.request
  · rw [zoneOff_zone, if_pos rfl]
    exact h.grant
  · rw [zoneOff_zone, if_neg hy]
    exact h.others y hy

/-- A zone in OFF that alone asked for heat asks for none any more, and its grant goes (R83, R84, R126). -/
theorem reformRequest_sole {z : ZoneId} {b : Blocks} (h : SoleHeat z b) (hs : (b.zone z).state = .off)
    (hd : (b.zone z).demand < (b.meltReading z).startValue) : reformRequest z b
      = (b.modZone z (fun y => { y with request := 0, grant := 0, grantedDuty := 0 })).publish .power := by
  have asks : ∀ y, ((b.modZone z (fun x => { x with request := 0 })).zone y).request = 0 := fun y => by
    rw [Blocks.modZone_zone]
    split
    · rfl
    · next hy => exact (h.others y hy).1
  have step := heaterStep_sole (z := z) asks
    (fun y hy => by rw [Blocks.modZone_zone_of_ne _ hy]; exact (h.others y hy).2)
    (by rw [Blocks.modZone_zone_self]; exact h.grant) (by rw [Blocks.modZone_zone_self]; exact hs)
  rw [reformRequest, requestOf_off hs hd, postRequest, if_neg h.request, grantEvent,
    recomputeForce_idle (b.modZone z (fun x => { x with request := 0 })) h.force h.held,
    motionStep_idle (b.modZone z (fun x => { x with request := 0 })) h.queue, step, Blocks.modZone_modZone]

/-- A zone without a request, a grant and a duty (R127, R130). -/
def Zone.cold (x : Zone) : Zone :=
  { x with state := .off, tail := none, applied := 0, request := 0, grant := 0, grantedDuty := 0 }

/-- The blocks after the tail of a zone has ended (R25, R130). -/
def Blocks.tailEnded (z : ZoneId) (b : Blocks) : Blocks :=
  (b.modZone z Zone.cold).modHeater z (fun o => { o with on := false })

/-- The end of the tail of the only zone with heat (R130). -/
theorem onTailOver_sole {z : ZoneId} {b : Blocks} (h : SoleHeat z b)
    (hd : (b.zone z).demand < (b.meltReading z).startValue) : onTailOver z b = (b.tailEnded z).publish .power := by
  have demand : ((zoneOff z b).zone z).demand < ((zoneOff z b).meltReading z).startValue := by
    rw [zoneOff_zone, if_pos rfl]
    exact hd
  have state : ((zoneOff z b).zone z).state = .off := by rw [zoneOff_zone, if_pos rfl]
  rw [onTailOver, reformRequest_sole h.zoneOff state demand, zoneOff_eq, Blocks.modHeater_modZone,
    Blocks.modZone_modZone]
  rfl

/-- Settles O45: the zone enters OFF, posts no request, and the grant event takes its grant. -/
theorem aTailEndsInOff : Obligations.ATailEndsInOff := by
  intro z n s b hq _ htail hdemand hrequest hgrant hothers hqueue hforce hheld
  have ends := onTailOver_sole (b := b) ⟨hrequest, hgrant, hothers, hqueue, hforce, hheld⟩ hdemand
  have still : Still none (b.tailEnded z) := (hq.still none).of_records rfl rfl fun _ => rfl
  obtain ⟨inbox, out, -⟩ := hq
  have handed : (b.tailEnded z).out = [] := out
  refine actBlocks_leaves_untouched (f := fun x => x.expire (x.zone z).tail (onTailOver z)) ?_ out
    (by simp [markedPages]) (fun pg hp => ?_) (.inr ⟨rfl, rfl, rfl⟩)
  · have running : (s.part.blocks.zone z).tail = some n := htail
    rw [running, Blocks.expire_some, ends, Blocks.publish_eq handed]
    exact settle_outs _ still inbox _
  · simp only [List.mem_cons, List.not_mem_nil, or_false, not_or] at hp
    exact (untouched_runTo pg n _).trans ((untouched_modZone hp.1 _ _).trans (untouched_modHeater pg z _ _))

end Sys2Proof.Machine
end

