-- ==== Sys2Proof/Proofs/StagedOrders.lean ====
section
/-! SUPPORT. Orders whose answer comes last of what they hand on, and the staging page that they are given with (R174 to
R176, R187). -/

namespace Sys2Proof.Machine

/-- An order placed in its slot leaves the staging page as it was (8.1). -/
theorem stagingBytes_placeOrder (slot : SlotId) (o : Order) (m : Memory) :
    stagingBytes (placeOrder slot o m) = stagingBytes m := by
  have low := slot.isLt
  unfold stagingBytes placeOrder setSlotState Memory.writeWord slotBase
  rw [Memory.readBytes_outside _ (by rw [lowBytes_length]; omega),
    Memory.readBytes_outside _ (by rw [orderBytes_length]; omega)]

/-- The order goes to its owner with the staging page as it stands. -/
theorem handOver_takeable {s : State} {slot : SlotId} {o : Order} (h : Takeable s slot o) (b : Blocks) :
    handOver slot o (nameFormation o.formation s.part.xm.lastFormation)
        (stagingBytes (placeOrder slot o s.part.xm.mem)) b
      = giveOrder slot o ((nameFormation o.formation s.part.xm.lastFormation).formation.getD 0)
        (stagingBytes s.part.xm.mem) b := by
  obtain ⟨-, -, passed⟩ := h
  rw [handOver_passed passed, stagingBytes_placeOrder]

theorem answeredCode_last (outs : List Output) (slot : SlotId) (a : Answer) (t : ArrayTime) (v : Bool) :
    answeredCode slot (outs ++ [.answer slot a t v]) = some a.code := by
  rw [answeredCode, List.foldl_append]
  exact if_pos rfl

/-- An order whose owner hands on `before` and then its answer, where nothing follows. -/
theorem order_answers_last {c : Instr} {s : State} {slot : SlotId} {o : Order} {a : Answer} {b : Blocks}
    {before : List Output} {pages : List Page} (horder : orderOf c = some (slot, o)) (hslot : Takeable s slot o)
    (hgive : ∀ f, giveOrder slot o f (stagingBytes s.part.xm.mem) s.part.blocks
      = (({ b with out := before } : Blocks).answer slot a, false))
    (hstill : Still none b) (hi : b.inbox = []) (ho : b.out = []) (hm : ∀ pg ∈ markedPages before, pg ∈ pages)
    (ht : ∀ pg, pg ∉ pages → Untouched pg s.part.blocks b)
    (hc : Page.common ∈ pages ∨ (before.all Output.noEntry = true ∧ b.site = s.part.blocks.site
      ∧ b.presence = s.part.blocks.presence)) :
    Answers (exec c s) s slot o a b before [] pages := by
  generalize houts : before ++ [.answer slot a b.clock.time b.clock.valid] = outs
  have answered : ({ b with out := before } : Blocks).answer slot a = { b with out := outs } := by
    rw [← houts]
    rfl
  have taken : command slot o s.part = flush (s.part.modXm (Exchange.modMem (placeOrder slot o)))
      ⟨{ b with out := outs }, takenIn slot o false (some a.code) s.part.xm⟩ := by
    have given := handOver_takeable hslot s.part.blocks
    rw [hgive, answered] at given
    rw [command_takeable hslot, takeOrder_eq]
    dsimp only [Part.modXm, Exchange.modMem]
    rw [given]
    dsimp only
    rw [settle_outs _ hstill hi, ← houts, answeredCode_last]
    rfl
  have marked : ∀ pg ∈ markedPages outs, pg ∈ pages := by
    rw [← houts, markedPages_append]
    intro pg hp
    exact hm pg (by simpa [markedPages] using hp)
  have common : Page.common ∈ pages ∨ commonPublications (s.part.modXm (Exchange.modMem (placeOrder slot o)))
      ⟨{ b with out := outs }, takenIn slot o false (some a.code) s.part.xm⟩ = 0 := by
    refine hc.imp id ?_
    rintro ⟨he, hs, hp⟩
    refine commonPublications_zero ?_ (recordTake_ready _ _ _ _ _ _) hs hp
    rw [← houts]
    simp [he, Output.noEntry]
  unfold Answers
  rw [exec_of_orderOf horder, List.append_nil, houts]
  refine ⟨{ s with part := command slot o s.part }, rfl, rfl, ?_, ?_⟩
  · show (command slot o s.part).blocks = b
    rw [taken, flush_blocks]
    exact Blocks.without_out ho
  · have same := flush_same _ _ pages marked
      (fun pg hp => ((ht pg hp).trans (untouched_out pg b [])) _ _) common
    rw [beforePages_eq] at same
    show SameButPages pages _ (command slot o s.part).xm
    rw [taken]
    exact same

end Sys2Proof.Machine
end

