-- ==== Sys2Proof/Proofs/Budgets.lean ====
section
/-! SUPPORT. The budget while nothing draws on it: SET_BUDGET and the derate input (R72 to R74, R86). -/

namespace Sys2Proof.Machine

/-! ### A grant event while nothing draws on the budget (R73, R79) -/

/-- Nothing draws on the budget and nothing waits for it: no heat, no claim, no motion held. -/
structure NothingDrawn (b : Blocks) : Prop where
  zones : ∀ z, (b.zone z).request = 0 ∧ (b.zone z).grant = 0
  queue : b.fa.queue = []
  grants : ∀ e : DishId, b.fa.grants[e] = none
  held : b.fa.held = false

theorem motionSum_none {fa : Arbiter} (h : ∀ e : DishId, fa.grants[e] = none) : motionSum fa = 0 := by
  rw [motionSum_eq]
  exact Finset.sum_eq_zero fun d _ => by rw [h d]; rfl

/-- Where no motion is held, a settled budget in force is the target (R73). -/
theorem Blocks.HeatQuiet.nothingDrawn {b : Blocks} (h : b.HeatQuiet) (hq : b.fa.queue = [])
    (hg : ∀ e : DishId, b.fa.grants[e] = none) : NothingDrawn b ∧ b.fa.inForce = b.fa.target := by
  obtain ⟨zones, force, held⟩ := h
  rw [motionSum_none hg] at force held
  exact ⟨⟨zones, hq, hg, held⟩, by rw [force, Nat.max_zero]⟩

/-- The budget in force where no motion is held: the target (R73). -/
def Arbiter.free (fa : Arbiter) : Arbiter := { fa with inForce := fa.target, held := false }

/-- A grant event puts the target in force, and publishes (R73, R89, R168). -/
theorem NothingDrawn.grantEvent {b : Blocks} (h : NothingDrawn b) : grantEvent b = { b.modFa Arbiter.free with
    out := b.out ++ (if b.fa.target = b.fa.inForce then [] else [.page .common]) ++ [.page .power] } := by
  have recomputed : recomputeForce b = { b.modFa Arbiter.free with
      out := b.out ++ if b.fa.target = b.fa.inForce then [] else [.page .common] } := by
    unfold recomputeForce
    rw [motionSum_none h.grants]
    by_cases same : b.fa.target = b.fa.inForce
    · simp [same, Arbiter.free, Blocks.modFa]
    · simp [same, Arbiter.free, Blocks.modFa, Blocks.publish]
  rw [Machine.grantEvent, recomputed, motionStep_idle _ (by exact h.queue), heaterStep_idle _ (by exact h.zones)]
  rfl

/-- A new target of an arbiter of which nothing is drawn. -/
def Arbiter.withTarget (t : Nat) (fa : Arbiter) : Arbiter := { fa with target := t, inForce := t, held := false }

/-- The target follows from what was asked, the settings and the derate input, and the budget in force follows it
(R72, R73). -/
theorem NothingDrawn.retarget {b : Blocks} {t : Nat} (h : NothingDrawn b) (hf : b.fa.inForce = b.fa.target)
    (ht : budgetTarget b.settings b.fa.requested b.fa.derate = t) :
    retarget b = { b.modFa (Arbiter.withTarget t) with
      out := b.out ++ if t = b.fa.target then [] else [.page .common, .page .power] } := by
  unfold Machine.retarget
  dsimp only
  rw [ht]
  by_cases same : t = b.fa.target
  · have kept : b.fa.withTarget t = b.fa := by
      rw [same]
      exact congrArg₂ (fun n x => ({ b.fa with inForce := n, held := x } : Arbiter)) hf.symm h.held.symm
    have unchanged : b.modFa (Arbiter.withTarget t) = b := congrArg (fun fa => ({ b with fa := fa } : Blocks)) kept
    rw [if_pos same, if_pos same, unchanged, List.append_nil]
  · have drawn : NothingDrawn (b.modFa (fun fa => { fa with target := t })) := ⟨h.zones, h.queue, h.grants, h.held⟩
    have changed : ¬ (b.modFa (fun fa => { fa with target := t })).fa.target
        = (b.modFa (fun fa => { fa with target := t })).fa.inForce := fun e => same (e.trans hf)
    rw [if_neg same, if_neg same, drawn.grantEvent, if_neg changed, List.append_assoc]
    rfl

/-! ### SET_BUDGET and the derate input (R74, R86) -/

theorem untouched_budget {pg : Page} (h : pg ≠ .power) (f : Arbiter → Arbiter) (b : Blocks) :
    Untouched pg b (b.modFa f) := by
  intro x y
  rw [← pageTouched_self pg ⟨b, x⟩]
  cases pg
  case power => exact absurd rfl h
  all_goals rfl

/-- SET_BUDGET asks for no more than the feeder has, and gives the budget that follows (R86). -/
theorem takeBudget_undrawn {slot : SlotId} {value v t : Nat} {b : Blocks} (h : NothingDrawn b)
    (hf : b.fa.inForce = b.fa.target) (hv : min value b.settings.feederMax = v)
    (ht : budgetTarget b.settings v b.fa.derate = t) :
    takeBudget slot value b = ({
      b.modFa (fun fa => { fa with requested := v, target := t, inForce := t, held := false }) with
        out := b.out ++ if t = b.fa.target then [] else [.page .common, .page .power] } : Blocks).answer slot
        ⟨.done, ⟨decide (v < value), false, false, false⟩, 0,
          lowBytes 2 v ++ lowBytes 2 t ++ lowBytes 2 t ++ [0]⟩ := by
  have drawn : NothingDrawn (b.modFa (fun fa => { fa with requested := v })) := ⟨h.zones, h.queue, h.grants, h.held⟩
  unfold takeBudget
  dsimp only
  rw [hv, drawn.retarget hf ht]
  rfl

/-- A change of the derate input is shown, and the budget follows it (R74). -/
theorem takeDerate_undrawn {level : Bool} {t : Nat} {b : Blocks} (h : NothingDrawn b)
    (hf : b.fa.inForce = b.fa.target) (hl : level ≠ b.fa.derate)
    (ht : budgetTarget b.settings b.fa.requested level = t) :
    takeDerate level b = { b.modFa (fun fa => { fa with derate := level, target := t, inForce := t, held := false })
      with out := b.out ++ (.page .power :: if t = b.fa.target then [] else [.page .common, .page .power]) } := by
  have drawn : NothingDrawn ((b.modFa (fun fa => { fa with derate := level })).publish .power) :=
    ⟨h.zones, h.queue, h.grants, h.held⟩
  unfold takeDerate
  rw [if_neg hl.symm, drawn.retarget hf ht, Blocks.publish_out, List.append_assoc]
  rfl

/-- Settles O20: the new target by R72 is put in force by its grant event, where it is another. -/
theorem theBudgetFollowsItsOrderAndInput : Obligations.TheBudgetFollowsItsOrderAndInput := by
  intro s b hq hheat hqueue hgrants
  obtain ⟨drawn, force⟩ := hheat.nothingDrawn hqueue hgrants
  have still : ∀ f : Arbiter → Arbiter, Still none (b.modFa f) := fun f =>
    (hq.still none).of_records rfl rfl fun _ => rfl
  have marked : ∀ t : Nat, ∀ pg ∈ markedPages (if t = b.fa.target then [] else [.page .common, .page .power]),
      pg ∈ [Page.power, .common] := fun t => by split <;> simp [markedPages]
  have untouched (f : Arbiter → Arbiter) (pg : Page) (hp : pg ∉ [Page.power, .common]) :
      Untouched pg b (b.modFa f) := untouched_budget (fun e => hp (by simp [e])) f b
  obtain ⟨inbox, out, -⟩ := hq
  constructor
  · intro h value o v t hslot
    have taken := takeBudget_undrawn (slot := h.slot) (t := t) drawn force (v := v) rfl rfl
    rw [out, List.nil_append] at taken
    exact order_answers_last (c := .setBudget h value) rfl hslot (fun _ => congrArg (·, false) taken) (still _) inbox
      out (marked t) (untouched _) (.inl (by simp))
  · intro level hl least t
    have derated := takeDerate_undrawn (t := t) drawn force hl rfl
    rw [out, List.nil_append] at derated
    refine actBlocks_leaves_untouched (f := takeDerate level) ?_ out ?_ (untouched _) (.inl (by simp))
    · rw [derated]
      exact settle_outs _ (still _) inbox _
    · intro pg hp
      rcases List.mem_cons.mp hp with rfl | hp
      · simp
      · exact marked t pg hp

end Sys2Proof.Machine
end

