-- ==== Sys2Proof/Proofs/Adoptions.lean ====
section
/-! SUPPORT. ADOPT_SITE: what refuses a staging page, and the settings that come into force (R87, R186 to R188). -/

namespace Sys2Proof.Machine

/-! ### The checks (R87, R187) -/

theorem budgetFits_iff (st : Settings) (fa : Arbiter) :
    budgetFits st fa = true ↔ st.reserve + motionSum fa ≤ st.feederMax := by
  unfold budgetFits
  rw [decide_eq_true_eq]
  omega

theorem adoptRefused_busy {b : Blocks} (h : b.site.commit.isSome = true) (staging : List Byte) :
    adoptRefused staging b = some (plainAnswer .busy) := if_pos h

/-- A staging page that passes its own checks is refused by the motion held alone (R87, R187). -/
theorem adoptRefused_sound {b : Blocks} {staging : List Byte} (hc : b.site.commit = none)
    (hs : stagingFault staging = none) : adoptRefused staging b =
      if (recordSettings staging).reserve + motionSum b.fa ≤ (recordSettings staging).feederMax then none
      else some (plainAnswer .budgetInUse) := by
  unfold adoptRefused
  rw [hc, if_neg (by simp), hs]
  exact if_congr (budgetFits_iff _ _) rfl rfl

/-! ### The settings come into force (R186 to R188) -/

/-- The blocks once settings are in force, where nothing draws on the budget `t` that they give. -/
def Blocks.adopted (st : Settings) (t : Nat) (b : Blocks) : Blocks :=
  { b with
    site := { b.site with working := st, crc := settingsCrc st, state := .adopted }
    dishes := b.dishes.map (Dish.adoptLimits st), fa := b.fa.withTarget t }

/-- What an adoption hands on besides its answer (R89, R168, R186). -/
def adoptionOutputs (st : Settings) (t : Nat) (b : Blocks) : List Output :=
  (if t = b.fa.target then [] else [Output.page .common])
    ++ [Output.page .power,
      .trail (.settings .adopt b.site.state .adopted (settingsCrc st) none) b.clock.time b.clock.valid]
    ++ (if b.site.state = .adopted then [] else [Output.cause .settings])

theorem adoptionOutputs_pages (st : Settings) (t : Nat) (b : Blocks) :
    ∀ pg ∈ markedPages (adoptionOutputs st t b), pg ∈ [Page.power, .common] := by
  unfold adoptionOutputs
  split_ifs <;> simp [markedPages]

/-- The blocks before the grant event of an adoption (R87, R188). -/
def Blocks.targeted (st : Settings) (t : Nat) (b : Blocks) : Blocks :=
  { b with
    site := { b.site with working := st, crc := settingsCrc st }
    dishes := b.dishes.map (Dish.adoptLimits st), fa := { b.fa with target := t } }

theorem moveSettings_eq (ev : SettingsEvent) (new : SettingsState) (b : Blocks) :
    moveSettings ev new none false b = { b with
      site := { b.site with state := new }
      out := b.out ++ [.trail (.settings ev b.site.state new b.site.crc none) b.clock.time b.clock.valid]
        ++ if b.site.state = new then [] else [.cause .settings] } := by
  unfold moveSettings
  by_cases h : b.site.state = new
  · simp [h, Blocks.trail]
  · simp [h, Blocks.trail, Blocks.cause]

theorem adoptSettings_undrawn {staging : List Byte} {b : Blocks} {st : Settings} {t : Nat} (h : NothingDrawn b)
    (hf : b.fa.inForce = b.fa.target) (hst : recordSettings staging = st)
    (ht : budgetTarget st b.fa.requested b.fa.derate = t) :
    adoptSettings staging b = { b.adopted st t with out := b.out ++ adoptionOutputs st t b } := by
  have drawn : NothingDrawn (b.targeted st t) := ⟨h.zones, h.queue, h.grants, h.held⟩
  have budget : adoptBudget (adoptLimits { b with site := { b.site with working := st, crc := settingsCrc st } })
      = grantEvent (b.targeted st t) := by
    rw [← ht]
    rfl
  have force : (b.targeted st t).fa.inForce = b.fa.target := hf
  unfold adoptSettings
  rw [hst]
  dsimp only
  rw [budget, drawn.grantEvent, moveSettings_eq, force]
  unfold adoptionOutputs
  simp only [List.append_assoc]
  rfl

theorem Blocks.adopted_dish (b : Blocks) (st : Settings) (t : Nat) (d : DishId) :
    (b.adopted st t).dish d = (b.dish d).adoptLimits st := by
  simp [Blocks.adopted, Blocks.dish]

theorem Dish.adoptLimits_shown (st : Settings) (x : Dish) : (x.adoptLimits st).shown = x.shown := rfl

theorem Still.adopted {b : Blocks} (h : Still none b) (st : Settings) (t : Nat) : Still none (b.adopted st t) :=
  h.of_records rfl rfl fun d => by rw [Blocks.adopted_dish]; rfl

/-- An adoption touches the power page alone (R26, R89). -/
theorem untouched_adopted {pg : Page} (h : pg ≠ .power) (b : Blocks) (st : Settings) (t : Nat) :
    Untouched pg b (b.adopted st t) := by
  have limits : Untouched pg b { b with dishes := b.dishes.map (Dish.adoptLimits st) } :=
    fun _ _ => pageTouched_of_shown pg
      (fun d => (congrArg Dish.shown (b.adopted_dish st t d)).trans (Dish.adoptLimits_shown st _)) rfl rfl
  intro x y
  refine pageTouched_trans (limits x x) ?_
  rw [← pageTouched_self pg ⟨{ b with dishes := b.dishes.map (Dish.adoptLimits st) }, x⟩]
  cases pg
  case power => exact absurd rfl h
  all_goals rfl

/-- Settles O23: the checks in their order, and the adoption while nothing draws on the budget. -/
theorem adoptSitePutsTheStagingPageInForce : Obligations.AdoptSitePutsTheStagingPageInForce := by
  intro h s b o bytes st limits t refused hslot hq
  have still := hq.still none
  obtain ⟨inbox, out, -⟩ := hq
  have refuse : ∀ code, adoptRefused bytes b = some (plainAnswer code) → refused code := fun code hcode => by
    have taken : takeAdopt h.slot bytes b = b.answer h.slot (plainAnswer code) := by rw [takeAdopt, hcode]
    refine order_answers_last (c := .adoptSite h) rfl hslot (fun _ => ?_) still inbox out
      (by simp [markedPages]) (fun pg _ => Untouched.refl pg b) (.inr ⟨rfl, rfl, rfl⟩)
    rw [Blocks.without_out out]
    exact congrArg (·, false) taken
  refine ⟨fun hcommit => refuse _ (adoptRefused_busy hcommit _), fun hcommit hsound hsum => refuse _ ?_,
    fun hheat hqueue hgrants hcommit hsound hreserve => ?_⟩
  · rw [adoptRefused_sound hcommit hsound, if_neg (Nat.not_le.mpr hsum)]
  · obtain ⟨drawn, force⟩ := hheat.nothingDrawn hqueue hgrants
    have passed : adoptRefused bytes b = none := by
      rw [adoptRefused_sound hcommit hsound, motionSum_none hgrants, Nat.add_zero]
      exact if_pos hreserve
    have settled := adoptSettings_undrawn (staging := bytes) (t := t) drawn force rfl rfl
    rw [out, List.nil_append] at settled
    have taken : takeAdopt h.slot bytes b = ({ b.adopted st t with
        out := adoptionOutputs st t b } : Blocks).answer h.slot
          ⟨.done, noNotes, 0, lowBytes 2 (settingsCrc st).toNat⟩ := by
      rw [takeAdopt, passed]
      dsimp only
      rw [settled]
      rfl
    exact order_answers_last (c := .adoptSite h) rfl hslot (fun _ => congrArg (·, false) taken) (still.adopted st t)
      inbox out (adoptionOutputs_pages st t b) (fun pg hp => untouched_adopted (fun e => hp (by simp [e])) b st t)
      (.inl (by simp))

end Sys2Proof.Machine
end

