-- ==== Sys2Proof/Proofs/StowOrders.lean ====
section
/-! SUPPORT. A STOW of one free dish that no power is left for (R75, R109, R118). -/

namespace Sys2Proof.Machine

/-! ### What a STOW ends first (R56, R141) -/

/-- A dish that no formation works with or keeps a move for is not excused from anything (R56, R69). -/
theorem excuseEverywhere_free {d : DishId} {b : Blocks}
    (h : ∀ f, excusable (b.form f) d = false ∧ ((b.form f).mem d).kept = none) (cause : ExcusalCause) :
    excuseEverywhere d cause b = b := by
  have excused : overFormations (fun f x => excuse f d cause x) b = b :=
    foldl_fixed_mem fun f _ => if_neg (by simp [(h f).1])
  have kept : handKept d b = b := foldl_fixed_mem fun f _ => by
    dsimp only
    rw [(h f).2]
  rw [excuseEverywhere, excused, kept]

theorem endShed_none {d : DishId} {b : Blocks} (h : (b.shed d).phase = .none) : endShed d b = b := by
  rw [endShed, h]

/-! ### The stow begins and waits (R75, R109, R118) -/

/-- A dish named by a STOW: the reason MANUAL (R118). -/
def Dish.manualTaken (x : Dish) : Dish := { x with reasons := { x.reasons with manual := true } }

/-- A stow record whose claim waits (R109). -/
def StowRecord.claimed (r : StowRecord) : StowRecord :=
  { r with phase := .claiming, cause := none, unpinWanted := false, rehand := false }

/-- A dish that a STOW names is free to begin its stow, which needs the elevation drive (R107, R109, R118). -/
structure MayClaimStow (b : Blocks) (d : DishId) : Prop where
  forms : ∀ f, excusable (b.form f) d = false ∧ ((b.form f).mem d).kept = none
  shed : (b.shed d).phase = .none
  unblocked : blockedBy (b.dish d) = none
  phase : (b.stow d).phase = .none
  unpinned : (b.dish d).drive ≠ .pinned
  notPinning : (b.dish d).drive ≠ .pinning
  plan : ∃ p, stowPlan b d = .ok p ∧ p.el.moves = true

/-- The blocks once the stow of the dish claims, but for its place in STANDING STOWS (R75, R118). -/
def Blocks.stowClaimed (d : DishId) (b : Blocks) : Blocks :=
  ((b.modDish d Dish.manualTaken).modStow d StowRecord.claimed).modFa
    (Arbiter.claimed (stowClaim b d b.fa.sequence))

theorem stowNamed_claims {d : DishId} {b : Blocks} (h : MayClaimStow b d) (hheat : b.HeatQuiet)
    (hq : b.fa.queue = []) (hg : b.fa.grants[d] = none) (hroom : remainder b.fa = 0) (hel : 0 < b.settings.elPeak) :
    stowNamed d b = (b.stowClaimed d).publish .power := by
  obtain ⟨forms, shed, unblocked, phase, unpinned, notPinning, p, planned, moves⟩ := h
  have manual : setReasons d (fun r => { r with manual := true }) b = b.modDish d Dish.manualTaken := rfl
  have dish : (b.modDish d Dish.manualTaken).dish d = (b.dish d).manualTaken := b.modDish_dish_self d _
  have free : blockedBy ((b.modDish d Dish.manualTaken).dish d) = none := by rw [dish]; exact unblocked
  have fresh : ((b.modDish d Dish.manualTaken).stow d).goesOn = false := by
    rw [StowRecord.goesOn, Blocks.modDish_stow, phase]
    rfl
  have sound : (b.dish d).drive ≠ .faulted := fun e => by
    rw [blockedBy, if_pos e] at unblocked
    cases unblocked
  have plan : stowPlan (b.modDish d Dish.manualTaken) d = .ok p := by
    rw [stowPlan, dish]
    exact planned
  have begun : beginStow d (b.modDish d Dish.manualTaken)
      = ((b.modDish d Dish.manualTaken).modStow d StowRecord.claimed, true) :=
    beginStow_claims (by rw [dish]; exact sound) (by rw [dish]; exact unpinned) (by rw [dish]; exact notPinning) plan
      moves
  unfold stowNamed
  dsimp only
  rw [manual, excuseEverywhere_free (b := b.modDish d Dish.manualTaken) forms,
    endShed_none (b := b.modDish d Dish.manualTaken) shed, free]
  dsimp only
  rw [fresh, if_neg Bool.false_ne_true, beginStowAlone, begun, if_pos rfl,
    submitStows_wait (b := (b.modDish d Dish.manualTaken).modStow d StowRecord.claimed) (List.nodup_singleton d)
      (by simpa using hg) hheat hq hroom hel]
  have alone : b.fa.queue ++ [stowClaim b d b.fa.sequence] = [stowClaim b d b.fa.sequence] := by
    rw [hq, List.nil_append]
  exact congrArg (fun q => (((b.modDish d Dish.manualTaken).modStow d StowRecord.claimed).modFa (fun fa =>
    { fa with queue := q, sequence := fa.sequence + 1 })).publish .power) alone

/-! ### The order stands (R118) -/

/-- A STOW that has just been taken for one dish. -/
def standingStow (slot : SlotId) (d : DishId) : StandingStow := ⟨slot, DishSet.single d, DishSet.single d, 0, 0⟩

theorem takeStow_single {slot : SlotId} {dishes : Word} {d : DishId} {b c : Blocks} (hset : badDishSet dishes = false)
    (hbits : dishBits dishes = DishSet.single d) (hc : stowNamed d b = c) : takeStow slot dishes b
      = (c.modWind (fun w => { w with standing := w.standing ++ [standingStow slot d] }), true) := by
  have named : overDishes [d] stowNamed b = c := by
    rw [overDishes, List.foldl_cons, List.foldl_nil, hc]
  unfold takeStow
  dsimp only
  rw [hset, if_neg Bool.false_ne_true, hbits, single_toList, named]
  rfl

theorem single_ne_zero (d : DishId) : DishSet.single d ≠ 0 := by revert d; decide

theorem single_without_none (d : DishId) : DishSet.single d &&& ~~~(DishSet.ofList []) = DishSet.single d := by
  revert d; decide

/-- A dish that is moving to stow stays waited for (R118). -/
theorem reviewStow_waits {b : Blocks} {slot : SlotId} {d : DishId} (hp : (b.stow d).phase = .claiming)
    (hr : (b.dish d).reasonsEmpty = false) : reviewStow b (standingStow slot d) = standingStow slot d := by
  have waits : stillWaiting b d = true := by simp [stillWaiting, hp, hr]
  have left : [d].filter (fun e => !stillWaiting b e) = [] := by simp [waits]
  have stowed : [d].filter (fun e => (b.stow e).phase == .stowed) = [] := by simp [hp]
  have lost : ∀ pinned : DishSet, [d].filter (fun e =>
      (b.dish e).reasonsEmpty && !pinned.has e && (b.dish e).drive != .pinned) = [] := fun _ => by simp [hr]
  unfold reviewStow standingStow
  dsimp only
  rw [single_toList, left, stowed, lost, single_without_none]
  rfl

theorem reviewStows_waits {b : Blocks} {slot : SlotId} {d : DishId} (hs : b.wind.standing = [standingStow slot d])
    (hp : (b.stow d).phase = .claiming) (hr : (b.dish d).reasonsEmpty = false) : reviewStows b = b := by
  have waited : (standingStow slot d).waiting ≠ 0 := single_ne_zero d
  unfold reviewStows
  rw [hs, List.map_singleton, reviewStow_waits hp hr]
  simp only [List.filter_cons, List.filter_nil, beq_false_of_ne waited, bne, Bool.not_false]
  simp [Blocks.modWind, ← hs]

/-- The blocks while the STOW of one dish stands and its claim waits (R118). -/
def Blocks.stowStanding (slot : SlotId) (d : DishId) (b : Blocks) : Blocks :=
  (b.stowClaimed d).modWind (fun w => { w with standing := [standingStow slot d] })

theorem stowStanding_stow (slot : SlotId) (d : DishId) (b : Blocks) :
    (b.stowStanding slot d).stow d = (b.stow d).claimed := Blocks.modStow_stow_self _ d _

theorem untouched_modWind {pg : Page} (h : pg ≠ .wind) (f : WindWatch → WindWatch) (b : Blocks) :
    Untouched pg b (b.modWind f) := by
  intro x y
  rw [← pageTouched_self pg ⟨b, x⟩]
  cases pg
  case wind => exact absurd rfl h
  all_goals rfl

theorem untouched_stowStanding {pg : Page} {d : DishId} (h : pg ∉ [Page.dish d, .wind, .power]) (b : Blocks)
    (slot : SlotId) : Untouched pg b (b.stowStanding slot d) := by
  simp only [List.mem_cons, List.not_mem_nil, or_false, not_or] at h
  obtain ⟨dish, wind, -⟩ := h
  have named : Untouched pg b (b.modDish d Dish.manualTaken) := untouched_modDish dish rfl
  exact ((named.trans (untouched_modStow wind d _ _)).trans (untouched_modFa pg rfl)).trans
    (untouched_modWind wind _ _)

/-- Nothing follows the take but that the order waits (R112, R118, R140). -/
theorem settle_stowStanding {b : Blocks} (hq : b.Quiet) (old : Blocks) (slot : SlotId) (d : DishId)
    (outs : List Output) : settle old { b.stowStanding slot d with out := outs }
      = { b.stowStanding slot d with out := outs } := by
  obtain ⟨inbox, -, -, calm, sheds⟩ := hq
  generalize hc : ({ b.stowStanding slot d with out := outs } : Blocks) = c
  have phase : (c.stow d).phase = .claiming := by
    rw [← hc]
    exact congrArg StowRecord.phase (stowStanding_stow slot d b)
  have manual : (c.dish d).reasonsEmpty = false := by
    have dish : c.dish d = (b.dish d).manualTaken := hc ▸ b.modDish_dish_self d _
    simp [dish, Dish.reasonsEmpty, Dish.manualTaken]
  have noShed : overDishes allDishes (fun e x =>
      if shedTouched (old.dish e) (x.dish e) then recheckShed e x else x) c = c :=
    overDishes_fix _ _ _ fun e _ => by
      have fixed : recheckShed e c = c := recheckShed_fix e c (hc ▸ sheds e)
      simp [fixed]
  have reviewed : reviewStows c = c := reviewStows_waits (slot := slot) (hc ▸ rfl) phase manual
  have calmStill : checkStowed c = c := checkStowed_fix c (hc ▸ calm)
  rw [settle, tidy, noShed, reviewed, calmStill, drain_empty _ c (hc ▸ inbox)]

/-- Settles O15: the stow is begun, its claim joins the empty queue, and the order stands with the dish waited for. -/
theorem aStowOfAFreeDishClaims : Obligations.AStowOfAFreeDishClaims := by
  intro h dishes d p s b o hset hbits hslot hq hheat hforms hshed hblocked hphase hpinned hpinning hplan hmoves hqueue
    hgrant hroom hpeak
  have named := stowNamed_claims ⟨hforms, hshed, hblocked, hphase, hpinned, hpinning, p, hplan, hmoves⟩ hheat hqueue
    hgrant hroom hpeak
  have settled := settle_stowStanding hq b h.slot d [.page .power]
  obtain ⟨-, out, standing, -⟩ := hq
  have taken : takeStow h.slot dishes b = ({ b.stowStanding h.slot d with out := [.page .power] }, true) := by
    have listed : ((b.stowClaimed d).publish .power).modWind (fun w =>
        { w with standing := w.standing ++ [standingStow h.slot d] })
        = { b.stowStanding h.slot d with out := [.page .power] } :=
      congrArg₂ (fun l m => ({ (b.stowClaimed d).modWind (fun w => { w with
        standing := l ++ [standingStow h.slot d] }) with out := m ++ [.page .power] } : Blocks)) standing out
    rw [takeStow_single hset hbits named, listed]
  exact order_stands (c := .stow h dishes) rfl hslot rfl (fun _ => taken) rfl settled out (by simp [markedPages])
    (fun pg hp => untouched_stowStanding hp b h.slot) (.inr ⟨rfl, rfl, rfl⟩)

end Sys2Proof.Machine
end

