-- ==== Sys2Proof/Proofs/AnemometerLines.lean ====
section
/-! SUPPORT. The anemometer line receivers: how a good frame is read, what it gives its line, and how bytes are
assembled (R91 to R94, 10.8). -/

namespace Sys2Proof.Machine

/-! ### Line records -/

theorem Blocks.modLine_modLine (b : Blocks) (l : LineId) (f g : Line → Line) :
    (b.modLine l f).modLine l g = b.modLine l (fun x => g (f x)) := by
  simp [Blocks.modLine]

/-- An update of a line is what it makes of the record that the line has. -/
theorem Blocks.modLine_congr {b : Blocks} {l : LineId} {f g : Line → Line} (h : f (b.line l) = g (b.line l)) :
    b.modLine l f = b.modLine l g := by
  unfold Blocks.line at h
  unfold Blocks.modLine
  rw [h]

theorem Blocks.modLine_same {b : Blocks} {l : LineId} {g : Line → Line} (h : g (b.line l) = b.line l) :
    b.modLine l g = b := by
  refine (Blocks.modLine_congr (g := id) h).trans ?_
  simp [Blocks.modLine]

theorem Still.modLine {skip : Option DishId} {b : Blocks} (h : Still skip b) (l : LineId) (g : Line → Line) :
    Still skip (b.modLine l g) := h.of_records rfl rfl (fun _ => rfl)

theorem untouched_modLine {pg : Page} (h : pg ≠ .wind) (l : LineId) (g : Line → Line) (b : Blocks) :
    Untouched pg b (b.modLine l g) := by
  intro x y
  rw [← pageTouched_self pg ⟨b, x⟩]
  cases pg
  case wind => exact absurd rfl h
  all_goals rfl

theorem modLine_state {l : LineId} {g : Line → Line} {b : Blocks} (h : (g (b.line l)).state = (b.line l).state)
    (k : LineId) : ((b.modLine l g).line k).state = (b.line k).state := by
  rw [Blocks.modLine_line]
  split
  · next e => rw [h, e]
  · rfl

/-- Of a line the page of the wind watch is republished for its state alone (R121). -/
theorem untouched_modLine_state (pg : Page) {l : LineId} {g : Line → Line} {b : Blocks}
    (h : (g (b.line l)).state = (b.line l).state) : Untouched pg b (b.modLine l g) := by
  by_cases hpg : pg = .wind
  · intro x y
    rw [← pageTouched_self pg ⟨b, x⟩]
    subst hpg
    simp [pageTouched, modLine_state h]
  · exact untouched_modLine hpg l g b

/-! ### How a frame is read (R93, 10.8) -/

theorem fromLow_pair (low high : Byte) : fromLow [low, high] = low.toNat + 256 * high.toNat := by
  simp [fromLow]

/-- Two bytes with the low one first are the word that they make up (R193). -/
theorem ofNat_pair (low high : Byte) : BitVec.ofNat 16 (fromLow [low, high]) = high ++ low := by
  refine BitVec.eq_of_toNat_eq ?_
  have := low.isLt
  have := high.isLt
  rw [fromLow_pair, BitVec.toNat_ofNat, BitVec.toNat_append, Nat.shiftLeft_eq, Nat.mod_eq_of_lt (by omega),
    Nat.mul_comm high.toNat, ← Nat.two_pow_add_eq_or_of_lt (by omega)]
  omega

theorem readPrecipitation_code (status : Nat) : (readPrecipitation status).ctorIdx = status % 4 := by
  have range : status % 4 < 4 := Nat.mod_lt _ (by decide)
  unfold readPrecipitation
  generalize status % 4 = code at range
  interval_cases code <;> rfl

theorem readInstrument_code {status : Nat} {i : Instrument} (h : readInstrument status = some i) :
    i.ctorIdx = status / 4 % 4 := by
  unfold readInstrument at h
  split at h
  case h_4 => cases h
  all_goals
    next code =>
      cases h
      exact code.symm

/-- What the nine bytes of a good frame hold. -/
theorem readFrame_some {b0 s0 s1 d0 d1 t0 t1 status check : Byte} {c : Clock} {f : Frame}
    (h : readFrame [b0, s0, s1, d0, d1, t0, t1, status, check] c = some f) :
    ∃ i, readInstrument status.toNat = some i ∧ f =
      { speed := if i = .overrange then 6000 else min 6000 (fromLow [s0, s1]), direction := fromLow [d0, d1]
        temperature := max (-500) (min 500 (BitVec.ofNat 16 (fromLow [t0, t1])).toInt)
        precipitation := readPrecipitation status.toNat, instrument := i, time := c.time, valid := c.valid } := by
  unfold readFrame at h
  dsimp only at h
  split at h
  · cases h
  · next i code =>
    obtain ⟨-, fields⟩ := Option.ite_none_right_eq_some.mp h
    exact ⟨i, code, (Option.some.inj fields).symm⟩

/-! ### What a good frame gives its line (R93, R94) -/

/-- The line with its good frame, but for its state. -/
def Line.goodTaken (f : Frame) (silence : Timer) (x : Line) : Line :=
  { x with
    lastGood := some f, goodCount := min (x.goodCount + 1) 65535, silenceTimer := silence
    goodRun := min 8 (x.goodRun + 1)
    secondSum := if f.instrument = .degraded then x.secondSum else x.secondSum + f.speed
    secondCount := if f.instrument = .degraded then x.secondCount else x.secondCount + 1 }

theorem setLineState_line (l : LineId) (new : LineState) (ev : LineEvent) (b : Blocks) :
    (setLineState l new ev b).line l = { b.line l with state := new } := by
  unfold setLineState
  dsimp only
  split <;> simp

/-- A change of state writes its entry (R94). -/
theorem setLineState_changed {l : LineId} {new : LineState} {b : Blocks} (h : (b.line l).state ≠ new) (ev : LineEvent) :
    setLineState l new ev b
      = (b.modLine l (fun x => { x with state := new })).trail (.lineState l (b.line l).state new ev) := if_neg h

/-- A speed that is not usable adds nothing to the sum and the count of its line (R93). -/
theorem goodTaken_counts (f : Frame) (silence : Timer) : (fun y : Line => { y with
      lastGood := some f, goodCount := cap16 (y.goodCount + 1), silenceTimer := silence
      secondSum := y.secondSum + (if f.instrument != .degraded then f.speed else 0)
      secondCount := y.secondCount + (if f.instrument != .degraded then 1 else 0)
      goodRun := min 8 (y.goodRun + 1) }) = Line.goodTaken f silence := by
  funext y
  by_cases degraded : f.instrument = .degraded <;> simp [Line.goodTaken, cap16, degraded]

/-- A line that is OK stays OK. -/
theorem goodFrame_ok {l : LineId} {b : Blocks} (h : (b.line l).state = .ok) (f : Frame) :
    goodFrame l f b = b.modLine l (Line.goodTaken f (b.timer 2000)) := by
  unfold goodFrame
  dsimp only
  rw [h, goodTaken_counts]

/-- Besides what the frame gives it a line changes its state and its run of good frames alone. -/
theorem goodFrame_line (l : LineId) (f : Frame) (b : Blocks) : ∃ state run, (goodFrame l f b).line l
    = { (b.line l).goodTaken f (b.timer 2000) with state := state, goodRun := run } := by
  unfold goodFrame
  dsimp only
  rw [goodTaken_counts]
  split
  · exact ⟨_, _, Blocks.modLine_line_self _ l _⟩
  · split
    · exact ⟨_, _, by rw [setLineState_line, Blocks.modLine_line_self]⟩
    · exact ⟨_, _, Blocks.modLine_line_self _ l _⟩
  · exact ⟨_, _, by rw [setLineState_line, Blocks.modLine_line_self, Blocks.modLine_line_self]⟩

/-- Settles O39: the fields come from `readFrame_some`, the counts from `goodFrame_line`. -/
theorem aGoodFrameIsReadAndCounted : Obligations.AGoodFrameIsReadAndCounted := by
  intro l s0 s1 d0 d1 t0 t1 status check f b x y h
  obtain ⟨i, code, fields⟩ := readFrame_some h
  obtain ⟨state, run, line⟩ : ∃ state run, y = { x.goodTaken f (b.timer 2000) with state := state, goodRun := run } :=
    goodFrame_line l f b
  have instrument : f.instrument = i := by rw [fields]
  rw [line]
  refine ⟨?_, ?_, ?_, ?_, ?_, ?_, ?_, rfl, fun usable => ?_, fun degraded => ?_, rfl⟩
  · rw [instrument, fields, fromLow_pair]
  · rw [fields, ofNat_pair]
  · rw [← fromLow_pair, fields]
  · rw [fields]
    exact readPrecipitation_code _
  · rw [instrument]
    exact readInstrument_code code
  · rw [fields]
  · rw [fields]
  · have sound : f.instrument ≠ .degraded := by rcases usable with e | e <;> rw [e] <;> decide
    exact ⟨if_neg sound, if_neg sound⟩
  · exact ⟨if_pos degraded, if_pos degraded⟩

/-! ### The data flag (R99) -/

theorem dataFlag_modLine {l : LineId} {g : Line → Line} {b : Blocks} (h : (g (b.line l)).state = (b.line l).state) :
    dataFlag (b.modLine l g) = dataFlag b := by
  simp only [dataFlag, modLine_state h, Blocks.modLine_wind]

/-- Where the flag stands as it is reckoned, nothing follows. -/
theorem reckonData_stands {b : Blocks} (h : dataFlag b = b.wind.dataKnown) : reckonData b = b := by
  unfold reckonData
  exact if_pos h

/-! ### Assembly (R91, R92) -/

/-- A byte on a line whose FIFO is empty is taken at once. -/
theorem takeByte_empty {l : LineId} {b : Blocks} (hf : (b.line l).fifo = []) (hl : (b.line l).lostSince = false)
    (value : Byte) (framing : Bool) : takeByte l value framing b = assemble l ⟨value, framing, false⟩ b := by
  have stored : storeByte value framing (b.line l) = { b.line l with fifo := [⟨value, framing, false⟩] } := by
    unfold storeByte
    rw [hf, hl, if_neg (by simp)]
    simp [hl]
  have emptied : (b.modLine l (storeByte value framing)).modLine l (fun y => { y with fifo := [] }) = b := by
    rw [Blocks.modLine_modLine]
    refine Blocks.modLine_same ?_
    rw [stored, ← hf]
  unfold takeByte drainFifo
  rw [emptied, Blocks.modLine_line_self, stored]
  rfl

theorem assemble_discards {l : LineId} {b : Blocks} {value : Byte} (hg : (b.line l).gathered = [])
    (hv : value ≠ leadValue) : assemble l ⟨value, false, false⟩ b = b := by
  simp [assemble, hg, hv]

theorem assemble_begins {l : LineId} {b : Blocks} (hg : (b.line l).gathered = []) :
    assemble l ⟨leadValue, false, false⟩ b
      = b.modLine l (fun y => { y with gathered := [leadValue], gapTimer := b.timer 20 }) := by
  simp [assemble, hg]

theorem assemble_gathers {l : LineId} {b : Blocks} (hg : (b.line l).gathered ≠ [])
    (hn : (b.line l).gathered.length < 8) (value : Byte) : assemble l ⟨value, false, false⟩ b
      = b.modLine l (fun y => { y with gathered := y.gathered ++ [value], gapTimer := b.timer 20 }) := by
  have gathers : assemble l ⟨value, false, false⟩ b = b.modLine l (fun y => { y with
      gathered := (b.line l).gathered ++ [value], gapTimer := b.timer 20 }) := by simp [assemble, hg, hn]
  exact gathers.trans (Blocks.modLine_congr rfl)

/-- The ninth byte of a good frame on an OK line. -/
theorem assemble_completes {l : LineId} {b : Blocks} {value : Byte} {f : Frame} (hn : (b.line l).gathered.length = 8)
    (hf : readFrame ((b.line l).gathered ++ [value]) b.clock = some f) (hs : (b.line l).state = .ok) :
    assemble l ⟨value, false, false⟩ b = b.modLine l (fun y =>
      Line.goodTaken f (b.timer 2000) { y with gathered := [], gapTimer := none }) := by
  have collecting : (b.line l).gathered ≠ [] := fun e => by simp [e] at hn
  have completes : assemble l ⟨value, false, false⟩ b = goodFrame l f (toHunt l b) := by
    simp [assemble, collecting, hn, hf]
  have ok : ((toHunt l b).line l).state = .ok := by rw [toHunt, Blocks.modLine_line_self, hs]
  rw [completes, goodFrame_ok ok]
  exact Blocks.modLine_modLine b l _ _

/-- A byte that changes the record of its line, but for its state. -/
theorem lineByte_leaves {l : LineId} {value : Byte} {s : State} {g : Line → Line} (hq : s.part.blocks.Quiet)
    (hk : s.part.blocks.wind.dataKnown = dataFlag s.part.blocks) (hf : (s.part.blocks.line l).fifo = [])
    (hl : (s.part.blocks.line l).lostSince = false)
    (ha : assemble l ⟨value, false, false⟩ s.part.blocks = s.part.blocks.modLine l g)
    (hg : (g (s.part.blocks.line l)).state = (s.part.blocks.line l).state) :
    Leaves (exec (.lineByte l value false) s) s (s.part.blocks.modLine l g) s.part.xm [] [] := by
  have flag : dataFlag (s.part.blocks.modLine l g) = (s.part.blocks.modLine l g).wind.dataKnown :=
    (dataFlag_modLine hg).trans hk.symm
  have taken : reckonData (takeByte l value false s.part.blocks) = s.part.blocks.modLine l g := by
    rw [takeByte_empty hf hl, ha, reckonData_stands flag]
  have still := (hq.still none).modLine l g
  obtain ⟨inbox, out, -⟩ := hq
  exact actBlocks_silent taken still inbox out rfl rfl fun pg _ => untouched_modLine_state pg hg

/-- Settles O38: one lemma of the assembler for each case. -/
theorem aByteIsAssembledIntoAFrame : Obligations.AByteIsAssembledIntoAFrame := by
  intro l value s b x hq hk hf hl
  refine ⟨fun hunt other => ?_, fun hunt => ?_, fun collect room => ?_, fun f full good ok => ?_⟩
  · have same : b.modLine l id = b := Blocks.modLine_same rfl
    have kept := lineByte_leaves hq hk hf hl ((assemble_discards hunt other).trans same.symm) rfl
    rwa [same] at kept
  · exact lineByte_leaves hq hk hf hl (assemble_begins hunt) rfl
  · exact lineByte_leaves hq hk hf hl (assemble_gathers collect room value) rfl
  · exact lineByte_leaves hq hk hf hl (assemble_completes full good ok) rfl

end Sys2Proof.Machine
end

