-- ==== Sys2Proof/Proofs/SilentLines.lean ====
section
/-! SUPPORT. Lines that stop, and the data flag that follows from the lines and the start grace (R92, R94, R99). -/

namespace Sys2Proof.Machine

/-! ### Commands that touch the page of the wind watch alone -/

theorem windPage_leaves {F : Blocks → Blocks} {s : State} {b : Blocks} {outs : List Output}
    (hF : F s.part.blocks = { b with out := outs }) (hs : Still none b) (hi : b.inbox = []) (ho : b.out = [])
    (hm : ∀ pg ∈ markedPages outs, pg ∈ [Page.wind, .common]) (ht : ∀ pg, pg ≠ .wind → Untouched pg s.part.blocks b) :
    Leaves (actBlocks F s) s b s.part.xm outs [.wind, .common] := by
  have settled : settle s.part.blocks (F s.part.blocks) = { b with out := outs } := by
    rw [hF]
    exact settle_outs _ hs hi outs
  refine actBlocks_leaves_untouched settled ho hm (fun pg hp => ht pg ?_) (.inl (by simp))
  rintro rfl
  exact hp (by simp)

/-- A command that changes the state of a line, with the entry of the change. -/
theorem lineEntry_leaves {F : Blocks → Blocks} {s : State} {n : Nat} {l : LineId} {g : Line → Line} {e : TrailEvent}
    (hq : s.part.blocks.Quiet) (hF : F s.part.blocks = ((s.part.blocks.runTo n).modLine l g).trail e) :
    Leaves (actBlocks F s) s ((s.part.blocks.runTo n).modLine l g) s.part.xm
      [.trail e (s.part.blocks.runTo n).clock.time (s.part.blocks.runTo n).clock.valid] [.wind, .common] := by
  have still := ((hq.still none).runTo n).modLine l g
  obtain ⟨inbox, out, -⟩ := hq
  exact windPage_leaves (hF.trans (Blocks.trail_eq (by exact out) e)) still inbox out (by simp [markedPages])
    fun pg hp => (untouched_runTo pg n _).trans (untouched_modLine hp l g _)

/-! ### The data flag (R99) -/

/-- A line that is not SILENT keeps the flag KNOWN. -/
theorem dataFlag_contributes {b : Blocks} {l : LineId} (h : (b.line l).state ≠ .silent) : dataFlag b = true := by
  have listed : ∀ k : LineId, k ∈ allLines := by decide
  have some : allLines.any (fun l => (b.line l).state != .silent) = true :=
    List.any_eq_true.mpr ⟨l, listed l, by simpa using h⟩
  simp [dataFlag, some]

theorem dataFlag_silent {b : Blocks} (hg : b.wind.grace = none) (hl : ∀ l, (b.line l).state = .silent) :
    dataFlag b = false := by
  simp [dataFlag, hg, hl]

theorem reckonData_contributes {b : Blocks} {l : LineId} (hk : b.wind.dataKnown = true)
    (h : (b.line l).state ≠ .silent) : reckonData b = b :=
  reckonData_stands ((dataFlag_contributes h).trans hk.symm)

/-- The flag becomes UNKNOWN; under fallback HOLD that is no stow trigger (R99, R101). -/
theorem reckonData_unknown {b : Blocks} (hk : b.wind.dataKnown = true) (hg : b.wind.grace = none)
    (hl : ∀ l, (b.line l).state = .silent) (hf : b.wind.reading.fallback = .hold) :
    reckonData b = { b.modWind (fun w => { w with dataKnown := false }) with
      out := b.out ++ [.trail (.windData false .silent .silent .silent) b.clock.time b.clock.valid, .cause .wind] } := by
  have noTrigger : ({ b.wind with dataKnown := false } : WindWatch).dataTrigger = false := by
    simp [WindWatch.dataTrigger, hf]
  unfold reckonData
  dsimp only
  rw [dataFlag_silent hg hl, if_neg (by simp [hk]), if_neg (by simpa [Blocks.modWind] using noTrigger)]
  simp only [hl, Blocks.cause, Blocks.trail, List.append_assoc, List.cons_append, List.nil_append]
  rfl

/-! ### Gaps and silence (R92, R94) -/

/-- A void frame on an OK line. -/
theorem onGap_ok {l : LineId} {b : Blocks} (hg : (b.line l).gathered ≠ []) (hs : (b.line l).state = .ok) :
    onGap l b = (b.modLine l (fun y => { y with
      gathered := [], gapTimer := none, voidCount := min (y.voidCount + 1) 65535, goodRun := 0
      state := .suspect })).trail (.lineState l .ok .suspect .void) := by
  have ok : ((toHunt l b).line l).state = .ok := by rw [toHunt, Blocks.modLine_line_self, hs]
  have voided : (((toHunt l b).modLine l (fun y => { y with
      voidCount := cap16 (y.voidCount + 1), goodRun := 0 })).line l).state = .ok := by
    rw [Blocks.modLine_line_self, ok]
  unfold onGap voidFrame
  dsimp only
  rw [if_neg (by simpa using hg), ok]
  dsimp only
  rw [setLineState_changed (by rw [voided]; decide), voided, toHunt, Blocks.modLine_modLine, Blocks.modLine_modLine]
  rfl

theorem onSilence_changed {l : LineId} {b : Blocks} (h : (b.line l).state ≠ .silent) :
    onSilence l b = (b.modLine l (fun y => { y with
      silenceTimer := none, goodRun := 0, secondSum := 0, secondCount := 0, state := .silent })).trail
        (.lineState l (b.line l).state .silent .silence) := by
  unfold onSilence
  rw [setLineState_changed (by rw [Blocks.modLine_line_self]; exact h), Blocks.modLine_modLine,
    Blocks.modLine_line_self]

/-- Settles O40: the line itself contributes after a gap, and another one after its silence. -/
theorem aLineThatStopsIsSuspectThenSilent : Obligations.ALineThatStopsIsSuspectThenSilent := by
  intro l n s b x hq hk
  constructor
  · intro collecting running ok
    refine lineEntry_leaves hq (n := n) ?_
    show s.part.blocks.expire x.gapTimer (fun c => reckonData (onGap l c)) = _
    rw [running, expire_running, onGap_ok (b := b) collecting ok]
    exact reckonData_contributes (l := l) hk (by simp)
  · rintro running sounding ⟨k, other, contributes⟩
    refine lineEntry_leaves hq (n := n) ?_
    show s.part.blocks.expire x.silenceTimer (fun c => reckonData (onSilence l c)) = _
    rw [running, expire_running, onSilence_changed (b := b) sounding]
    refine reckonData_contributes (l := k) hk ?_
    rw [Blocks.trail_line, Blocks.modLine_line_of_ne _ other]
    exact contributes

/-! ### The start grace (R99) -/

theorem Still.modWind {skip : Option DishId} {b : Blocks} (h : Still skip b) {f : WindWatch → WindWatch}
    (hs : (f b.wind).standing = b.wind.standing) (hw : (f b.wind).state = b.wind.state)
    (hr : (f b.wind).records = b.wind.records) : Still skip (b.modWind f) :=
  h.congr hs hw (fun e _ => by simp only [movingToStow, Blocks.stow, Blocks.modWind, hr]; rfl) h.2.2

/-- The page of the wind watch is republished for its state, its data flag and its stow records (R121). -/
theorem untouched_modWind_shown (pg : Page) {f : WindWatch → WindWatch} {b : Blocks}
    (hw : (f b.wind).state = b.wind.state) (hk : (f b.wind).dataKnown = b.wind.dataKnown)
    (hr : (f b.wind).records = b.wind.records) : Untouched pg b (b.modWind f) := by
  by_cases hpg : pg = .wind
  · intro x y
    subst hpg
    simp [pageTouched, Blocks.modWind, Blocks.line, hw, hk, hr]
  · exact untouched_modWind hpg f b

/-- Settles O41: the flag is reckoned anew once the grace is over. -/
theorem theGraceEndsByTheLines : Obligations.TheGraceEndsByTheLines := by
  intro n s b hq hg hk
  have expired : s.part.blocks.expire s.part.blocks.wind.grace onGraceOver
      = reckonData (b.modWind (fun w => { w with grace := none })) := by
    rw [show s.part.blocks.wind.grace = some n from hg, expire_running]
    rfl
  have still : Still none b := (hq.still none).runTo n
  obtain ⟨inbox, out, -⟩ := hq
  constructor
  · rintro ⟨l, contributes⟩
    refine actBlocks_silent (expired.trans (reckonData_contributes (l := l) hk contributes)) (still.modWind rfl rfl rfl)
      inbox out rfl rfl fun pg _ => ?_
    exact (untouched_runTo pg n _).trans (untouched_modWind_shown pg rfl rfl rfl)
  · intro silent hold
    refine windPage_leaves (expired.trans ?_) (still.modWind rfl rfl rfl) inbox out (by simp [markedPages]) fun pg hp =>
      (untouched_runTo pg n _).trans (untouched_modWind hp _ b)
    rw [reckonData_unknown (b := b.modWind (fun w => { w with grace := none })) hk rfl silent hold,
      Blocks.modWind_out, show b.out = [] from out]
    rfl

end Sys2Proof.Machine
end

