-- ==== Sys2Proof/Proofs/StowDeadlines.lean ====
section
/-! SUPPORT. The stow deadline and the end of the release hold (R103 to R105, R113). -/

namespace Sys2Proof.Machine

/-! ### Late dishes (R113) -/

/-- A dish holds WIND and is neither STOWED nor BLOCKED nor marked already. -/
def isLate (b : Blocks) (d : DishId) : Bool := (b.dish d).reasons.wind && (b.stow d).phase != .stowed
  && (b.stow d).phase != .blocked && !(b.stow d).late

def lateEntry (b : Blocks) (d : DishId) : Output :=
  .trail (.stowLate d (b.stow d).phase (b.dish d).drive) b.clock.time b.clock.valid

/-- The stow record of a dish after the deadline. -/
def deadlineRecord (b : Blocks) (d : DishId) : StowRecord :=
  if isLate b d then { b.stow d with late := true } else b.stow d

/-- The blocks after these dishes have met the deadline. -/
def Blocks.deadlineMet (l : List DishId) (b : Blocks) : Blocks :=
  { b with
    wind := { b.wind with
      records := Vector.ofFn (fun e : Fin 12 => if e ∈ l then deadlineRecord b e else b.wind.records[e]) }
    out := b.out ++ (l.filter (isLate b)).map (lateEntry b) }

theorem Blocks.deadlineMet_stow (l : List DishId) (b : Blocks) (e : DishId) :
    (b.deadlineMet l).stow e = if e ∈ l then deadlineRecord b e else b.stow e := by
  simp [Blocks.deadlineMet, Blocks.stow]

theorem Blocks.deadlineMet_nil (b : Blocks) : b.deadlineMet [] = b := by
  simp [Blocks.deadlineMet]

/-- One dish at the deadline. -/
theorem checkLate_eq (d : DishId) (b : Blocks) : checkLate d b = b.deadlineMet [d] := by
  have records := ofFn_single b.wind.records d (deadlineRecord b)
  unfold Blocks.deadlineMet
  rw [records]
  by_cases late : isLate b d = true
  · have marked : deadlineRecord b d = { b.stow d with late := true } := if_pos late
    rw [marked, List.filter_cons_of_pos late]
    exact if_pos late
  · have same : b.wind.records.set d (deadlineRecord b d) = b.wind.records := by
      rw [deadlineRecord, if_neg late]
      exact Vector.set_getElem_self _
    rw [same, List.filter_cons_of_neg late, List.filter_nil, List.map_nil, List.append_nil]
    exact if_neg late

/-- What one dish meets is nothing to another. -/
theorem deadlineMet_concat {l : List DishId} {d : DishId} (h : d ∉ l) (b : Blocks) :
    (b.deadlineMet l).deadlineMet [d] = b.deadlineMet (l ++ [d]) := by
  have stow : (b.deadlineMet l).stow d = b.stow d := by rw [Blocks.deadlineMet_stow, if_neg h]
  have late : isLate (b.deadlineMet l) d = isLate b d := by unfold isLate; rw [stow]; rfl
  have entry : lateEntry (b.deadlineMet l) d = lateEntry b d := by unfold lateEntry; rw [stow]; rfl
  have record : deadlineRecord (b.deadlineMet l) d = deadlineRecord b d := by unfold deadlineRecord; rw [late, stow]
  have outs : [d].filter (isLate (b.deadlineMet l)) = [d].filter (isLate b) := by simp [List.filter_cons, late]
  have entries : ([d].filter (isLate b)).map (lateEntry (b.deadlineMet l)) = ([d].filter (isLate b)).map (lateEntry b) :=
    List.map_congr_left fun e he => by
      obtain rfl : e = d := by simpa using (List.mem_filter.mp he).1
      exact entry
  have records : ((b.deadlineMet l).deadlineMet [d]).wind.records = (b.deadlineMet (l ++ [d])).wind.records := by
    refine Vector.ext fun i hi => ?_
    show ((b.deadlineMet l).deadlineMet [d]).stow ⟨i, hi⟩ = (b.deadlineMet (l ++ [d])).stow ⟨i, hi⟩
    rw [Blocks.deadlineMet_stow, Blocks.deadlineMet_stow, Blocks.deadlineMet_stow]
    by_cases self : (⟨i, hi⟩ : DishId) = d
    · simp [self, record]
    · simp [self]
  have out : ((b.deadlineMet l).deadlineMet [d]).out = (b.deadlineMet (l ++ [d])).out := by
    show b.out ++ (l.filter (isLate b)).map (lateEntry b)
      ++ ([d].filter (isLate (b.deadlineMet l))).map (lateEntry (b.deadlineMet l)) = _
    rw [outs, entries, List.append_assoc, ← List.map_append, ← List.filter_append]
    rfl
  have parts : ∀ (n : List DishId) (c : Blocks), c.deadlineMet n = { c with
      wind := { c.wind with records := (c.deadlineMet n).wind.records }, out := (c.deadlineMet n).out } :=
    fun _ _ => rfl
  rw [parts [d], parts (l ++ [d]), records, out]
  rfl

/-- The dishes are looked at one after another. -/
theorem overDishes_checkLate {l : List DishId} (hn : l.Nodup) (b : Blocks) :
    overDishes l checkLate b = b.deadlineMet l := by
  induction l using List.reverseRecOn with
  | nil => exact b.deadlineMet_nil.symm
  | append_singleton l d ih =>
    obtain ⟨earlier, new⟩ : l.Nodup ∧ d ∉ l := by
      rw [← List.concat_eq_append, List.nodup_concat] at hn
      exact hn.symm
    have last : overDishes (l ++ [d]) checkLate b = checkLate d (overDishes l checkLate b) := by
      unfold overDishes
      exact List.foldl_concat ..
    rw [last, ih earlier, checkLate_eq, deadlineMet_concat new]

/-- A mark for a late dish leaves its phase, so STOWING goes on. -/
theorem Still.deadlineMet {skip : Option DishId} {b : Blocks} (h : Still skip b) (l : List DishId) :
    Still skip (b.deadlineMet l) := by
  refine h.congr rfl rfl (fun e _ => ?_) h.2.2
  have phase : ((b.deadlineMet l).stow e).phase = (b.stow e).phase := by
    rw [Blocks.deadlineMet_stow]
    unfold deadlineRecord
    split_ifs <;> rfl
  unfold movingToStow
  rw [phase]
  rfl

/-! ### The release hold (R103, R104) -/

/-- A change of WIND STATE that sets the WIND cause (R105). -/
theorem changeWind_caused {b : Blocks} {new : WindState} (t : WindTrigger)
    (h : (b.wind.state.stowing' || new.stowing') = true) :
    changeWind new t b = { b.modWind (fun w => { w with state := new }) with
      out := b.out ++ windEntry b b.wind.state new t } := by
  unfold changeWind windEntry
  dsimp only
  rw [if_pos h]
  simp only [Blocks.cause, Blocks.publish, Blocks.trail, List.append_assoc, List.cons_append, List.nil_append]
  rfl

/-- Where every blocked dish has a reason, an entry into CALM stops the deadline alone (R113, R115). -/
theorem clearBlocked_reasoned {b : Blocks} (h : ∀ d, (b.stow d).phase = .blocked → (b.dish d).reasonsEmpty = false) :
    clearBlocked b = b.modWind (fun w => { w with deadline := none }) := by
  refine overDishes_fix _ _ _ fun d _ => if_neg ?_
  rintro ⟨blocked, empty⟩
  exact absurd (empty.symm.trans (h d blocked)) (by decide)

theorem calmFromRelease_kept {b : Blocks} (hw : b.wind.state = .releaseWait) (ha : b.wind.reading.autoRelease = false)
    (hb : ∀ d, (b.stow d).phase = .blocked → (b.dish d).reasonsEmpty = false) :
    calmFromRelease b = { b.modWind (fun w => { w with state := .calm, releaseHold := none, deadline := none }) with
      out := b.out ++ windEntry b .releaseWait .calm .release } := by
  have state : (b.modWind (fun w => { w with releaseHold := none })).wind.state = .releaseWait := hw
  unfold calmFromRelease
  dsimp only
  rw [ha, if_neg Bool.false_ne_true, changeWind_caused .release (by rw [state]; rfl),
    clearBlocked_reasoned (by exact hb), state]
  rfl

/-- Settles O43: the dishes meet the deadline one after another, and the entry into CALM finds nothing to clear. -/
theorem theDeadlineAndTheReleaseHold : Obligations.TheDeadlineAndTheReleaseHold := by
  intro n s b late hq
  have still : Still none b := hq.still.runTo n
  obtain ⟨inbox, out, standing, -, sheds⟩ := hq
  have touched : ∀ pg, pg ≠ .wind → ∀ f, Untouched pg s.part.blocks (b.modWind f) := fun pg hp f =>
    (untouched_runTo pg n _).trans (untouched_modWind hp f b)
  constructor
  · intro running
    have met : s.part.blocks.expire s.part.blocks.wind.deadline onDeadline
        = (b.modWind (fun w => { w with deadline := none })).deadlineMet allDishes := by
      rw [show s.part.blocks.wind.deadline = some n from running, expire_running]
      exact overDishes_checkLate (by decide) _
    have records : Vector.ofFn (fun d : Fin 12 => if d ∈ allDishes then deadlineRecord b d else b.wind.records[d])
        = Vector.ofFn (fun d : Fin 12 => if late d then { b.stow d with late := true } else b.stow d) :=
      congrArg Vector.ofFn (funext fun d => if_pos (mem_allDishes d))
    have marked : (b.modWind (fun w => { w with deadline := none })).deadlineMet allDishes
        = { b.modWind (fun w => { w with
              deadline := none
              records := Vector.ofFn (fun d : Fin 12 =>
                if late d then { b.stow d with late := true } else b.stow d) }) with
            out := (allDishes.filter late).map (lateEntry b) } := by
      rw [← records, ← List.nil_append (List.map _ _), ← out]
      rfl
    have stopped : Still none (b.modWind (fun w => { w with deadline := none })) := still.modWind rfl rfl rfl
    have goesOn := marked ▸ stopped.deadlineMet allDishes
    exact windPage_leaves (met.trans marked) (goesOn.of_records rfl rfl fun _ => rfl) inbox out
      (by simp [markedPages]) fun pg hp => touched pg hp _
  · intro running waiting kept reasons
    have calm : s.part.blocks.expire s.part.blocks.wind.releaseHold calmFromRelease = calmFromRelease b := by
      rw [show s.part.blocks.wind.releaseHold = some n from running, expire_running]
    have quiet : Still none (b.modWind (fun w => { w with state := .calm, releaseHold := none, deadline := none })) :=
      ⟨standing, fun e => absurd (show WindState.calm = .stowing from e) (by decide), sheds⟩
    refine windPage_leaves (calm.trans ?_) quiet inbox out (by simp [markedPages]) fun pg hp => touched pg hp _
    rw [calmFromRelease_kept waiting kept reasons, show b.out = [] from out]
    rfl

end Sys2Proof.Machine
end

