-- ==== Sys2Proof/Proofs/SnowScores.lean ====
section
/-! SUPPORT. The bounds of the snow load score and of the derate factor, and the settings that keep them (R133, R135,
R185, R187). -/

namespace Sys2Proof.Machine

/-! ### The two functions (R133, R135) -/

theorem nextScore_le (st : Settings) (score applied : Nat) (temp : Option Int) (precip : Precipitation) :
    nextScore st score applied temp precip ≤ 10000 := by
  unfold nextScore
  dsimp only
  omega

/-- What the derate factor loses between the soft and the hard level is at most its half (R135). -/
theorem derateLoss_le {r : SnowReading} {score : Nat} (hs : score < r.hard) (hsoft : r.soft ≤ score) :
    500 * (score - r.soft) / (r.hard - r.soft) ≤ 500 := by
  refine Nat.div_le_of_le_mul ?_
  rw [Nat.mul_comm]
  exact Nat.mul_le_mul_right 500 (by omega)

theorem derateOf_bounds (r : SnowReading) (score : Nat) : 500 ≤ derateOf r score ∧ derateOf r score ≤ 1000 := by
  unfold derateOf
  split_ifs with soft hard
  · omega
  · have loss := derateLoss_le hard (Nat.le_of_not_lt soft)
    exact ⟨Nat.sub_le_sub_left loss 1000, Nat.sub_le _ _⟩
  · omega

theorem derateOf_antitone (r : SnowReading) : Antitone (derateOf r) := by
  intro x y hxy
  have low := (derateOf_bounds r x).1
  have high := (derateOf_bounds r y).2
  by_cases softX : x < r.soft
  · exact high.trans_eq (if_pos softX).symm
  by_cases hardY : y < r.hard
  · have loss : 500 * (x - r.soft) / (r.hard - r.soft) ≤ 500 * (y - r.soft) / (r.hard - r.soft) :=
      Nat.div_le_div_right (by omega)
    rw [derateOf, derateOf, if_neg softX, if_neg (by omega), if_pos hardY, if_pos (by omega)]
    omega
  · rw [derateOf, if_neg (by omega), if_neg hardY]
    exact low

/-! ### Settings that pass the checks (R187) -/

theorem admits_of_firstOutOfRange {i k : Nat} {rs : List SettingRange} {vs : List Int} {r : SettingRange} {v : Int}
    (h : firstOutOfRange i rs vs = none) (hr : rs[k]? = some r) (hv : vs[k]? = some v) : r.admits v = true := by
  induction rs generalizing i k vs with
  | nil => cases hr
  | cons r' rs ih =>
    cases vs with
    | nil => cases hv
    | cons v' vs =>
      rw [firstOutOfRange] at h
      split at h
      · next admitted =>
        cases k with
        | zero =>
          cases hr
          cases hv
          exact admitted
        | succ k => exact ih h hr hv
      · cases h

theorem eq_none_of_firstSome {l : List (Option Nat)} (h : firstSome l = none) {o : Option Nat} (ho : o ∈ l) :
    o = none := by
  induction l with
  | nil => cases ho
  | cons a l ih =>
    cases a with
    | some i => cases h
    | none =>
      rcases List.mem_cons.mp ho with rfl | ho
      · rfl
      · exact ih h ho

theorem settingFault_eq_none {st : Settings} (h : settingFault st = none) :
    firstOutOfRange 0 settingRanges st.toList = none ∧ firstSome (relationFaults st) = none := by
  unfold settingFault at h
  split at h
  · cases h
  · next ranges => exact ⟨ranges, h⟩

theorem soft_lt_hard {st : Settings} (h : settingFault st = none) : st.soft < st.hard := by
  have relation := eq_none_of_firstSome (settingFault_eq_none h).2
    (o := if decide (st.soft < st.hard) then none else some 82) (by simp [relationFaults])
  by_contra apart
  rw [if_neg (by simpa using apart)] at relation
  cases relation

theorem startScore_le {st : Settings} (h : settingFault st = none) : st.startScore ≤ 10000 := by
  have range := admits_of_firstOutOfRange (settingFault_eq_none h).1 (k := 86) (r := .between 0 10000)
    (v := st[86]) rfl (by simp)
  simp only [SettingRange.admits, Bool.and_eq_true, decide_eq_true_eq] at range
  show st[86].toNat ≤ 10000
  omega

/-! ### The settings that power-on loads (R185) -/

theorem settingFault_factoryDefaults : settingFault factoryDefaults = none := by decide

theorem settingFault_loadSite (nv : List Byte) (failures : Nat) :
    settingFault (loadSite nv failures).working = none := by
  unfold loadSite
  dsimp only
  split
  · next stored =>
    by_contra faulty
    have found : (settingFault (recordSettings nv)).isSome = true := Option.isSome_iff_ne_none.mpr faulty
    rw [loadFailure, found] at stored
    split_ifs at stored with _ _ sound
    · cases stored
    · cases stored
    · cases stored
    · exact sound rfl
  · exact settingFault_factoryDefaults

theorem powerOn_dish {levels : FieldLevels} {s t : State} (h : exec (.powerOn levels) s = .next t) (d : DishId) :
    ∃ st : Settings, settingFault st = none ∧ t.part.blocks.dish d = freshDish st levels d := by
  have restarted : t.part = s.part.restart levels := by
    cases h
    rfl
  rw [restarted, Part.restart, (powerOn_published _ _ _).1, freshBlocks_dish]
  exact ⟨_, settingFault_loadSite _ _, rfl⟩

/-- Settles O60: the score is cut off at 10000, the derate factor loses at most its half, and power-on takes its start
score from settings that have passed the checks. -/
theorem theScoreAndDerateFunctionsAreBounded : Obligations.TheScoreAndDerateFunctionsAreBounded := by
  refine ⟨nextScore_le, fun r x y _ hxy => ?_, fun st h => ⟨soft_lt_hard h, startScore_le h⟩, ?_⟩
  · exact ⟨(derateOf_bounds r y).1, derateOf_antitone r hxy, (derateOf_bounds r x).2⟩
  · intro levels s t h d
    obtain ⟨st, sound, dish⟩ := powerOn_dish h d
    rw [dish]
    exact ⟨startScore_le sound, derateOf_bounds _ _⟩

end Sys2Proof.Machine
end

