-- ==== Sys2Proof/Proofs/MeltModes.lean ====
section
/-! SUPPORT. Updates of several heater zones, and MELT_MODE OFF of zones that ask for nothing (R125, R126, R142). -/

namespace Sys2Proof.Machine

/-! ### Updates of several zones -/

/-- The entries of a table at some places, changed alike. -/
@[irreducible] def changeAt {α : Type} {n : Nat} (p : Fin n → Bool) (f : α → α) (v : Vector α n) :
    Vector α n :=
  Vector.ofFn fun i => if p i then f v[i] else v[i]

section
variable {α : Type} {n : Nat} (p : Fin n → Bool) (f : α → α) (v : Vector α n)

theorem changeAt_eq : changeAt p f v = Vector.ofFn fun i => if p i then f v[i] else v[i] := by rw [changeAt]

theorem changeAt_getElem (i : Fin n) : (changeAt p f v)[i] = if p i then f v[i] else v[i] := by simp [changeAt_eq]

theorem changeAt_none : changeAt (fun _ => false) f v = v := Vector.ext fun i hi => by simp [changeAt_eq]

/-- An entry that has the change is the same after it; another one joins those that have it. -/
theorem set_changeAt (idem : ∀ x, f (f x) = f x) (z : Fin n) :
    (changeAt p f v).set z (f (changeAt p f v)[z]) = changeAt (fun i => p i || decide (i = z)) f v := by
  refine Vector.ext fun i hi => ?_
  have other := changeAt_getElem (fun i => p i || decide (i = z)) f v ⟨i, hi⟩
  have own := changeAt_getElem p f v ⟨i, hi⟩
  simp only [Fin.getElem_fin] at other own ⊢
  rw [Vector.getElem_set, other, own]
  by_cases hz : i = z.val
  · subst hz
    have := changeAt_getElem p f v z
    simp only [Fin.getElem_fin] at this
    by_cases hp : p z <;> simp [hp, this, idem]
  · simp [Fin.ext_iff, hz, Ne.symm hz]

end

/-- The records of some zones changed alike. -/
def Blocks.withZones (p : ZoneId → Bool) (f : Zone → Zone) (b : Blocks) : Blocks :=
  { b with zones := changeAt p f b.zones }

theorem withZones_zone (p : ZoneId → Bool) (f : Zone → Zone) (b : Blocks) (z : ZoneId) :
    (b.withZones p f).zone z = if p z then f (b.zone z) else b.zone z := changeAt_getElem p f b.zones z

theorem withZones_none (f : Zone → Zone) (b : Blocks) : b.withZones (fun _ => false) f = b :=
  congrArg (fun v => ({ b with zones := v } : Blocks)) (changeAt_none f b.zones)

theorem modZone_withZones {f : Zone → Zone} (idem : ∀ x, f (f x) = f x) (p : ZoneId → Bool) (z : ZoneId)
    (b : Blocks) :
    (b.withZones p f).modZone z f = b.withZones (fun y => p y || decide (y = z)) f :=
  congrArg (fun v => ({ b with zones := v } : Blocks)) (set_changeAt p f b.zones idem z)

theorem untouched_withZones {pg : Page} (h : ∀ z, pg ≠ .zone z) (p : ZoneId → Bool) (f : Zone → Zone)
    (b : Blocks) : Untouched pg b (b.withZones p f) := by
  intro x y
  rw [← pageTouched_self pg ⟨b, x⟩]
  cases pg
  case zone z => exact absurd rfl (h z)
  all_goals rfl

/-! ### Named zones (R142) -/

theorem zoneOf_eq_iff (d : DishId) (c : ZoneClass) (z : ZoneId) :
    zoneOf d c = z ↔ d = zoneDish z ∧ c = zoneClass z := by
  constructor
  · rintro rfl
    cases c <;> simp [zoneOf, zoneDish, zoneClass, Fin.ext_iff] <;> omega
  · rintro ⟨rfl, rfl⟩
    unfold zoneClass
    split_ifs <;> simp only [zoneOf, zoneDish, Fin.ext_iff] <;> omega

theorem mem_namedZones (dishes classes : Word) (z : ZoneId) : z ∈ namedZones dishes classes ↔
    (dishBits dishes).has (zoneDish z) ∧ zoneClass z ∈ classBits classes := by
  simp only [namedZones, List.mem_flatMap, List.mem_map, mem_toList_iff, zoneOf_eq_iff]
  constructor
  · rintro ⟨d, hd, c, hc, rfl, rfl⟩
    exact ⟨hd, hc⟩
  · rintro ⟨hd, hc⟩
    exact ⟨_, hd, _, hc, rfl, rfl⟩

/-! ### MELT_MODE OFF (R125, R126, R142) -/

/-- A zone whose mode is OFF (R125). -/
def Zone.switchedOff (x : Zone) : Zone := { x with mode := .off, demand := 0 }

/-- A zone that is OFF, and that asks for nothing where its demand is 0 (R126). -/
def AsksNothing (b : Blocks) (z : ZoneId) : Prop :=
  (b.zone z).state = .off ∧ (b.zone z).request = 0 ∧ 0 < (b.meltReading z).startValue

theorem AsksNothing.switchedOff {b : Blocks} {z : ZoneId} (h : AsksNothing b z) (p : ZoneId → Bool) :
    AsksNothing (b.withZones p Zone.switchedOff) z := by
  obtain ⟨state, request, start⟩ := h
  refine ⟨?_, ?_, start⟩ <;> rw [withZones_zone] <;> split
  · exact state
  · exact state
  · exact request
  · exact request

/-- Where the REQUEST formed anew is the one that stands, nothing is posted (R126). -/
theorem reformRequest_same {z : ZoneId} {b : Blocks} (h : requestOf (b.meltReading z) (b.zone z) = (b.zone z).request) :
    reformRequest z b = b := by
  rw [reformRequest, postRequest, if_pos h.symm]

theorem modeZone_off {z : ZoneId} {b : Blocks} (h : AsksNothing b z) (forced : Nat) :
    modeZone .off forced z b = b.modZone z Zone.switchedOff := by
  obtain ⟨state, request, start⟩ := h
  have formed : formDemand z (b.modZone z (fun x => { x with
      mode := .off, forced := if ZoneMode.off = .forced then forced else x.forced }))
      = b.modZone z Zone.switchedOff := by
    rw [formDemand, Blocks.modZone_modZone]
    exact Blocks.modZone_congr rfl
  have zone : (b.modZone z Zone.switchedOff).zone z = (b.zone z).switchedOff := b.modZone_zone_self z _
  have off : ((b.modZone z Zone.switchedOff).zone z).state = .off := by
    rw [zone]
    exact state
  have unasked : requestOf ((b.modZone z Zone.switchedOff).meltReading z) ((b.modZone z Zone.switchedOff).zone z)
      = ((b.modZone z Zone.switchedOff).zone z).request := by
    rw [requestOf_off off (by rw [zone]; exact start), zone]
    exact request.symm
  rw [modeZone, formed, off, if_neg (by simp), reformRequest_same unasked]

theorem foldl_modeZone_off (forced : Nat) {zs : List ZoneId} {b : Blocks} (h : ∀ z ∈ zs, AsksNothing b z)
    (p : ZoneId → Bool) : zs.foldl (fun x z => modeZone .off forced z x) (b.withZones p Zone.switchedOff)
      = b.withZones (fun z => p z || decide (z ∈ zs)) Zone.switchedOff := by
  induction zs generalizing p with
  | nil => simp
  | cons z zs ih =>
    rw [List.foldl_cons, modeZone_off ((h z (by simp)).switchedOff p),
      modZone_withZones (f := Zone.switchedOff) fun _ => rfl, ih fun y hy => h y (List.mem_cons_of_mem _ hy)]
    simp [Bool.or_assoc]

theorem takeMeltMode_off {slot : SlotId} {dishes classes : Word} (forced : Word) {b : Blocks} (hd : dishes ≠ 0)
    (hs : dishes.toNat < 4096) (hc : (classBits classes).isEmpty = false)
    (h : ∀ z ∈ namedZones dishes classes, AsksNothing b z) : takeMeltMode slot dishes classes 0 forced b
      = (b.withZones (fun z => decide (z ∈ namedZones dishes classes)) Zone.switchedOff).answer slot
        ⟨.done, noNotes, 0, [0, 0, 0, 0, 0]⟩ := by
  have worked := foldl_modeZone_off (min 1000 forced.toNat) h (fun _ => false)
  simp only [withZones_none, Bool.false_or] at worked
  have uncut : (namedZones dishes classes).filter (fun z => ((b.withZones (fun z => decide (z ∈ namedZones dishes
      classes)) Zone.switchedOff).zone z).state == .cut) = [] := by
    refine List.filter_eq_nil_iff.mpr fun z hz => ?_
    rw [((h z hz).switchedOff _).1]
    decide
  have named : ¬ (dishes = 0 ∨ 4096 ≤ dishes.toNat) := by
    rintro (e | e)
    · exact hd e
    · omega
  unfold takeMeltMode
  rw [if_neg named, hc, if_neg Bool.false_ne_true, show readZoneMode 0 = some .off from rfl]
  dsimp only
  rw [worked, uncut]
  rfl

/-- Settles O17: each named zone takes its mode and its demand and posts nothing. -/
theorem meltModeOffTakesTheDemand : Obligations.MeltModeOffTakesTheDemand := by
  intro h dishes classes forced s b o hd hs hc hslot hq hoff hstart
  have taken := takeMeltMode_off (slot := h.slot) forced hd hs hc
    fun z hz => ⟨(hoff z hz).1, (hoff z hz).2, hstart z hz⟩
  have still := hq.still none
  obtain ⟨inbox, out, -⟩ := hq
  have zones : b.withZones (fun z => decide (z ∈ namedZones dishes classes)) Zone.switchedOff
      = { b with zones := Vector.ofFn (fun z : Fin 36 =>
          if (dishBits dishes).has (zoneDish z) ∧ zoneClass z ∈ classBits classes then
            { b.zone z with mode := .off, demand := 0 }
          else b.zone z) } := by
    simp only [Blocks.withZones, changeAt_eq, decide_eq_true_eq, mem_namedZones]
    rfl
  rw [← zones]
  refine order_answered (c := .meltMode h dishes classes 0 forced) rfl hslot.1 hslot.2.1 (fun staging => ?_)
    (still.of_records rfl rfl fun _ => rfl) inbox out rfl rfl (fun pg hp => untouched_withZones ?_ _ _ b)
  · rw [handOver_passed hslot.2.2]
    exact congrArg (·, false) taken
  · rintro z rfl
    exact hp (List.mem_map_of_mem (mem_allZones z))

end Sys2Proof.Machine
end

