-- ==== Sys2Proof/Proofs/ZoneSteps.lean ====
section
/-! SUPPORT. The melt step of a zone: what it reads, the demand, the step of its STATE and the REQUEST (R123, R125,
R126, R128 to R132, R143). -/

namespace Sys2Proof.Machine

/-! ### Zone and heater records -/

theorem Blocks.modZone_fixed {b : Blocks} {z : ZoneId} {f : Zone → Zone} (h : f (b.zone z) = b.zone z) :
    b.modZone z f = b := by
  have same : b.zones.set z (f b.zones[z]) = b.zones := by
    rw [show f b.zones[z] = b.zones[z] from h]
    exact Vector.set_getElem_self _
  exact congrArg (fun v => ({ b with zones := v } : Blocks)) same

theorem Blocks.modHeater_fixed {b : Blocks} {z : ZoneId} {f : HeaterOutput → HeaterOutput}
    (h : f (b.heater z) = b.heater z) : b.modHeater z f = b := by
  have same : b.heaters.set z (f b.heaters[z]) = b.heaters := by
    rw [show f b.heaters[z] = b.heaters[z] from h]
    exact Vector.set_getElem_self _
  exact congrArg (fun v => ({ b with heaters := v } : Blocks)) same

/-! ### The step of the zone's STATE (R128 to R132) -/

/-- STATE, APPLIED DUTY and the tail timer that a melt step gives a zone (R128 to R130). -/
def Zone.next (st : Settings) (now target : Nat) (x : Zone) : ZoneState × Nat × Timer :=
  match x.state with
  | .off => if st.startValue ≤ target then (.running, st.startValue, none) else (.off, x.applied, x.tail)
  | .running =>
    if st.stopValue ≤ target then
      (.running, if x.applied < target then min target (x.applied + st.upStep)
        else if target < x.applied then max target (x.applied - st.downStep) else x.applied, x.tail)
    else if st.stopValue ≤ x.grantedDuty then (.tailing, st.stopValue, some (now + 1000 * st.stopTime))
    else (.off, 0, none)
  | .tailing =>
    if x.grantedDuty < st.stopValue then (.off, 0, none)
    else if st.startValue ≤ target then (.running, st.startValue, none)
    else (.tailing, st.stopValue, x.tail)
  | .cut => (.cut, x.applied, x.tail)

/-- Whether a melt step hands no duty to the zone's output: where the zone stays CUT or OFF (R132). -/
def Zone.keepsOutput (x : Zone) (n : ZoneState × Nat × Timer) : Bool :=
  x.state == .cut || (x.state == .off && n.1 == .off)

def Zone.stepped (n : ZoneState × Nat × Timer) (x : Zone) : Zone :=
  { x with state := n.1, applied := n.2.1, tail := n.2.2 }

/-- The blocks once a melt step has given a zone its STATE, duty and timer, and the zone's output its duty (R132). -/
def Blocks.withStep (z : ZoneId) (n : ZoneState × Nat × Timer) (b : Blocks) : Blocks :=
  (b.modZone z (Zone.stepped n)).modHeater z fun o =>
    if (b.zone z).keepsOutput n then o else followDuty n.2.1 b.clock.count o

/-- A step that hands a duty to the output. -/
theorem withStep_duty {z : ZoneId} {b : Blocks} {n : ZoneState × Nat × Timer} {g : Zone → Zone}
    (h : g { b.zone z with applied := n.2.1 } = (b.zone z).stepped n) (hk : (b.zone z).keepsOutput n = false) :
    (applyDuty z n.2.1 b).modZone z g = b.withStep z n := by
  rw [applyDuty, Blocks.modHeater_modZone, Blocks.modZone_modZone, Blocks.modZone_congr (g := Zone.stepped n) h,
    Blocks.withStep, hk]
  rfl

/-- A step that hands none and changes nothing. -/
theorem withStep_kept {z : ZoneId} {b : Blocks} {n : ZoneState × Nat × Timer} (h : (b.zone z).stepped n = b.zone z)
    (hk : (b.zone z).keepsOutput n = true) : b.withStep z n = b := by
  rw [Blocks.withStep, Blocks.modZone_fixed h, Blocks.modHeater_fixed]
  rw [hk]
  rfl

theorem enterRunning_eq {z : ZoneId} {b : Blocks} (hc : (b.zone z).state ≠ .cut) :
    enterRunning z b = b.withStep z (.running, b.settings.startValue, none) :=
  withStep_duty (n := (.running, b.settings.startValue, none)) rfl (by simp [Zone.keepsOutput, hc])

theorem enterTailing_eq {z : ZoneId} {b : Blocks} (hc : (b.zone z).state ≠ .cut) : enterTailing z b
    = b.withStep z (.tailing, b.settings.stopValue, some (b.clock.count + 1000 * b.settings.stopTime)) :=
  withStep_duty (n := (.tailing, b.settings.stopValue, some (b.clock.count + 1000 * b.settings.stopTime))) rfl
    (by simp [Zone.keepsOutput, hc])

theorem zoneOff_withStep {z : ZoneId} {b : Blocks} (hc : (b.zone z).state ≠ .cut) (ho : (b.zone z).state ≠ .off) :
    zoneOff z b = b.withStep z (.off, 0, none) :=
  withStep_duty (n := (.off, 0, none)) rfl (by simp [Zone.keepsOutput, hc, ho])

/-- A zone that stays RUNNING or TAILING takes its duty (R129, R130). -/
theorem applyDuty_withStep {z : ZoneId} {b : Blocks} {state : ZoneState} (duty : Nat) (hs : (b.zone z).state = state)
    (hc : state ≠ .cut) (ho : state ≠ .off) :
    applyDuty z duty b = b.withStep z (state, duty, (b.zone z).tail) := by
  have taken := withStep_duty (z := z) (b := b) (n := (state, duty, (b.zone z).tail)) (g := id)
    (by simp [Zone.stepped, ← hs]) (by simp [Zone.keepsOutput, hs, hc, ho])
  rw [← taken, Blocks.modZone_fixed rfl]

/-- A melt step of a zone (R128 to R132). -/
theorem stepZone_eq (z : ZoneId) (b : Blocks) : stepZone z b
    = b.withStep z ((b.zone z).next b.settings b.clock.count (min (b.zone z).demand (b.zone z).grantedDuty)) := by
  unfold stepZone Zone.next
  dsimp only
  generalize htarget : min (b.zone z).demand (b.zone z).grantedDuty = target
  have cap : target ≤ (b.zone z).grantedDuty := htarget ▸ min_le_right _ _
  cases hs : (b.zone z).state with
  | off =>
    dsimp only
    split
    · exact enterRunning_eq (by simp [hs])
    · exact (withStep_kept (by simp [Zone.stepped, ← hs]) (by simp [Zone.keepsOutput, hs])).symm
  | running =>
    have notCut : (b.zone z).state ≠ .cut := by simp [hs]
    dsimp only
    by_cases reached : b.settings.stopValue ≤ target
    · rw [if_neg (by omega), if_neg (by omega), if_pos reached]
      exact applyDuty_withStep _ hs (by decide) (by decide)
    · by_cases granted : b.settings.stopValue ≤ (b.zone z).grantedDuty
      · rw [if_neg (by omega), if_pos (by omega), if_neg reached, if_pos granted]
        exact enterTailing_eq notCut
      · rw [if_pos (by omega), if_neg reached, if_neg granted]
        exact zoneOff_withStep notCut (by simp [hs])
  | tailing =>
    have notCut : (b.zone z).state ≠ .cut := by simp [hs]
    dsimp only
    split_ifs
    · exact zoneOff_withStep notCut (by simp [hs])
    · exact enterRunning_eq notCut
    · exact applyDuty_withStep _ hs (by decide) (by decide)
  | cut => exact (withStep_kept (by simp [Zone.stepped, ← hs]) (by simp [Zone.keepsOutput, hs])).symm

/-! ### What a melt step reads (R143) -/

theorem readMelt_modZone (z : ZoneId) (f : Zone → Zone) (b : Blocks) :
    readMelt z (b.modZone z f) = (readMelt z b).modZone z f := by
  unfold readMelt
  dsimp only
  split <;> rfl

theorem readMelt_other {z : ZoneId} (h : zoneClass z ≠ .surface) (b : Blocks) : readMelt z b
    = { b with meltReadings := b.meltReadings.set z (b.settings.meltReading (zoneClass z)) } := if_neg h

theorem readMelt_surface {z : ZoneId} (h : zoneClass z = .surface) (b : Blocks) : readMelt z b
    = { b with
        meltReadings := b.meltReadings.set z (b.settings.meltReading (zoneClass z))
        snowReadings := b.snowReadings.set (zoneDish z) b.settings.snowReading } := if_pos h

/-- What is no reading stays at a melt step's start. -/
theorem readMelt_eq (z : ZoneId) (b : Blocks) : ∃ r, readMelt z b
    = { b with meltReadings := b.meltReadings.set z (b.settings.meltReading (zoneClass z)), snowReadings := r } := by
  by_cases h : zoneClass z = .surface
  · exact ⟨_, readMelt_surface h b⟩
  · exact ⟨_, readMelt_other h b⟩

theorem readMelt_meltReading (z : ZoneId) (b : Blocks) :
    (readMelt z b).meltReading z = b.settings.meltReading (zoneClass z) := by
  obtain ⟨r, h⟩ := readMelt_eq z b
  rw [h, Blocks.meltReading]
  simp

/-- The snow reading that a melt step of the zone uses (R125, R143). -/
def snowRead (z : ZoneId) (b : Blocks) : SnowReading :=
  if zoneClass z = .surface then b.settings.snowReading else b.snowReading (zoneDish z)

theorem readMelt_snowReading (z : ZoneId) (b : Blocks) : (readMelt z b).snowReading (zoneDish z) = snowRead z b := by
  unfold snowRead
  split
  · next h =>
    rw [readMelt_surface h, Blocks.snowReading]
    simp
  · next h =>
    rw [readMelt_other h]
    rfl

/-! ### The zone at its melt step (R123, R125, R126) -/

/-- The DEMAND that a melt step forms (R125). -/
def demandAt (z : ZoneId) (b : Blocks) : Nat :=
  demandOf (b.settings.meltReading (zoneClass z)) (snowRead z b).onset (b.zone z) (zoneClass z) (airTemperature b)
    (precipitation b) (b.dish (zoneDish z)).score

/-- The STATE, APPLIED DUTY and tail timer that follow from it. -/
def stepAt (z : ZoneId) (b : Blocks) : ZoneState × Nat × Timer :=
  (b.zone z).next b.settings b.clock.count (min (demandAt z b) (b.zone z).grantedDuty)

/-- The zone after its melt step. -/
def Zone.meltStepped (demand due : Nat) (n : ZoneState × Nat × Timer) (x : Zone) : Zone :=
  { x with demand := demand, state := n.1, applied := n.2.1, tail := n.2.2, stepDue := due }

/-- The blocks after the melt step of a zone, but for what its REQUEST and a SURFACE zone bring. -/
def Blocks.zoneStepped (z : ZoneId) (b : Blocks) : Blocks :=
  ((readMelt z b).modZone z (Zone.meltStepped (demandAt z b) (b.clock.count + 1000) (stepAt z b))).modHeater z fun o =>
    if (b.zone z).keepsOutput (stepAt z b) then o else followDuty (stepAt z b).2.1 b.clock.count o

theorem stepZone_formDemand (z : ZoneId) (b : Blocks) :
    stepZone z (formDemand z (readMelt z (b.modZone z (fun x => { x with stepDue := b.clock.count + 1000 }))))
      = b.zoneStepped z := by
  have snow := readMelt_snowReading z b
  have melt := readMelt_meltReading z b
  have formed : formDemand z (readMelt z (b.modZone z (fun x => { x with stepDue := b.clock.count + 1000 })))
      = (readMelt z b).modZone z (fun x =>
        { x with demand := demandAt z b, stepDue := b.clock.count + 1000 }) := by
    obtain ⟨r, h⟩ := readMelt_eq z b
    rw [readMelt_modZone, formDemand, Blocks.modZone_modZone]
    dsimp only [Blocks.modZone_meltReading, Blocks.modZone_snowReading, Blocks.modZone_dish]
    rw [snow, melt, h]
    rfl
  obtain ⟨r, h⟩ := readMelt_eq z b
  rw [formed, stepZone_eq, Blocks.modZone_zone_self, Blocks.withStep, Blocks.modZone_zone_self, Blocks.modZone_modZone,
    Blocks.zoneStepped, h]
  rfl

/-- The REQUEST that a melt step forms (R126). -/
def requestAt (z : ZoneId) (b : Blocks) : Nat :=
  if (stepAt z b).1 = .cut then 0
  else if b.settings.startValue ≤ demandAt z b
      ∨ ((stepAt z b).1 = .running ∧ b.settings.stopValue ≤ demandAt z b) then
    ((b.zone z).rated * demandAt z b + 999) / 1000
  else if (stepAt z b).1 = .tailing then ((b.zone z).rated * b.settings.stopValue + 999) / 1000
  else 0

theorem zoneStepped_zone (z : ZoneId) (b : Blocks) : (b.zoneStepped z).zone z
    = (b.zone z).meltStepped (demandAt z b) (b.clock.count + 1000) (stepAt z b) := by
  obtain ⟨r, h⟩ := readMelt_eq z b
  rw [Blocks.zoneStepped, Blocks.modHeater_zone, Blocks.modZone_zone_self, h]
  rfl

theorem requestOf_zoneStepped (z : ZoneId) (b : Blocks) :
    requestOf ((b.zoneStepped z).meltReading z) ((b.zoneStepped z).zone z) = requestAt z b := by
  have melt : (b.zoneStepped z).meltReading z = b.settings.meltReading (zoneClass z) := readMelt_meltReading z b
  rw [melt, zoneStepped_zone, requestAt, ite_or]
  rfl

/-- Where rated power and REQUEST stay, nothing is posted (R123, R126, R143). -/
theorem postZone_same {z : ZoneId} {b : Blocks} (hr : (b.zone z).rated = b.settings.ratedPower (zoneClass z))
    (hq : requestOf (b.meltReading z) (b.zone z) = (b.zone z).request) : postZone z b = b := by
  rw [postZone, if_pos hr, reformRequest_same hq]

/-- A melt step of a zone whose rated power and REQUEST stay (R123). -/
theorem meltStep_eq {z : ZoneId} {a b : Blocks} (hb : a.runTo (a.zone z).stepDue = b)
    (hr : (b.zone z).rated = b.settings.ratedPower (zoneClass z)) (hq : (b.zone z).request = requestAt z b) :
    meltStep z a = if zoneClass z = .surface then surfaceStep (zoneDish z) (stepAt z b).2.1 (b.zoneStepped z)
      else b.zoneStepped z := by
  have zone := zoneStepped_zone z b
  have settings : (b.zoneStepped z).settings = b.settings := by
    obtain ⟨r, h⟩ := readMelt_eq z b
    rw [Blocks.zoneStepped, h]
    rfl
  have posted : postZone z (b.zoneStepped z) = b.zoneStepped z :=
    postZone_same (by rw [zone, settings]; exact hr) (by rw [requestOf_zoneStepped, zone]; exact hq.symm)
  unfold meltStep
  rw [hb]
  dsimp only
  rw [stepZone_formDemand, posted, zone]
  rfl

/-- Where no score follows, the zone's page is all that is touched. -/
theorem untouched_zoneStepped {pg : Page} {z : ZoneId} (h : pg ≠ .zone z) (b : Blocks) :
    Untouched pg b (b.zoneStepped z) := by
  have read : Untouched pg b (readMelt z b) := by
    obtain ⟨r, h⟩ := readMelt_eq z b
    intro x y
    rw [h, ← pageTouched_self pg ⟨b, x⟩]
    cases pg <;> rfl
  exact (read.trans (untouched_modZone h _ _)).trans (untouched_modHeater pg z _ _)

end Sys2Proof.Machine
end

