-- ==== Sys2Proof/Proofs/SnowLoads.lean ====
section
/-! SUPPORT. What a melt step of a SURFACE zone does beyond it: the score, its levels, the derate factor and the shed
tilt (R133 to R137, R140). -/

namespace Sys2Proof.Machine

/-! ### Shed records -/

theorem Blocks.modShed_modShed (b : Blocks) (d : DishId) (f g : Shed → Shed) :
    (b.modShed d f).modShed d g = b.modShed d (fun x => g (f x)) := by
  simp [Blocks.modShed]

theorem Blocks.modShed_congr {b : Blocks} {d : DishId} {f g : Shed → Shed} (h : f (b.shed d) = g (b.shed d)) :
    b.modShed d f = b.modShed d g :=
  congrArg (fun x => ({ b with sheds := b.sheds.set d x } : Blocks)) h

theorem Blocks.modShed_fixed {b : Blocks} {d : DishId} {f : Shed → Shed} (h : f (b.shed d) = b.shed d) :
    b.modShed d f = b := by
  have same : b.sheds.set d (f b.sheds[d]) = b.sheds := by
    rw [show f b.sheds[d] = b.sheds[d] from h]
    exact Vector.set_getElem_self _
  exact congrArg (fun v => ({ b with sheds := v } : Blocks)) same

/-! ### The score and its levels (R133, R134) -/

theorem nextScore_eq (st : Settings) (score applied : Nat) (temp : Option Int) (precip : Precipitation) :
    nextScore st score applied temp precip = (max 0 (min 10000 ((score : Int)
        + (if temp.any (fun t => decide (t ≤ 10)) = true ∧ precip = .snow then (st.accumulation : Int) else 0)
        - (st.removal * applied / 1000 : Nat)
        - (if temp.any (fun t => decide (30 ≤ t)) = true then (st.thaw : Int) else 0)))).toNat := by
  unfold nextScore
  cases temp with
  | none => simp
  | some t => simp [sub_sub]

/-- The entry of a level side that changes (R134). -/
def sideEntry (c : Clock) (d : DishId) (level : SnowLevel) (value score : Nat) (was : Bool) : List Output :=
  if decide (value ≤ score) = was then []
  else [.trail (.snowLevel d level value (decide (value ≤ score)) score) c.time c.valid]

/-- Blocks in which the shed record of a dish has changed and these entries are handed on. -/
def Blocks.withShed (d : DishId) (f : Shed → Shed) (outs : List Output) (b : Blocks) : Blocks :=
  { b.modShed d f with out := outs }

theorem withShed_modShed (d : DishId) (f g : Shed → Shed) (outs : List Output) (b : Blocks) :
    (b.withShed d f outs).modShed d g = b.withShed d (fun x => g (f x)) outs :=
  congrArg (fun c => ({ c with out := outs } : Blocks)) (b.modShed_modShed d f g)

theorem withShed_shed (d : DishId) (f : Shed → Shed) (outs : List Output) (b : Blocks) :
    (b.withShed d f outs).shed d = f (b.shed d) := b.modShed_shed_self d f

theorem withShed_congr {d : DishId} {f g : Shed → Shed} {b : Blocks} (h : f (b.shed d) = g (b.shed d))
    (outs : List Output) : b.withShed d f outs = b.withShed d g outs :=
  congrArg (fun c => ({ c with out := outs } : Blocks)) (Blocks.modShed_congr h)

/-- A level side follows its level, with its entry where it changes. -/
theorem checkSide_withShed {d : DishId} {level : SnowLevel} {value : Nat} {was : Bool} {set : Bool → Shed → Shed}
    {b : Blocks} {f : Shed → Shed} {outs : List Output} (h : set was (f (b.shed d)) = f (b.shed d)) :
    checkSide d level value was set (b.withShed d f outs)
      = b.withShed d (fun x => set (decide (value ≤ (b.dish d).score)) (f x))
          (outs ++ sideEntry b.clock d level value (b.dish d).score was) := by
  have score : ((b.withShed d f outs).dish d).score = (b.dish d).score := rfl
  unfold checkSide sideEntry
  rw [score]
  dsimp only
  split
  · next same => rw [same, withShed_congr (f := fun x => set was (f x)) (g := f) h, List.append_nil]
  · rw [withShed_modShed]
    rfl

/-- The entries of the three sides (R134). -/
def sideEntries (c : Clock) (d : DishId) (r : SnowReading) (score : Nat) (x : Shed) : List Output :=
  sideEntry c d .onset r.onset score x.onset ++ sideEntry c d .soft r.soft score x.soft
    ++ sideEntry c d .hard r.hard score x.hard

def Shed.sided (r : SnowReading) (score : Nat) (x : Shed) : Shed :=
  { x with onset := decide (r.onset ≤ score), soft := decide (r.soft ≤ score), hard := decide (r.hard ≤ score) }

theorem updateSides_eq (d : DishId) (b : Blocks) : updateSides d b
    = b.withShed d (Shed.sided (b.snowReading d) (b.dish d).score)
        (b.out ++ sideEntries b.clock d (b.snowReading d) (b.dish d).score (b.shed d)) := by
  have start : b = b.withShed d id b.out := by
    rw [Blocks.withShed, Blocks.modShed_fixed rfl]
  unfold updateSides
  dsimp only
  conv_lhs =>
    arg 6
    arg 6
    arg 6
    rw [start]
  rw [checkSide_withShed rfl, checkSide_withShed rfl, checkSide_withShed rfl, sideEntries, List.append_assoc,
    List.append_assoc, List.append_assoc]
  rfl

/-! ### What follows the score (R133 to R136) -/

/-- The score of a dish after a melt step of its SURFACE zone with this duty (R133). -/
def scoreAt (d : DishId) (applied : Nat) (b : Blocks) : Nat :=
  nextScore b.settings (b.dish d).score applied (airTemperature b) (precipitation b)

def Dish.scored (r : SnowReading) (score : Nat) (x : Dish) : Dish :=
  { x with score := score, derate := derateOf r score }

/-- The shed record after it: the level sides, and ARMED below the shed clear level (R134, R136). -/
def Shed.scored (r : SnowReading) (clear score : Nat) (x : Shed) : Shed :=
  ⟨x.armed || decide (score < clear), x.phase, decide (r.onset ≤ score), decide (r.soft ≤ score),
    decide (r.hard ≤ score)⟩

/-- The records of a dish with its new score. -/
def Blocks.scored (d : DishId) (score : Nat) (b : Blocks) : Blocks :=
  (b.modDish d (Dish.scored (b.snowReading d) score)).modShed d
    (Shed.scored (b.snowReading d) b.settings.shedClear score)

theorem scored_shed (d : DishId) (score : Nat) (b : Blocks) :
    (b.scored d score).shed d = (b.shed d).scored (b.snowReading d) b.settings.shedClear score :=
  Blocks.modShed_shed_self _ d _

theorem scored_shed_of_ne {d e : DishId} (h : e ≠ d) (score : Nat) (b : Blocks) :
    (b.scored d score).shed e = b.shed e :=
  Blocks.modShed_shed_of_ne _ h _

theorem scored_phase (d e : DishId) (score : Nat) (b : Blocks) :
    ((b.scored d score).shed e).phase = (b.shed e).phase := by
  by_cases h : e = d
  · rw [h, scored_shed]
    rfl
  · rw [scored_shed_of_ne h]

/-- ARMED is set below the shed clear level (R136). -/
theorem armed_scored {d : DishId} {score : Nat} {b : Blocks} (hs : (b.dish d).score = score) (outs : List Output) :
    (if (b.dish d).score < b.settings.shedClear then
        (b.withShed d (Shed.sided (b.snowReading d) score) outs).modShed d (fun s => { s with armed := true })
      else b.withShed d (Shed.sided (b.snowReading d) score) outs)
      = b.withShed d (Shed.scored (b.snowReading d) b.settings.shedClear score) outs := by
  rw [hs]
  split
  · next clear =>
    rw [withShed_modShed]
    exact withShed_congr (by simp [Shed.sided, Shed.scored, clear]) outs
  · next clear => exact withShed_congr (by simp [Shed.sided, Shed.scored, clear]) outs

/-- A SURFACE melt step up to the shed tilt (R123). -/
theorem surfaceStep_eq {d : DishId} {applied : Nat} {b : Blocks} (hp : (b.shed d).phase ≠ .claiming) :
    surfaceStep d applied b = beginShed d { b.scored d (scoreAt d applied b) with
      out := b.out ++ sideEntries b.clock d (b.snowReading d) (scoreAt d applied b) (b.shed d) } := by
  generalize hs : scoreAt d applied b = score
  generalize ho : b.out ++ sideEntries b.clock d (b.snowReading d) score (b.shed d) = outs
  have scored : updateScore d applied b = b.modDish d (fun x => { x with score := score }) := by
    rw [← hs]
    rfl
  have updated : updateDerate d (updateSides d (updateScore d applied b))
      = (b.modDish d (Dish.scored (b.snowReading d) score)).withShed d (Shed.sided (b.snowReading d) score) outs := by
    have derated : updateDerate d ((b.modDish d (fun x => { x with score := score })).withShed d
        (Shed.sided (b.snowReading d) score) outs) = ((b.modDish d (fun x => { x with score := score })).modDish d
          (fun x => { x with derate := derateOf (b.snowReading d) x.score })).withShed d
            (Shed.sided (b.snowReading d) score) outs := rfl
    rw [scored, updateSides_eq, Blocks.modDish_dish_self, ← ho]
    refine (ho ▸ derated).trans ?_
    rw [Blocks.modDish_modDish]
    rfl
  have dish : ((b.modDish d (Dish.scored (b.snowReading d) score)).dish d).score = score := by
    rw [Blocks.modDish_dish_self]
    rfl
  unfold surfaceStep
  rw [updated]
  dsimp only
  refine congrArg (beginShed d) ?_
  refine (congrArg (recheckShed d) (armed_scored dish outs)).trans (recheckShed_fix d _ ?_)
  rw [withShed_shed]
  exact hp

/-! ### The shed tilt (R137, R140) -/

/-- All the conditions of a tilt (R137). -/
def mayTilt (b : Blocks) (d : DishId) : Bool :=
  shedAllowed b d && laden b d && (b.shed d).armed && (b.shed d).phase == .none

theorem beginShed_idle {d : DishId} {b : Blocks} (h : mayTilt b d = false) : beginShed d b = b :=
  if_neg (Bool.eq_false_iff.mp h)

/-- A plan that keeps the azimuth moves no azimuth axis (R27). -/
theorem plan_stay {st : Settings} {x : Dish} {el : Int} {floor : Option Int} {p : PlanResult}
    (h : plan st x .stay el floor = .ok p) : p.az.moves = false := by
  unfold plan at h
  split at h
  · cases h
    simp [makePlan, planAxis, AxisMove.moves]
  · cases h

/-- A claim for which no power is free waits alone in the queue (R75, R79, R80). -/
theorem submitClaim_alone {d : DishId} {who : Owner} {cls : ClaimClass} {az el : Bool} {b : Blocks}
    (hheat : b.HeatQuiet) (hq : b.fa.queue = []) (hg : b.fa.grants[d] = none) (hroom : remainder b.fa = 0)
    (hmoves : (az || el) = true) (hpos : 0 < (makeClaim b d who cls az el).amount) : submitClaim d who cls az el b
      = ((b.modFa (Arbiter.claimed (makeClaim b d who cls az el))).publish .power, .joined) := by
  have event := grantEvent_noRoom (b := b.modFa (Arbiter.claimed (makeClaim b d who cls az el))) hheat hroom
    (fun c hc => by rw [List.mem_singleton.mp hc]; exact hpos)
  generalize hc : makeClaim b d who cls az el = c at event
  have moves : (!c.azMoves && !c.elMoves) = false := by
    rw [← hc, ← Bool.not_or]
    exact congrArg _ hmoves
  have dish : c.dish = d := by rw [← hc]; rfl
  have free : b.fa.grants[c.dish] = none := by simpa only [dish] using hg
  have unqueued : queuedClaim b c.dish = none := by rw [queuedClaim, hq]; rfl
  have first : joinQueue c b = b.modFa (Arbiter.claimed c) :=
    congrArg (fun q => b.modFa (fun fa => { fa with queue := enqueue c q, sequence := fa.sequence + 1 })) hq
  have joined : submitQuiet c b = (b.modFa (Arbiter.claimed c), .joined) := by
    unfold submitQuiet
    rw [moves, free, unqueued, first]
    cases c.cls <;> rfl
  rw [submitClaim, hc, joined]
  dsimp only
  rw [event]

/-- A tilt that needs power claims it, and waits where none is left (R137). -/
theorem beginShed_claims {d : DishId} {b : Blocks} {p : PlanResult} (h : mayTilt b d = true)
    (hplan : shedPlan b d = .ok p) (hmoves : p.el.moves = true) (hheat : b.HeatQuiet) (hq : b.fa.queue = [])
    (hg : b.fa.grants[d] = none) (hroom : remainder b.fa = 0) (hel : 0 < b.settings.elPeak) : beginShed d b
      = ((setPhase d .claiming b).modFa (Arbiter.claimed (makeClaim b d .mc .shed false true))).publish .power := by
  have claim := submitClaim_alone (b := setPhase d .claiming b) (d := d) (who := .mc) (cls := .shed) (az := false)
    (el := true) hheat hq hg hroom rfl
    (hel.trans_eq (Nat.zero_add _).symm)
  unfold beginShed
  dsimp only
  rw [show (shedAllowed b d && laden b d && (b.shed d).armed && (b.shed d).phase == .none) = true from h, if_pos rfl,
    hplan]
  dsimp only
  rw [plan_stay hplan, hmoves, if_pos (by rfl), claim]
  rfl

/-! ### Settling while a shed claim waits (R140) -/

theorem settle_claiming {b : Blocks} (old : Blocks) (hi : b.inbox = []) (hs : b.wind.standing = [])
    (hw : b.wind.state ≠ .stowing) (hc : ∀ e, (b.shed e).phase = .claiming → shedAllowed b e = true) :
    settle old b = b := by
  have rechecked : ∀ e, recheckShed e b = b := fun e => if_neg fun h => by simp [hc e h.1] at h
  have sheds : overDishes allDishes (fun d x =>
      if shedTouched (old.dish d) (x.dish d) then recheckShed d x else x) b = b :=
    overDishes_fix _ _ _ fun e _ => by rw [rechecked, ite_self]
  rw [settle, tidy, sheds, reviewStows_fix b hs, checkStowed_fix b hw, drain_empty _ _ hi]

end Sys2Proof.Machine
end

