-- ==== Sys2Proof/Proofs/MeltSteps.lean ====
section
/-! SUPPORT. The melt step as a command (R123 to R137). -/

namespace Sys2Proof.Machine

/-! ### The records after a melt step, as the rules state them (R123, R132, R143) -/

theorem followDuty_eq (duty count : Nat) (o : HeaterOutput) : followDuty duty count o
    = { o with on := o.on && decide (0 < duty) && decide (count - o.windowStart < 10 * duty) } := by
  rw [followDuty, onTime, Nat.mul_comm]

/-- The blocks after the melt step of a zone, but for the snow readings of its dish. -/
def Blocks.stepWritten (z : ZoneId) (b : Blocks) : Blocks :=
  { (b.modZone z (Zone.meltStepped (demandAt z b) (b.clock.count + 1000) (stepAt z b))).modHeater z (fun o =>
      if (b.zone z).keepsOutput (stepAt z b) then o else { o with
        on := o.on && decide (0 < (stepAt z b).2.1)
          && decide (b.clock.count - o.windowStart < 10 * (stepAt z b).2.1) }) with
    meltReadings := b.meltReadings.set z (b.settings.meltReading (zoneClass z)) }

theorem stepWritten_read {z : ZoneId} {b : Blocks} {r : Vector SnowReading 12} (h : readMelt z b
    = { b with meltReadings := b.meltReadings.set z (b.settings.meltReading (zoneClass z)), snowReadings := r }) :
    b.zoneStepped z = { b.stepWritten z with snowReadings := r } := by
  rw [Blocks.zoneStepped, h]
  simp only [followDuty_eq]
  rfl

theorem zoneStepped_other {z : ZoneId} (h : zoneClass z ≠ .surface) (b : Blocks) :
    b.zoneStepped z = b.stepWritten z :=
  stepWritten_read (readMelt_other h b)

theorem zoneStepped_surface {z : ZoneId} (h : zoneClass z = .surface) (b : Blocks) : b.zoneStepped z
    = { b.stepWritten z with snowReadings := b.snowReadings.set (zoneDish z) b.settings.snowReading } :=
  stepWritten_read (readMelt_surface h b)

/-- The blocks after the melt step of a SURFACE zone that gives its dish this score, but for a shed tilt (R133 to R136).
-/
def Blocks.meltScored (z : ZoneId) (score : Nat) (b : Blocks) : Blocks :=
  { ((b.stepWritten z).modDish (zoneDish z) (Dish.scored (snowRead z b) score)).modShed (zoneDish z)
      (Shed.scored (snowRead z b) b.settings.shedClear score) with
    snowReadings := b.snowReadings.set (zoneDish z) b.settings.snowReading }

theorem meltScored_eq {z : ZoneId} (h : zoneClass z = .surface) (score : Nat) (b : Blocks) :
    b.meltScored z score = (b.zoneStepped z).scored (zoneDish z) score := by
  have snow : (b.zoneStepped z).snowReading (zoneDish z) = snowRead z b := readMelt_snowReading z b
  rw [Blocks.scored, snow, zoneStepped_surface h]
  rfl

/-- A melt step of a SURFACE zone whose rated power and REQUEST stay, up to the shed tilt (R123). -/
theorem meltStep_surface {z : ZoneId} {a b : Blocks} {score : Nat} (h : zoneClass z = .surface)
    (hb : a.runTo (a.zone z).stepDue = b) (hr : (b.zone z).rated = b.settings.ratedPower (zoneClass z))
    (hq : (b.zone z).request = requestAt z b) (hp : (b.shed (zoneDish z)).phase ≠ .claiming) (ho : b.out = [])
    (hs : nextScore b.settings (b.dish (zoneDish z)).score (stepAt z b).2.1 (airTemperature b) (precipitation b)
      = score) : meltStep z a = beginShed (zoneDish z) { b.meltScored z score with
        out := sideEntries b.clock (zoneDish z) (snowRead z b) score (b.shed (zoneDish z)) } := by
  have snow : (b.zoneStepped z).snowReading (zoneDish z) = snowRead z b := readMelt_snowReading z b
  have stepped := zoneStepped_surface h b
  have next : scoreAt (zoneDish z) (stepAt z b).2.1 (b.zoneStepped z) = score := by
    rw [← hs, stepped]
    rfl
  have shed : (b.zoneStepped z).shed (zoneDish z) = b.shed (zoneDish z) := by
    rw [stepped]
    rfl
  have out : (b.zoneStepped z).out = [] := by
    rw [stepped]
    exact ho
  have clock : (b.zoneStepped z).clock = b.clock := by
    rw [stepped]
    rfl
  rw [meltStep_eq hb hr hq, if_pos h, surfaceStep_eq (by rw [shed]; exact hp), next, snow, shed, out, clock,
    meltScored_eq h, List.nil_append]

theorem meltScored_snowReading {z : ZoneId} (h : zoneClass z = .surface) (score : Nat) (b : Blocks) :
    (b.meltScored z score).snowReading (zoneDish z) = snowRead z b := by
  rw [snowRead, if_pos h]
  simp [Blocks.meltScored, Blocks.snowReading]

/-! ### The conditions of a tilt (R137) -/

theorem reasonsEmpty_eq (x : Dish) : x.reasonsEmpty = (x.reasons == ⟨false, false⟩) := by
  unfold Dish.reasonsEmpty
  obtain ⟨w, m⟩ := x.reasons
  cases w <;> cases m <;> rfl

/-- The conditions of R137 on the dish, in the order of the statement. -/
def tiltsAt (z : ZoneId) (score : Nat) (b : Blocks) : Bool :=
  let y := b.dish (zoneDish z)
  (snowRead z b).autoShed && ((b.shed (zoneDish z)).armed || decide (score < b.settings.shedClear))
    && (b.shed (zoneDish z)).phase == .none && decide ((snowRead z b).shedThreshold ≤ score) && y.task == .none
    && y.formation == none && !y.lock.motionLocked && !y.lock.stopPending
    && (y.drive == .braked || y.drive == .holding) && y.reasons == ⟨false, false⟩ && b.wind.state == .calm

theorem mayTilt_meltScored {z : ZoneId} (h : zoneClass z = .surface) (score : Nat) (b : Blocks) (outs : List Output) :
    mayTilt { b.meltScored z score with out := outs } (zoneDish z) = tiltsAt z score b := by
  generalize hc : ({ b.meltScored z score with out := outs } : Blocks) = c
  have dish : c.dish (zoneDish z) = (b.dish (zoneDish z)).scored (snowRead z b) score :=
    hc ▸ Blocks.modDish_dish_self (b.stepWritten z) (zoneDish z) _
  have shed : c.shed (zoneDish z) = (b.shed (zoneDish z)).scored (snowRead z b) b.settings.shedClear score :=
    hc ▸ Blocks.modShed_shed_self ((b.stepWritten z).modDish (zoneDish z) _) (zoneDish z) _
  have snow : c.snowReading (zoneDish z) = snowRead z b := hc ▸ meltScored_snowReading h score b
  have wind : c.wind.state = b.wind.state := hc ▸ rfl
  have free : (b.dish (zoneDish z)).formation.isNone = ((b.dish (zoneDish z)).formation == none) := by
    cases (b.dish (zoneDish z)).formation <;> rfl
  unfold mayTilt shedAllowed laden tiltsAt
  dsimp only
  rw [dish, shed, snow, wind, reasonsEmpty_eq]
  dsimp only [Dish.scored, Shed.scored]
  rw [free]
  ac_rfl

/-! ### The command (R123) -/

/-- A change of the records of a dish touches its page and that of its SURFACE zone. -/
theorem untouched_meltScored {pg : Page} {z : ZoneId} (h : zoneClass z = .surface)
    (hp : pg ∉ [Page.zone z, .dish (zoneDish z)]) (score : Nat) (b : Blocks) :
    Untouched pg b (b.meltScored z score) := by
  simp only [List.mem_cons, List.not_mem_nil, or_false, not_or] at hp
  obtain ⟨zone, dish⟩ := hp
  have surface : zoneOf (zoneDish z) .surface = z := (zoneOf_eq_iff _ _ _).mpr ⟨rfl, h.symm⟩
  have scored : ∀ c : Blocks, Untouched pg c
      (c.modDish (zoneDish z) (Dish.scored (c.snowReading (zoneDish z)) score)) := by
    intro c x y
    rw [← pageTouched_self pg ⟨c, x⟩]
    cases pg
    case dish e =>
      have he : e ≠ zoneDish z := fun e' => dish (e' ▸ rfl)
      simp [pageTouched, he]
    case zone y =>
      by_cases hy : zoneClass y = .surface
      · have hd : zoneDish y ≠ zoneDish z := fun e => by
          have : y = z := by rw [← (zoneOf_eq_iff (zoneDish z) .surface y).mpr ⟨e.symm, hy.symm⟩, surface]
          exact zone (this ▸ rfl)
        simp [pageTouched, hd]
      · simp [pageTouched, hy]
    all_goals rfl
  rw [meltScored_eq h]
  exact ((untouched_zoneStepped zone b).trans (scored _)).trans (untouched_modShed (by rwa [surface]) _ _)

theorem meltScored_phase {z : ZoneId} (h : zoneClass z = .surface) (score : Nat) (b : Blocks) (e : DishId) :
    ((b.meltScored z score).shed e).phase = (b.shed e).phase := by
  rw [meltScored_eq h, scored_phase, zoneStepped_surface h]
  rfl

theorem markedPages_sideEntries (c : Clock) (d : DishId) (r : SnowReading) (score : Nat) (x : Shed) :
    markedPages (sideEntries c d r score x) = [] := by
  unfold sideEntries sideEntry
  split_ifs <;> rfl

/-- The claim of a tilt, for the elevation drive alone (R137). -/
def shedClaim (d : DishId) (b : Blocks) : Claim :=
  ⟨d, .mc, .shed, false, true, b.settings.elPeak, b.settings.azPeak, b.settings.elPeak, b.fa.sequence⟩

theorem makeClaim_shed (d : DishId) (b : Blocks) : makeClaim b d .mc .shed false true = shedClaim d b := by
  simp [makeClaim, shedClaim]

/-- The blocks once the tilt of a dish claims its power (R137). -/
def Blocks.tiltClaimed (d : DishId) (b : Blocks) : Blocks :=
  (b.modShed d (fun r => { r with phase := .claiming })).modFa (Arbiter.claimed (shedClaim d b))

theorem settle_tiltClaimed {b : Blocks} {d : DishId} (old : Blocks) (hi : b.inbox = []) (hs : b.wind.standing = [])
    (hw : b.wind.state ≠ .stowing) (hp : ∀ e, (b.shed e).phase ≠ .claiming) (ht : mayTilt b d = true) :
    settle old (b.tiltClaimed d) = b.tiltClaimed d := by
  refine settle_claiming old hi hs hw fun e he => ?_
  by_cases hed : e = d
  · subst hed
    simp only [mayTilt, Bool.and_eq_true] at ht
    exact ht.1.1.1
  · have phase : ((b.tiltClaimed d).shed e).phase = (b.shed e).phase :=
      congrArg Shed.phase (b.modShed_shed_of_ne hed (fun r => { r with phase := .claiming }))
    exact absurd (phase ▸ he) (hp e)

theorem meltScored_heatQuiet {z : ZoneId} {b : Blocks} (h : b.HeatQuiet) (score : Nat) (outs : List Output) :
    ({ b.meltScored z score with out := outs } : Blocks).HeatQuiet := by
  obtain ⟨zones, force, held⟩ := h
  refine ⟨fun e => ?_, force, held⟩
  have zone : (b.meltScored z score).zone e = if e = z then
      (b.zone z).meltStepped (demandAt z b) (b.clock.count + 1000) (stepAt z b) else b.zone e :=
    b.modZone_zone z e _
  show ((b.meltScored z score).zone e).request = 0 ∧ ((b.meltScored z score).zone e).grant = 0
  rw [zone]
  split
  · exact zones z
  · exact zones e

section
variable {z : ZoneId} {s : State} {b : Blocks} {score : Nat} {outs : List Output}

/-- A melt step of a SURFACE zone that no tilt follows. -/
theorem meltStep_untilted (hq : s.part.blocks.Quiet) (hb : s.part.blocks.runTo (s.part.blocks.zone z).stepDue = b)
    (surface : zoneClass z = .surface)
    (houts : outs = sideEntries b.clock (zoneDish z) (snowRead z b) score (b.shed (zoneDish z)))
    (begun : meltStep z s.part.blocks = beginShed (zoneDish z) { b.meltScored z score with out := outs })
    (idle : tiltsAt z score b = false) :
    Leaves (exec (.meltStep z) s) s (b.meltScored z score) s.part.xm outs [.zone z, .dish (zoneDish z), .common] := by
  subst hb
  obtain ⟨inbox, out, standing, calm, unclaimed⟩ := hq
  have still : Still none ((s.part.blocks.runTo (s.part.blocks.zone z).stepDue).meltScored z score) :=
    ⟨standing, fun stowing => absurd stowing calm, fun e => by
      rw [meltScored_phase surface]
      exact unclaimed e⟩
  refine actBlocks_leaves_untouched ?_ out ?_ (fun pg hp => ?_) (.inl (by simp))
  · rw [begun, beginShed_idle ((mayTilt_meltScored surface _ _ _).trans idle)]
    exact settle_outs _ still inbox outs
  · rw [houts, markedPages_sideEntries]
    simp
  · refine (untouched_runTo pg _ _).trans (untouched_meltScored surface ?_ score _)
    simp only [List.mem_cons, List.not_mem_nil, or_false, not_or] at hp ⊢
    exact ⟨hp.1, hp.2.1⟩

/-- A melt step of a SURFACE zone that a tilt follows, for which no power is left (R137). -/
theorem meltStep_tilts {p : PlanResult} (hq : s.part.blocks.Quiet)
    (hb : s.part.blocks.runTo (s.part.blocks.zone z).stepDue = b) (surface : zoneClass z = .surface)
    (houts : outs = sideEntries b.clock (zoneDish z) (snowRead z b) score (b.shed (zoneDish z)))
    (begun : meltStep z s.part.blocks = beginShed (zoneDish z) { b.meltScored z score with out := outs })
    (tilt : tiltsAt z score b = true) (hplan : shedPlan { b.meltScored z score with out := outs } (zoneDish z) = .ok p)
    (hmoves : p.el.moves = true) (hqueue : b.fa.queue = []) (hheat : b.HeatQuiet)
    (hgrant : b.fa.grants[zoneDish z] = none) (hroom : remainder b.fa = 0) (hel : 0 < b.settings.elPeak) :
    Leaves (exec (.meltStep z) s) s ((b.meltScored z score).tiltClaimed (zoneDish z)) s.part.xm
      (outs ++ [.page .power]) [.zone z, .dish (zoneDish z), .power, .common] := by
  subst hb
  obtain ⟨inbox, out, standing, calm, unclaimed⟩ := hq
  generalize hc : (s.part.blocks.runTo (s.part.blocks.zone z).stepDue).meltScored z score = scored at *
  have allowed := mayTilt_meltScored surface score (s.part.blocks.runTo (s.part.blocks.zone z).stepDue) outs
  rw [hc, tilt] at allowed
  have heat : ({ scored with out := outs } : Blocks).HeatQuiet := hc ▸ meltScored_heatQuiet hheat score outs
  have phases : ∀ e, (scored.shed e).phase ≠ .claiming := fun e => by
    rw [← hc, meltScored_phase surface]
    exact unclaimed e
  have acted : meltStep z s.part.blocks
      = ({ scored with out := outs ++ [.page .power] } : Blocks).tiltClaimed (zoneDish z) := by
    rw [begun, beginShed_claims allowed hplan hmoves heat (hc ▸ hqueue) (hc ▸ hgrant) (hc ▸ hroom) (hc ▸ hel),
      makeClaim_shed]
    rfl
  refine actBlocks_leaves_untouched (b := scored.tiltClaimed (zoneDish z)) ?_ (hc ▸ out) ?_ (fun pg hp => ?_)
    (.inl (by simp))
  · rw [acted]
    exact settle_tiltClaimed _ (hc ▸ inbox) (hc ▸ standing) (hc ▸ calm) phases allowed
  · rw [markedPages_append, houts, markedPages_sideEntries]
    simp [markedPages]
  · simp only [List.mem_cons, List.not_mem_nil, or_false, not_or] at hp
    obtain ⟨notZone, notDish, -⟩ := hp
    have surfaceZone : zoneOf (zoneDish z) .surface = z := (zoneOf_eq_iff _ _ _).mpr ⟨rfl, surface.symm⟩
    have scores : Untouched pg s.part.blocks scored := hc ▸ (untouched_runTo pg _ _).trans
      (untouched_meltScored surface (by simp [notZone, notDish]) score _)
    exact (scores.trans (untouched_modShed (by rwa [surfaceZone]) _ _)).trans (untouched_modFa pg rfl)

end

/-- Settles O44: the zone takes its step, a SURFACE zone gives its dish a score, and a tilt claims its power. -/
theorem aMeltStepFollowsItsTarget : Obligations.AMeltStepFollowsItsTarget := by
  intro z s b x d st snow demand target next same request stepped hq hr hrequest
  have ⟨inbox, out, _, _, unclaimed⟩ := hq
  refine ⟨fun other => ?_, fun surface => ?_⟩
  · have acted : meltStep z s.part.blocks = stepped := by
      rw [meltStep_eq rfl hr hrequest, if_neg other, zoneStepped_other other]
      rfl
    refine actBlocks_silent acted ((hq.still none).of_records rfl rfl fun _ => rfl) inbox out rfl rfl fun pg hp => ?_
    rw [← acted, meltStep_eq rfl hr hrequest, if_neg other]
    exact (untouched_runTo pg _ _).trans (untouched_zoneStepped (by simpa using hp) _)
  · intro temperature score side derate armed scored outs y tilts
    have scores : nextScore b.settings (b.dish d).score next.2.1 (airTemperature b) (precipitation b) = score :=
      nextScore_eq _ _ _ _ _
    clear_value score
    have begun := meltStep_surface surface rfl hr hrequest (unclaimed d) out scores
    refine ⟨fun idle => meltStep_untilted hq rfl surface rfl begun idle,
      fun p tilt hplan hmoves hqueue hheat hgrant hroom hel => ?_⟩
    have planned : shedPlan { b.meltScored z score with out := outs } d = .ok p := by
      have reading : ({ b.meltScored z score with out := outs } : Blocks).snowReading d = snow :=
        meltScored_snowReading surface score b
      rw [shedPlan, reading]
      exact hplan
    exact meltStep_tilts hq rfl surface rfl begun tilt planned hmoves hqueue hheat hgrant hroom hel

end Sys2Proof.Machine
end

