-- ==== Sys2Proof/Proofs/LockEvents.lean ====
section
/-! SUPPORT. An event of the lock table on a dish at rest: the record that is put or removed, the summary, the heat cut
and the news to the wind watch (R131, R145 to R150, R153). -/

namespace Sys2Proof.Machine

/-! ### The records of a dish (R145, R147) -/

/-- The places in which a dish may have a record. -/
def mayHold (d : DishId) (pl : LockPlace) : Prop := pl = .key d ∨ ∃ q, pl = .pool q

/-- No place holds a record of the dish. -/
def Unlocked (b : Blocks) (d : DishId) : Prop :=
  b.keySlots[d] = none ∧ ∀ (q : PoolId) (r : LockRecord), b.pool[q] = some r → r.dish ≠ d

theorem recordAt_putRecord (b : Blocks) (pl pl' : LockPlace) (x : Option LockRecord) :
    recordAt (putRecord pl x b) pl' = if pl' = pl then x else recordAt b pl' := by
  cases pl with
  | key d =>
    cases pl' with
    | key e =>
      by_cases h : e = d
      · subst h
        simp [recordAt, putRecord]
      · have h' : d.val ≠ e.val := fun e' => h (Fin.ext e'.symm)
        simp [recordAt, putRecord, h, h']
    | pool q => rfl
  | pool k =>
    cases pl' with
    | key e => rfl
    | pool q =>
      refine (putRecord_pool b k q x).trans ?_
      simp only [LockPlace.pool.injEq]
      rfl

/-- The places of a dish are those, of its key slot and the pool, whose record is of the dish. -/
theorem mem_placesOf {b : Blocks} {d : DishId} {pl : LockPlace} :
    pl ∈ placesOf b d ↔ mayHold d pl ∧ ∃ r, recordAt b pl = some r ∧ r.dish = d := by
  have places : pl ∈ LockPlace.key d :: allPool.map LockPlace.pool ↔ mayHold d pl := by
    simp [mayHold, allPool, eq_comm]
  rw [placesOf, List.mem_filter, places, Option.any_eq_true]
  simp only [beq_iff_eq]

theorem placesOf_nodup (b : Blocks) (d : DishId) : (placesOf b d).Nodup := by
  refine List.Nodup.filter _ (List.nodup_cons.mpr ⟨by simp, ?_⟩)
  exact (List.nodup_finRange 24).map fun _ _ h => LockPlace.pool.inj h

theorem Unlocked.dish_ne {b : Blocks} {d : DishId} (h : Unlocked b d) {pl : LockPlace} {r : LockRecord}
    (hpl : mayHold d pl) (hr : recordAt b pl = some r) : r.dish ≠ d := by
  rcases hpl with rfl | ⟨q, rfl⟩
  · exact absurd (h.1.symm.trans hr) (by simp)
  · exact h.2 q r hr

theorem Unlocked.recordsOf {b : Blocks} {d : DishId} (h : Unlocked b d) : recordsOf b d = [] := by
  have places : placesOf b d = [] := List.eq_nil_iff_forall_not_mem.mpr fun pl hpl => by
    obtain ⟨hold, r, record, dish⟩ := mem_placesOf.mp hpl
    exact h.dish_ne hold record dish
  rw [Machine.recordsOf, places]
  rfl

/-- A dish has the one record that it is given (R145). -/
theorem Unlocked.recordsOf_put {b : Blocks} {d : DishId} (h : Unlocked b d) {pl : LockPlace} {r : LockRecord}
    (hpl : mayHold d pl) (hr : r.dish = d) : Machine.recordsOf (putRecord pl (some r) b) d = [r] := by
  have places : placesOf (putRecord pl (some r) b) d = [pl] := by
    refine List.perm_singleton.mp ((List.perm_ext_iff_of_nodup (placesOf_nodup _ _) (List.nodup_singleton pl)).mpr
      fun q => ?_)
    rw [mem_placesOf, List.mem_singleton, recordAt_putRecord]
    constructor
    · rintro ⟨hold, y, record, dish⟩
      by_contra other
      rw [if_neg other] at record
      exact h.dish_ne hold record dish
    · rintro rfl
      exact ⟨hpl, r, if_pos rfl, hr⟩
  have put : recordAt (putRecord pl (some r) b) pl = some r := (recordAt_putRecord b pl pl _).trans (if_pos rfl)
  rw [Machine.recordsOf, places, List.filterMap_cons, put]
  rfl

/-- A dish without a record is free (R147). -/
theorem Unlocked.summary {b : Blocks} {d : DishId} (h : Unlocked b d) :
    summaryOf b d = ⟨false, false, false, false⟩ ∧ motionRecords b d = [] := by
  have motion : motionRecords b d = [] := by rw [motionRecords, h.recordsOf]; rfl
  rw [summaryOf, motion, h.recordsOf]
  exact ⟨rfl, rfl⟩

/-- The summary of an EFFECTIVE record that holds the motion of its dish (R147). -/
theorem Unlocked.summary_put {b : Blocks} {d : DishId} (h : Unlocked b d) {pl : LockPlace} {r : LockRecord}
    (hpl : mayHold d pl) (hr : r.dish = d) (hm : r.cls.holdsMotion = true) (hs : r.state = .effective)
    (ho : r.origin ≠ .silent) : summaryOf (putRecord pl (some r) b) d = ⟨true, r.cls.holdsHeat, false, false⟩ := by
  have motion : motionRecords (putRecord pl (some r) b) d = [r] := by
    rw [motionRecords, h.recordsOf_put hpl hr]
    simp [hm]
  rw [summaryOf, motion, h.recordsOf_put hpl hr]
  simp [hs, ho]

/-! ### The end of an event (R147, R150) -/

/-- The entries of an event of LT, each with its cause (R147, R170). -/
def lockOutputs (c : Clock) (es : List TrailEvent) : List Output :=
  es.flatMap fun e => [.trail e c.time c.valid, .cause .lock]

theorem writeEntries_eq (es : List TrailEvent) (b : Blocks) :
    writeEntries es b = { b with out := b.out ++ lockOutputs b.clock es } := by
  unfold writeEntries
  induction es generalizing b with
  | nil => simp [lockOutputs]
  | cons e es ih =>
    rw [List.foldl_cons, ih]
    simp [lockOutputs, Blocks.trail, Blocks.cause]

/-- Blocks in which these messages wait and these outputs are handed on. -/
def Blocks.boxed (i : List Message) (o : List Output) (b : Blocks) : Blocks := { b with inbox := i, out := o }

/-- A dish with another summary; `gone` where its last motion record has gone (R147, R153). -/
def Dish.withLock (new : LockSummary) (gone : Bool) (x : Dish) : Dish :=
  { x with lock := new, removalMark := x.removalMark || gone }

/-- The dish at rest stands in no formation, and no power is claimed or granted. -/
def NoneWaits (b : Blocks) (d : DishId) : Prop :=
  (b.dish d).formation = none ∧ b.fa.queue = [] ∧ ∀ e : DishId, b.fa.grants[e] = none

/-- What a changed summary does to the heat of the dish (R131, R147). -/
def spreadHeat (d : DishId) (old new : LockSummary) (b : Blocks) : Blocks :=
  if new.heatLocked && !old.heatLocked then cutHeat d b
  else if !new.heatLocked && old.heatLocked then uncutHeat d b
  else b

/-- The end of an event that changes the summary of a dish for which nothing else waits (R147). -/
theorem endLockEvent_changed {d : DishId} {before b : Blocks} {es : List TrailEvent} {old new : LockSummary}
    {gone : Bool} (hold : (before.dish d).lock = old) (hnew : summaryOf b d = new) (hne : old ≠ new)
    (hgone : (!(motionRecords before d).isEmpty && (motionRecords b d).isEmpty) = gone) (hw : NoneWaits b d) :
    endLockEvent d before ⟨es, false⟩ b = spreadHeat d old new ((b.modDish d (Dish.withLock new gone)).boxed
      (b.inbox ++ [.lockChanged d]) (b.out ++ lockOutputs b.clock es)) := by
  obtain ⟨formation, queue, grants⟩ := hw
  generalize hc : b.modDish d (Dish.withLock new gone) = c
  have dish : c.dish d = (b.dish d).withLock new gone := by rw [← hc, Blocks.modDish_dish_self]
  have written : writeEntries es c = { c with out := b.out ++ lockOutputs b.clock es } := by
    rw [writeEntries_eq, ← hc]
    rfl
  generalize hw : writeEntries es c = w at written
  have seized : overDishes allDishes seizeLocked w = w :=
    overDishes_fix _ _ _ fun k _ => seizeLocked_free (by rw [written, ← hc]; exact grants k)
  have unclaimed : queuedClaim w d = none := by
    rw [queuedClaim, written, ← hc]
    simp [queue]
  have lock : (w.dish d).lock = new := by
    rw [written]
    exact congrArg Dish.lock dish
  have free : (w.dish d).formation = none := by
    rw [written]
    exact (congrArg Dish.formation dish).trans formation
  unfold endLockEvent
  dsimp only
  rw [hold, hnew, hgone, show b.modDish d (fun x => { x with lock := new, removalMark := x.removalMark || gone }) = c
    from hc, hw]
  simp only [Bool.false_eq_true, if_false]
  rw [seized, if_neg hne]
  unfold spreadSummary
  dsimp only
  rw [lock, unclaimed]
  simp only [Option.isSome_none, Bool.false_eq_true, if_false]
  rw [free]
  simp only [Option.isSome_none, Bool.and_false, Bool.false_eq_true, if_false]
  rw [written, spreadHeat, ← hc]
  rfl

/-! ### The heat cut (R131) -/

/-- A zone whose heat is cut. -/
def Zone.cut (x : Zone) : Zone := { x with state := .cut, applied := 0, tail := none }

def HeaterOutput.off (o : HeaterOutput) : HeaterOutput := { o with on := false }

/-- The blocks with the heat of these zones cut. -/
def Blocks.cutAt (p : ZoneId → Bool) (b : Blocks) : Blocks :=
  { b with zones := changeAt p Zone.cut b.zones, heaters := changeAt p HeaterOutput.off b.heaters }

theorem cutAt_zone_request (p : ZoneId → Bool) (b : Blocks) (z : ZoneId) :
    ((b.cutAt p).zone z).request = (b.zone z).request := by
  have zone : (b.cutAt p).zone z = if p z then (b.zone z).cut else b.zone z := changeAt_getElem p Zone.cut b.zones z
  rw [zone]
  split <;> rfl

theorem cutAt_none (b : Blocks) : b.cutAt (fun _ => false) = b :=
  congrArg₂ (fun v w => ({ b with zones := v, heaters := w } : Blocks)) (changeAt_none _ _) (changeAt_none _ _)

/-- A zone that asks for nothing is cut, and posts nothing (R126, R131). -/
theorem cutZone_eq {z : ZoneId} {b : Blocks} (h : (b.zone z).request = 0) :
    cutZone z b = (b.modZone z Zone.cut).modHeater z HeaterOutput.off := by
  have cut : (applyDuty z 0 b).modZone z (fun x => { x with state := .cut, tail := none })
      = (b.modZone z Zone.cut).modHeater z HeaterOutput.off := by
    rw [applyDuty, Blocks.modHeater_modZone, Blocks.modZone_modZone]
    exact Blocks.modHeater_congr (followDuty_zero _ _)
  have zone : ((b.modZone z Zone.cut).modHeater z HeaterOutput.off).zone z = (b.zone z).cut := by simp
  rw [cutZone, cut]
  refine reformRequest_same ?_
  rw [zone]
  exact h.symm

theorem cutZone_cutAt {p : ZoneId → Bool} {z : ZoneId} {b : Blocks} (h : (b.zone z).request = 0) :
    cutZone z (b.cutAt p) = b.cutAt (fun y => p y || decide (y = z)) := by
  rw [cutZone_eq ((cutAt_zone_request p b z).trans h)]
  exact congrArg₂ (fun v w => ({ b with zones := v, heaters := w } : Blocks))
    (set_changeAt p Zone.cut b.zones (fun _ => rfl) z) (set_changeAt p HeaterOutput.off b.heaters (fun _ => rfl) z)

/-- The zones of a dish that ask for nothing are cut together (R131). -/
theorem cutHeat_eq {d : DishId} {b : Blocks} (h : ∀ z, (b.zone z).request = 0) :
    cutHeat d b = b.cutAt (fun z => zoneDish z == d) := by
  have zones : ∀ z, (((false || decide (z = zoneOf d .surface)) || decide (z = zoneOf d .subreflector))
      || decide (z = zoneOf d .feed)) = (zoneDish z == d) := fun z => by
    simp only [eq_comm (a := z), zoneOf_eq_iff]
    cases zoneClass z <;> simp [beq_eq_decide, eq_comm]
  unfold cutHeat zonesOf
  simp only [List.foldl_cons, List.foldl_nil]
  conv_lhs => rw [← cutAt_none b]
  rw [cutZone_cutAt (h _), cutZone_cutAt (h _), cutZone_cutAt (h _)]
  exact congrArg (fun p => b.cutAt p) (funext zones)

/-- The heat of a dish is cut by the record that locks it, where the record's class holds heat (R131, R147). -/
theorem spreadHeat_locked {d : DishId} {b : Blocks} {cls : LockClass}
    (h : cls = .motion ∨ (cls = .full ∧ ∀ z, (b.zone z).request = 0)) (i : List Message) (o : List Output) :
    spreadHeat d ⟨false, false, false, false⟩ ⟨true, cls.holdsHeat, false, false⟩ (b.boxed i o)
      = (b.cutAt fun z => cls.holdsHeat && zoneDish z == d).boxed i o := by
  rcases h with rfl | ⟨rfl, requests⟩
  · simp only [LockClass.holdsHeat, Bool.false_and, cutAt_none]
    rfl
  · simp only [LockClass.holdsHeat, Bool.true_and]
    have cut := cutHeat_eq (d := d) (b := b.boxed i o) requests
    refine Eq.trans (if_pos rfl) ?_
    rw [cut]
    rfl

theorem untouched_cutAt {pg : Page} (h : ∀ z, pg ≠ .zone z) (p : ZoneId → Bool) (b : Blocks) :
    Untouched pg b (b.cutAt p) := by
  intro x y
  rw [← pageTouched_self pg ⟨b, x⟩]
  cases pg
  case zone z => exact absurd rfl (h z)
  all_goals rfl

/-! ### A record that is put or removed on a dish at rest (R146 to R148, R153) -/

/-- An EFFECTIVE record. -/
def effectiveFor (d : DishId) (origin : LockOrigin) (cls : LockClass) (tag : Nat) (c : Clock) : LockRecord :=
  ⟨d, origin, cls, tag, .effective, c.time, c.valid, none⟩

/-- The entries of a record that takes effect at once on a BRAKED dish (R148). -/
def placedEntries (m : LockMark) : List TrailEvent := [.lockPlaced m .effective, .lockEffective m .braked]

theorem placeRecord_braked {d : DishId} {b : Blocks} (hd : (b.dish d).drive = .braked) (ht : (b.dish d).task = .none)
    (pl : LockPlace) {origin : LockOrigin} (ho : origin ≠ .silent) (cls : LockClass) (tag : Nat) :
    placeRecord pl d origin cls tag none b = (putRecord pl (some (effectiveFor d origin cls tag b.clock)) b,
      ⟨placedEntries ⟨d, pl.entry, origin, cls, tag⟩, false⟩) := by
  have placement : placementState (b.dish d) origin cls = (.effective, false) := by
    unfold placementState
    rw [hd, ht]
    simp [ho]
  unfold placeRecord
  dsimp only
  rw [placement, stateAtEffect, hd]
  rfl

/-- The blocks once a dish has its one record, which holds its motion, and where it holds the heat that is cut (R131,
R147). -/
def Blocks.locked (pl : LockPlace) (r : LockRecord) (b : Blocks) : Blocks :=
  ((putRecord pl (some r) b).modDish r.dish (Dish.withLock ⟨true, r.cls.holdsHeat, false, false⟩ false)).cutAt
    fun z => r.cls.holdsHeat && zoneDish z == r.dish

theorem putRecord_boxes (pl : LockPlace) (x : Option LockRecord) (b : Blocks) : (putRecord pl x b).inbox = b.inbox
    ∧ (putRecord pl x b).out = b.out ∧ (putRecord pl x b).clock = b.clock := by
  cases pl <;> exact ⟨rfl, rfl, rfl⟩

theorem endLockEvent_locked {d : DishId} {b : Blocks} {pl : LockPlace} {r : LockRecord} (h : Unlocked b d)
    (hpl : mayHold d pl) (hr : r.dish = d) (hs : r.state = .effective) (ho : r.origin ≠ .silent)
    (hc : r.cls = .motion ∨ (r.cls = .full ∧ ∀ z, (b.zone z).request = 0))
    (hlock : (b.dish d).lock = ⟨false, false, false, false⟩) (hw : NoneWaits b d) (es : List TrailEvent) :
    endLockEvent d b ⟨es, false⟩ (putRecord pl (some r) b)
      = (b.locked pl r).boxed (b.inbox ++ [.lockChanged d]) (b.out ++ lockOutputs b.clock es) := by
  have holds : r.cls.holdsMotion = true := by rcases hc with e | ⟨e, -⟩ <;> rw [e] <;> rfl
  have summary := h.summary_put hpl hr holds hs ho
  have waits : NoneWaits (putRecord pl (some r) b) d := by cases pl <;> exact hw
  have kept : (!(motionRecords b d).isEmpty && (motionRecords (putRecord pl (some r) b) d).isEmpty) = false := by
    rw [h.summary.2]
    rfl
  have unasked : r.cls = .motion ∨ (r.cls = .full ∧ ∀ z, ((putRecord pl (some r) b).zone z).request = 0) :=
    hc.imp id (And.imp id fun requests => by cases pl <;> exact requests)
  obtain ⟨inbox, out, clock⟩ := putRecord_boxes pl (some r) b
  rw [endLockEvent_changed hlock summary (by simp) kept waits, inbox, out, clock, Blocks.locked, hr]
  exact spreadHeat_locked (b := (putRecord pl (some r) b).modDish d _) unasked _ _

/-- The blocks once the one record of a dish is removed (R147, R153). -/
def Blocks.unlocked (pl : LockPlace) (d : DishId) (b : Blocks) : Blocks :=
  (putRecord pl none b).modDish d (Dish.withLock ⟨false, false, false, false⟩ true)

/-- The one record of a dish held its motion alone, and goes. -/
theorem endLockEvent_unlocked {d : DishId} {b : Blocks} {pl : LockPlace} {r : LockRecord}
    (h : Unlocked (putRecord pl none b) d) (hpl : mayHold d pl) (hp : recordAt b pl = some r) (hr : r.dish = d)
    (hm : r.cls.holdsMotion = true) (hlock : (b.dish d).lock = ⟨true, false, false, false⟩) (hw : NoneWaits b d)
    (es : List TrailEvent) : endLockEvent d b ⟨es, false⟩ (putRecord pl none b)
      = (b.unlocked pl d).boxed (b.inbox ++ [.lockChanged d]) (b.out ++ lockOutputs b.clock es) := by
  obtain ⟨summary, motion⟩ := h.summary
  have waits : NoneWaits (putRecord pl none b) d := by cases pl <;> exact hw
  have gone : (!(motionRecords b d).isEmpty && (motionRecords (putRecord pl none b) d).isEmpty) = true := by
    have held : r ∈ motionRecords b d := List.mem_filter.mpr
      ⟨List.mem_filterMap.mpr ⟨pl, mem_placesOf.mpr ⟨hpl, r, hp, hr⟩, hp⟩, hm⟩
    rw [motion]
    simpa using List.ne_nil_of_mem held
  obtain ⟨inbox, out, clock⟩ := putRecord_boxes pl none b
  rw [endLockEvent_changed hlock summary (by simp) gone waits, inbox, out, clock, Blocks.unlocked]
  rfl

/-! ### The news to the wind watch (R114, R117) -/

/-- A dish that is not stowing and waits for no unpin: the news of its locks changes nothing. -/
theorem onLockChanged_unstowed {d : DishId} {b : Blocks} (hp : (b.stow d).phase = .none)
    (hu : (b.stow d).unpinWanted = false) : onLockChanged d b = b := by
  have unblocked : blockEvent d .lock b = b := by
    unfold blockEvent movingToStow
    rw [hp]
    simp
  unfold onLockChanged
  rw [hp, unblocked]
  simp [hu]

/-- An event of LT on such a dish settles once the news is taken. -/
theorem settle_lockChanged {d : DishId} {b : Blocks} (old : Blocks) (h : Still none b) (hi : b.inbox = [])
    (hp : (b.stow d).phase = .none) (hu : (b.stow d).unpinWanted = false) (outs : List Output) :
    settle old (b.boxed [.lockChanged d] outs) = { b with out := outs } := by
  have handled : handle (.lockChanged d) (b.boxed [] outs) = { b with out := outs } :=
    (onLockChanged_unstowed (b := b.boxed [] outs) hp hu).trans (Blocks.without_inbox hi)
  exact settle_message (skip := none) (skip' := none) old (h.boxes _ _) rfl handled
    (h.of_records rfl rfl fun _ => rfl) hi

/-! ### What the records touch (R165) -/

/-- A key slot is shown by its own entry of the lock view alone (R165). -/
theorem untouched_key {pg : Page} {d : DishId} (h : pg ≠ .lockEntry ⟨d.val, by omega⟩) (x : Option LockRecord)
    (b : Blocks) : Untouched pg b { b with keySlots := b.keySlots.set d x } := by
  intro y z
  rw [← pageTouched_self pg ⟨b, y⟩]
  cases pg
  case lockEntry e =>
    have same : lockEntry e { b with keySlots := b.keySlots.set d x } = lockEntry e b := by
      unfold lockEntry
      split
      · next he =>
        have other : d.val ≠ e.val := fun e' => h (congrArg Page.lockEntry (Fin.ext e'.symm))
        unfold keyEntry
        simp only [Fin.getElem_fin, Vector.getElem_set_ne _ _ other]
        rfl
      · rfl
    show (lockEntry e b != lockEntry e { b with keySlots := b.keySlots.set d x }) = (lockEntry e b != lockEntry e b)
    rw [same]
  all_goals rfl

end Sys2Proof.Machine
end

