-- ==== Sys2Proof/Proofs/PanelReplies.lean ====
section
/-! SUPPORT. The reply window: void slots, and what a good reply gives its panel and the lock table (R159 to R163,
R196). -/

namespace Sys2Proof.Machine

/-! ### Panel records -/

theorem Blocks.modPanel_modPanel (b : Blocks) (d : DishId) (f g : Panel → Panel) :
    (b.modPanel d f).modPanel d g = b.modPanel d (fun x => g (f x)) := by
  simp [Blocks.modPanel]

theorem Blocks.modPanel_congr {b : Blocks} {d : DishId} {f g : Panel → Panel} (h : f (b.panel d) = g (b.panel d)) :
    b.modPanel d f = b.modPanel d g :=
  congrArg (fun x => ({ b with pedestal := { b.pedestal with panels := b.pedestal.panels.set d x } } : Blocks)) h

/-- A panel is shown by the entry of its dish's key slot alone (R165). -/
theorem untouched_modPanel {pg : Page} {d : DishId} (h : pg ≠ .lockEntry ⟨d.val, by omega⟩) (f : Panel → Panel)
    (b : Blocks) : Untouched pg b (b.modPanel d f) := by
  intro y z
  rw [← pageTouched_self pg ⟨b, y⟩]
  cases pg
  case lockEntry e =>
    have same : lockEntry e (b.modPanel d f) = lockEntry e b := by
      unfold lockEntry
      split
      · next he =>
        have other : (⟨e.val, he⟩ : DishId) ≠ d := fun e' =>
          h (congrArg Page.lockEntry (Fin.ext (congrArg (fun i : DishId => i.val) e')))
        unfold keyEntry
        rw [Blocks.modPanel_panel_of_ne _ other]
        rfl
      · rfl
    show (lockEntry e b != lockEntry e (b.modPanel d f)) = (lockEntry e b != lockEntry e b)
    rw [same]
  all_goals rfl

theorem untouched_closeExchange (pg : Page) (b : Blocks) : Untouched pg b (closeExchange b) := by
  intro y z
  rw [← pageTouched_self pg ⟨b, y⟩]
  cases pg <;> rfl

/-! ### Void slots (R159, R160) -/

/-- A void slot that is not the third one of an ONLINE panel. -/
theorem voidSlot_counted {d : DishId} {b : Blocks} (h : (b.panel d).link = .silent ∨ (b.panel d).voids < 2) :
    voidSlot d b = b.modPanel d (fun q => { q with voids := min 3 (q.voids + 1) }) := by
  refine if_neg ?_
  rintro ⟨online, third⟩
  rcases h with silent | few
  · rw [silent] at online
    cases online
  · omega

/-- A command that changes the record of one panel and ends its exchange. -/
theorem actBlocks_panel {f : Blocks → Blocks} {s : State} {d : DishId} {g : Panel → Panel} (n : Nat)
    (hq : s.part.blocks.Quiet) (hf : f s.part.blocks = closeExchange ((s.part.blocks.runTo n).modPanel d g)) :
    Leaves (actBlocks f s) s (closeExchange ((s.part.blocks.runTo n).modPanel d g)) s.part.xm []
      [.lockEntry ⟨d.val, by omega⟩] := by
  have still : Still none (closeExchange ((s.part.blocks.runTo n).modPanel d g)) :=
    (hq.still none).of_records rfl rfl fun _ => rfl
  obtain ⟨inbox, out, -⟩ := hq
  refine actBlocks_silent hf still inbox out rfl rfl fun pg hp => ?_
  exact ((untouched_runTo pg n _).trans (untouched_modPanel (by simpa using hp) _ _)).trans
    (untouched_closeExchange pg _)

/-- The reply window closes without a good reply (R159). -/
theorem replyWindowClose_voids {x : PanelExchange} {s : State} (hq : s.part.blocks.Quiet)
    (hx : s.part.blocks.pedestal.exchange = some x)
    (h : (s.part.blocks.panel x.panel).link = .silent ∨ (s.part.blocks.panel x.panel).voids < 2) :
    Leaves (exec .replyWindowClose s) s (closeExchange ((s.part.blocks.runTo x.window).modPanel x.panel (fun q =>
      { q with voids := min 3 (q.voids + 1) }))) s.part.xm [] [.lockEntry ⟨x.panel.val, by omega⟩] := by
  refine actBlocks_panel x.window hq ?_
  unfold closeWindow
  rw [hx]
  exact voidSlot_counted (b := closeExchange (s.part.blocks.runTo x.window)) h

/-! ### Replies as bytes (R159, R196) -/

theorem readReply_status (d : DishId) (key flags : Byte) : readReply d (completeBytes
      ([BitVec.ofNat 8 (d.val + 1), 0x81, key, flags] ++ [crc8 [BitVec.ofNat 8 (d.val + 1), 0x81, key, flags]]))
    = (readKey key).map (fun k => .status k (flags.getLsbD 0)) :=
  if_pos ⟨rfl, rfl, rfl⟩

/-- A reply that carries a BADGE_LOCK of class MOTION. -/
theorem readReply_badge (d : DishId) (key flags t0 t1 : Byte) {k : KeyPosition} (hk : readKey key = some k)
    (ht : t0.toNat + 256 * t1.toNat ≠ 0) : readReply d (completeBytes
      ([BitVec.ofNat 8 (d.val + 1), 0x82, key, flags, 1, 0, t0, t1]
        ++ [crc8 [BitVec.ofNat 8 (d.val + 1), 0x82, key, flags, 1, 0, t0, t1]]))
    = some (.event k (.badgeLock (t0.toNat + 256 * t1.toNat) .motion)) := by
  have tag : fromLow [t0, t1] = t0.toNat + 256 * t1.toNat := by simp [fromLow]
  have event : readEvent 1 0 (fromLow [t0, t1]) = some (.badgeLock (t0.toNat + 256 * t1.toNat) .motion) := by
    rw [tag]
    exact if_neg ht
  refine (if_pos ⟨rfl, rfl, rfl⟩).trans ?_
  rw [hk, event]

/-- A good reply in its window is taken (R159, R161). -/
theorem onReply_good {x : PanelExchange} {b : Blocks} {bytes : List Byte} {r : PanelReply}
    (hx : b.pedestal.exchange = some x) (hr : readReply x.panel (completeBytes bytes) = some r)
    (hw : b.clock.count ≤ x.window) (hf : replyFits x.kind r = true) :
    onReply bytes false b = takeReply x r (closeExchange b) := by
  unfold onReply
  rw [hx]
  dsimp only
  rw [hr]
  dsimp only
  rw [hf, if_neg]
  simpa using hw

/-! ### What a good reply gives its panel (R161) -/

/-- A panel that is heard with this key. -/
def Panel.keyed (k : KeyPosition) (q : Panel) : Panel := { q with voids := 0, key := some k }

theorem panelHeard_online {d : DishId} {b : Blocks} (h : (b.panel d).link = .online) (k : KeyPosition) :
    panelHeard d k b = reconcileKey d k (b.modPanel d (Panel.keyed k)) := by
  unfold panelHeard
  rw [h]
  rfl

/-- The flash that the request carried is cleared last (R161). -/
theorem clearFlash_modPanel (x : PanelExchange) (f : Panel → Panel) (b : Blocks) :
    (if x.refusedCarried then (b.modPanel x.panel f).modPanel x.panel (fun p => { p with refusedFlash := false })
      else b.modPanel x.panel f)
      = b.modPanel x.panel (fun p => { f p with refusedFlash := (f p).refusedFlash && !x.refusedCarried }) := by
  cases x.refusedCarried with
  | true =>
    rw [if_pos rfl, Blocks.modPanel_modPanel]
    exact Blocks.modPanel_congr (by simp)
  | false => exact Blocks.modPanel_congr (by simp)

theorem takeReply_status (x : PanelExchange) (k : KeyPosition) (waiting : Bool) (b : Blocks) :
    takeReply x (.status k waiting) b = (panelHeard x.panel k b).modPanel x.panel (fun p =>
      { p with readDue := waiting, refusedFlash := p.refusedFlash && !x.refusedCarried }) :=
  clearFlash_modPanel x _ _

theorem takeReply_badge (x : PanelExchange) (k : KeyPosition) (tag : Nat) (cls : LockClass) (b : Blocks) :
    takeReply x (.event k (.badgeLock tag cls)) b
      = (applyEvent x.panel (.badgeLock tag cls) (panelHeard x.panel k b)).modPanel x.panel (fun p =>
        { p with readDue := false, takenDue := true, refusedFlash := p.refusedFlash && !x.refusedCarried }) := by
  refine (clearFlash_modPanel x _ _).trans (Blocks.modPanel_congr ?_)
  simp

theorem reconcileKey_same {d : DishId} {k : KeyPosition} {b : Blocks}
    (h : slotMatches b.keySlots[d] (wantedClass k) = true) : reconcileKey d k b = b :=
  if_pos h

/-- The record of a panel whose status reply is taken (R161). -/
def Panel.heard (k : KeyPosition) (waiting carried : Bool) (q : Panel) : Panel :=
  { q with voids := 0, key := some k, readDue := waiting, refusedFlash := q.refusedFlash && !carried }

/-- A status reply is taken in its window (R159, R161). -/
theorem onReply_status {x : PanelExchange} {b : Blocks} {key flags : Byte} {k : KeyPosition}
    (hx : b.pedestal.exchange = some x) (hw : b.clock.count ≤ x.window) (hkind : x.kind ≠ .event)
    (hk : readKey key = some k) (hl : (b.panel x.panel).link = .online) :
    onReply ([BitVec.ofNat 8 (x.panel.val + 1), 0x81, key, flags]
        ++ [crc8 [BitVec.ofNat 8 (x.panel.val + 1), 0x81, key, flags]]) false b
      = (reconcileKey x.panel k ((closeExchange b).modPanel x.panel (Panel.keyed k))).modPanel x.panel (fun p =>
        { p with readDue := flags.getLsbD 0, refusedFlash := p.refusedFlash && !x.refusedCarried }) := by
  have read := readReply_status x.panel key flags
  rw [hk] at read
  rw [onReply_good hx read hw (bne_iff_ne.mpr hkind), takeReply_status, panelHeard_online (b := closeExchange b) hl]

theorem keyed_heard (x : PanelExchange) (k : KeyPosition) (waiting : Bool) (b : Blocks) :
    ((closeExchange b).modPanel x.panel (Panel.keyed k)).modPanel x.panel (fun p =>
        { p with readDue := waiting, refusedFlash := p.refusedFlash && !x.refusedCarried })
      = closeExchange (b.modPanel x.panel (Panel.heard k waiting x.refusedCarried)) := by
  rw [Blocks.modPanel_modPanel]
  rfl

theorem runTo_zero (b : Blocks) : b.runTo 0 = b := by
  rw [Blocks.runTo, Nat.zero_sub, Clock.advance_zero]

/-- A good status reply of a panel whose key slot agrees (R161, R162). -/
theorem panelReply_heard {x : PanelExchange} {s : State} {key flags : Byte} {k : KeyPosition}
    (hq : s.part.blocks.Quiet) (hx : s.part.blocks.pedestal.exchange = some x)
    (hw : s.part.blocks.clock.count ≤ x.window) (hkind : x.kind ≠ .event) (hk : readKey key = some k)
    (hl : (s.part.blocks.panel x.panel).link = .online)
    (hm : slotMatches s.part.blocks.keySlots[x.panel] (wantedClass k) = true) :
    let body : List Byte := [BitVec.ofNat 8 (x.panel.val + 1), 0x81, key, flags]
    Leaves (exec (.panelReply (body ++ [crc8 body]) false) s) s
      (closeExchange (s.part.blocks.modPanel x.panel (Panel.heard k (flags.getLsbD 0) x.refusedCarried))) s.part.xm []
      [.lockEntry ⟨x.panel.val, by omega⟩] := by
  intro body
  have taken := onReply_status (flags := flags) hx hw hkind hk hl
  rw [reconcileKey_same (b := (closeExchange s.part.blocks).modPanel x.panel (Panel.keyed k)) hm, keyed_heard] at taken
  have leaves := actBlocks_panel (f := onReply (body ++ [crc8 body]) false) (d := x.panel)
    (g := Panel.heard k (flags.getLsbD 0) x.refusedCarried) 0 hq (by rw [runTo_zero]; exact taken)
  rwa [runTo_zero] at leaves

/-! ### The key slot (R162) -/

section
variable {d : DishId} {b : Blocks}

theorem reconcileKey_placed {k : KeyPosition} {c : LockClass} (h : Unlocked b d) (hwant : wantedClass k = some c)
    (hc : c = .motion ∨ (c = .full ∧ ∀ z, (b.zone z).request = 0)) (hd : (b.dish d).drive = .braked)
    (ht : (b.dish d).task = .none) (hlock : (b.dish d).lock = ⟨false, false, false, false⟩) (hw : NoneWaits b d) :
    reconcileKey d k b = (b.locked (.key d) (effectiveFor d .key c 0 b.clock)).boxed (b.inbox ++ [.lockChanged d])
      (b.out ++ lockOutputs b.clock (placedEntries ⟨d, d.val, .key, c, 0⟩)) := by
  have empty : recordAt b (.key d) = none := h.1
  have placed := placeRecord_braked hd ht (.key d) (origin := .key) (by decide) c 0
  have locked := endLockEvent_locked (r := effectiveFor d .key c 0 b.clock) h (.inl rfl) rfl rfl
    (show LockOrigin.key ≠ .silent by decide) hc hlock hw (placedEntries ⟨d, d.val, .key, c, 0⟩)
  unfold reconcileKey
  rw [empty, hwant, if_neg (by simp [slotMatches])]
  dsimp only
  rw [placed]
  exact locked

theorem reconcileKey_removed {r : LockRecord} (h : Unlocked (putRecord (.key d) none b) d)
    (hs : b.keySlots[d] = some r) (hr : r.dish = d) (ho : r.origin = .key) (hc : r.cls = .motion)
    (he : r.state = .effective) (ht : r.tag = 0) (hlock : (b.dish d).lock = ⟨true, false, false, false⟩)
    (hw : NoneWaits b d) : reconcileKey d .run b = (b.unlocked (.key d) d).boxed (b.inbox ++ [.lockChanged d])
      (b.out ++ lockOutputs b.clock [.lockRemoved ⟨d, d.val, .key, .motion, 0⟩ .effective .key]) := by
  have held : recordAt b (.key d) = some r := hs
  have mark : markOf (.key d) r = ⟨d, d.val, .key, .motion, 0⟩ := by
    rw [markOf, hr, ho, hc, ht]
    rfl
  have unlocked := endLockEvent_unlocked h (.inl rfl) held hr (by rw [hc]; rfl) hlock hw
    [.lockRemoved ⟨d, d.val, .key, .motion, 0⟩ .effective .key]
  unfold reconcileKey
  rw [held, if_neg (by simp [slotMatches, wantedClass])]
  dsimp only [wantedClass]
  rw [removeRecord, mark, ho, he, if_neg (by decide)]
  exact unlocked

/-! ### Badges (R146, R163) -/

/-- A badge that finds three records of the dish and none of its own has no room (R146). -/
theorem poolPlace_dishFull {origin : LockOrigin} {tag : Nat}
    (h : ∀ r ∈ poolRecords b d, ¬ (r.origin = origin ∧ r.tag = tag)) (hfull : 3 ≤ (poolRecords b d).length) :
    poolPlace b d origin tag = .error .dishFull := by
  have length : (poolOf b d).length = (poolRecords b d).length := by rw [← poolOf_records, List.length_map]
  have fresh : (poolOf b d).any (fun x => x.2.origin == origin && x.2.tag == tag) = false := by
    refine List.any_eq_false.mpr fun x hx => ?_
    have := h x.2 (poolOf_records b d ▸ List.mem_map_of_mem hx)
    simpa using this
  unfold poolPlace
  dsimp only
  rw [fresh, length, if_neg Bool.false_ne_true, if_pos hfull]

/-- The first record of a dish takes the lowest free place of the pool (R146). -/
theorem poolPlace_lowest {origin : LockOrigin} {tag : Nat} {j : PoolId} (h : poolRecords b d = [])
    (hlow : ∀ i : PoolId, i < j → b.pool[i].isSome = true) (hj : b.pool[j] = none) :
    poolPlace b d origin tag = .ok j := by
  have fresh : poolOf b d = [] := List.map_eq_nil_iff.mp ((poolOf_records b d).trans h)
  have place : allPool.find? (fun p => (b.pool[p]).isNone) = some j :=
    Fin.find?_eq_find?_finRange.symm.trans
      (Fin.find?_eq_some_iff.mpr ⟨by rw [hj]; rfl, fun i hi => by simpa using hlow i hi⟩)
  unfold poolPlace
  dsimp only
  rw [fresh, place]
  rfl

theorem unlocked_of_poolRecords (hkey : b.keySlots[d] = none) (h : poolRecords b d = []) : Unlocked b d := by
  refine ⟨hkey, fun q r hr dish => ?_⟩
  have mem : r ∈ poolRecords b d :=
    List.mem_filterMap.mpr ⟨q, List.mem_finRange q, by rw [hr, Option.filter_some, if_pos (by simp [dish])]⟩
  rw [h] at mem
  cases mem

theorem badgeLock_full {tag : Nat} {cls : LockClass}
    (h : ∀ r ∈ poolRecords b d, ¬ (r.origin = .badge ∧ r.tag = tag)) (hfull : 3 ≤ (poolRecords b d).length) :
    badgeLock d tag cls b = (b.trail (.badgeRefused d tag cls .dishFull), true) := by
  unfold badgeLock
  rw [poolPlace_dishFull h hfull]

theorem badgeLock_placed {tag : Nat} {j : PoolId} (hkey : b.keySlots[d] = none) (h : poolRecords b d = [])
    (hlow : ∀ i : PoolId, i < j → b.pool[i].isSome = true) (hj : b.pool[j] = none)
    (hd : (b.dish d).drive = .braked) (ht : (b.dish d).task = .none)
    (hlock : (b.dish d).lock = ⟨false, false, false, false⟩) (hw : NoneWaits b d) : badgeLock d tag .motion b
      = ((b.locked (.pool j) (effectiveFor d .badge .motion tag b.clock)).boxed (b.inbox ++ [.lockChanged d])
          (b.out ++ lockOutputs b.clock (placedEntries ⟨d, 12 + j.val, .badge, .motion, tag⟩)), false) := by
  have placed := placeRecord_braked hd ht (.pool j) (origin := .badge) (by decide) .motion tag
  have locked := endLockEvent_locked (r := effectiveFor d .badge .motion tag b.clock) (unlocked_of_poolRecords hkey h)
    (.inr ⟨j, rfl⟩) rfl rfl (show LockOrigin.badge ≠ .silent by decide) (.inl rfl) hlock hw
    (placedEntries ⟨d, 12 + j.val, .badge, .motion, tag⟩)
  unfold badgeLock
  rw [poolPlace_lowest h hlow hj]
  dsimp only
  rw [placePool, placed]
  exact congrArg (·, false) locked

end

end Sys2Proof.Machine
end

