-- ==== Sys2Proof/Proofs/PanelEvents.lean ====
section
/-! SUPPORT. Replies that place or remove a lock record, as commands (R131, R146 to R148, R153, R161 to R163). -/

namespace Sys2Proof.Machine

/-! ### Commands with an event of the lock table -/

theorem markedPages_lockOutputs (c : Clock) (es : List TrailEvent) : markedPages (lockOutputs c es) = [] := by
  induction es with
  | nil => rfl
  | cons e es ih => exact ih

/-- A command that is an event of LT on a dish that is not stowing. -/
theorem lockEvent_leaves {f : Blocks → Blocks} {s : State} {d : DishId} {u : Blocks} {outs : List Output}
    {es : List TrailEvent} {pages : List Page} (hf : f s.part.blocks = u.boxed [.lockChanged d] outs)
    (houts : outs = lockOutputs s.part.blocks.clock es) (hs : Still none u) (hi : u.inbox = []) (ho : u.out = [])
    (hp : (u.stow d).phase = .none) (hu : (u.stow d).unpinWanted = false) (hc : Page.common ∈ pages)
    (ht : ∀ pg, pg ∉ pages → Untouched pg s.part.blocks u) : Leaves (actBlocks f s) s u s.part.xm outs pages := by
  refine actBlocks_leaves_untouched ?_ ho (fun pg hpg => ?_) ht (.inl hc)
  · rw [hf]
    exact settle_lockChanged _ hs hi hp hu outs
  · rw [houts, markedPages_lockOutputs] at hpg
    cases hpg

theorem Still.locked {b : Blocks} (h : Still none b) (pl : LockPlace) (r : LockRecord) :
    Still none (b.locked pl r) := by
  have put : Still none (putRecord pl (some r) b) := by
    cases pl <;> exact h.of_records rfl rfl fun _ => rfl
  have summary := put.modDish r.dish (f := Dish.withLock ⟨true, r.cls.holdsHeat, false, false⟩ false) rfl
  exact summary.of_records rfl rfl fun _ => rfl

theorem Still.unlocked {b : Blocks} (h : Still none b) (pl : LockPlace) (d : DishId) :
    Still none (b.unlocked pl d) := by
  have put : Still none (putRecord pl none b) := by
    cases pl <;> exact h.of_records rfl rfl fun _ => rfl
  exact put.modDish d (f := Dish.withLock ⟨false, false, false, false⟩ true) rfl

theorem locked_boxes (pl : LockPlace) (r : LockRecord) (b : Blocks) : (b.locked pl r).inbox = b.inbox
    ∧ (b.locked pl r).out = b.out ∧ ∀ d, (b.locked pl r).stow d = b.stow d := by
  cases pl <;> exact ⟨rfl, rfl, fun _ => rfl⟩

theorem unlocked_boxes (pl : LockPlace) (e : DishId) (b : Blocks) : (b.unlocked pl e).inbox = b.inbox
    ∧ (b.unlocked pl e).out = b.out ∧ ∀ d, (b.unlocked pl e).stow d = b.stow d := by
  cases pl <;> exact ⟨rfl, rfl, fun _ => rfl⟩

/-- A panel's record and its dish's locks are apart. -/
theorem locked_boxed_modPanel (pl : LockPlace) (r : LockRecord) (i : List Message) (o : List Output) (d : DishId)
    (g : Panel → Panel) (b : Blocks) :
    ((b.locked pl r).boxed i o).modPanel d g = ((b.modPanel d g).locked pl r).boxed i o := by
  cases pl <;> rfl

theorem unlocked_boxed_modPanel (pl : LockPlace) (i : List Message) (o : List Output) (d e : DishId)
    (g : Panel → Panel) (b : Blocks) :
    ((b.unlocked pl e).boxed i o).modPanel d g = ((b.modPanel d g).unlocked pl e).boxed i o := by
  cases pl <;> rfl

/-- A record of class MOTION cuts no heat. -/
theorem locked_motion (pl : LockPlace) {r : LockRecord} (h : r.cls = .motion) (b : Blocks) : b.locked pl r
    = (putRecord pl (some r) b).modDish r.dish (fun y => { y with lock := ⟨true, false, false, false⟩ }) := by
  rw [Blocks.locked, h]
  simp only [LockClass.holdsHeat, Bool.false_and, cutAt_none]
  exact Blocks.modDish_congr (by simp [Dish.withLock])

/-- A record that holds the motion, and with class FULL the heat. -/
theorem holdsHeat_eq {c : LockClass} (h : c = .motion ∨ c = .full) : c.holdsHeat = (c == .full) := by
  rcases h with rfl | rfl <;> rfl

theorem untouched_heard {pg : Page} {d : DishId} (h : pg ≠ .lockEntry ⟨d.val, by omega⟩) (g : Panel → Panel)
    (b : Blocks) : Untouched pg b (closeExchange (b.modPanel d g)) :=
  (untouched_modPanel h g b).trans (untouched_closeExchange pg _)

/-- A reply whose panel is heard, and which is an event of LT besides, that leaves `u` of the blocks (R161 to R163). -/
theorem heardEvent_leaves {f : Blocks → Blocks} {s : State} {d : DishId} {g : Panel → Panel} {heard u : Blocks}
    {es : List TrailEvent} {pages : List Page} (hh : closeExchange (s.part.blocks.modPanel d g) = heard)
    (hf : f s.part.blocks = u.boxed [.lockChanged d] (lockOutputs s.part.blocks.clock es)) (hq : s.part.blocks.Quiet)
    (hp : (s.part.blocks.stow d).phase = .none) (hw : (s.part.blocks.stow d).unpinWanted = false)
    (hs : Still none heard → Still none u)
    (hu : u.inbox = heard.inbox ∧ u.out = heard.out ∧ ∀ e, u.stow e = heard.stow e) (hc : Page.common ∈ pages)
    (he : Page.lockEntry ⟨d.val, by omega⟩ ∈ pages) (ht : ∀ pg, pg ∉ pages → Untouched pg heard u) :
    Leaves (actBlocks f s) s u s.part.xm (lockOutputs s.part.blocks.clock es) pages := by
  have still : Still none heard := hh ▸ (hq.still none).of_records rfl rfl fun _ => rfl
  have stow : heard.stow d = s.part.blocks.stow d := hh ▸ rfl
  obtain ⟨inbox, out, -⟩ := hq
  obtain ⟨inboxes, outs, stows⟩ := hu
  refine lockEvent_leaves hf rfl (hs still) (inboxes.trans (hh ▸ inbox)) (outs.trans (hh ▸ out))
    (by rw [stows, stow]; exact hp) (by rw [stows, stow]; exact hw) hc fun pg hpg => ?_
  have heardUntouched : Untouched pg s.part.blocks heard :=
    hh ▸ untouched_heard (by rintro rfl; exact hpg he) g _
  exact heardUntouched.trans (ht pg hpg)

/-! ### A status reply that changes the key slot (R162) -/

/-- The record of a KEY in the words of the statement. -/
theorem locked_key {d : DishId} {c : LockClass} (h : c = .motion ∨ c = .full) (clock : Clock) (b : Blocks) :
    b.locked (.key d) (effectiveFor d .key c 0 clock)
      = { b.modDish d (fun y => { y with lock := ⟨true, c == .full, false, false⟩ }) with
          keySlots := b.keySlots.set d (some ⟨d, .key, c, 0, .effective, clock.time, clock.valid, none⟩)
          zones := Vector.ofFn (fun z : Fin 36 => if c == .full && zoneDish z == d then
            { b.zone z with state := .cut, applied := 0, tail := none } else b.zone z)
          heaters := Vector.ofFn (fun z : Fin 36 => if c == .full && zoneDish z == d then
            { b.heater z with on := false } else b.heater z) } := by
  have dish : b.modDish d (Dish.withLock ⟨true, c == .full, false, false⟩ false)
      = b.modDish d (fun y => { y with lock := ⟨true, c == .full, false, false⟩ }) :=
    Blocks.modDish_congr (by simp [Dish.withLock])
  have heat : (effectiveFor d .key c 0 clock).cls.holdsHeat = (c == .full) := holdsHeat_eq h
  rw [← dish, Blocks.locked, heat, Blocks.cutAt, changeAt_eq, changeAt_eq]
  rfl

theorem unlocked_key (d : DishId) (b : Blocks) : b.unlocked (.key d) d
    = { b.modDish d (fun y => { y with lock := ⟨false, false, false, false⟩, removalMark := true }) with
        keySlots := b.keySlots.set d none } := by
  have dish : (b.unlocked (.key d) d) = (putRecord (.key d) none b).modDish d (fun y =>
      { y with lock := ⟨false, false, false, false⟩, removalMark := true }) :=
    Blocks.modDish_congr (by simp [Dish.withLock])
  rw [dish]
  rfl

theorem untouched_locked_key {pg : Page} {d : DishId} {r : LockRecord} (hr : r.dish = d)
    (h : pg ∉ [Page.dish d, .lockEntry ⟨d.val, by omega⟩, .common] ++ allZones.map Page.zone) (b : Blocks) :
    Untouched pg b (b.locked (.key d) r) := by
  simp only [List.mem_append, List.mem_cons, List.not_mem_nil, or_false, not_or] at h
  obtain ⟨⟨dish, entry, -⟩, zones⟩ := h
  have notZone : ∀ z, pg ≠ .zone z := by
    rintro z rfl
    exact zones (List.mem_map_of_mem (mem_allZones z))
  have put := untouched_key entry (some r) b
  have summary : Untouched pg (putRecord (.key d) (some r) b) ((putRecord (.key d) (some r) b).modDish r.dish
      (Dish.withLock ⟨true, r.cls.holdsHeat, false, false⟩ false)) := untouched_modDish (by rw [hr]; exact dish) rfl
  exact (put.trans summary).trans (untouched_cutAt notZone _ _)

/-- A good status reply whose KEY places a record (R131, R148, R162). -/
theorem panelReply_locks {x : PanelExchange} {s : State} {key flags : Byte} {k : KeyPosition} {c : LockClass}
    (hq : s.part.blocks.Quiet) (hx : s.part.blocks.pedestal.exchange = some x)
    (hw : s.part.blocks.clock.count ≤ x.window) (hkind : x.kind ≠ .event) (hk : readKey key = some k)
    (hl : (s.part.blocks.panel x.panel).link = .online) (hwant : wantedClass k = some c)
    (hc : c = .motion ∨ (c = .full ∧ ∀ z, (s.part.blocks.zone z).request = 0))
    (hfree : Unlocked s.part.blocks x.panel) (hd : (s.part.blocks.dish x.panel).drive = .braked)
    (ht : (s.part.blocks.dish x.panel).task = .none)
    (hlock : (s.part.blocks.dish x.panel).lock = ⟨false, false, false, false⟩)
    (hwaits : NoneWaits s.part.blocks x.panel) (hp : (s.part.blocks.stow x.panel).phase = .none)
    (hu : (s.part.blocks.stow x.panel).unpinWanted = false) :
    let body : List Byte := [BitVec.ofNat 8 (x.panel.val + 1), 0x81, key, flags]
    Leaves (exec (.panelReply (body ++ [crc8 body]) false) s) s
      ((closeExchange (s.part.blocks.modPanel x.panel (Panel.heard k (flags.getLsbD 0) x.refusedCarried))).locked
        (.key x.panel) (effectiveFor x.panel .key c 0 s.part.blocks.clock)) s.part.xm
      (lockOutputs s.part.blocks.clock (placedEntries ⟨x.panel, x.panel.val, .key, c, 0⟩))
      ([.dish x.panel, .lockEntry ⟨x.panel.val, by omega⟩, .common] ++ allZones.map Page.zone) := by
  intro body
  have taken := onReply_status (flags := flags) hx hw hkind hk hl
  have ⟨inbox, out, _⟩ := hq
  have placed := reconcileKey_placed (b := (closeExchange s.part.blocks).modPanel x.panel (Panel.keyed k))
    (d := x.panel) hfree hwant hc hd ht hlock hwaits
  have clock : ((closeExchange s.part.blocks).modPanel x.panel (Panel.keyed k)).clock = s.part.blocks.clock := rfl
  have noNews : ((closeExchange s.part.blocks).modPanel x.panel (Panel.keyed k)).inbox = [] := inbox
  have noOuts : ((closeExchange s.part.blocks).modPanel x.panel (Panel.keyed k)).out = [] := out
  rw [noNews, noOuts, clock, List.nil_append, List.nil_append] at placed
  rw [placed, locked_boxed_modPanel, keyed_heard] at taken
  exact heardEvent_leaves (f := onReply (body ++ [crc8 body]) false) rfl taken hq hp hu (fun h => h.locked _ _)
    (locked_boxes _ _ _) (by simp) (by simp) fun pg hpg => untouched_locked_key rfl hpg _

/-- A good status reply with the key at RUN removes the KEY record (R153, R162). -/
theorem panelReply_unlocks {x : PanelExchange} {s : State} {key flags : Byte} {r : LockRecord}
    (hq : s.part.blocks.Quiet) (hx : s.part.blocks.pedestal.exchange = some x)
    (hw : s.part.blocks.clock.count ≤ x.window) (hkind : x.kind ≠ .event) (hk : readKey key = some .run)
    (hl : (s.part.blocks.panel x.panel).link = .online)
    (hpool : ∀ (q : PoolId) (r : LockRecord), s.part.blocks.pool[q] = some r → r.dish ≠ x.panel)
    (hs : s.part.blocks.keySlots[x.panel] = some r) (hr : r.dish = x.panel) (ho : r.origin = .key)
    (hc : r.cls = .motion) (he : r.state = .effective) (ht : r.tag = 0)
    (hlock : (s.part.blocks.dish x.panel).lock = ⟨true, false, false, false⟩)
    (hwaits : NoneWaits s.part.blocks x.panel) (hp : (s.part.blocks.stow x.panel).phase = .none)
    (hu : (s.part.blocks.stow x.panel).unpinWanted = false) :
    let body : List Byte := [BitVec.ofNat 8 (x.panel.val + 1), 0x81, key, flags]
    Leaves (exec (.panelReply (body ++ [crc8 body]) false) s) s
      ((closeExchange (s.part.blocks.modPanel x.panel (Panel.heard .run (flags.getLsbD 0) x.refusedCarried))).unlocked
        (.key x.panel) x.panel) s.part.xm
      (lockOutputs s.part.blocks.clock [.lockRemoved ⟨x.panel, x.panel.val, .key, .motion, 0⟩ .effective .key])
      [.dish x.panel, .lockEntry ⟨x.panel.val, by omega⟩, .common] := by
  intro body
  have taken := onReply_status (flags := flags) hx hw hkind hk hl
  have ⟨inbox, out, _⟩ := hq
  have free : Unlocked (putRecord (.key x.panel) none ((closeExchange s.part.blocks).modPanel x.panel
      (Panel.keyed .run))) x.panel :=
    ⟨(recordAt_putRecord _ (.key x.panel) (.key x.panel) none).trans (if_pos rfl), hpool⟩
  have removed := reconcileKey_removed (b := (closeExchange s.part.blocks).modPanel x.panel (Panel.keyed .run))
    free hs hr ho hc he ht hlock hwaits
  have clock : ((closeExchange s.part.blocks).modPanel x.panel (Panel.keyed .run)).clock = s.part.blocks.clock := rfl
  have noNews : ((closeExchange s.part.blocks).modPanel x.panel (Panel.keyed .run)).inbox = [] := inbox
  have noOuts : ((closeExchange s.part.blocks).modPanel x.panel (Panel.keyed .run)).out = [] := out
  rw [noNews, noOuts, clock, List.nil_append, List.nil_append] at removed
  rw [removed, unlocked_boxed_modPanel, keyed_heard] at taken
  refine heardEvent_leaves (f := onReply (body ++ [crc8 body]) false) rfl taken hq hp hu (fun h => h.unlocked _ _)
    (unlocked_boxes _ _ _) (by simp) (by simp) fun pg hpg => ?_
  simp only [List.mem_cons, List.not_mem_nil, or_false, not_or] at hpg
  exact (untouched_key hpg.2.1 none _).trans (untouched_modDish hpg.1 rfl)

/-! ### An event reply with a badge (R163) -/

/-- The record of a panel whose event reply with a badge is taken, before what the badge itself brings (R161). -/
def Panel.badged (k : KeyPosition) (flash : Bool) (q : Panel) : Panel :=
  { q with voids := 0, key := some k, readDue := false, takenDue := true, refusedFlash := flash }

/-- An event reply with a badge is taken in its window, where its key slot agrees (R161 to R163). -/
theorem onReply_badge {x : PanelExchange} {b : Blocks} {key flags t0 t1 : Byte} {k : KeyPosition}
    (hx : b.pedestal.exchange = some x) (hw : b.clock.count ≤ x.window) (hkind : x.kind = .event)
    (hk : readKey key = some k) (hl : (b.panel x.panel).link = .online) (htag : t0.toNat + 256 * t1.toNat ≠ 0)
    (hm : slotMatches b.keySlots[x.panel] (wantedClass k) = true) :
    onReply ([BitVec.ofNat 8 (x.panel.val + 1), 0x82, key, flags, 1, 0, t0, t1]
        ++ [crc8 [BitVec.ofNat 8 (x.panel.val + 1), 0x82, key, flags, 1, 0, t0, t1]]) false b
      = (applyEvent x.panel (.badgeLock (t0.toNat + 256 * t1.toNat) .motion)
          ((closeExchange b).modPanel x.panel (Panel.keyed k))).modPanel x.panel (fun p =>
        { p with readDue := false, takenDue := true, refusedFlash := p.refusedFlash && !x.refusedCarried }) := by
  rw [onReply_good hx (readReply_badge x.panel key flags t0 t1 hk htag) hw (by rw [hkind]; rfl), takeReply_badge,
    panelHeard_online (b := closeExchange b) hl,
    reconcileKey_same (b := (closeExchange b).modPanel x.panel (Panel.keyed k)) hm]

/-- The entry of a refused badge and the record of its panel are apart. -/
theorem trail_heard (x : PanelExchange) (k : KeyPosition) (e : TrailEvent) {b : Blocks} (ho : b.out = []) :
    ((((closeExchange b).modPanel x.panel (Panel.keyed k)).trail e).modPanel x.panel (fun p =>
      { p with refusedFlash := true })).modPanel x.panel (fun p =>
        { p with readDue := false, takenDue := true, refusedFlash := p.refusedFlash && !x.refusedCarried })
      = { closeExchange (b.modPanel x.panel (Panel.badged k (true && !x.refusedCarried))) with
          out := [.trail e b.clock.time b.clock.valid] } := by
  have apart : ((closeExchange b).modPanel x.panel (Panel.keyed k)).trail e
      = ({ closeExchange b with out := [.trail e b.clock.time b.clock.valid] } : Blocks).modPanel x.panel
        (Panel.keyed k) :=
    congrArg (fun o => ({ (closeExchange b).modPanel x.panel (Panel.keyed k) with
      out := o ++ [.trail e b.clock.time b.clock.valid] } : Blocks)) ho
  rw [apart, Blocks.modPanel_modPanel, Blocks.modPanel_modPanel]
  rfl

/-- A badge for which the dish has no room is refused, with its entry and the REFUSED lamp (R146, R163). -/
theorem panelReply_refuses {x : PanelExchange} {s : State} {key flags t0 t1 : Byte} {k : KeyPosition}
    (hq : s.part.blocks.Quiet) (hx : s.part.blocks.pedestal.exchange = some x)
    (hw : s.part.blocks.clock.count ≤ x.window) (hkind : x.kind = .event) (hk : readKey key = some k)
    (hl : (s.part.blocks.panel x.panel).link = .online) (htag : t0.toNat + 256 * t1.toNat ≠ 0)
    (hm : slotMatches s.part.blocks.keySlots[x.panel] (wantedClass k) = true)
    (hfresh : ∀ r ∈ poolRecords s.part.blocks x.panel, ¬ (r.origin = .badge ∧ r.tag = t0.toNat + 256 * t1.toNat))
    (hfull : 3 ≤ (poolRecords s.part.blocks x.panel).length) :
    let body : List Byte := [BitVec.ofNat 8 (x.panel.val + 1), 0x82, key, flags, 1, 0, t0, t1]
    Leaves (exec (.panelReply (body ++ [crc8 body]) false) s) s
      (closeExchange (s.part.blocks.modPanel x.panel (Panel.badged k (true && !x.refusedCarried)))) s.part.xm
      [.trail (.badgeRefused x.panel (t0.toNat + 256 * t1.toNat) .motion .dishFull) s.part.blocks.clock.time
        s.part.blocks.clock.valid] [.lockEntry ⟨x.panel.val, by omega⟩, .common] := by
  intro body
  have taken := onReply_badge (flags := flags) hx hw hkind hk hl htag hm
  have refused := badgeLock_full (b := (closeExchange s.part.blocks).modPanel x.panel (Panel.keyed k)) (d := x.panel)
    (tag := t0.toNat + 256 * t1.toNat) (cls := .motion) hfresh hfull
  have still := hq.still none
  obtain ⟨inbox, out, -⟩ := hq
  rw [applyEvent, refused] at taken
  dsimp only at taken
  rw [if_pos rfl, trail_heard x k _ out] at taken
  generalize hh : closeExchange (s.part.blocks.modPanel x.panel (Panel.badged k (true && !x.refusedCarried))) = heard
    at taken
  have stillHeard : Still none heard := hh ▸ still.of_records rfl rfl fun _ => rfl
  refine actBlocks_leaves_untouched (f := onReply (body ++ [crc8 body]) false) ?_ (hh ▸ out) (fun pg hpg => ?_)
    (fun pg hpg => ?_) (.inl (by simp))
  · rw [taken]
    exact settle_outs _ stillHeard (hh ▸ inbox) _
  · cases hpg
  · exact hh ▸ untouched_heard (by rintro rfl; simp at hpg) _ _

/-- The first badge of a dish at rest places its record (R146 to R148, R163). -/
theorem panelReply_badges {x : PanelExchange} {s : State} {key flags t0 t1 : Byte} {k : KeyPosition} {j : PoolId}
    (hq : s.part.blocks.Quiet) (hx : s.part.blocks.pedestal.exchange = some x)
    (hw : s.part.blocks.clock.count ≤ x.window) (hkind : x.kind = .event) (hk : readKey key = some k)
    (hl : (s.part.blocks.panel x.panel).link = .online) (htag : t0.toNat + 256 * t1.toNat ≠ 0)
    (hm : slotMatches s.part.blocks.keySlots[x.panel] (wantedClass k) = true)
    (hkey : s.part.blocks.keySlots[x.panel] = none) (hnone : poolRecords s.part.blocks x.panel = [])
    (hlow : ∀ i : PoolId, i < j → s.part.blocks.pool[i].isSome = true) (hj : s.part.blocks.pool[j] = none)
    (hd : (s.part.blocks.dish x.panel).drive = .braked) (ht : (s.part.blocks.dish x.panel).task = .none)
    (hlock : (s.part.blocks.dish x.panel).lock = ⟨false, false, false, false⟩)
    (hwaits : NoneWaits s.part.blocks x.panel) (hp : (s.part.blocks.stow x.panel).phase = .none)
    (hu : (s.part.blocks.stow x.panel).unpinWanted = false) {tag : Nat} (hval : t0.toNat + 256 * t1.toNat = tag) :
    let body : List Byte := [BitVec.ofNat 8 (x.panel.val + 1), 0x82, key, flags, 1, 0, t0, t1]
    Leaves (exec (.panelReply (body ++ [crc8 body]) false) s) s
      ((closeExchange (s.part.blocks.modPanel x.panel (Panel.badged k
        ((s.part.blocks.panel x.panel).refusedFlash && !x.refusedCarried)))).locked (.pool j)
          (effectiveFor x.panel .badge .motion tag s.part.blocks.clock)) s.part.xm
      (lockOutputs s.part.blocks.clock (placedEntries ⟨x.panel, 12 + j.val, .badge, .motion, tag⟩))
      [.dish x.panel, .lockEntry ⟨x.panel.val, by omega⟩, .lockEntry ⟨12 + j.val, by omega⟩, .common] := by
  intro body
  have taken := onReply_badge (flags := flags) hx hw hkind hk hl htag hm
  rw [hval] at taken
  have ⟨inbox, out, _⟩ := hq
  have placed := badgeLock_placed (b := (closeExchange s.part.blocks).modPanel x.panel (Panel.keyed k)) (tag := tag)
    hkey hnone hlow hj hd ht hlock hwaits
  have clock : ((closeExchange s.part.blocks).modPanel x.panel (Panel.keyed k)).clock = s.part.blocks.clock := rfl
  have noNews : ((closeExchange s.part.blocks).modPanel x.panel (Panel.keyed k)).inbox = [] := inbox
  have noOuts : ((closeExchange s.part.blocks).modPanel x.panel (Panel.keyed k)).out = [] := out
  have heard : ((closeExchange s.part.blocks).modPanel x.panel (Panel.keyed k)).modPanel x.panel (fun p =>
      { p with readDue := false, takenDue := true, refusedFlash := p.refusedFlash && !x.refusedCarried })
      = closeExchange (s.part.blocks.modPanel x.panel (Panel.badged k
        ((s.part.blocks.panel x.panel).refusedFlash && !x.refusedCarried))) :=
    (Blocks.modPanel_modPanel _ _ _ _).trans (Blocks.modPanel_congr rfl)
  rw [noNews, noOuts, clock, List.nil_append, List.nil_append] at placed
  rw [applyEvent, placed] at taken
  dsimp only at taken
  rw [if_neg Bool.false_ne_true, locked_boxed_modPanel, heard] at taken
  refine heardEvent_leaves (f := onReply (body ++ [crc8 body]) false) rfl taken hq hp hu (fun h => h.locked _ _)
    (locked_boxes _ _ _) (by simp) (by simp) fun pg hpg => ?_
  simp only [List.mem_cons, List.not_mem_nil, or_false, not_or] at hpg
  obtain ⟨dish, -, place, -⟩ := hpg
  rw [locked_motion _ rfl]
  exact (untouched_pool place _ _).trans (untouched_modDish dish rfl)

/-! ### The reply window (R159 to R163) -/

/-- Settles O47: a void slot is counted; a good reply is heard, and what it brings to the lock table is one event. -/
theorem aReplyWindowClosesOrHearsItsPanel : Obligations.AReplyWindowClosesOrHearsItsPanel := by
  intro x s b p e hq hx
  refine ⟨fun h => replyWindowClose_voids hq hx h, ?_, ?_, ?_⟩
  · intro key flags k body hw hkind hk hl hm
    exact panelReply_heard hq hx hw hkind hk hl hm
  · intro key flags k c d body heard m cut at_ hw hkind hl hk hheat hpool hd ht hform hp hu hqueue hgrants
    refine ⟨fun hkc hslot hlock => ?_, fun r hrun hslot hr ho hc hcm htag hs hlock => ?_⟩
    · have classes : c = .motion ∨ c = .full := hkc.imp And.right And.right
      have want : wantedClass k = some c := by rcases hkc with ⟨rfl, rfl⟩ | ⟨rfl, rfl⟩ <;> rfl
      have leaves := panelReply_locks (flags := flags) hq hx hw hkind hk hl want
        (classes.imp id fun full => ⟨full, fun z => (hheat.1 z).1⟩) ⟨hslot, hpool⟩ hd ht hlock ⟨hform, hqueue, hgrants⟩
        hp hu
      rw [locked_key classes] at leaves
      exact leaves
    · subst hrun hcm
      have leaves := panelReply_unlocks (flags := flags) hq hx hw hkind hk hl hpool hslot hr ho hc hs htag hlock
        ⟨hform, hqueue, hgrants⟩ hp hu
      rw [unlocked_key] at leaves
      exact leaves
  · intro key flags t0 t1 k d tag body heard mine hw hkind hl hk htag hm hfresh
    refine ⟨fun hfull => panelReply_refuses hq hx hw hkind hk hl htag hm hfresh hfull, ?_⟩
    intro j hnone hlow hj hkey hd ht hform hlock hp hu hqueue hgrants m at_
    have leaves := panelReply_badges (flags := flags) hq hx hw hkind hk hl htag hm hkey hnone hlow hj hd ht hlock
      ⟨hform, hqueue, hgrants⟩ hp hu rfl
    rw [locked_motion _ rfl] at leaves
    exact leaves

end Sys2Proof.Machine
end


section
/-! SUPPORT. LOCK and UNLOCK of a dish at rest, as commands (R145 to R148, R153 to R156). -/

namespace Sys2Proof.Machine

/-! ### An order that is an event of the lock table (R147, R176) -/

/-- An order answered at once, whose event of LT concerns a dish that is not stowing. -/
theorem lockOrder_answers {c : Instr} {s : State} {slot : SlotId} {o : Order} {a : Answer} {d : DishId} {u : Blocks}
    {es : List TrailEvent} {pages : List Page} (horder : orderOf c = some (slot, o)) (hslot : Takeable s slot o)
    (hgive : ∀ f staging, giveOrder slot o f staging s.part.blocks
      = ((u.boxed [.lockChanged d] (lockOutputs s.part.blocks.clock es)).answer slot a, false))
    (hs : Still none u) (hi : u.inbox = []) (ho : u.out = []) (hp : (u.stow d).phase = .none)
    (hu : (u.stow d).unpinWanted = false) (hc : Page.common ∈ pages)
    (ht : ∀ pg, pg ∉ pages → Untouched pg s.part.blocks u) :
    Answers (exec c s) s slot o a u (lockOutputs s.part.blocks.clock es) [] pages := by
  refine order_answers horder hslot hgive (answeredCode_answer slot a _) ?_ ho (fun pg hpg => ?_) ht (.inl hc)
  · rw [List.append_nil]
    exact settle_lockChanged _ hs hi hp hu _
  · rw [List.append_nil, markedPages_append, markedPages_lockOutputs] at hpg
    cases hpg

/-! ### LOCK (R146 to R148, R154) -/

/-- A pool without a record of the dish (R145). -/
theorem poolRecords_nil {b : Blocks} {d : DishId}
    (h : ∀ (q : PoolId) (r : LockRecord), b.pool[q] = some r → r.dish ≠ d) : poolRecords b d = [] := by
  refine List.filterMap_eq_nil_iff.mpr fun q _ => ?_
  rw [Option.filter_eq_none_iff]
  intro r hr
  simpa using h q r hr

/-- A record that does not wait keeps no slot (R145, R148). -/
theorem placeRecord_slotless {pl : LockPlace} {d : DishId} {origin : LockOrigin} {cls : LockClass} {b : Blocks}
    (h : (placementState (b.dish d) origin cls).1 = .effective) (tag : Nat) (slot : Option SlotId) :
    placeRecord pl d origin cls tag slot b = placeRecord pl d origin cls tag none b := by
  unfold placeRecord
  dsimp only
  rw [h]
  rfl

theorem placementState_braked {x : Dish} (hd : x.drive = .braked) (ht : x.task = .none) {origin : LockOrigin}
    (ho : origin ≠ .silent) (cls : LockClass) : placementState x origin cls = (.effective, false) := by
  unfold placementState
  rw [hd, ht]
  simp [ho]

/-- A LOCK of class MOTION of a BRAKED dish without a record takes effect at once, in the lowest free place of the
pool. -/
theorem takeLock_braked {slot : SlotId} {d : DishId} {tag : Word} {k : PoolId} {b : Blocks} (htag : tag ≠ 0)
    (hfree : Unlocked b d) (hlow : ∀ q : PoolId, q < k → b.pool[q].isSome = true) (hk : b.pool[k] = none)
    (hd : (b.dish d).drive = .braked) (ht : (b.dish d).task = .none)
    (hlock : (b.dish d).lock = ⟨false, false, false, false⟩) (hw : NoneWaits b d) :
    takeLock slot (BitVec.ofNat 16 d.val) 0 tag b
      = (((b.locked (.pool k) (effectiveFor d .order .motion tag.toNat b.clock)).boxed (b.inbox ++ [.lockChanged d])
          (b.out ++ lockOutputs b.clock (placedEntries ⟨d, 12 + k.val, .order, .motion, tag.toNat⟩))).answer slot
            ⟨.done, noNotes, 0, [BitVec.ofNat 8 k.val, 0]⟩, false) := by
  have placement := placementState_braked hd ht (origin := .order) (by decide) .motion
  have placed := placeRecord_braked hd ht (.pool k) (origin := .order) (by decide) .motion tag.toNat
  have locked := endLockEvent_locked (r := effectiveFor d .order .motion tag.toNat b.clock) hfree (.inr ⟨k, rfl⟩) rfl
    rfl (show LockOrigin.order ≠ .silent by decide) (.inl rfl) hlock hw
    (placedEntries ⟨d, 12 + k.val, .order, .motion, tag.toNat⟩)
  have event : placePool k d .order .motion tag.toNat (some slot) b
      = (b.locked (.pool k) (effectiveFor d .order .motion tag.toNat b.clock)).boxed (b.inbox ++ [.lockChanged d])
          (b.out ++ lockOutputs b.clock (placedEntries ⟨d, 12 + k.val, .order, .motion, tag.toNat⟩)) := by
    rw [placePool, placeRecord_slotless (by rw [placement]), placed]
    exact locked
  have cls : readLockClass 0 = some .motion := rfl
  unfold takeLock
  rw [dishNumber_val, cls]
  dsimp only
  rw [if_neg htag, poolPlace_lowest (poolRecords_nil hfree.2) hlow hk]
  dsimp only
  rw [event, placement, stateAtEffect, hd]
  rfl

/-- Settles O18: the record is placed in one event of LT, whose news changes nothing. -/
theorem aLockOfABrakedDishIsEffective : Obligations.ALockOfABrakedDishIsEffective := by
  intro h d tag k s b o r m at_ htag hslot hq hlow hk hkey hpool hd ht hform hreasons hlock hp hu hqueue hgrants
  have taken := takeLock_braked (slot := h.slot) htag ⟨hkey, hpool⟩ hlow hk hd ht hlock ⟨hform, hqueue, hgrants⟩
  have still := (hq.still none).locked (.pool k) (effectiveFor d .order .motion tag.toNat b.clock)
  obtain ⟨inbox, out, -⟩ := hq
  obtain ⟨inboxes, outs, stows⟩ := locked_boxes (.pool k) (effectiveFor d .order .motion tag.toNat b.clock) b
  rw [inbox, out, List.nil_append, List.nil_append] at taken
  have answers := lockOrder_answers (c := .lock h (BitVec.ofNat 16 d.val) 0 tag)
    (pages := [.dish d, .lockEntry ⟨12 + k.val, by omega⟩, .common]) rfl hslot (fun _ _ => taken) still
    (inboxes.trans inbox) (outs.trans out) (by rw [stows]; exact hp) (by rw [stows]; exact hu) (by simp)
    fun pg hpg => by
      simp only [List.mem_cons, List.not_mem_nil, or_false, not_or] at hpg
      obtain ⟨dish, place, -⟩ := hpg
      rw [locked_motion _ rfl]
      exact (untouched_pool place _ _).trans (untouched_modDish dish rfl)
  rw [locked_motion _ rfl] at answers
  exact answers

/-! ### UNLOCK (R153, R156) -/

/-- A summary that rises in no motion flag excuses no dish: the wind watch hears of it, and the heat follows it (R147,
R150). -/
theorem spreadSummary_fallen {d : DishId} {old new : LockSummary} {b : Blocks} (hnew : (b.dish d).lock = new)
    (hm : new.motionLocked = false) (hs : new.stopPending = false) (hq : b.fa.queue = []) :
    spreadSummary d old b = spreadHeat d old new (b.tell (.lockChanged d)) := by
  have unclaimed : queuedClaim b d = none := by rw [queuedClaim, hq]; rfl
  unfold spreadSummary
  dsimp only
  rw [hnew, unclaimed, hm, hs]
  rfl

/-- Without a motion grant or a lock stop the end of an event writes the summary and its entries, and spreads the
summary that has changed (R147, R150). -/
theorem endLockEvent_grantless {d : DishId} {before b : Blocks} {es : List TrailEvent} {old new : LockSummary}
    {gone : Bool} (hold : (before.dish d).lock = old) (hnew : summaryOf b d = new) (hne : old ≠ new)
    (hgone : (!(motionRecords before d).isEmpty && (motionRecords b d).isEmpty) = gone)
    (hg : ∀ e : DishId, b.fa.grants[e] = none) : endLockEvent d before ⟨es, false⟩ b
      = spreadSummary d old ((b.modDish d (Dish.withLock new gone)).boxed b.inbox (b.out ++ lockOutputs b.clock es)) := by
  generalize hw : (b.modDish d (Dish.withLock new gone)).boxed b.inbox (b.out ++ lockOutputs b.clock es) = w
  have written : writeEntries es (b.modDish d (Dish.withLock new gone)) = w := by
    rw [writeEntries_eq, ← hw]
    rfl
  have seized : overDishes allDishes seizeLocked w = w :=
    overDishes_fix _ _ _ fun k _ => seizeLocked_free (by rw [← hw]; exact hg k)
  have marked : b.modDish d (fun x => { x with lock := new, removalMark := x.removalMark || gone })
      = b.modDish d (Dish.withLock new gone) := rfl
  unfold endLockEvent
  dsimp only
  rw [hold, hnew, hgone, marked, written]
  simp only [Bool.false_eq_true, if_false]
  rw [seized, if_neg hne]

/-- The one record of a dish, of class MOTION, is removed alone (R147, R153). The dish may stand in a formation, which
a fallen summary does not concern. -/
theorem removeAlone_sole {b : Blocks} {pl : LockPlace} {r : LockRecord} (h : Unlocked (putRecord pl none b) r.dish)
    (hpl : mayHold r.dish pl) (hp : recordAt b pl = some r) (hm : r.cls.holdsMotion = true)
    (hlock : (b.dish r.dish).lock = ⟨true, false, false, false⟩) (hq : b.fa.queue = [])
    (hg : ∀ e : DishId, b.fa.grants[e] = none) (cause : RemovalCause) :
    removeAlone pl r cause b = (b.unlocked pl r.dish).boxed (b.inbox ++ [.lockChanged r.dish])
      (b.out ++ lockOutputs b.clock [.lockRemoved (markOf pl r) r.state cause]) := by
  obtain ⟨summary, motion⟩ := h.summary
  have held : r ∈ motionRecords b r.dish :=
    List.mem_filter.mpr ⟨List.mem_filterMap.mpr ⟨pl, mem_placesOf.mpr ⟨hpl, r, hp, rfl⟩, hp⟩, hm⟩
  have gone : (!(motionRecords b r.dish).isEmpty && (motionRecords (putRecord pl none b) r.dish).isEmpty) = true := by
    rw [motion]
    simpa using List.ne_nil_of_mem held
  have arbiter : (putRecord pl none b).fa = b.fa := by cases pl <;> rfl
  obtain ⟨inbox, out, clock⟩ := putRecord_boxes pl none b
  rw [removeAlone, removeRecord, endLockEvent_grantless hlock summary (by simp) gone (by rw [arbiter]; exact hg), inbox,
    out, clock]
  refine (spreadSummary_fallen (new := ⟨false, false, false, false⟩) ?_ rfl rfl ?_).trans rfl
  · exact congrArg Dish.lock (Blocks.modDish_dish_self _ _ _)
  · exact (congrArg Arbiter.queue arbiter).trans hq

/-- The pool records of a dish are those of its own (R145). -/
theorem mem_poolOf {b : Blocks} {d : DishId} {x : PoolId × LockRecord} :
    x ∈ poolOf b d ↔ b.pool[x.1] = some x.2 ∧ x.2.dish = d := by
  obtain ⟨q, r⟩ := x
  rw [poolOf, List.mem_filterMap]
  constructor
  · rintro ⟨p, -, hp⟩
    cases hr : b.pool[p] with
    | none => rw [hr] at hp; cases hp
    | some y =>
      rw [hr] at hp
      by_cases hy : y.dish = d
      · obtain ⟨rfl, rfl⟩ := Prod.mk.inj (Option.some.inj ((if_pos hy).symm.trans hp))
        exact ⟨hr, hy⟩
      · cases (if_neg hy).symm.trans hp
  · rintro ⟨hr, hy⟩
    refine ⟨q, List.mem_finRange q, ?_⟩
    rw [show b.pool[q] = some r from hr]
    exact if_pos hy

theorem find?_of_unique {α : Type} {p : α → Bool} {l : List α} {a : α} (ha : a ∈ l) (hp : p a = true)
    (h : ∀ x ∈ l, x = a) : l.find? p = some a := by
  obtain ⟨x, hx⟩ := Option.isSome_iff_exists.mp (List.find?_isSome.mpr ⟨a, ha, hp⟩)
  rw [hx, h x (List.mem_of_find?_eq_some hx)]

/-- Without its one record in the pool a dish is free of records (R145). -/
theorem unlocked_without {b : Blocks} {d : DishId} {k : PoolId} (hkey : b.keySlots[d] = none)
    (h : ∀ (q : PoolId) (x : LockRecord), b.pool[q] = some x → q ≠ k → x.dish ≠ d) :
    Unlocked (putRecord (.pool k) none b) d := by
  refine ⟨hkey, fun q x hx => ?_⟩
  rw [putRecord_pool] at hx
  by_cases hq : q = k
  · rw [if_pos hq] at hx
    cases hx
  · rw [if_neg hq] at hx
    exact h q x hx hq

theorem unlocked_pool (k : PoolId) (d : DishId) (b : Blocks) : b.unlocked (.pool k) d
    = { b.modDish d (fun y => { y with lock := ⟨false, false, false, false⟩, removalMark := true }) with
        pool := b.pool.set k none } := by
  have dish : b.unlocked (.pool k) d = (putRecord (.pool k) none b).modDish d (fun y =>
      { y with lock := ⟨false, false, false, false⟩, removalMark := true }) :=
    Blocks.modDish_congr (by simp [Dish.withLock])
  rw [dish]
  rfl

/-- UNLOCK of the one record of a dish, an EFFECTIVE one that an order of class MOTION has placed. -/
theorem takeUnlock_sole {slot : SlotId} {tag : Word} {k : PoolId} {r : LockRecord} {b : Blocks} (htag : tag ≠ 0)
    (hk : b.pool[k] = some r) (ho : r.origin = .order) (hc : r.cls = .motion) (hr : r.tag = tag.toNat)
    (he : r.state = .effective) (hs : r.slot = none) (hkey : b.keySlots[r.dish] = none)
    (hothers : ∀ (q : PoolId) (x : LockRecord), b.pool[q] = some x → q ≠ k → x.dish ≠ r.dish)
    (hlock : (b.dish r.dish).lock = ⟨true, false, false, false⟩) (hq : b.fa.queue = [])
    (hg : ∀ e : DishId, b.fa.grants[e] = none) : takeUnlock slot (BitVec.ofNat 16 r.dish.val) tag b
      = ((b.unlocked (.pool k) r.dish).boxed (b.inbox ++ [.lockChanged r.dish]) (b.out ++ lockOutputs b.clock
          [.lockRemoved ⟨r.dish, 12 + k.val, .order, .motion, tag.toNat⟩ .effective .unlock])).answer slot
            ⟨.done, noNotes, 0, [1, 0]⟩ := by
  have mine : ((poolOf b r.dish).filter (fun x => x.2.tag == tag.toNat)).find? (fun x => x.2.origin == .order)
      = some (k, r) := by
    refine find?_of_unique (List.mem_filter.mpr ⟨mem_poolOf.mpr ⟨hk, rfl⟩, by simp [hr]⟩) (by simp [ho]) ?_
    rintro ⟨q, x⟩ hx
    obtain ⟨record, dish⟩ := mem_poolOf.mp (List.mem_filter.mp hx).1
    have place : q = k := by
      by_contra other
      exact hothers q x record other dish
    subst place
    exact congrArg (Prod.mk q) (Option.some.inj (record.symm.trans hk))
  have mark : markOf (.pool k) r = ⟨r.dish, 12 + k.val, .order, .motion, tag.toNat⟩ := by
    rw [markOf, ho, hc, hr]
    rfl
  have removed := removeAlone_sole (unlocked_without hkey hothers) (.inr ⟨k, rfl⟩) hk (by rw [hc]; rfl) hlock hq hg
    .unlock
  rw [mark, he] at removed
  have lock : ∀ i u, (((b.unlocked (.pool k) r.dish).boxed i u).dish r.dish).lock = ⟨false, false, false, false⟩ :=
    fun _ _ => congrArg Dish.lock (Blocks.modDish_dish_self _ _ _)
  unfold takeUnlock
  rw [dishNumber_val]
  dsimp only
  rw [if_neg htag, mine]
  dsimp only
  rw [removed, hs, he]
  dsimp only
  rw [lock]
  rfl

/-- Settles O19: the record is removed in one event of LT, whose news changes nothing. -/
theorem anUnlockFreesItsRecord : Obligations.AnUnlockFreesItsRecord := by
  intro h d tag k r s b o htag hslot hq hk hr ho hc ht he hs hkey hothers hd htask hlock hp hu hqueue hgrants
  subst hr
  have taken := takeUnlock_sole (slot := h.slot) htag hk ho hc ht he hs hkey hothers hlock hqueue hgrants
  have still := (hq.still none).unlocked (.pool k) r.dish
  obtain ⟨inbox, out, -⟩ := hq
  obtain ⟨inboxes, outs, stows⟩ := unlocked_boxes (.pool k) r.dish b
  rw [inbox, out, List.nil_append, List.nil_append] at taken
  have answers := lockOrder_answers (c := .unlock h (BitVec.ofNat 16 r.dish.val) tag)
    (pages := [.dish r.dish, .lockEntry ⟨12 + k.val, by omega⟩, .common]) rfl hslot
    (fun _ _ => congrArg (·, false) taken) still (inboxes.trans inbox) (outs.trans out) (by rw [stows]; exact hp)
    (by rw [stows]; exact hu) (by simp) fun pg hpg => by
      simp only [List.mem_cons, List.not_mem_nil, or_false, not_or] at hpg
      obtain ⟨dish, place, -⟩ := hpg
      exact (untouched_pool place none _).trans (untouched_modDish dish rfl)
  rw [unlocked_pool] at answers
  exact answers

end Sys2Proof.Machine
end

section
/-! SUPPORT. The slot event of the pedestal line: the request to the next panel, with its lamps (R158, R164, R196). -/

namespace Sys2Proof.Machine

/-! ### What a request shows (R164) -/

/-- The MOVING lamp is dark in the three drive states in which a dish stands still. -/
theorem DriveState.lampMoving_eq (x : DriveState) :
    x.lampMoving = !(x == .braked || x == .pinned || x == .faulted) := by
  cases x <;> rfl

/-- The LOCKED lamp is lit by every origin but SILENT. -/
theorem LockOrigin.not_silent_eq (x : LockOrigin) :
    (x != .silent) = (x == .key || x == .order || x == .badge) := by
  cases x <;> rfl

theorem lampsFor_eq (b : Blocks) (d : DishId) : lampsFor b d =
    { moving := !((b.dish d).drive == .braked || (b.dish d).drive == .pinned || (b.dish d).drive == .faulted)
      locked := (recordsOf b d).any (fun r => r.origin == .key || r.origin == .order || r.origin == .badge)
      stowed := (b.dish d).drive == .pinned
      refused := (b.panel d).refusedFlash } := by
  simp only [lampsFor, DriveState.lampMoving_eq, LockOrigin.not_silent_eq]

/-! ### The slot event (R158) -/

/-- A panel whose request is sent with these lamps: a TAKEN that was due has been asked for. -/
def Panel.asked (lamps : Lamps) (x : Panel) : Panel := { x with lamps := lamps, takenDue := false }

/-- The blocks once the request of a panel is on the line and its window is open. -/
def Blocks.requested (d : DishId) (k : RequestKind) (lamps : Lamps) (due : Nat) (b : Blocks) : Blocks :=
  let b1 := b.modPanel d (Panel.asked lamps)
  { b1 with pedestal := { b1.pedestal with
      next := d + 1, slotDue := due, sent := requestFrame d k lamps
      exchange := some ⟨d, k, lamps.refused, b.clock.count + 5⟩ } }

/-- The request kind TAKEN is asked for wherever it is due, so that it is due no longer (R158). -/
theorem taken_asked (p : Panel) : (p.takenDue && requestKind p != .taken) = false := by
  unfold requestKind
  cases p.takenDue <;> rfl

/-- The slot event with no window open (R158). -/
theorem pedestalSlot_closed {b : Blocks} (h : b.pedestal.exchange = none) :
    pedestalSlot b = (b.runTo b.pedestal.slotDue).requested b.pedestal.next
      (requestKind (b.panel b.pedestal.next)) (lampsFor (b.runTo b.pedestal.slotDue) b.pedestal.next)
      ((b.runTo b.pedestal.slotDue).clock.count + 20) := by
  have closed : closeWindow b = b := by rw [closeWindow, h]
  have panel : ∀ (c : Blocks) (d : DishId) (lamps : Lamps), c.modPanel d (fun x =>
      { x with lamps := lamps, takenDue := x.takenDue && requestKind (c.panel d) != .taken })
      = c.modPanel d (Panel.asked lamps) := fun c d lamps =>
    Blocks.modPanel_congr (congrArg (fun t => { c.panel d with lamps := lamps, takenDue := t }) (taken_asked _))
  unfold pedestalSlot servePanel
  rw [closed]
  dsimp only
  rw [panel]
  rfl

/-- The line itself stands on no page: the panels alone do (R165). -/
theorem untouched_pedestal (pg : Page) {b : Blocks} {p : Pedestal} (h : p.panels = b.pedestal.panels) :
    Untouched pg b { b with pedestal := p } := by
  intro y z
  rw [← pageTouched_self pg ⟨b, y⟩]
  cases pg
  case lockEntry e =>
    have same : lockEntry e { b with pedestal := p } = lockEntry e b := by
      simp only [lockEntry, keyEntry, poolEntry, Blocks.panel, h]
    show (lockEntry e b != lockEntry e { b with pedestal := p }) = (lockEntry e b != lockEntry e b)
    rw [same]
  all_goals rfl

theorem untouched_requested {pg : Page} {d : DishId} (h : pg ≠ .lockEntry ⟨d.val, by omega⟩) (k : RequestKind)
    (lamps : Lamps) (due : Nat) (b : Blocks) : Untouched pg b (b.requested d k lamps due) :=
  (untouched_modPanel h (Panel.asked lamps) b).trans (untouched_pedestal pg rfl)

/-- Settles O46: the panel is asked, its window opens, and nothing follows. -/
theorem aPedestalSlotServesTheNextPanel : Obligations.APedestalSlotServesTheNextPanel := by
  intro s b d p kind lamps hq hx
  have served := pedestalSlot_closed hx
  rw [lampsFor_eq] at served
  have still : Still none (b.requested d kind lamps (b.clock.count + 20)) :=
    (hq.still none).of_records rfl rfl fun _ => rfl
  obtain ⟨inbox, out, -⟩ := hq
  refine actBlocks_silent (f := pedestalSlot) served still inbox out rfl rfl fun pg hpg => ?_
  exact (untouched_runTo pg _ _).trans (untouched_requested (by simpa using hpg) _ _ _ _)

end Sys2Proof.Machine
end

section
/-! SUPPORT. The part after power-on is settled and every page shows its block (R165 to R168). -/

namespace Sys2Proof.Machine

/-- Power-on publishes every page, and so every page shows its block (R167). -/
theorem powerOn_shows (levels : FieldLevels) (nv : List Byte) (failures : Nat) (pg : Page) :
    Shows (Part.powerOn levels nv failures) pg := by
  rw [powerOn_eq]
  exact (publishAll_page pg allPages _).1 (mem_allPages pg)

/-- Power-on leaves the memory canonical, every EDITION at 2, and no output waiting (R166, R168). -/
theorem powerOn_settled (levels : FieldLevels) (nv : List Byte) (failures : Nat) :
    (Part.powerOn levels nv failures).Settled := by
  obtain ⟨blocks, -⟩ := powerOn_published levels nv failures
  refine ⟨?_, fun pg => ?_, ?_⟩
  · rw [powerOn_eq]
    exact wf_publishAll allPages (wf_takeEvent _ _ _ _ _ rfl)
  · rw [powerOn_edition]
    rfl
  · rw [blocks]
    rfl

/-- Settles O49: `State.reset` is a part after power-on. -/
theorem theResetStateIsSettled : Obligations.TheResetStateIsSettled :=
  ⟨powerOn_settled _ _ _, fun e => powerOn_shows _ _ _ (.lockEntry e), powerOn_shows _ _ _, rfl⟩

end Sys2Proof.Machine
end

section
/-! SUPPORT. What every command makes of the exchange side but those that write its registers: a rule over the few
operations of which the commands are made, and the invariants that follow from it (8.1, R166 to R168, R170). -/

namespace Sys2Proof.Machine

/-! ### Rules over the operations of the exchange side -/

/-- A relation of the exchange side before to that after which every operation keeps of which commands are made, but
for the writes of CAUSE and MASK, the link reset and power-on. It may look at the memory, the EDITIONs, CAUSE and
MASK alone. -/
structure CommandRule (R : Exchange → Exchange → Prop) : Prop where
  unchanged : ∀ {x y : Exchange}, y.mem = x.mem → y.editions = x.editions → y.cause = x.cause → y.mask = x.mask → R x y
  trans : ∀ {x y z : Exchange}, R x y → R y z → R x z
  publish : ∀ (pg : Page) (p : Part), R p.xm (publish pg p).xm
  output : ∀ (level : Nat) (c : Clock) (o : Output) (x : Exchange), R x (takeOutput level c o x)
  slotState : ∀ (slot : SlotId) (k : SlotState) (x : Exchange), R x (x.modMem (setSlotState slot k))
  order : ∀ (slot : SlotId) (o : Order) (x : Exchange), R x (x.modMem (placeOrder slot o))
  cause : ∀ (k : Cause) (x : Exchange), R x (x.setCause k)

/-- The exchange side goes on by the rule, and no output is left behind. -/
def Follows (R : Exchange → Exchange → Prop) (p q : Part) : Prop :=
  R p.xm q.xm ∧ (p.blocks.out = [] → q.blocks.out = [])

section
variable {R : Exchange → Exchange → Prop}

theorem Follows.trans (rule : CommandRule R) {p q r : Part} (h1 : Follows R p q) (h2 : Follows R q r) :
    Follows R p r := ⟨rule.trans h1.1 h2.1, h2.2 ∘ h1.2⟩

/-- What happens on the exchange side alone. -/
theorem follows_modXm (p : Part) {f : Exchange → Exchange} (h : R p.xm (f p.xm)) : Follows R p (p.modXm f) := ⟨h, id⟩

namespace CommandRule

theorem refl (rule : CommandRule R) (p : Part) : Follows R p p := ⟨rule.unchanged rfl rfl rfl rfl, id⟩

theorem runTo (rule : CommandRule R) (n : Nat) (p : Part) : Follows R p (p.modBlocks (Blocks.runTo n)) :=
  ⟨rule.unchanged rfl rfl rfl rfl, id⟩

theorem publishAll (rule : CommandRule R) (l : List Page) (p : Part) :
    R p.xm (l.foldl (fun x pg => Machine.publish pg x) p).xm := by
  induction l generalizing p with
  | nil => exact rule.unchanged rfl rfl rfl rfl
  | cons pg l ih => exact rule.trans (rule.publish pg p) (ih _)

theorem outputs (rule : CommandRule R) (b : Blocks) (outs : List Output) (x : Exchange) :
    R x (takeOutputs b outs x) := by
  unfold takeOutputs
  induction outs generalizing x with
  | nil => exact rule.unchanged rfl rfl rfl rfl
  | cons o l ih => exact rule.trans (rule.output _ _ o x) (ih _)

/-- The end of a command takes every output and publishes pages (R167). -/
theorem flush (rule : CommandRule R) (old : Part) {p : Part} {b : Blocks} {x : Exchange} (h : R p.xm x) :
    Follows R p (flush old ⟨b, x⟩) := by
  refine ⟨?_, fun _ => by rw [flush_blocks]⟩
  rw [flush_eq, beforePages_eq]
  have taken := rule.trans h (rule.outputs { b with out := [] } b.out x)
  exact rule.trans taken (rule.publishAll (flushedPages old ⟨b, x⟩) ⟨_, takeOutputs _ b.out x⟩)

theorem run (rule : CommandRule R) (f : Blocks → Blocks) (p : Part) : Follows R p (run f p) :=
  rule.flush p (rule.unchanged rfl rfl rfl rfl)

theorem foldl (rule : CommandRule R) {α : Type} {f : Part → α → Part} (hf : ∀ p a, Follows R p (f p a)) (l : List α)
    (p : Part) : Follows R p (l.foldl f p) := by
  induction l generalizing p with
  | nil => exact rule.refl p
  | cons a l ih => exact (hf p a).trans rule (ih _)

/-! ### The take of an order (R171, R174 to R176) -/

theorem recordTake (rule : CommandRule R) (slot : SlotId) (o : Order) (named : Named) (standing : Bool)
    (code : Option AnswerCode) (x : Exchange) : R x (recordTake slot o named standing code x) := by
  unfold Machine.recordTake
  dsimp only
  split
  · exact rule.trans (rule.slotState slot .taken x) (rule.unchanged rfl rfl rfl rfl)
  · exact rule.unchanged rfl rfl rfl rfl

theorem takeOrder (rule : CommandRule R) (slot : SlotId) (o : Order) (p : Part) : Follows R p (takeOrder slot o p) :=
  rule.flush p (rule.recordTake slot o _ _ _ p.xm)

theorem abandonSlot (rule : CommandRule R) (h : HeldOrder) (p : Part) : Follows R p (abandonSlot h p) := by
  unfold Machine.abandonSlot
  exact (follows_modXm p (rule.unchanged rfl rfl rfl rfl)).trans rule (rule.run _ _)

theorem abandonHeld (rule : CommandRule R) (slot : SlotId) (p : Part) : Follows R p (abandonHeld slot p) := by
  unfold Machine.abandonHeld
  split
  · exact rule.abandonSlot _ p
  · exact rule.refl p

theorem command (rule : CommandRule R) (slot : SlotId) (o : Order) (p : Part) : Follows R p (command slot o p) := by
  have placed : ∀ q : Part, Follows R q (q.modXm (Exchange.modMem (placeOrder slot o))) :=
    fun q => follows_modXm q (rule.order slot o q.xm)
  unfold Machine.command
  split
  · exact (rule.abandonHeld slot p).trans rule ((placed _).trans rule (rule.takeOrder slot o _))
  · exact placed p

/-! ### Sweeps and periodic events (R168, R172 to R174, R181, R182) -/

theorem sweepHeld (rule : CommandRule R) (h : HeldOrder) (p : Part) : Follows R p (sweepHeld h p) := by
  unfold Machine.sweepHeld
  split
  · split
    · exact rule.refl p
    · exact rule.run _ p
    all_goals exact rule.abandonSlot h p
  · exact rule.refl p

theorem sweepCut (rule : CommandRule R) (slot : SlotId) (p : Part) : Follows R p (sweepCut slot p) := by
  unfold Machine.sweepCut
  split
  · exact rule.run _ p
  · exact rule.refl p

theorem sweep (rule : CommandRule R) (p : Part) : Follows R p (sweep p) := by
  have emptied : ∀ q : Part, Follows R q (q.modXm (fun x => allSlots.foldl (fun y s => sweepEmpty s y) x)) := by
    intro q
    obtain ⟨n, marked, -⟩ := foldl_sweepEmpty allSlots q.xm
    refine follows_modXm q ?_
    rw [marked]
    exact rule.unchanged rfl rfl rfl rfl
  exact (rule.foldl (fun q h => rule.sweepHeld h q) p.xm.heldList p).trans rule
    ((emptied _).trans rule
      ((rule.foldl (fun q s => rule.sweepCut s q) allSlots _).trans rule
        (rule.foldl (fun q s => rule.takeOrder s _ q) _ _)))

theorem sampleMark (rule : CommandRule R) (count : Nat) (x : Exchange) : R x (sampleMark count x) := by
  unfold Machine.sampleMark
  dsimp only
  split <;> exact rule.unchanged rfl rfl rfl rfl

theorem sweepExpiry (rule : CommandRule R) (p : Part) : Follows R p (sweepExpiry p) :=
  (rule.runTo p.xm.sweepDue p).trans rule
    ((follows_modXm (p.modBlocks (Blocks.runTo p.xm.sweepDue))
      (f := fun x => { x with sweepDue := (p.blocks.runTo p.xm.sweepDue).clock.count + 50 })
      (rule.unchanged rfl rfl rfl rfl)).trans rule (rule.sweep _))

theorem pulse (rule : CommandRule R) (p : Part) : Follows R p (pulse p) := by
  unfold Machine.pulse
  refine (rule.runTo p.xm.pulseDue p).trans rule (Follows.trans rule (follows_modXm _ ?_) (rule.run _ _))
  refine rule.trans ?_ (rule.sampleMark _ _)
  exact rule.unchanged rfl rfl rfl rfl

theorem onLinger (rule : CommandRule R) (p : Part) : Follows R p (onLinger p) := by
  unfold Machine.onLinger
  split
  · exact rule.refl p
  · next n _ =>
    refine (rule.runTo n p).trans rule (follows_modXm _ ?_)
    unfold lingerExpiry
    have sampled := rule.sampleMark (p.blocks.runTo n).clock.count { p.xm with linger := none }
    have stopped : R p.xm { p.xm with linger := none } := rule.unchanged rfl rfl rfl rfl
    dsimp only
    split
    · exact rule.trans (rule.trans stopped sampled)
        (rule.trans (rule.cause .trail _) (rule.unchanged rfl rfl rfl rfl))
    · exact rule.trans stopped sampled

theorem onPresence (rule : CommandRule R) (p : Part) : Follows R p (onPresence p) := by
  unfold Machine.onPresence
  exact (rule.runTo p.xm.presenceDue p).trans rule
    ((follows_modXm _ (rule.unchanged rfl rfl rfl rfl)).trans rule (rule.run _ _))

theorem whileReady (rule : CommandRule R) {f : Part → Part} {p : Part} (h : Follows R p (f p)) :
    Follows R p (whileReady f p) := by
  unfold Machine.whileReady
  split
  · exact h
  · exact rule.refl p

theorem powerLoss (rule : CommandRule R) (p : Part) : Follows R p p.powerLoss := by
  refine ⟨rule.unchanged rfl rfl rfl rfl, fun h => ?_⟩
  by_cases hc : p.blocks.site.commit.isSome = true
  · exact (congrArg Blocks.out (if_pos hc)).trans h
  · exact (congrArg Blocks.out (if_neg hc)).trans h

end CommandRule

/-! ### The commands -/

/-- The commands that write a register by its own rule: power-on, the link reset, the writes of CAUSE and MASK
(R166, R169, R170, R183). -/
inductive WritesRegister : Instr → Part → Part → Prop
  | powerOn (levels : FieldLevels) (p : Part) : WritesRegister (.powerOn levels) p (p.restart levels)
  | linkReset (p : Part) : WritesRegister .nudgeLinkReset p (linkReset p)
  | nudge (p : Part) : WritesRegister (.registerWriteIgnored .nudge 2) p (linkReset p)
  | cause (v : Word) (p : Part) : WritesRegister (.causeClear v) p (clearCause v p)
  | mask (v : Word) (p : Part) : WritesRegister (.maskWrite v) p (writeMask v p)

/-- A command that answers a next state has found its words in the memory, and acts on what it then sees. -/
theorem actSeen_next {seen : List Outside} {f : Part → Part} {s t : State} (h : actSeen seen f s = .next t) :
    ∃ p, see seen s.part = some p ∧ t.part = f p := by
  unfold actSeen at h
  split at h
  · next p hp => exact ⟨p, hp, act_part h⟩
  · cases h

theorem orderOf_seen {c : Instr} {slot : SlotId} {o : Order} (h : orderOf c = some (slot, o)) : c.seen = [] := by
  cases c <;> cases h <;> rfl

/-- Every command acts on the part that the outside has left, by the rule or by that of its register. -/
theorem CommandRule.exec (rule : CommandRule R) {c : Instr} {s t : State} (h : exec c s = .next t) :
    ∃ p, see c.seen s.part = some p ∧ (Follows R p t.part ∨ WritesRegister c p t.part) := by
  have alone : ∀ {f : Part → Part}, t.part = f s.part → Follows R s.part (f s.part) →
      ∃ p, see [] s.part = some p ∧ (Follows R p t.part ∨ WritesRegister c p t.part) :=
    fun ht hf => ⟨s.part, rfl, .inl (ht ▸ hf)⟩
  have after : ∀ {seen : List Outside} {f : Part → Part}, actSeen seen f s = .next t → (∀ p, Follows R p (f p)) →
      ∃ p, see seen s.part = some p ∧ (Follows R p t.part ∨ WritesRegister c p t.part) := by
    intro seen f h hf
    obtain ⟨p, hp, ht⟩ := actSeen_next h
    exact ⟨p, hp, .inl (ht ▸ hf p)⟩
  rcases ho : orderOf c with _ | ⟨slot, o⟩
  swap
  · rw [exec_of_orderOf ho] at h
    rw [orderOf_seen ho]
    exact alone (act_part h) (rule.command slot o s.part)
  have nudge : ∀ v : Word, v ≠ 2 → Follows R s.part (writeNudge v s.part) := by
    intro v hv
    unfold writeNudge
    rw [if_neg hv]
    split_ifs
    · exact rule.sweep _
    · exact rule.refl _
    · exact rule.refl _
  cases c
  case form | disband | halt | slew | trackLoad | track | raster | stow | release | meltMode | lock | unlock
      | setBudget | clearFault | setTime | adjustTime | adoptSite | commitSite => cases ho
  case powerOn levels => exact ⟨s.part, rfl, .inr (act_part h ▸ .powerOn levels s.part)⟩
  case causeClear v => exact ⟨s.part, rfl, .inr (act_part h ▸ .cause v s.part)⟩
  case maskWrite v => exact ⟨s.part, rfl, .inr (act_part h ▸ .mask v s.part)⟩
  case nudgeLinkReset =>
    refine ⟨s.part, rfl, ?_⟩
    rw [act_part h, writeNudge]
    split
    · exact .inr (.linkReset s.part)
    · exact .inl (rule.refl _)
  case registerWriteIgnored target v =>
    cases target with
    | ident => exact alone (f := id) (act_part h) (rule.refl _)
    | nudge =>
      by_cases hv : v = 2
      · subst hv
        refine ⟨s.part, rfl, ?_⟩
        rw [show t.part = writeNudge 2 s.part from act_part h, writeNudge]
        split
        · exact .inr (.nudge s.part)
        · exact .inl (rule.refl _)
      · exact alone (f := writeNudge v) (act_part h) (nudge v hv)
  case powerLoss => exact alone (act_part h) (rule.powerLoss _)
  case nudgeSweep seen =>
    refine after h (fun p => ?_)
    unfold writeNudge
    split
    · exact rule.sweep p
    · exact rule.refl p
  case sweepTimerExpiry seen => exact after h (fun p => rule.whileReady (rule.sweepExpiry p))
  case pulseEvent seen => exact after h (fun p => rule.whileReady (rule.pulse p))
  case lingerTimerExpiry seen => exact after h rule.onLinger
  case presenceCheck seen => exact after h (fun p => rule.whileReady (rule.onPresence p))
  case brakeReleaseTimerExpiry d seen => exact after h (rule.run _)
  all_goals exact alone (act_part h) (rule.run _ s.part)

/-- A link reset empties the exchange side and then goes on by the rule (R183). -/
theorem CommandRule.linkReset (rule : CommandRule R) {p : Part} (h : R p.xm (resetExchange p.xm)) :
    Follows R p (linkReset p) := rule.flush p h

end

end Sys2Proof.Machine
end

section
/-! SUPPORT. What every step keeps of the exchange side: the canonical memory and even EDITIONs, the words of the site
computer, the causes and MASK (8.1, R166 to R168, R170). -/

namespace Sys2Proof.Machine

/-! ### What happens outside before a command (8.1) -/

/-- A relation that every word the site computer writes keeps, and every amplifier that becomes ready. -/
theorem see_induction {S : Part → Part → Prop} (refl : ∀ p, S p p) (trans : ∀ {p q r}, S p q → S q r → S p r)
    {seen : List Outside} (one : ∀ o ∈ seen, ∀ {p q : Part}, seeOne p o = some q → S p q) {p q : Part}
    (h : see seen p = some q) : S p q := by
  induction seen generalizing p with
  | nil =>
    obtain rfl : p = q := Option.some.inj h
    exact refl p
  | cons o l ih =>
    simp only [see, List.foldlM_cons, Option.bind_eq_bind, Option.bind_eq_some_iff] at h
    obtain ⟨p1, h1, h2⟩ := h
    exact trans (one o (by simp) h1) (ih (fun o' ho' => one o' (List.mem_cons_of_mem _ ho')) h2)

/-- A word that the site computer writes goes into the memory. -/
theorem seeOne_memoryWord {p q : Part} {a : Nat} {v : Word} (h : seeOne p (.memoryWord a v) = some q) :
    q = p.modXm (Exchange.modMem (Memory.writeWord a v)) := by
  simp only [seeOne, Option.ite_none_right_eq_some, Option.some.injEq] at h
  exact h.2.symm

/-- An amplifier that becomes ready is a level of its dish. -/
theorem seeOne_amplifierReady {p q : Part} {d : DishId} {ax : AxisId} (h : seeOne p (.amplifierReady d ax) = some q) :
    q = p.modBlocks (Blocks.modDish d (Dish.modAxis ax (fun x => { x with ampReady := true }))) := by
  cases h
  rfl

/-! ### The canonical memory and even EDITIONs (R167) -/

/-- What `Part.Settled` says of the exchange side. -/
def Exchange.Sound (x : Exchange) : Prop :=
  Memory.wf x.mem = true ∧ ∀ pg, (x.editions.get pg).toNat % 2 = 0

theorem settled_iff (p : Part) : p.Settled ↔ p.xm.Sound ∧ p.blocks.out = [] :=
  ⟨fun ⟨wf, even, out⟩ => ⟨⟨wf, even⟩, out⟩, fun ⟨⟨wf, even⟩, out⟩ => ⟨wf, even, out⟩⟩

theorem Exchange.Sound.of_same {x y : Exchange} (h : x.Sound) (hm : y.mem = x.mem) (he : y.editions = x.editions) :
    y.Sound := by
  unfold Exchange.Sound
  rw [hm, he]
  exact h

theorem Exchange.Sound.modMem {x : Exchange} {f : Memory → Memory} (h : x.Sound) (hf : Memory.wf (f x.mem) = true) :
    (x.modMem f).Sound := ⟨hf, h.2⟩

/-- A publication makes EDITION odd and even again (R167). -/
theorem Exchange.Sound.publish {p : Part} (h : p.xm.Sound) (pg : Page) : (publish pg p).xm.Sound := by
  obtain ⟨wf, even⟩ := h
  refine ⟨wf_publish pg wf, fun q => ?_⟩
  show (Editions.get (p.xm.editions.set pg (p.xm.editions.get pg + 2)) q).toNat % 2 = 0
  rw [Editions.get_set]
  split
  · have := even pg
    rw [BitVec.toNat_add]
    simp only [BitVec.reduceToNat]
    omega
  · exact even q

theorem Exchange.Sound.takeOutput {x : Exchange} (h : x.Sound) (level : Nat) (c : Clock) (o : Output) :
    (takeOutput level c o x).Sound := by
  obtain ⟨wf, even⟩ := h
  refine ⟨wf_takeOutput level c o wf, ?_⟩
  rw [takeOutput_editions]
  exact even

theorem soundRule : CommandRule (fun x y => x.Sound → y.Sound) where
  unchanged hm he _ _ h := h.of_same hm he
  trans h1 h2 := h2 ∘ h1
  publish pg _ h := h.publish pg
  output level c o _ h := h.takeOutput level c o
  slotState slot k _ h := h.modMem (wf_setSlotState slot k h.1)
  order slot o _ h := h.modMem (wf_placeOrder slot o h.1)
  cause _ _ h := h

theorem sound_resetExchange {x : Exchange} (h : x.Sound) : (resetExchange x).Sound := by
  have emptied : ∀ (l : List SlotId) (m : Memory), Memory.wf m = true →
      Memory.wf (l.foldl (fun y s => setSlotState s .empty y) m) = true := by
    intro l
    induction l with
    | nil => exact fun _ hm => hm
    | cons s l ih => exact fun m hm => ih _ (wf_setSlotState s .empty hm)
  obtain ⟨wf, even⟩ := h
  have editions : (resetExchange x).editions = x.editions := by rw [resetExchange]
  refine ⟨Memory.wf_writeBytes _ _ (emptied allSlots x.mem wf), ?_⟩
  rw [editions]
  exact even

theorem settled_see {seen : List Outside} {p q : Part} (h : see seen p = some q) : p.Settled → q.Settled := by
  refine see_induction (S := fun p q => p.Settled → q.Settled) (fun _ => id) (fun h1 h2 => h2 ∘ h1) ?_ h
  intro o _ p q h1 hp
  obtain ⟨wf, even, out⟩ := hp
  cases o with
  | memoryWord a v => exact seeOne_memoryWord h1 ▸ ⟨Memory.wf_writeWord a v wf, even, out⟩
  | amplifierReady d ax => exact seeOne_amplifierReady h1 ▸ ⟨wf, even, out⟩

theorem Follows.settled {p q : Part} (h : Follows (fun x y => x.Sound → y.Sound) p q) (hp : p.Settled) :
    q.Settled := by
  rw [settled_iff] at hp ⊢
  exact ⟨h.1 hp.1, h.2 hp.2⟩

/-- Settles O48: the rule of the commands keeps it, and so do the link reset, which empties the memory by writes, and
power-on. -/
theorem everyStepKeepsThePartSettled : Obligations.EveryStepKeepsThePartSettled := by
  intro s t hs h
  unfold step at h
  split at h
  · cases h
    exact hs
  · next c rest _ =>
    obtain ⟨p, hp, hpart⟩ := soundRule.exec h
    have settled := settled_see hp hs
    rcases hpart with hf | hw
    · exact hf.settled settled
    · generalize t.part = q at hw
      cases hw with
      | powerOn levels => exact powerOn_settled levels _ _
      | linkReset => exact (soundRule.linkReset sound_resetExchange).settled settled
      | nudge => exact (soundRule.linkReset sound_resetExchange).settled settled
      | cause v => exact settled
      | mask v => exact settled

/-! ### The words of the site computer (8.1, R166, R168) -/

/-- The presence word, the staging page and the free area read as before. -/
def SameSiteArea (m m' : Memory) : Prop := ∀ a, inSiteArea a = true → m'.read a = m.read a

theorem SameSiteArea.trans {m1 m2 m3 : Memory} (h1 : SameSiteArea m1 m2) (h2 : SameSiteArea m2 m3) :
    SameSiteArea m1 m3 := fun a ha => (h2 a ha).trans (h1 a ha)

theorem inSiteArea_iff (a : Nat) :
    inSiteArea a = true ↔ a = 0x0004 ∨ a = 0x0005 ∨ (0x4000 ≤ a ∧ a < 0x8000) := by
  simp [inSiteArea, or_assoc]

/-- What is written beside the area leaves it as it was. -/
theorem sameSiteArea_writeBytes {addr : Nat} {bs : List Byte} (m : Memory)
    (h : 0x0006 ≤ addr ∧ addr + bs.length ≤ 0x4000) : SameSiteArea m (m.writeBytes addr bs) := by
  intro a ha
  have := (inSiteArea_iff a).mp ha
  exact Memory.read_writeBytes_outside m (by omega)

theorem sameSiteArea_setSlotState (slot : SlotId) (k : SlotState) (m : Memory) :
    SameSiteArea m (setSlotState slot k m) := by
  have := slot.isLt
  exact sameSiteArea_writeBytes m (by rw [lowBytes_length]; unfold slotBase; omega)

theorem siteAreaRule : CommandRule (fun x y => SameSiteArea x.mem y.mem) where
  unchanged hm _ _ _ a _ := by rw [hm]
  trans := SameSiteArea.trans
  publish pg p a ha := by
    have := (inSiteArea_iff a).mp ha
    exact read_writePage_outside pg _ p _ a ((unpublished (by omega)).1 pg)
  output level c o x a ha := by
    have := (inSiteArea_iff a).mp ha
    refine read_takeOutput level c o x a (unpublished (by omega)).2 ?_
    simp only [inAnswerOrState, Bool.and_eq_false_imp, Bool.and_eq_true, decide_eq_true_eq]
    omega
  slotState slot k x := sameSiteArea_setSlotState slot k x.mem
  order slot o x := by
    have := slot.isLt
    have fields : SameSiteArea x.mem (x.mem.writeBytes (slotBase slot + 2) (orderBytes o)) :=
      sameSiteArea_writeBytes _ (by rw [orderBytes_length]; unfold slotBase; omega)
    exact fields.trans (sameSiteArea_setSlotState slot .placed _)
  cause _ _ _ _ := rfl

theorem sameSiteArea_resetExchange (x : Exchange) : SameSiteArea x.mem (resetExchange x).mem := by
  have emptied : ∀ (l : List SlotId) (m : Memory),
      SameSiteArea m (l.foldl (fun y s => setSlotState s .empty y) m) := by
    intro l
    induction l with
    | nil => exact fun _ _ _ => rfl
    | cons s l ih => exact fun m => (sameSiteArea_setSlotState s .empty m).trans (ih _)
  exact (emptied allSlots x.mem).trans (sameSiteArea_writeBytes _ (by decide))

theorem linkReset_sameSiteArea (p : Part) : SameSiteArea p.xm.mem (linkReset p).xm.mem :=
  (siteAreaRule.linkReset (sameSiteArea_resetExchange p.xm)).1

/-- An amplifier that becomes ready writes no word. -/
theorem see_amplifiers {seen : List Outside} (hs : ∀ o ∈ seen, ∃ d a, o = .amplifierReady d a) {p q : Part}
    (h : see seen p = some q) : q.xm = p.xm := by
  refine see_induction (S := fun p q => q.xm = p.xm) (fun _ => rfl) (fun h1 h2 => h2.trans h1) ?_ h
  intro o ho p q h1
  obtain ⟨d, a, rfl⟩ := hs o ho
  rw [seeOne_amplifierReady h1]
  rfl

/-- Settles O51: the rule of the commands keeps the area, and the link reset writes the slate and the read
sequence. -/
theorem thePartLeavesTheSiteAreaAlone : Obligations.ThePartLeavesTheSiteAreaAlone := by
  intro s t hpower h
  have commands : ∀ c rest, s.pending = c :: rest →
      ∃ p : Part, see c.seen s.part = some p ∧ SameSiteArea p.xm.mem t.part.xm.mem := by
    intro c rest hc
    rw [step, hc] at h
    obtain ⟨p, hp, hf | hw⟩ := siteAreaRule.exec h
    · exact ⟨p, hp, hf.1⟩
    · refine ⟨p, hp, ?_⟩
      generalize t.part = q at hw
      cases hw with
      | powerOn levels => exact absurd hc (hpower levels rest)
      | linkReset => exact linkReset_sameSiteArea p
      | nudge => exact linkReset_sameSiteArea p
      | cause v => exact fun _ _ => rfl
      | mask v => exact fun _ _ => rfl
  refine ⟨commands, fun hseen => ?_⟩
  cases hpending : s.pending with
  | nil =>
    rw [step, hpending] at h
    cases h
    exact fun _ _ => rfl
  | cons c rest =>
    obtain ⟨p, hp, same⟩ := commands c rest hpending
    rw [see_amplifiers (hseen c rest hpending) hp] at same
    exact same

/-! ### The causes and MASK (R170) -/

/-- Every cause that was set is set, and MASK is as it was. -/
def KeepsCauses (x y : Exchange) : Prop :=
  (∀ i, x.cause.getLsbD i = true → y.cause.getLsbD i = true) ∧ y.mask = x.mask

theorem KeepsCauses.of_same {x y : Exchange} (hc : y.cause = x.cause) (hm : y.mask = x.mask) : KeepsCauses x y :=
  ⟨fun _ h => hc ▸ h, hm⟩

theorem KeepsCauses.trans {x y z : Exchange} (h1 : KeepsCauses x y) (h2 : KeepsCauses y z) : KeepsCauses x z :=
  ⟨fun i h => h2.1 i (h1.1 i h), h2.2.trans h1.2⟩

theorem keepsCauses_setCause (k : Cause) (x : Exchange) : KeepsCauses x (x.setCause k) := by
  refine ⟨fun i h => ?_, rfl⟩
  simp only [Exchange.setCause, BitVec.getLsbD_or, h, Bool.true_or]

theorem keepsCauses_sampleMark (count : Nat) (x : Exchange) : KeepsCauses x (sampleMark count x) := by
  unfold sampleMark
  dsimp only
  split <;> exact .of_same rfl rfl

theorem keepsCauses_writeEntry (level count : Nat) (e : TrailEvent) (time : ArrayTime) (valid : Bool) (x : Exchange) :
    KeepsCauses x (writeEntry level count e time valid x) := by
  have ifSet : ∀ {c : Prop} [Decidable c] {k : Cause} {y : Exchange}, KeepsCauses x y →
      KeepsCauses x (if c then y.setCause k else y) := by
    intro c _ k y h
    split
    · exact h.trans (keepsCauses_setCause k y)
    · exact h
  unfold writeEntry
  exact ifSet (ifSet (.of_same rfl rfl))

theorem keepsCauses_takeEvent (level count : Nat) (e : TrailEvent) (time : ArrayTime) (valid : Bool) (x : Exchange) :
    KeepsCauses x (takeEvent level count e time valid x) := by
  refine (keepsCauses_sampleMark count x).trans ?_
  unfold takeEvent
  generalize sampleMark count x = y
  have entry : ∀ e z, KeepsCauses z (writeEntry level count e time valid z) :=
    fun e z => keepsCauses_writeEntry level count e time valid z
  have gap : KeepsCauses y { writeEntry level count (.trailGap y.dropped) time valid y with dropped := 0 } :=
    (entry (.trailGap y.dropped) y).trans (.of_same rfl rfl)
  dsimp only
  split_ifs
  · exact .of_same rfl rfl
  · exact entry e y
  · exact gap.trans (.of_same rfl rfl)
  · exact gap.trans (entry e _)

theorem keepsCauses_takeOutput (level : Nat) (c : Clock) (o : Output) (x : Exchange) :
    KeepsCauses x (takeOutput level c o x) := by
  cases o with
  | trail e t v =>
    have event := keepsCauses_takeEvent level c.count e t v x
    cases e
    case timeSet => exact event.trans (.of_same rfl rfl)
    all_goals exact event
  | answer s a t v => exact keepsCauses_setCause .answer _
  | cause k => exact keepsCauses_setCause k x
  | page pg => exact .of_same rfl rfl

theorem causeRule : CommandRule KeepsCauses where
  unchanged _ _ hc hm := .of_same hc hm
  trans := KeepsCauses.trans
  publish _ _ := .of_same rfl rfl
  output := keepsCauses_takeOutput
  slotState _ _ _ := .of_same rfl rfl
  order _ _ _ := .of_same rfl rfl
  cause := keepsCauses_setCause

theorem see_keepsCauses {seen : List Outside} {p q : Part} (h : see seen p = some q) : KeepsCauses p.xm q.xm := by
  refine see_induction (S := fun p q => KeepsCauses p.xm q.xm) (fun _ => .of_same rfl rfl) .trans ?_ h
  intro o _ p q h1
  cases o with
  | memoryWord a v => exact seeOne_memoryWord h1 ▸ .of_same rfl rfl
  | amplifierReady d ax => exact seeOne_amplifierReady h1 ▸ .of_same rfl rfl

/-- Settles O52: by the rule of the commands, and a write of MASK sets no cause and clears none. -/
theorem aCauseStaysSetUntilItIsCleared : Obligations.ACauseStaysSetUntilItIsCleared := by
  intro c s t h hclear hreset hnudge hpower
  obtain ⟨p, hp, hf | hw⟩ := causeRule.exec h
  · have kept := (see_keepsCauses hp).trans hf.1
    exact ⟨kept.1, fun _ => kept.2⟩
  · have kept := see_keepsCauses hp
    generalize t.part = q at hw
    cases hw with
    | powerOn levels => exact absurd rfl (hpower levels)
    | linkReset => exact absurd rfl hreset
    | nudge => exact absurd rfl hnudge
    | cause v => exact absurd rfl (hclear v)
    | mask v => exact ⟨kept.1, fun hmask => absurd rfl (hmask v)⟩

end Sys2Proof.Machine
end

section
/-! SUPPORT. What a block has handed to the exchange side stays handed over while the blocks settle, and no STOW order
comes to stand meanwhile (R118, R176). -/

namespace Sys2Proof.Machine

/-! ### Onward -/

/-- The blocks have gone on: what had been handed to the exchange side comes first in what is handed to it now, and
where no STOW order stood none stands. -/
def Onward (a b : Blocks) : Prop := a.out <+: b.out ∧ (a.wind.standing = [] → b.wind.standing = [])

namespace Onward

variable {a b b' : Blocks}

@[simp] theorem refl (b : Blocks) : Onward b b := ⟨List.prefix_rfl, id⟩

/-- What is handed on and the standing STOWs are all that counts. -/
theorem same (h : Onward a b) (ho : b'.out = b.out) (hs : b'.wind.standing = b.wind.standing) : Onward a b' := by
  unfold Onward
  rw [ho, hs]
  exact h

theorem push (h : Onward a b) {l : List Output} (ho : b'.out = b.out ++ l)
    (hs : b'.wind.standing = b.wind.standing) : Onward a b' := by
  unfold Onward
  rw [ho, hs]
  exact ⟨h.1.trans (List.prefix_append _ _), h.2⟩

theorem ite {c : Prop} [Decidable c] {x y : Blocks} (hx : Onward a x) (hy : Onward a y) :
    Onward a (if c then x else y) := by
  split
  · exact hx
  · exact hy

theorem foldl {α : Type} {f : Blocks → α → Blocks} (hf : ∀ x k, Onward a x → Onward a (f x k)) (l : List α)
    (h : Onward a b) : Onward a (l.foldl f b) := by
  induction l generalizing b with
  | nil => exact h
  | cons k l ih => exact ih (hf b k h)

theorem foldl_fst {α β : Type} {f : Blocks × β → α → Blocks × β}
    (hf : ∀ acc k, Onward a acc.1 → Onward a (f acc k).1) (l : List α) {acc : Blocks × β} (h : Onward a acc.1) :
    Onward a (l.foldl f acc).1 := by
  induction l generalizing acc with
  | nil => exact h
  | cons k l ih => exact ih (hf acc k h)

theorem overDishes {l : List DishId} {f : DishId → Blocks → Blocks} (h : Onward a b)
    (hf : ∀ d x, Onward a x → Onward a (f d x)) : Onward a (overDishes l f b) := h.foldl (fun x d => hf d x) l

theorem overFormations {f : FormationId → Blocks → Blocks} (h : Onward a b)
    (hf : ∀ k x, Onward a x → Onward a (f k x)) : Onward a (overFormations f b) := h.foldl (fun x k => hf k x) _

/-! ### Records and what a block hands on -/

theorem modDish (h : Onward a b) {d : DishId} {f : Dish → Dish} : Onward a (b.modDish d f) := h.same rfl rfl

theorem modForm (h : Onward a b) {k : FormationId} {f : Formation → Formation} : Onward a (b.modForm k f) :=
  h.same rfl rfl

theorem modMember (h : Onward a b) {k : FormationId} {d : DishId} {f : Member → Member} :
    Onward a (b.modMember k d f) := h.same rfl rfl

theorem modZone (h : Onward a b) {z : ZoneId} {f : Zone → Zone} : Onward a (b.modZone z f) := h.same rfl rfl

theorem modShed (h : Onward a b) {d : DishId} {f : Shed → Shed} : Onward a (b.modShed d f) := h.same rfl rfl

theorem modStow (h : Onward a b) {d : DishId} {f : StowRecord → StowRecord} : Onward a (b.modStow d f) :=
  h.same rfl rfl

theorem modFa (h : Onward a b) {f : Arbiter → Arbiter} : Onward a (b.modFa f) := h.same rfl rfl

theorem trail (h : Onward a b) {e : TrailEvent} : Onward a (b.trail e) := h.push rfl rfl

theorem cause (h : Onward a b) {k : Cause} : Onward a (b.cause k) := h.push rfl rfl

theorem answer (h : Onward a b) {s : SlotId} {r : Answer} : Onward a (b.answer s r) := h.push rfl rfl

theorem publish (h : Onward a b) {pg : Page} : Onward a (b.publish pg) := h.push rfl rfl

theorem tell (h : Onward a b) {m : Message} : Onward a (b.tell m) := h.same rfl rfl

/-! ### Heater grants (R84, R127) -/

theorem zoneOff (h : Onward a b) {z : ZoneId} : Onward a (zoneOff z b) := h.same rfl rfl

theorem applyDuty (h : Onward a b) {z : ZoneId} {n : Nat} : Onward a (applyDuty z n b) := h.same rfl rfl

theorem takeGrant (h : Onward a b) {z : ZoneId} : Onward a (takeGrant z b) := by
  unfold Machine.takeGrant
  dsimp only
  split
  · exact h
  · exact h
  all_goals exact h.zoneOff.tell.ite (h.applyDuty.ite h)

theorem giveHeat (h : Onward a b) {z : ZoneId} {n : Nat} : Onward a (giveHeat z n b) := h.ite h.modZone.takeGrant

/-! ### The feeder arbiter (chapter 4) -/

theorem recomputeForce (h : Onward a b) : Onward a (recomputeForce b) := by
  have forced := h.modFa (f := fun fa => { fa with
    inForce := max fa.target (motionSum b.fa), held := decide (b.fa.target < motionSum b.fa) })
  exact (forced.ite forced.publish).trail.ite (forced.ite forced.publish)

theorem setGrant (h : Onward a b) {d : DishId} {g : Option Grant} : Onward a (setGrant d g b) := h.same rfl rfl

theorem tellGranted (h : Onward a b) {gs : List Claim} {w : Owner} : Onward a (tellGranted gs w b) := by
  unfold Machine.tellGranted
  split
  · exact h
  · exact h.tell

theorem motionStep (h : Onward a b) : Onward a (motionStep b) :=
  (h.modFa.foldl (fun _ _ hx => hx.setGrant) _).tellGranted.tellGranted.tellGranted

theorem heaterStep (h : Onward a b) : Onward a (heaterStep b) := h.foldl (fun _ _ hx => hx.giveHeat) _

theorem grantEvent (h : Onward a b) : Onward a (grantEvent b) := h.recomputeForce.motionStep.heaterStep.publish

theorem reformRequest (h : Onward a b) {z : ZoneId} : Onward a (reformRequest z b) := h.ite h.modZone.grantEvent

theorem reclass (h : Onward a b) {d : DishId} {g : Grant} : Onward a (reclass d g b) :=
  h.tell.publish.ite (h.setGrant.ite h.setGrant.tell).tell.publish

theorem submitQuiet (h : Onward a b) {c : Claim} : Onward a (submitQuiet c b).1 := by
  unfold Machine.submitQuiet
  split
  · exact h
  · split
    · exact h.reclass
    · split
      · exact h.modFa
      · split
        · exact h.modFa.tell.modFa
        · exact h

theorem submitClaim (h : Onward a b) {d : DishId} {w : Owner} {k : ClaimClass} {az el : Bool} :
    Onward a (submitClaim d w k az el b).1 := by
  have submitted := h.submitQuiet (c := makeClaim b d w k az el)
  unfold Machine.submitClaim
  split
  · next heq => rw [heq] at submitted; exact submitted.grantEvent
  · exact submitted

theorem submitStows (h : Onward a b) {ds : List DishId} : Onward a (submitStows ds b) := by
  unfold Machine.submitStows
  suffices batch : Onward a (List.foldl _ (b, false) ds).1 from batch.grantEvent.ite batch
  refine foldl_fst (fun acc d hx => ?_) ds h
  have submitted := hx.submitQuiet (c := makeClaim acc.1 d .ww .stow false true)
  split
  · next heq => rw [heq] at submitted; exact submitted
  · next heq => rw [heq] at submitted; exact submitted

theorem withdrawClaim (h : Onward a b) {w : Owner} {d : DishId} : Onward a (withdrawClaim w d b) :=
  h.modFa.grantEvent.ite h

theorem returnGrant (h : Onward a b) {d : DishId} : Onward a (returnGrant d b) := by
  unfold Machine.returnGrant
  split
  · exact h
  · exact h.setGrant.grantEvent

theorem useGrant (h : Onward a b) {d : DishId} {az el : Bool} : Onward a (useGrant d az el b) := by
  unfold Machine.useGrant
  split
  · exact h
  · exact h.setGrant.grantEvent.ite h.setGrant

theorem holderReturn (h : Onward a b) {w : Owner} {d : DishId} : Onward a (holderReturn w d b) := by
  unfold Machine.holderReturn
  split
  · exact h.returnGrant.ite h
  · exact h

theorem restGrant (h : Onward a b) {d : DishId} : Onward a (restGrant d b) := by
  unfold Machine.restGrant
  split
  · exact h.returnGrant.ite h
  · exact h.returnGrant.ite h
  · exact h

theorem seizeGrant (h : Onward a b) {d : DishId} {w : Option Owner} : Onward a (seizeGrant d w b) := by
  unfold Machine.seizeGrant
  split
  · exact h
  · exact h.returnGrant.ite h.returnGrant.tell

/-! ### The dish drives (chapter 1) -/

theorem tellOwner (h : Onward a b) {o : Option Owner} {d : DishId} {r : Report} : Onward a (tellOwner o d r b) := by
  unfold Machine.tellOwner
  split
  · exact h.tell
  · exact h

theorem tellOwners (h : Onward a b) {ws : List Owner} {d : DishId} {r : Report} : Onward a (tellOwners ws d r b) :=
  h.foldl (fun _ _ hx => hx.tell) ws

theorem preempt (h : Onward a b) {o : Option Owner} {w : Owner} {d : DishId} : Onward a (preempt o w d b) := by
  unfold Machine.preempt
  split
  · exact h.ite h.tell
  · exact h

theorem enterState (h : Onward a b) {d : DishId} {k : DriveState} : Onward a (enterState d k b) := h.same rfl rfl

theorem setProfiles (h : Onward a b) {d : DishId} {m : Move} : Onward a (setProfiles d m b) := h.same rfl rfl

theorem takeTask (h : Onward a b) {d : DishId} {m : Move} : Onward a (takeTask d m b) := h.same rfl rfl

theorem enterMoving (h : Onward a b) {d : DishId} : Onward a (enterMoving d b) := h.same rfl rfl

theorem enterStopping (h : Onward a b) {d : DishId} : Onward a (enterStopping d b) := h.same rfl rfl

theorem enterPinning (h : Onward a b) {d : DishId} {w : Owner} : Onward a (enterPinning d w b) := h.same rfl rfl

theorem enterUnpinning (h : Onward a b) {d : DishId} : Onward a (enterUnpinning d b) := h.same rfl rfl

theorem enterWarning (h : Onward a b) {d : DishId} {m : Move} : Onward a (enterWarning d m b) := h.same rfl rfl

theorem shortenWarning (h : Onward a b) {d : DishId} : Onward a (shortenWarning d b) := by
  unfold Machine.shortenWarning
  dsimp only
  split
  · split
    · exact h.modDish
    · exact h
  · exact h

theorem reportReady (h : Onward a b) {d : DishId} : Onward a (reportReady d b) :=
  h.modDish.tellOwner.enterMoving.ite h.modDish.tellOwner

theorem takeStill (h : Onward a b) {d : DishId} {m : Move} : Onward a (takeStill d m b) :=
  h.takeTask.useGrant.enterPinning.ite h.takeTask.useGrant.modDish.tell

theorem holdMove (h : Onward a b) {d : DishId} {m : Move} : Onward a (holdMove d m b) := h.modDish.preempt

theorem acceptMove (h : Onward a b) {d : DishId} {m : Move} : Onward a (acceptMove d m b) := by
  have replaced := (h.takeTask (d := d) (m := m)).setProfiles (d := d) (m := m)
  unfold Machine.acceptMove
  dsimp only
  split
  case h_1 => exact h.preempt.takeTask.setProfiles.enterWarning.useGrant.ite h.preempt.takeStill
  case h_2 => exact (replaced.preempt.shortenWarning.ite replaced.preempt).useGrant
  case h_3 => exact replaced.preempt.modDish.useGrant.reportReady.ite replaced.preempt.modDish.useGrant
  case h_4 =>
    refine Onward.ite ?_ h.preempt.takeStill
    exact replaced.preempt.modDish.useGrant.enterMoving.ite replaced.preempt.modDish.useGrant.modDish.tell
  case h_5 | h_6 => exact h.preempt.holdMove.enterStopping
  case h_7 | h_8 => exact h.holdMove
  case h_9 => exact h.modDish
  case h_10 => exact h.takeTask.tell
  case h_11 => exact h

theorem handMove (h : Onward a b) {d : DishId} {m : Move} : Onward a (handMove d m b).1 := by
  unfold Machine.handMove
  split
  · exact h
  · exact h.acceptMove

/-- What a move that is handed over brings about, taken or refused. -/
theorem of_handMove {d : DishId} {m : Move} {x : Blocks} {r : Option MoveRefusal} (h : Onward a b)
    (heq : Machine.handMove d m b = (x, r)) : Onward a x := by
  have handed := h.handMove (d := d) (m := m)
  rw [heq] at handed
  exact handed

theorem completeStops (h : Onward a b) {d : DishId} : Onward a (completeStops d b) :=
  (h.modDish.modDish.ite h.modDish).tellOwners

theorem takeHeld (h : Onward a b) {d : DishId} {m : Move} : Onward a (takeHeld d m b) := by
  unfold Machine.takeHeld
  dsimp only
  split
  · next heq => exact h.modDish.of_handMove heq
  · next heq => exact (h.modDish.of_handMove heq).tell.returnGrant

theorem settleBraked (h : Onward a b) {d : DishId} : Onward a (settleBraked d b) := by
  unfold Machine.settleBraked
  dsimp only
  split
  · exact h.completeStops.takeHeld
  · exact h.completeStops.restGrant
  · exact h.completeStops.restGrant

theorem enterBraked (h : Onward a b) {d : DishId} : Onward a (enterBraked d b) := h.enterState.settleBraked

theorem requestUnpin (h : Onward a b) {d : DishId} : Onward a (requestUnpin d b) := by
  unfold Machine.requestUnpin
  split
  · exact h.tell.ite h.enterUnpinning
  · exact h.modDish
  · exact h.tell
  all_goals exact h.tell

theorem requestStop (h : Onward a b) {w : Owner} {d : DishId} : Onward a (requestStop w d b) := by
  have asked : Onward a ((emptyNext w d b).modDish d (fun x => { x with
      stopRequesters := x.stopRequesters.add w })) := h.modDish.tellOwner.modDish
  unfold Machine.requestStop
  dsimp only
  split
  case h_1 | h_2 | h_3 => exact asked.completeStops
  case h_4 | h_5 | h_6 => exact asked.enterBraked
  case h_7 | h_8 => exact asked.enterStopping
  case h_9 | h_10 | h_11 => exact asked

theorem ownerStop (h : Onward a b) {w : Owner} {d : DishId} : Onward a (ownerStop w d b) := h.requestStop

theorem lockStop (h : Onward a b) {d : DishId} : Onward a (lockStop d b) := h.preempt.modDish.requestStop

theorem releaseDish (h : Onward a b) {w : Owner} {d : DishId} : Onward a (releaseDish w d b) := by
  unfold Machine.releaseDish
  dsimp only
  refine Onward.ite h ?_
  split
  case h_1 | h_2 => exact h
  case h_3 => exact h.modDish.modDish
  case h_4 => exact h.modDish.enterBraked.ite h.modDish
  all_goals exact h.modDish

theorem startDish (h : Onward a b) {d : DishId} : Onward a (startDish d b) := by
  unfold Machine.startDish
  dsimp only
  split
  case h_1 => exact h.enterMoving.ite h.modDish
  case h_2 => exact h.enterMoving.ite h
  all_goals exact h

end Onward

end Sys2Proof.Machine
end

section
/-! SUPPORT. How the blocks go on when they take each other's messages: the formation planner, the melt controller, the
lock table and the wind watch (chapters 3, 5 to 7). -/

namespace Sys2Proof.Machine

namespace Onward

variable {a b : Blocks}

/-! ### The melt controller (chapter 6) -/

theorem setPhase (h : Onward a b) {d : DishId} {k : ShedPhase} : Onward a (setPhase d k b) := h.same rfl rfl

theorem shedEnded (h : Onward a b) {d : DishId} {o : ShedOutcome} : Onward a (shedEnded d o b) := h.trail.setPhase

theorem shedRefused (h : Onward a b) {d : DishId} {r : MoveRefusal} : Onward a (shedRefused d r b) := by
  unfold Machine.shedRefused
  dsimp only
  split
  case h_1 | h_2 | h_3 | h_4 => exact h.holderReturn.setPhase
  all_goals exact h.holderReturn.setPhase.modShed

theorem handShed (h : Onward a b) {d : DishId} {p : PlanResult} : Onward a (handShed d p b) := by
  unfold Machine.handShed
  dsimp only
  split
  · next heq => exact (h.of_handMove heq).shedRefused
  · next heq => exact (h.of_handMove heq).modShed.trail

theorem recheckShed (h : Onward a b) {d : DishId} : Onward a (recheckShed d b) := h.setPhase.withdrawClaim.ite h

theorem onMcGranted (h : Onward a b) {d : DishId} : Onward a (onMcGranted d b) := by
  unfold Machine.onMcGranted
  refine Onward.ite (Onward.ite ?_ h.holderReturn.setPhase) h.holderReturn
  split
  · exact h.handShed
  · exact h.holderReturn.setPhase

theorem onMcReport (h : Onward a b) {d : DishId} {r : Report} : Onward a (onMcReport d r b) := by
  unfold Machine.onMcReport
  refine Onward.ite ?_ h
  split
  · exact h.shedEnded.releaseDish
  · exact h.shedEnded
  · exact h.shedEnded
  · exact h.shedRefused
  all_goals exact h

theorem onMcWithdrawn (h : Onward a b) {d : DishId} : Onward a (onMcWithdrawn d b) := h.setPhase.ite h

theorem onMcTakenOver (h : Onward a b) {d : DishId} : Onward a (onMcTakenOver d b) := by
  unfold Machine.onMcTakenOver
  split
  · exact h.shedEnded
  · exact h.setPhase
  · exact h

theorem cutHeat (h : Onward a b) {d : DishId} : Onward a (cutHeat d b) :=
  h.foldl (fun _ _ hx => hx.applyDuty.modZone.reformRequest) _

theorem uncutHeat (h : Onward a b) {d : DishId} : Onward a (uncutHeat d b) :=
  h.foldl (fun _ _ hx => hx.modZone.reformRequest.ite hx) _

/-! ### The lock table (chapter 7) -/

theorem seizeLocked (h : Onward a b) {d : DishId} : Onward a (seizeLocked d b) := by
  unfold Machine.seizeLocked
  dsimp only
  split
  · exact h.seizeGrant.ite h
  · exact h

theorem spreadSummary (h : Onward a b) {d : DishId} {old : LockSummary} : Onward a (spreadSummary d old b) := by
  suffices told : Onward a (Blocks.tell (.lockChanged d) _) from told.cutHeat.ite (told.uncutHeat.ite told)
  exact ((h.grantEvent.ite h).tell.ite (h.grantEvent.ite h)).tell

theorem endLockEvent (h : Onward a b) {d : DishId} {before : Blocks} {fx : LockEffects} :
    Onward a (endLockEvent d before fx b) := by
  suffices seized : Onward a (Machine.overDishes allDishes Machine.seizeLocked _) from seized.ite seized.spreadSummary
  suffices written : Onward a (writeEntries fx.entries _) from
    (written.lockStop.ite written).overDishes (fun _ _ hx => hx.seizeLocked)
  exact h.modDish.foldl (fun _ _ hx => hx.trail.cause) _

theorem effectiveRecord (h : Onward a b) {pl : LockPlace} : Onward a (effectiveRecord pl b) := by
  unfold Machine.effectiveRecord
  split
  · cases pl <;> exact h.same rfl rfl
  · exact h

theorem answerLock (h : Onward a b) {drive : DriveState} {x : LockPlace × LockRecord} :
    Onward a (answerLock drive x b) := by
  unfold Machine.answerLock
  split
  · exact h.answer
  · exact h

theorem onLtStopped (h : Onward a b) {d : DishId} : Onward a (onLtStopped d b) :=
  h.ite ((h.foldl (fun _ _ hx => hx.effectiveRecord) _).endLockEvent.foldl (fun _ _ hx => hx.answerLock) _)

theorem onLtReport (h : Onward a b) {d : DishId} {r : Report} : Onward a (onLtReport d r b) := by
  unfold Machine.onLtReport
  split
  · exact h.onLtStopped
  · exact h.onLtStopped
  all_goals exact h

/-! ### The formation planner (chapter 3) -/

theorem answerWork (h : Onward a b) {f : FormationId} {c : AnswerCode} {n k : Nat} :
    Onward a (answerWork f c n k b) := by
  unfold Machine.answerWork
  split
  · exact h.answer
  · exact h

theorem returnUnhanded (h : Onward a b) {f : FormationId} {d : DishId} : Onward a (returnUnhanded f d b) :=
  h.holderReturn.ite h

theorem dropClaims (h : Onward a b) {f : FormationId} : Onward a (dropClaims f b) :=
  h.overDishes (fun _ _ hx => hx.withdrawClaim.returnUnhanded)

theorem releaseMembers (h : Onward a b) {f : FormationId} : Onward a (releaseMembers f b) :=
  h.overDishes (fun _ _ hx => hx.releaseDish)

theorem goIdle (h : Onward a b) {f : FormationId} : Onward a (goIdle f b) := h.same rfl rfl

theorem emptyQueue (h : Onward a b) {f : FormationId} : Onward a (emptyQueue f b) := h.same rfl rfl

theorem stopWork (h : Onward a b) {d : DishId} : Onward a (stopWork d b) :=
  h.ownerStop.holderReturn.ite (h.ownerStop.ite h)

theorem excuseMember (h : Onward a b) {f : FormationId} {d : DishId} {c : ExcusalCause} :
    Onward a (excuseMember f d c b) := h.modForm.trail.withdrawClaim.returnUnhanded.modForm.stopWork

theorem excuseCore (h : Onward a b) {f : FormationId} {d : DishId} {c : ExcusalCause} :
    Onward a (excuseCore f d c b) :=
  (h.excuseMember.answerWork.dropClaims.emptyQueue.goIdle.ite h.excuseMember).ite h

theorem handMember (h : Onward a b) {f : FormationId} {d : DishId} {m : Move} : Onward a (handMember f d m b) := by
  unfold Machine.handMember
  refine Onward.ite h.modMember ?_
  split
  · next heq => exact h.modMember.of_handMove heq
  · next heq => exact (h.modMember.of_handMove heq).tell

theorem handKept (h : Onward a b) {d : DishId} : Onward a (handKept d b) := by
  refine h.overFormations (fun f x hx => ?_)
  split
  · exact hx.handMember
  · exact hx

theorem unwrapQueue (h : Onward a b) {f : FormationId} : Onward a (unwrapQueue f b) := h.modForm

theorem formWave (h : Onward a b) {f : FormationId} : Onward a (formWave f b) := by
  refine (h.modForm.trail.ite h.modForm).overDishes (fun d x hx => ?_)
  unfold handWaveMember
  split
  · exact hx
  · exact hx.modMember.handMember

theorem startWaves (h : Onward a b) {f : FormationId} : Onward a (startWaves f b) :=
  h.foldl (fun _ _ hx => hx.ite (hx.overDishes (fun _ _ hy => hy.modMember.ite hy.modMember.startDish))) _

theorem pieceArrived (h : Onward a b) {f : FormationId} : Onward a (pieceArrived f b) := by
  unfold Machine.pieceArrived
  dsimp only
  split
  · exact h.trail.answerWork.releaseMembers.goIdle
  · exact h.trail.modForm.tell.ite h.trail.modForm
  · exact h.trail.modForm.overDishes (fun _ _ hx => hx.modMember.submitClaim)
  · exact h.trail

theorem advanceGranted (h : Onward a b) {f : FormationId} : Onward a (advanceGranted f b) := by
  unfold Machine.advanceGranted
  refine Onward.ite h ?_
  split
  · refine h.overDishes (fun d x hx => ?_)
    unfold handEach
    split
    · exact hx
    · exact hx.modMember.modForm.handMember
  · exact h.formWave.ite (h.formWave.ite h)

theorem advanceFormation (h : Onward a b) {f : FormationId} : Onward a (advanceFormation f b) :=
  (h.advanceGranted.startWaves.pieceArrived.ite h.advanceGranted.startWaves).ite h

theorem planMember (h : Onward a b) {f : FormationId} {d : DishId} : Onward a (planMember f d b) := by
  unfold Machine.planMember
  dsimp only
  split
  · exact h.excuseCore
  · exact h.modForm.modMember

theorem claimMember (h : Onward a b) {f : FormationId} {d : DishId} : Onward a (claimMember f d b) := by
  unfold Machine.claimMember
  split
  · exact h
  · exact h.modMember.submitClaim.ite h.modMember

theorem checkMember (h : Onward a b) {f : FormationId} {d : DishId} : Onward a (checkMember f d b) := by
  unfold Machine.checkMember
  split
  · exact h.excuseCore
  · exact h

theorem claimAll (h : Onward a b) {f : FormationId} : Onward a (claimAll f b) := by
  have claimed := h.overDishes (l := (b.form f).active) (fun d x hx => hx.claimMember (f := f) (d := d))
  unfold Machine.claimAll
  dsimp only
  split
  · exact claimed
  · exact claimed.modForm.tell.ite claimed.modForm

theorem admitPiece (h : Onward a b) {f : FormationId} {fresh : Bool} : Onward a (admitPiece f fresh b) := by
  suffices planned : Onward a (Machine.overDishes _ (Machine.planMember f) _) from
    (planned.unwrapQueue.ite planned).claimAll.advanceFormation.ite planned
  exact (h.modForm.overDishes (fun _ _ hx => hx.checkMember)).overDishes (fun _ _ hx => hx.planMember)

theorem takeUp (h : Onward a b) {f : FormationId} {p : PendingWork} : Onward a (takeUp f p b) :=
  (h.modForm.unwrapQueue.ite h.modForm).admitPiece

theorem finishHalting (h : Onward a b) {f : FormationId} : Onward a (finishHalting f b) := by
  unfold Machine.finishHalting
  refine Onward.ite ?_ h
  split
  · exact h.takeUp
  · exact h.modForm.ite h.modForm

/-- A fresh acquisition of a starved track (R64). -/
theorem reacquire (h : Onward a b) {f : FormationId} {ws : List Waypoint} : Onward a (reacquire f ws b) :=
  h.modForm.admitPiece

theorem onAdmissionOver (h : Onward a b) {f : FormationId} : Onward a (onAdmissionOver f b) :=
  h.modForm.advanceFormation.ite h

theorem onDwellOver (h : Onward a b) {f : FormationId} : Onward a (onDwellOver f b) := by
  unfold Machine.onDwellOver
  refine Onward.ite ?_ h
  dsimp only
  split
  · exact h.modForm
  · exact h.modForm.modForm.admitPiece.ite h.modForm.answerWork.releaseMembers.goIdle

theorem excuse (h : Onward a b) {f : FormationId} {d : DishId} {c : ExcusalCause} : Onward a (excuse f d c b) :=
  h.excuseCore.advanceFormation.finishHalting.ite h

theorem excuseEverywhere (h : Onward a b) {d : DishId} {c : ExcusalCause} : Onward a (excuseEverywhere d c b) :=
  (h.overFormations (fun _ _ hx => hx.excuse)).handKept

theorem leaveStopping (h : Onward a b) {d : DishId} : Onward a (leaveStopping d b) :=
  (h.overFormations (fun _ _ hx => hx.modForm.finishHalting.ite hx)).handKept

theorem onFpReady (h : Onward a b) {f : FormationId} {d : DishId} : Onward a (onFpReady f d b) := by
  unfold Machine.onFpReady
  split
  · exact h.modMember.advanceFormation
  all_goals exact h

theorem onFpArrived (h : Onward a b) {f : FormationId} {d : DishId} {t : ArrayTime} :
    Onward a (onFpArrived f d t b) := by
  unfold Machine.onFpArrived
  split
  case h_1 | h_2 | h_3 => exact h.modMember.advanceFormation
  all_goals exact h

theorem onFpFaulted (h : Onward a b) {f : FormationId} {d : DishId} : Onward a (onFpFaulted f d b) := by
  unfold Machine.onFpFaulted
  dsimp only
  split
  · exact h.excuse.excuse.leaveStopping
  · exact h.excuse.leaveStopping

theorem onFpReport (h : Onward a b) {d : DishId} {r : Report} : Onward a (onFpReport d r b) := by
  unfold Machine.onFpReport
  split
  · exact h
  · split
    · exact h.onFpReady
    · exact h.onFpArrived
    · split
      · exact h.excuse.leaveStopping
      · exact h.leaveStopping
    · exact h.onFpFaulted
    · exact (h.modMember.ite h).excuse
    all_goals exact h

theorem onFpStopped (h : Onward a b) {d : DishId} : Onward a (onFpStopped d b) := (h.ite h.releaseDish).leaveStopping

theorem handFollow (h : Onward a b) {f : FormationId} {d : DishId} : Onward a (handFollow f d b) := by
  unfold Machine.handFollow
  split
  · exact h
  · exact h.modMember.handMember

theorem onFpGranted (h : Onward a b) {d : DishId} : Onward a (onFpGranted d b) := by
  unfold Machine.onFpGranted
  split
  · exact h.holderReturn
  · dsimp only
    split
    · exact h.modMember
    · exact h.handFollow
    case h_8 => exact h.holderReturn
    all_goals exact h

theorem onFpGrants (h : Onward a b) {ds : List DishId} : Onward a (onFpGrants ds b) :=
  (h.overDishes (fun _ _ hx => hx.onFpGranted)).overFormations (fun _ _ hx => hx.advanceFormation)

theorem onFpGrantGone (h : Onward a b) {d : DishId} : Onward a (onFpGrantGone d b) := h.excuseEverywhere

/-! ### The wind watch (chapter 5) -/

theorem changeWind (h : Onward a b) {k : WindState} {t : WindTrigger} : Onward a (changeWind k t b) :=
  have changed := (h.same (b' := b.modWind (fun x => { x with state := k })) rfl rfl).trail.publish (pg := .common)
  changed.cause.ite changed

theorem blockDish (h : Onward a b) {d : DishId} {c : BlockCause} : Onward a (blockDish d c b) :=
  (h.withdrawClaim.ite h).holderReturn.modStow.trail

theorem blockEvent (h : Onward a b) {d : DishId} {c : BlockCause} : Onward a (blockEvent d c b) :=
  (h.modStow.ite h).ite (h.blockDish.ite h)

theorem setStowPhase (h : Onward a b) {d : DishId} {k : StowPhase} : Onward a (setStowPhase d k b) := h.modStow

theorem stowRefused (h : Onward a b) {d : DishId} {r : MoveRefusal} : Onward a (stowRefused d r b) := by
  unfold Machine.stowRefused
  split
  case h_1 | h_2 | h_3 | h_4 => exact h.blockEvent
  case h_5 => exact h.setStowPhase.submitStows.ite h
  all_goals exact h

theorem handStow (h : Onward a b) {d : DishId} {m : Move} : Onward a (handStow d m b) := by
  unfold Machine.handStow
  split
  · next heq => exact h.of_handMove heq
  · next heq => exact (h.of_handMove heq).stowRefused

theorem beginStow (h : Onward a b) {d : DishId} : Onward a (beginStow d b).1 := by
  unfold Machine.beginStow
  dsimp only
  split
  case h_1 => exact h.modStow.setStowPhase.handStow
  case h_2 => exact h.modStow.setStowPhase.handStow.ownerStop.ite h.modStow.setStowPhase.handStow
  all_goals
    split
    · exact h.modStow.blockDish
    · split
      · exact h.modStow.setStowPhase
      · exact h.modStow.modStow.handStow

theorem beginStowAlone (h : Onward a b) {d : DishId} : Onward a (beginStowAlone d b) :=
  h.beginStow.submitStows.ite h.beginStow

theorem onWwGranted (h : Onward a b) {d : DishId} : Onward a (onWwGranted d b) := by
  unfold Machine.onWwGranted
  refine Onward.ite ?_ h.holderReturn
  split
  · exact h.setStowPhase.handStow
  · exact h.blockDish

theorem askUnpin (h : Onward a b) {d : DishId} : Onward a (askUnpin d b) := h.modStow.requestUnpin

theorem unstow (h : Onward a b) {d : DishId} : Onward a (unstow d b) := by
  unfold Machine.unstow
  dsimp only
  split
  · exact h.askUnpin.ite h
  · exact h.withdrawClaim.holderReturn.setStowPhase
  · exact h.modStow.askUnpin.ite h.modStow.ownerStop
  · exact h.modStow.askUnpin
  · exact h.setStowPhase.askUnpin.ite h.setStowPhase
  · exact h

theorem recheckBlocked (h : Onward a b) {d : DishId} : Onward a (recheckBlocked d b) := by
  unfold Machine.recheckBlocked
  split
  · exact h.modStow
  · have reasoned := (h.modDish (d := d) (f := fun x => { x with reasons := { x.reasons with wind := true } })).ite h
      (c := b.wind.state.stowing' = true)
    exact (reasoned.setStowPhase.unstow.ite reasoned.setStowPhase).ite reasoned.beginStowAlone

theorem onLockChanged (h : Onward a b) {d : DishId} : Onward a (onLockChanged d b) := by
  suffices looked : Onward a (if (b.stow d).phase = .blocked then _ else _) from looked.requestUnpin.ite looked
  exact (h.recheckBlocked.ite h).ite (h.blockEvent.ite h)

theorem onCleared (h : Onward a b) {d : DishId} : Onward a (onCleared d b) :=
  have looked := h.recheckBlocked.ite h (c := isBlocked b d [.fault] = true)
  looked.requestUnpin.ite looked

theorem onWwReport (h : Onward a b) {d : DishId} {r : Report} : Onward a (onWwReport d r b) := by
  unfold Machine.onWwReport
  split
  · exact h
  · exact h.ownerStop.ite h
  · exact h.releaseDish.setStowPhase.holderReturn.ite (h.modStow.handStow.ite h)
  · unfold onWwStowed
    split
    case h_5 | h_6 => exact h
    all_goals exact h.modStow
  · exact h.blockEvent.ite h
  · exact h.blockEvent
  · exact h.stowRefused.ite h
  · exact h.modStow.ite h
  · exact h

theorem onWwGrantGone (h : Onward a b) {d : DishId} : Onward a (onWwGrantGone d b) := by
  unfold Machine.onWwGrantGone
  split
  · exact h.blockEvent
  · exact h

/-- STOW orders leave the list when they are done, and none joins it (R118). -/
theorem reviewStows (h : Onward a b) : Onward a (reviewStows b) := by
  refine Onward.foldl (fun _ _ hx => hx.answer) _ ⟨h.1, fun none => ?_⟩
  show (b.wind.standing.map (reviewStow b)).filter _ = []
  rw [h.2 none]
  rfl

theorem checkStowed (h : Onward a b) : Onward a (checkStowed b) := h.changeWind.ite h

/-! ### The blocks settle -/

theorem handle (h : Onward a b) {m : Message} : Onward a (handle m b) := by
  unfold Machine.handle
  split
  case h_1 => exact h.onFpStopped
  case h_2 => exact h.onFpReport
  case h_3 => exact h.onWwReport
  case h_4 => exact h.onMcReport
  case h_5 => exact h.onLtReport
  case h_6 => exact h.onFpGrants
  case h_7 => exact h.overDishes (fun _ _ hx => hx.onWwGranted)
  case h_8 => exact h.overDishes (fun _ _ hx => hx.onMcGranted)
  case h_10 => exact h.excuseEverywhere
  case h_11 => exact h.onMcWithdrawn
  case h_14 => exact h.excuseEverywhere
  case h_15 => exact h.onMcTakenOver
  case h_18 => exact h.onFpGrantGone
  case h_19 => exact h.onMcWithdrawn
  case h_20 => exact h.onWwGrantGone
  case h_22 => exact h.excuseEverywhere
  case h_23 => exact h.onLockChanged
  case h_24 => exact h.onCleared
  case h_25 => exact h.reformRequest
  case h_26 => exact h.onAdmissionOver
  case h_27 => exact h.onDwellOver
  all_goals exact h

theorem tidy (h : Onward a b) {old : Blocks} : Onward a (tidy old b) :=
  (h.overDishes (fun _ _ hx => hx.recheckShed.ite hx)).reviewStows.checkStowed

theorem drain (h : Onward a b) (n : Nat) : Onward a (drain n b) := by
  induction n generalizing b with
  | zero => exact h
  | succ n ih =>
    unfold Machine.drain
    split
    · exact h
    · next m ms _ => exact ih (h.same (b' := { b with inbox := ms }) rfl rfl).handle.tidy

theorem settle (h : Onward a b) {old : Blocks} : Onward a (settle old b) := h.tidy.drain _

end Onward

end Sys2Proof.Machine
end

section
/-! SUPPORT. An order that is taken stands in its slot or is answered (R171, R174 to R176). -/

namespace Sys2Proof.Machine

/-! ### Orders that their owner answers in the event of the take (R175, R176) -/

/-- An answer for the slot has been handed over. -/
def HasAnswer (slot : SlotId) (b : Blocks) : Prop := b.out.any (Output.answers slot) = true

theorem hasAnswer_answer (slot : SlotId) (r : Answer) (b : Blocks) : HasAnswer slot (b.answer slot r) := by
  simp [HasAnswer, Blocks.answer_out, Output.answers]

theorem Onward.hasAnswer {slot : SlotId} {a b : Blocks} (h : Onward a b) (ha : HasAnswer slot a) :
    HasAnswer slot b := by
  obtain ⟨o, ho, answers⟩ := List.any_eq_true.mp ha
  exact List.any_eq_true.mpr ⟨o, h.1.subset ho, answers⟩

section
variable {slot : SlotId} {b : Blocks}

theorem takeForm_answers {f : FormationId} {ds : Word} : HasAnswer slot (takeForm slot f ds b) := by
  unfold takeForm
  split <;> exact hasAnswer_answer ..

theorem takeDisband_answers {f : FormationId} : HasAnswer slot (takeDisband slot f b) := by
  unfold takeDisband
  split <;> exact hasAnswer_answer ..

/-- A HALT answers before its halt ends (R60). -/
theorem takeHalt_answers {f : FormationId} : HasAnswer slot (takeHalt slot f b) := by
  unfold takeHalt
  split
  case h_1 | h_2 | h_3 => exact hasAnswer_answer ..
  all_goals exact (Onward.refl _).finishHalting.hasAnswer (hasAnswer_answer ..)

/-- A load that ends STARVED answers before the fresh acquisition (R64). -/
theorem takeTrackLoad_answers {f : FormationId} {n : Word} {ps : Vector RawWaypoint 6} :
    HasAnswer slot (takeTrackLoad slot f n ps b) := by
  unfold takeTrackLoad
  dsimp only
  split
  · exact hasAnswer_answer ..
  · split
    · exact (Onward.refl _).reacquire.hasAnswer (hasAnswer_answer ..)
    · exact hasAnswer_answer ..

theorem takeStanding_answers {f : FormationId} {w : WorkOrder} {bad : Option Nat} {fields : TargetFields}
    (h : (takeStanding slot f w bad fields b).2 = false) : HasAnswer slot (takeStanding slot f w bad fields b).1 := by
  unfold takeStanding at h ⊢
  split at h
  · exact hasAnswer_answer ..
  · split at h
    · exact hasAnswer_answer ..
    · cases h

theorem takeStow_answers {ds : Word} (h : (takeStow slot ds b).2 = false) : HasAnswer slot (takeStow slot ds b).1 := by
  revert h
  unfold takeStow
  split
  · exact fun _ => hasAnswer_answer ..
  · nofun

theorem takeRelease_answers {ds : Word} : HasAnswer slot (takeRelease slot ds b) := by
  unfold takeRelease
  split <;> exact hasAnswer_answer ..

theorem takeMeltMode_answers {ds cs mode forced : Word} : HasAnswer slot (takeMeltMode slot ds cs mode forced b) := by
  unfold takeMeltMode
  split
  · exact hasAnswer_answer ..
  · split
    · exact hasAnswer_answer ..
    · split <;> exact hasAnswer_answer ..

theorem takeLock_answers {d c t : Word} (h : (takeLock slot d c t b).2 = false) :
    HasAnswer slot (takeLock slot d c t b).1 := by
  revert h
  unfold takeLock
  split
  · exact fun _ => hasAnswer_answer ..
  · exact fun _ => hasAnswer_answer ..
  · split
    · exact fun _ => hasAnswer_answer ..
    · split
      · exact fun _ => hasAnswer_answer ..
      · dsimp only
        split
        · exact fun _ => hasAnswer_answer ..
        · nofun

theorem takeUnlock_answers {d t : Word} : HasAnswer slot (takeUnlock slot d t b) := by
  unfold takeUnlock
  split
  · exact hasAnswer_answer ..
  · split
    · exact hasAnswer_answer ..
    · dsimp only
      split <;> exact hasAnswer_answer ..

theorem takeClearFault_answers {ds : Word} : HasAnswer slot (takeClearFault slot ds b) := by
  unfold takeClearFault
  dsimp only
  split_ifs <;> exact hasAnswer_answer ..

theorem takeSetTime_answers {t : ArrayTime} : HasAnswer slot (takeSetTime slot t b) := by
  unfold takeSetTime
  split <;> exact hasAnswer_answer ..

theorem takeAdjustTime_answers {x : Word32} : HasAnswer slot (takeAdjustTime slot x b) := by
  unfold takeAdjustTime
  dsimp only
  split_ifs <;> exact hasAnswer_answer ..

theorem takeAdopt_answers {staging : List Byte} : HasAnswer slot (takeAdopt slot staging b) := by
  unfold takeAdopt
  split <;> exact hasAnswer_answer ..

theorem takeCommit_answers (h : (takeCommit slot b).2 = false) : HasAnswer slot (takeCommit slot b).1 := by
  unfold takeCommit at h ⊢
  split at h
  · exact hasAnswer_answer ..
  · cases h

/-- An order that does not stand is answered by its owner (R175, R176). -/
theorem giveOrder_answers {o : Order} {f : FormationId} {staging : List Byte} (hverb : ∀ v, o.body ≠ .unknown v)
    (h : (giveOrder slot o f staging b).2 = false) : HasAnswer slot (giveOrder slot o f staging b).1 := by
  unfold giveOrder at h ⊢
  cases hbody : o.body <;> rw [hbody] at h
  case form => exact takeForm_answers
  case disband => exact takeDisband_answers
  case halt => exact takeHalt_answers
  case slew => exact takeStanding_answers h
  case trackLoad => exact takeTrackLoad_answers
  case track => exact takeStanding_answers h
  case raster => exact takeStanding_answers h
  case stow => exact takeStow_answers h
  case release => exact takeRelease_answers
  case meltMode => exact takeMeltMode_answers
  case lock => exact takeLock_answers h
  case unlock => exact takeUnlock_answers
  case setBudget => exact hasAnswer_answer ..
  case clearFault => exact takeClearFault_answers
  case setTime => exact takeSetTime_answers
  case adjustTime => exact takeAdjustTime_answers
  case adoptSite => exact takeAdopt_answers
  case commitSite => exact takeCommit_answers h
  case unknown v => exact absurd hbody (hverb v)

/-- An order that does not stand is answered, by the order taker or by its owner (R175, R176). -/
theorem handOver_answers {o : Order} {named : Named} {staging : List Byte} (hverb : ∀ v, o.body ≠ .unknown v)
    (h : (handOver slot o named staging b).2 = false) : HasAnswer slot (handOver slot o named staging b).1 := by
  cases refused : takerRefused o named with
  | some a =>
    rw [handOver_refused refused]
    exact hasAnswer_answer ..
  | none =>
    rw [handOver_passed refused] at h ⊢
    exact giveOrder_answers hverb h

end

/-! ### What the outputs leave of a slot (R176) -/

/-- A slot for which an answer has been handed over shows ANSWERED (R176). -/
theorem slotState_takeOutputs_answered {slot : SlotId} {outs : List Output}
    (h : outs.any (Output.answers slot) = true) (b : Blocks) (x : Exchange) :
    slotState slot (takeOutputs b outs x).mem = some .answered := by
  induction outs generalizing x with
  | nil => cases h
  | cons o l ih =>
    show slotState slot (takeOutputs b l (takeOutput b.settings.triggerLevel b.clock o x)).mem = some .answered
    cases later : l.any (Output.answers slot) with
    | true => exact ih later _
    | false =>
      rw [(sameSlot_takeOutputs (answers_false later) b _).state]
      rw [List.any_cons, later, Bool.or_false] at h
      cases o with
      | answer s r t v =>
        obtain rfl : s = slot := beq_iff_eq.mp h
        exact slotState_setSlotState s .answered _
      | _ => cases h

/-- Outputs leave EXPECTED POST and LAST FORMATION as they are. -/
theorem takeOutputs_expectedPost (b : Blocks) (outs : List Output) (x : Exchange) :
    (takeOutputs b outs x).expectedPost = x.expectedPost ∧ (takeOutputs b outs x).lastFormation = x.lastFormation := by
  have sample : ∀ (n : Nat) (y : Exchange), (sampleMark n y).expectedPost = y.expectedPost
      ∧ (sampleMark n y).lastFormation = y.lastFormation := by
    intro n y
    unfold sampleMark
    dsimp only
    split <;> exact ⟨rfl, rfl⟩
  have entry : ∀ (level n : Nat) (e : TrailEvent) (t : ArrayTime) (v : Bool) (y : Exchange),
      (writeEntry level n e t v y).expectedPost = y.expectedPost
        ∧ (writeEntry level n e t v y).lastFormation = y.lastFormation := by
    intro level n e t v y
    unfold writeEntry
    dsimp only
    split_ifs <;> exact ⟨rfl, rfl⟩
  have event : ∀ (level n : Nat) (e : TrailEvent) (t : ArrayTime) (v : Bool) (y : Exchange),
      (takeEvent level n e t v y).expectedPost = y.expectedPost
        ∧ (takeEvent level n e t v y).lastFormation = y.lastFormation := by
    intro level n e t v y
    unfold takeEvent
    dsimp only
    split_ifs <;> simp only [entry, sample, and_self]
  unfold takeOutputs
  induction outs generalizing x with
  | nil => exact ⟨rfl, rfl⟩
  | cons o l ih =>
    rw [List.foldl_cons, (ih _).1, (ih _).2]
    cases o with
    | trail e t v =>
      have kept := event b.settings.triggerLevel b.clock.count e t v x
      cases e <;> exact kept
    | _ => exact ⟨rfl, rfl⟩

/-- The end of a command takes the outputs and publishes pages, whatever they are. -/
theorem flush_outputs (old : Part) (b : Blocks) (x : Exchange) : SameButPages (flushedPages old ⟨b, x⟩)
    (takeOutputs { b with out := [] } b.out x) (flush old ⟨b, x⟩).xm := by
  rw [flush_eq]
  exact (publishAll_same _ _ (fun _ h => h) _).2

/-! ### The take (R171, R174 to R176) -/

theorem recordTake_expectedPost (slot : SlotId) (o : Order) (named : Named) (standing : Bool)
    (code : Option AnswerCode) (x : Exchange) :
    (recordTake slot o named standing code x).expectedPost = o.post + 1 := by
  unfold recordTake
  dsimp only
  split <;> rfl

/-- Work in flight shows TAKEN and is held (R176). -/
theorem recordTake_standing (slot : SlotId) (o : Order) (named : Named) (code : Option AnswerCode) (x : Exchange) :
    slotState slot (recordTake slot o named true code x).mem = some .taken
      ∧ ∃ h ∈ (recordTake slot o named true code x).heldList, h.slot = slot ∧ h.order = o := by
  refine ⟨slotState_setSlotState slot .taken _, _, List.mem_append_right _ (List.mem_singleton.mpr rfl), rfl, rfl⟩

/-- TAKEN and held, or ANSWERED and not held. -/
def StandsOrAnswered (slot : SlotId) (o : Order) (x : Exchange) : Prop :=
  (slotState slot x.mem = some .taken ∧ ∃ h ∈ x.heldList, h.slot = slot ∧ h.order = o)
    ∨ (slotState slot x.mem = some .answered ∧ ∀ h ∈ x.heldList, h.slot ≠ slot)

theorem SameButPages.standsOrAnswered {pages : List Page} {slot : SlotId} {o : Order} {x y : Exchange}
    (hs : SameButPages pages x y) (h : StandsOrAnswered slot o x) : StandsOrAnswered slot o y := by
  unfold StandsOrAnswered
  rw [(hs.sameSlot slot).state, hs.heldList]
  exact h

/-- An answer among the outputs ends the order of the slot; without one it stands as it stood (R176). -/
theorem takeOutputs_standsOrAnswered {slot : SlotId} {o : Order} {x : Exchange} (b : Blocks) {outs : List Output}
    (h : outs.any (Output.answers slot) = false →
      slotState slot x.mem = some .taken ∧ ∃ g ∈ x.heldList, g.slot = slot ∧ g.order = o) :
    StandsOrAnswered slot o (takeOutputs b outs x) := by
  unfold StandsOrAnswered
  rw [takeOutputs_heldList]
  cases answered : outs.any (Output.answers slot) with
  | true =>
    refine .inr ⟨slotState_takeOutputs_answered answered b x, fun g hg hslot => ?_⟩
    obtain ⟨e, he, answers⟩ := List.any_eq_true.mp answered
    have kept := List.all_eq_true.mp (List.mem_filter.mp hg).2 e he
    rw [hslot, answers] at kept
    cases kept
  | false =>
    obtain ⟨taken, g, hg, hslot, horder⟩ := h answered
    refine .inl ⟨(sameSlot_takeOutputs (answers_false answered) b x).state.trans taken, g, ?_, hslot, horder⟩
    refine List.mem_filter.mpr ⟨hg, List.all_eq_true.mpr fun e he => ?_⟩
    rw [hslot, answers_false answered e he]
    rfl

theorem takeOrder_standsOrAnswered {slot : SlotId} {o : Order} (hverb : ∀ v, o.body ≠ .unknown v) (p : Part) :
    (takeOrder slot o p).xm.expectedPost = o.post + 1 ∧ StandsOrAnswered slot o (takeOrder slot o p).xm := by
  rw [takeOrder_eq]
  generalize hr : handOver slot o (nameFormation o.formation p.xm.lastFormation) (stagingBytes p.xm.mem) p.blocks = r
  have same := flush_outputs p (settle p.blocks r.1)
    (recordTake slot o (nameFormation o.formation p.xm.lastFormation) r.2 (answeredCode slot r.1.out) p.xm)
  constructor
  · rw [same.1]
    exact (takeOutputs_expectedPost _ _ _).1.trans (recordTake_expectedPost ..)
  · refine same.standsOrAnswered (takeOutputs_standsOrAnswered _ fun unanswered => ?_)
    have standing : r.2 = true := by
      by_contra hstanding
      have answers : HasAnswer slot r.1 := by
        rw [← hr] at hstanding ⊢
        exact handOver_answers hverb (by simpa using hstanding)
      have settled : HasAnswer slot (settle p.blocks r.1) := (Onward.refl _).settle.hasAnswer answers
      exact absurd settled (by rw [HasAnswer, unanswered]; exact Bool.false_ne_true)
    rw [standing]
    exact recordTake_standing ..

/-- Settles O53: an order that does not stand has been answered, and no answer is lost while the blocks settle. -/
theorem aTakenOrderStandsOrIsAnswered : Obligations.ATakenOrderStandsOrIsAnswered := by
  intro c slot o s horder hready
  have taken : command slot o s.part = takeOrder slot o
      ((abandonHeld slot s.part).modXm (Exchange.modMem (placeOrder slot o))) := if_pos hready
  refine ⟨{ s with part := command slot o s.part }, exec_of_orderOf horder s, ?_⟩
  dsimp only
  rw [taken]
  exact takeOrder_standsOrAnswered (orderOf_verb horder) _

end Sys2Proof.Machine
end

section
/-! SUPPORT. The writes of the registers, the orders that are placed and the order of their take (R169, R170, R174,
R175, R194). -/

namespace Sys2Proof.Machine

/-! ### The registers (R169, R170) -/

/-- A write to NUDGE of anything but 1 and 2 is ignored, and so is any write while READY is clear (R169). -/
theorem writeNudge_ignored {v : Word} {p : Part} (h : p.xm.ready = false ∨ (v ≠ 1 ∧ v ≠ 2)) : writeNudge v p = p := by
  unfold writeNudge
  split
  case isFalse => rfl
  case isTrue ready =>
    obtain unready | ⟨h1, h2⟩ := h
    · rw [unready] at ready
      cases ready
    · rw [if_neg h1, if_neg h2]

/-- ATTN is asserted exactly when a cause is set whose MASK bit is set (R170). -/
theorem attn_iff (x : Exchange) :
    x.attn = true ↔ ∃ i, i < 7 ∧ x.cause.getLsbD i = true ∧ x.mask.getLsbD i = true := by
  have meet (i : Nat) : (x.cause &&& x.mask).getLsbD i = true ↔ x.cause.getLsbD i = true ∧ x.mask.getLsbD i = true := by
    rw [BitVec.getLsbD_and, Bool.and_eq_true]
  have clear (i : Nat) : (0 : BitVec 7).getLsbD i = false := BitVec.getLsbD_zero
  rw [Exchange.attn, bne_iff_ne]
  constructor
  · intro asserted
    by_contra none
    refine asserted (BitVec.eq_of_getLsbD_eq fun i hi => ?_)
    rw [clear, ← Bool.not_eq_true, meet]
    exact fun both => none ⟨i, hi, both⟩
  · rintro ⟨i, -, both⟩ none
    have set := (meet i).mpr both
    rw [none, clear] at set
    cases set

/-- Settles O5: each write is one update of its register. -/
theorem aRegisterWriteChangesItsRegisterAlone : Obligations.ARegisterWriteChangesItsRegisterAlone := by
  intro v s
  refine ⟨⟨s.part.xm.cause &&& ~~~(v.setWidth 7), rfl, fun i hi => ?_⟩, ⟨v.setWidth 7, rfl, fun i hi => ?_⟩, rfl,
    fun h => ?_, fun h => ?_, attn_iff s.part.xm⟩
  · simp [hi]
  · simp [hi]
  · show Host.Outcome.next { s with part := writeNudge v s.part } = _
    rw [writeNudge_ignored h]
  · show Host.Outcome.next { s with part := writeNudge 2 s.part } = _
    rw [writeNudge_ignored (.inl h)]

/-! ### The order that is placed (10.4, R175, R194) -/

/-- A verb beyond the table of 10.4 is read as itself. -/
theorem readBody_unknown {v : Word} (h : v = 0 ∨ 18 < v.toNat) (ps : List Byte) : readBody v ps = .unknown v := by
  have outside : v.toNat = 0 ∨ 18 < v.toNat := h.imp_left fun zero => by rw [zero]; rfl
  unfold readBody
  split
  case h_19 => rfl
  all_goals omega

/-- The body that the order taker reads is the one that was written, of whatever verb. -/
theorem readBody_verb_params {body : OrderBody} (h : body.wellFormed = true) :
    readBody body.verb (fit 88 body.params) = body := by
  cases body
  case unknown v =>
    refine readBody_unknown ?_ _
    simpa only [OrderBody.verb, OrderBody.wellFormed, Bool.or_eq_true, beq_iff_eq, decide_eq_true_eq] using h
  all_goals exact readBody_params nofun

/-- The copy of a well-formed order is the order (R175). -/
theorem readOrder_orderBytes_wellFormed {o : Order} (h : o.body.wellFormed = true) : readOrder (orderBytes o) = o := by
  have header : readOrder (orderBytes o)
    = ⟨BitVec.ofNat 16 (fromLow (word16 o.post)), BitVec.ofNat 8 (fromLow [o.formation]),
      BitVec.ofNat 8 (fromLow [o.flags]), BitVec.ofNat 16 (fromLow (word16 o.dishes)),
      BitVec.ofNat 16 (fromLow (word16 o.classes)),
      readBody (BitVec.ofNat 16 (fromLow (word16 o.body.verb))) (fit 88 o.body.params)⟩ := rfl
  rw [header]
  simp only [ofNat_word16, ofNat_byte, readBody_verb_params h]

/-- The bytes of an order stand in its slot behind the STATE word (8.8). -/
theorem readBytes_placeOrder (slot : SlotId) (o : Order) (m : Memory) :
    Memory.readBytes (slotBase slot + 2) 102 (placeOrder slot o m) = orderBytes o := by
  rw [placeOrder, setSlotState, Memory.writeWord, Memory.readBytes_outside _ (by rw [lowBytes_length]; omega)]
  exact orderBytes_length o ▸ Memory.readBytes_writeBytes _ (orderBytes o) m

/-- Settles O55: the fields are read where they were written, and PLACED is written last. -/
theorem theOrderCopiedIsTheOrderPlaced : Obligations.TheOrderCopiedIsTheOrderPlaced := by
  refine ⟨fun o => readOrder_orderBytes_wellFormed, fun slot o m h => ⟨?_, slotState_setSlotState slot .placed _⟩⟩
  rw [orderAt, readBytes_placeOrder, readOrder_orderBytes_wellFormed h]

/-! ### The order of the take (R174) -/

/-- One slot is taken before another: by a smaller key, or by a smaller index where the keys are equal (R174). -/
def TakenBefore (key : SlotId → Nat) (a b : SlotId) : Prop := key a < key b ∨ (key a = key b ∧ a < b)

theorem mem_insertByKey {key : SlotId → Nat} {s t : SlotId} {l : List SlotId} :
    t ∈ insertByKey key s l ↔ t = s ∨ t ∈ l := by
  induction l with
  | nil => simp [insertByKey]
  | cons u us ih =>
    unfold insertByKey
    split
    · exact List.mem_cons
    · rw [List.mem_cons, List.mem_cons, ih]
      exact or_left_comm

/-- A slot of a larger index than all that are in the list goes behind those of an equal key. -/
theorem pairwise_insertByKey {key : SlotId → Nat} {s : SlotId} {l : List SlotId}
    (sorted : l.Pairwise (TakenBefore key)) (above : ∀ t ∈ l, t < s) :
    (insertByKey key s l).Pairwise (TakenBefore key) := by
  induction l with
  | nil => exact List.pairwise_singleton _ s
  | cons t ts ih =>
    obtain ⟨first, rest⟩ := List.pairwise_cons.mp sorted
    unfold insertByKey
    split
    case isTrue smaller =>
      refine List.pairwise_cons.mpr ⟨fun u hu => .inl ?_, sorted⟩
      obtain rfl | hu := List.mem_cons.mp hu
      · exact smaller
      · exact smaller.trans_le ((first u hu).elim Nat.le_of_lt fun same => same.1.le)
    case isFalse behind =>
      refine List.pairwise_cons.mpr ⟨fun u hu => ?_, ih rest fun u hu => above u (List.mem_cons_of_mem _ hu)⟩
      obtain rfl | hu := mem_insertByKey.mp hu
      · exact (Nat.le_of_not_lt behind).lt_or_eq.imp_right fun same => ⟨same, above t List.mem_cons_self⟩
      · exact first u hu

/-- Slots inserted in ascending index stand in the order of their take. -/
theorem foldl_insertByKey {key : SlotId → Nat} {slots l : List SlotId} (ascending : slots.Pairwise (· < ·))
    (sorted : l.Pairwise (TakenBefore key)) (above : ∀ t ∈ l, ∀ s ∈ slots, t < s) :
    (slots.foldl (fun acc s => insertByKey key s acc) l).Pairwise (TakenBefore key)
    ∧ ∀ t, t ∈ slots.foldl (fun acc s => insertByKey key s acc) l ↔ t ∈ slots ∨ t ∈ l := by
  induction slots generalizing l with
  | nil => exact ⟨sorted, by simp⟩
  | cons s rest ih =>
    obtain ⟨first, ascending⟩ := List.pairwise_cons.mp ascending
    obtain ⟨ordered, members⟩ := ih ascending
      (pairwise_insertByKey sorted fun t ht => above t ht s List.mem_cons_self) fun t ht u hu => by
        obtain rfl | ht := mem_insertByKey.mp ht
        · exact first u hu
        · exact above t ht u (List.mem_cons_of_mem _ hu)
    refine ⟨ordered, fun t => (members t).trans ?_⟩
    rw [mem_insertByKey, List.mem_cons, or_left_comm, or_assoc]

/-- Settles O56: the slots are inserted one after the other in ascending index. -/
theorem theSweepTakesInKeyOrder : Obligations.TheSweepTakesInKeyOrder := by
  intro x
  obtain ⟨ordered, members⟩ := foldl_insertByKey (key := takeKey x) (l := [])
    ((List.pairwise_lt_finRange 32).filter (fun s => slotState s x.mem == some .placed && !isHeld x s))
    List.Pairwise.nil nofun
  refine ⟨ordered, fun slot => (members slot).trans ?_⟩
  simp [List.mem_filter, isHeld]

end Sys2Proof.Machine
end

section
/-! SUPPORT. The entries of the trail that are unread (R179, R181). -/

namespace Sys2Proof.Machine

/-- Where the entry stands that was written `k` entries before the last one (10.6, R179). -/
def entryPlace (ws : Word32) (k : Nat) : Nat := 0x3000 + 32 * ((ws.toNat + 2 ^ 32 - 1 - k) % 128)

/-- The entry before the last one stays where it was when one more is written. -/
theorem entryPlace_succ {ws : Word32} {k : Nat} (h : k < 128) : entryPlace (ws + 1) (k + 1) = entryPlace ws k := by
  have next : (ws + 1).toNat = (ws.toNat + 1) % 2 ^ 32 := by rw [BitVec.toNat_add]; rfl
  have := ws.isLt
  unfold entryPlace
  omega

/-- The position that is written next is that of none of the last 127 entries. -/
theorem entryPlace_apart {ws : Word32} {k : Nat} (h : k < 127) :
    entryPlace ws k + 32 ≤ 0x3000 + 32 * (ws.toNat % 128) ∨ 0x3000 + 32 * (ws.toNat % 128) + 32 ≤ entryPlace ws k := by
  have := ws.isLt
  unfold entryPlace
  omega

theorem sampleMark_writeSequence (count : Nat) (x : Exchange) :
    (sampleMark count x).writeSequence = x.writeSequence := by
  unfold sampleMark
  dsimp only
  split <;> rfl

theorem sampleMark_dropped (count : Nat) (x : Exchange) : (sampleMark count x).dropped = x.dropped := by
  unfold sampleMark
  dsimp only
  split <;> rfl

theorem unread_sampleMark (count : Nat) (x : Exchange) : unread (sampleMark count x) = unread x := by
  unfold unread
  rw [sampleMark_mem, sampleMark_writeSequence]

section
variable (level count : Nat) (e : TrailEvent) (time : ArrayTime) (valid : Bool)

/-- An entry written where fewer than 128 are unread leaves the unread ones (R179). -/
theorem readBytes_writeEntry {x : Exchange} {k : Nat} (hk : k < unread x) (room : unread x < 128) :
    (writeEntry level count e time valid x).mem.readBytes (entryPlace x.writeSequence k) 32
      = x.mem.readBytes (entryPlace x.writeSequence k) 32 := by
  rw [writeEntry_mem, Memory.readBytes_outside]
  rw [entryBytes_length]
  exact entryPlace_apart (by omega)

/-- The entry is what then stands at its position. -/
theorem readBytes_writeEntry_self (x : Exchange) :
    (writeEntry level count e time valid x).mem.readBytes (0x3000 + 32 * (x.writeSequence.toNat % 128)) 32
      = entryBytes x.writeSequence e time valid := by
  rw [writeEntry_mem]
  have written := Memory.readBytes_writeBytes (0x3000 + 32 * (x.writeSequence.toNat % 128))
    (entryBytes x.writeSequence e time valid) x.mem
  rwa [entryBytes_length] at written

/-- Where entries are unread and there is room, one more is unread after an entry (R179). -/
theorem unread_writeEntry {x : Exchange} (pending : 0 < unread x) (room : unread x < 128) :
    unread (writeEntry level count e time valid x) = unread x + 1 := by
  have mark : (writeEntry level count e time valid x).mem.readWord 0x000C = x.mem.readWord 0x000C := by
    rw [writeEntry_mem, Memory.readWord_outside]
    omega
  unfold unread at *
  rw [mark, writeEntry_writeSequence]
  have next : (x.writeSequence + 1).setWidth 16 = x.writeSequence.setWidth 16 + 1 :=
    BitVec.setWidth_add _ _ (by decide)
  rw [next]
  generalize x.writeSequence.setWidth 16 = w, x.mem.readWord 0x000C = r at *
  dsimp only at *
  split_ifs at * <;> bv_omega

/-- No event changes an unread entry: it is lost, or written behind them, or after a gap entry (R179). -/
theorem takeEvent_keeps_unread {x : Exchange} {k : Nat} (hk : k < unread x) :
    (takeEvent level count e time valid x).mem.readBytes (entryPlace x.writeSequence k) 32
      = x.mem.readBytes (entryPlace x.writeSequence k) 32 := by
  have sampled := unread_sampleMark count x
  have sequence := sampleMark_writeSequence count x
  rw [← sampled] at hk
  rw [← sequence, ← sampleMark_mem count x]
  unfold takeEvent
  generalize sampleMark count x = x0 at *
  dsimp only
  split
  case isTrue => rfl
  case isFalse room =>
    have room : unread x0 < 128 := Nat.lt_of_not_le room
    split
    case isTrue => exact readBytes_writeEntry level count e time valid hk room
    case isFalse =>
      have gap := readBytes_writeEntry level count (.trailGap x0.dropped) time valid hk room
      split
      case isTrue => exact gap
      case isFalse more =>
        have more : unread (writeEntry level count (.trailGap x0.dropped) time valid x0) < 128 := Nat.lt_of_not_le more
        have one := unread_writeEntry level count (.trailGap x0.dropped) time valid (Nat.zero_lt_of_lt hk) room
        refine Eq.trans ?_ gap
        have sequence1 := writeEntry_writeSequence level count (.trailGap x0.dropped) time valid x0
        rw [← entryPlace_succ (by omega), ← sequence1]
        exact readBytes_writeEntry level count e time valid
          (x := { writeEntry level count (.trailGap x0.dropped) time valid x0 with dropped := 0 })
          (one ▸ Nat.succ_lt_succ hk) more

/-- With 128 entries unread an event is lost (R179). -/
theorem takeEvent_full {x : Exchange} (full : unread x = 128) : takeEvent level count e time valid x
    = { sampleMark count x with dropped := min 65535 (x.dropped + 1) } := by
  unfold takeEvent
  dsimp only
  rw [if_pos (by rw [unread_sampleMark, full]), sampleMark_dropped]

/-- With room and nothing lost an event is one entry (R179). -/
theorem takeEvent_room {x : Exchange} (room : unread x < 128) (lossless : x.dropped = 0) :
    takeEvent level count e time valid x = writeEntry level count e time valid (sampleMark count x) := by
  unfold takeEvent
  dsimp only
  rw [unread_sampleMark, if_neg (Nat.not_le_of_lt room), sampleMark_dropped, if_pos lossless]

end

/-- Settles O57: an entry goes to the position of a read one, and a second behind it only where there is room. -/
theorem theTrailKeepsItsUnreadEntries : Obligations.TheTrailKeepsItsUnreadEntries := by
  intro level count e time valid x
  refine ⟨fun k hk => takeEvent_keeps_unread level count e time valid hk, fun full => ?_, fun room lossless => ?_⟩
  · rw [takeEvent_full level count e time valid full]
    exact ⟨sampleMark_mem count x, sampleMark_writeSequence count x, rfl⟩
  · have written := readBytes_writeEntry_self level count e time valid (sampleMark count x)
    rw [sampleMark_writeSequence] at written
    rw [takeEvent_room level count e time valid room lossless]
    refine ⟨?_, ?_, written⟩
    · rw [writeEntry_writeSequence, sampleMark_writeSequence]
    · rw [writeEntry_dropped, sampleMark_dropped, lossless]

end Sys2Proof.Machine
end

section
/-! SUPPORT. The periodic events of the exchange side: the pulse, the linger timer and the presence check (R168, R181,
R182). -/

namespace Sys2Proof.Machine

/-- A command that sees `seen` first acts on the part that it then finds. -/
theorem actSeen_of_see {seen : List Outside} {s : State} {p : Part} (hsee : see seen s.part = some p)
    (f : Part → Part) : actSeen seen f s = .next { s with part := f p } := by
  rw [actSeen, hsee]
  rfl

theorem whileReady_ready {p : Part} (ready : p.xm.ready = true) (f : Part → Part) : whileReady f p = f p := if_pos ready

/-! ### The pulse (R168, R181) -/

/-- The pulse event before the common page is published: the array time is shown and the mark sampled. -/
def pulsed (p : Part) : Part :=
  let b := p.blocks.runTo p.xm.pulseDue
  ⟨b, sampleMark b.clock.count { p.xm with
    pulse := p.xm.pulse + 1, shownTime := b.clock.time, shownValid := b.clock.valid
    pulseDue := b.clock.count + 100 }⟩

theorem pulse_eq (p : Part) : pulse p = run (Blocks.publish .common) (pulsed p) := rfl

/-- A page that is marked is published, and shows its block (R168). -/
theorem shows_flush {old p : Part} {pg : Page} (h : pg ∈ markedPages p.blocks.out) : Shows (flush old p) pg := by
  rw [flush_eq]
  exact (publishAll_page pg _ _).1 (List.mem_append_left _ (List.mem_append_left _ h))

/-- A publication brings nothing else about. -/
theorem settle_publish {b : Blocks} (quiet : b.Quiet) (pg : Page) :
    settle b (b.publish pg) = { b with out := [.page pg] } := by
  have still := quiet.still none
  obtain ⟨inbox, out, -⟩ := quiet
  have published : b.publish pg = { b with out := [.page pg] } := by rw [Blocks.publish, out, List.nil_append]
  rw [published]
  exact settle_outs b still inbox _

theorem run_publish_leaves {p : Part} (quiet : p.blocks.Quiet) (pg : Page) :
    (run (Blocks.publish pg) p).blocks = p.blocks ∧ SameButPages [pg] p.xm (run (Blocks.publish pg) p).xm := by
  refine run_leaves (settle_publish quiet pg) quiet.2.1 (by simp [markedPages]) (fun q _ => Untouched.refl q _) (.inr ?_)
  exact commonPublications_zero rfl rfl rfl rfl

theorem run_publish_shows {p : Part} (quiet : p.blocks.Quiet) (pg : Page) : Shows (run (Blocks.publish pg) p) pg := by
  rw [run, settle_publish quiet pg]
  exact shows_flush (by simp [markedPages])

/-! ### The linger timer (R181) -/

/-- What the expiry of the linger timer makes of the mark and the timer (R181). -/
theorem lingerExpiry_eq (count : Nat) (x : Exchange) : lingerExpiry count x =
    if x.mem.readWord 0x000C ≠ x.sampledRead then
      { x with sampledRead := x.mem.readWord 0x000C, lingerSpent := false
               linger := if unread x = 0 then none else some (count + 500) }
    else if 0 < unread x then { x with linger := none, lingerSpent := true, cause := x.cause ||| 2 }
    else { x with linger := none } := by
  unfold lingerExpiry sampleMark
  dsimp only
  by_cases moved : x.mem.readWord 0x000C = x.sampledRead
  · rw [if_pos moved, if_neg (not_not_intro moved)]
    by_cases pending : 0 < unread x
    · rw [if_pos ⟨moved, pending⟩, if_pos pending]
      rfl
    · rw [if_neg fun both => pending both.2, if_neg pending]
  · rw [if_neg moved, if_pos moved, if_neg fun both => moved both.1]
    rfl

theorem onLinger_eq {p : Part} {n : Nat} (h : p.xm.linger = some n) :
    onLinger p = ⟨p.blocks.runTo n, lingerExpiry (p.blocks.runTo n).clock.count p.xm⟩ := by
  rw [onLinger, h]
  rfl

/-- Settles O8: the pulse is one publication of the common page, and the linger timer looks at the mark once. -/
theorem thePulseAndTheLingerWatchTheReadMark : Obligations.ThePulseAndTheLingerWatchTheReadMark := by
  refine ⟨fun seen s p hsee ready quiet => ?_, fun seen s p n hsee running => ?_⟩
  · have quiet' : (pulsed p).blocks.Quiet := quiet
    have next : exec (.pulseEvent seen) s = .next { s with part := run (Blocks.publish .common) (pulsed p) } := by
      rw [← pulse_eq, ← whileReady_ready ready pulse]
      exact actSeen_of_see hsee _
    obtain ⟨blocks, same⟩ := run_publish_leaves quiet' .common
    refine ⟨⟨_, next, rfl, blocks, same⟩, fun t ht => ?_⟩
    rw [next] at ht
    cases ht
    exact run_publish_shows quiet' .common
  · have next : exec (.lingerTimerExpiry seen) s = .next { s with part := onLinger p } := actSeen_of_see hsee _
    rw [next, onLinger_eq running, lingerExpiry_eq]

/-! ### The presence check (R182) -/

/-- For how long the word has stood still at the check (R182). -/
def unchangedAfter (w : Word) (b : Blocks) : Nat := if w ≠ b.presence.last then 0 else b.presence.unchanged + 1000

/-- The attended state that the check finds (R182). -/
def attendedAfter (w : Word) (b : Blocks) : Attended :=
  if w ≠ b.presence.last then .attended
  else if 1000 * b.settings.presenceTimeout ≤ unchangedAfter w b then .unattended else b.presence.attended

/-- What the check hands on: PRESENCE and its cause at a change of the attended state (R182). -/
def presenceOutputs (new : Attended) (w : Word) (b : Blocks) : List Output :=
  if new = b.presence.attended then [] else [.trail (.presence new w) b.clock.time b.clock.valid, .cause .presence]

theorem checkPresence_eq {b : Blocks} (out : b.out = []) (w : Word) : checkPresence w b =
    { b with presence := ⟨attendedAfter w b, w, unchangedAfter w b⟩
             out := presenceOutputs (attendedAfter w b) w b } := by
  unfold checkPresence
  by_cases moved : w = b.presence.last
  · rw [if_neg (not_not_intro moved)]
    have unchanged : unchangedAfter w b = b.presence.unchanged + 1000 := if_neg (not_not_intro moved)
    have found : attendedAfter w b = if 1000 * b.settings.presenceTimeout ≤ b.presence.unchanged + 1000
        then .unattended else b.presence.attended := by
      rw [attendedAfter, if_neg (not_not_intro moved), unchanged]
    rw [found, unchanged, moved]
    by_cases late : 1000 * b.settings.presenceTimeout ≤ b.presence.unchanged + 1000
    · cases old : b.presence.attended <;> simp [late, old, presenceOutputs, changePresence, Blocks.trail, Blocks.cause, out]
    · simp [late, presenceOutputs, out]
  · rw [if_pos moved]
    have found : attendedAfter w b = .attended := if_pos moved
    have unchanged : unchangedAfter w b = 0 := if_pos moved
    rw [found, unchanged]
    cases old : b.presence.attended <;> simp [old, presenceOutputs, changePresence, Blocks.trail, Blocks.cause, out]

/-- No page but the common page shows the presence (R168). -/
theorem untouched_presence (pg : Page) (b : Blocks) (x : Presence) : Untouched pg b { b with presence := x } := by
  intro y z
  rw [← pageTouched_self pg ⟨b, y⟩]
  cases pg <;> rfl

theorem settle_checkPresence {b : Blocks} (still : Still none b) (inbox : b.inbox = []) (out : b.out = []) (w : Word) :
    settle b (checkPresence w b) = { { b with presence := ⟨attendedAfter w b, w, unchangedAfter w b⟩ } with
      out := presenceOutputs (attendedAfter w b) w b } := by
  rw [checkPresence_eq out]
  exact settle_outs (b := { b with presence := ⟨attendedAfter w b, w, unchangedAfter w b⟩ }) b
    (still.of_records rfl rfl fun _ => rfl) inbox _

/-- Settles O9: the check changes the presence, and what it hands on brings nothing else about. -/
theorem thePresenceCheckWatchesTheWord : Obligations.ThePresenceCheckWatchesTheWord := by
  intro seen s p hsee ready quiet
  have still : Still none (p.blocks.runTo p.xm.presenceDue) := (quiet.still none).runTo _
  obtain ⟨inbox, out, -⟩ := quiet
  let b := p.blocks.runTo p.xm.presenceDue
  let w := p.xm.mem.readWord 0x0004
  let q : Part := ⟨b, { p.xm with presenceDue := b.clock.count + 1000 }⟩
  have next : exec (.presenceCheck seen) s = .next { s with part := run (checkPresence w) q } := by
    show _ = Host.Outcome.next { s with part := onPresence p }
    rw [← whileReady_ready ready onPresence]
    exact actSeen_of_see hsee _
  obtain ⟨blocks, same⟩ := run_leaves (F := checkPresence w) (p := q) (pages := [.common])
    (settle_checkPresence still inbox out w) out
    (fun pg marked => by
      unfold presenceOutputs at marked
      split at marked <;> cases marked)
    (fun pg _ => untouched_presence pg b _) (.inl (List.mem_singleton.mpr rfl))
  exact ⟨_, next, rfl, blocks, same⟩

end Sys2Proof.Machine
end

section
/-! SUPPORT. The link reset (R69, R119, R145, R166, R167, R169, R183). -/

namespace Sys2Proof.Machine

/-! ### The blocks (R69, R119, R145) -/

theorem setMembers_none {f : FormationId} {b : Blocks} (h : (b.form f).members = 0) : setMembers f 0 b = b := by
  have empty : (0 &&& ~~~(0 : DishSet)).toList = [] := by decide
  have none : (0 : DishSet).toList = [] := by decide
  unfold setMembers
  dsimp only
  rw [h, empty, none]
  refine Blocks.modForm_same ?_
  show { b.form f with members := 0 } = b.form f
  rw [← h]

/-- A link reset leaves a formation that is not used. -/
theorem resetFormation_unused {f : FormationId} {b : Blocks} (h : b.form f = unusedFormation) : resetFormation f b = b := by
  have pending : b.modForm f (fun m => { m with pendingWork := none }) = b :=
    Blocks.modForm_same (by rw [h]; rfl)
  have idle : ¬ (b.form f).state.working = true := by rw [h]; decide
  have members : (b.form f).members.toList = [] := by rw [h]; decide
  have disbanding : ((b.modForm f (fun m => { m with disbandPending := true })).form f).members = 0 := by
    rw [Blocks.modForm_form_self, h]
    rfl
  unfold resetFormation
  dsimp only
  rw [pending, if_neg idle, members, overDishes, List.foldl_nil, setMembers_none disbanding, emptyQueue,
    Blocks.modForm_modForm, if_neg, Blocks.modForm_modForm]
  · exact Blocks.modForm_same h.symm
  · rw [Blocks.modForm_form_self, h]
    decide

theorem resetFormations_unused {b : Blocks} (h : ∀ f, b.form f = unusedFormation) : resetFormations b = b := by
  unfold resetFormations overFormations
  exact List.foldl_fixed' (f := fun x f => resetFormation f x) (fun f => resetFormation_unused (h f)) allFormations

theorem dropLockSlots_none {b : Blocks} (h : ∀ (k : PoolId) (r : LockRecord), b.pool[k] = some r → r.slot = none) :
    dropLockSlots b = b := by
  have same : b.pool.map (fun r => r.map (fun x : LockRecord => { x with slot := none })) = b.pool := by
    refine Vector.ext fun i hi => ?_
    rw [Vector.getElem_map]
    cases record : b.pool[i] with
    | none => rfl
    | some r =>
      have unslotted := h ⟨i, hi⟩ r record
      rw [Option.map_some, ← unslotted]
  rw [dropLockSlots, same]

/-- With no order held, no formation used and no pending lock, the link reset finds nothing to end in the blocks. -/
theorem resetOrders_idle {b : Blocks} (out : b.out = []) (standing : b.wind.standing = [])
    (forms : ∀ f, b.form f = unusedFormation)
    (pool : ∀ (k : PoolId) (r : LockRecord), b.pool[k] = some r → r.slot = none) : resetOrders [] b = b := by
  have stows : b.modWind (fun w => { w with standing := [] }) = b := by
    show { b with wind := { b.wind with standing := [] } } = b
    rw [← standing]
  unfold resetOrders
  dsimp only
  rw [List.foldl_nil, resetFormations_unused forms, stows, dropLockSlots_none pool, out, List.filter_nil, ← out]

/-! ### The exchange side (R183) -/

/-- The registers, the lists and the counts that the link reset clears; it leaves READY and the EDITIONs (R183). -/
theorem resetExchange_eq (x : Exchange) : resetExchange x = { x with
    mem := (resetExchange x).mem
    heldList := [], expectedPost := 0, lastFormation := none, answerMarks := 0
    writeSequence := 0, dropped := 0, linger := none, sampledRead := 0, lingerSpent := false
    cause := 0, mask := 0 } := by
  unfold resetExchange
  rfl

theorem resetExchange_ready (x : Exchange) : (resetExchange x).ready = x.ready := by
  rw [resetExchange_eq]

/-- Every slot is EMPTY after the link reset (R183). -/
theorem slotState_resetExchange (slot : SlotId) (x : Exchange) : slotState slot (resetExchange x).mem = some .empty := by
  have emptied : ∀ (l : List SlotId) (m : Memory), slot ∈ l ∨ slotState slot m = some .empty →
      slotState slot (l.foldl (fun y s => setSlotState s .empty y) m) = some .empty := by
    intro l
    induction l with
    | nil => exact fun m h => h.resolve_left List.not_mem_nil
    | cons s l ih =>
      intro m h
      refine ih _ ?_
      by_cases hs : s = slot
      · exact .inr (hs ▸ slotState_setSlotState s .empty m)
      · rw [slotState_setSlotState_other hs]
        exact h.imp_left fun h => (List.mem_cons.mp h).resolve_left (Ne.symm hs)
  have apart : 0x000C + (zeros 4).length ≤ slotBase slot := by
    show 16 ≤ slotBase slot
    unfold slotBase
    omega
  rw [← emptied allSlots x.mem (.inl (mem_allSlots slot))]
  unfold slotState
  rw [resetExchange, Memory.readWord_outside _ (.inr apart)]

/-- The read sequence is 0 after the link reset (R183). -/
theorem readWord_resetExchange (x : Exchange) : (resetExchange x).mem.readWord 0x000C = 0 := by
  have low : ∀ m : Memory, Memory.readBytes 0x000C 2 (m.writeBytes 0x000C (zeros 4)) = zeros 2 := by
    intro m
    have written : Memory.readBytes 0x000C 4 (m.writeBytes 0x000C (zeros 4)) = zeros 4 :=
      Memory.readBytes_writeBytes 0x000C (zeros 4) m
    exact congrArg (List.take 2) written
  rw [resetExchange, Memory.readWord, low]
  rfl

/-! ### The end of the link reset (R167, R183) -/

/-- Pages that are marked for publication leave the exchange side to the publications. -/
theorem takeOutputs_pages (b : Blocks) (pages : List Page) (x : Exchange) :
    takeOutputs b (pages.map Output.page) x = x := by
  unfold takeOutputs
  rw [List.foldl_map]
  exact List.foldl_fixed' (f := fun y pg => takeOutput b.settings.triggerLevel b.clock (.page pg) y)
    (fun _ => rfl) pages

theorem markedPages_pages (pages : List Page) : markedPages (pages.map Output.page) = pages := by
  unfold markedPages
  rw [List.filterMap_map]
  exact List.filterMap_some

/-- A part whose blocks have only marked every page publishes each of them once (R167). -/
theorem flushedPages_all {p : Part} {x : Exchange} (ready : x.ready = p.xm.ready) :
    flushedPages p ⟨{ p.blocks with out := allPages.map Output.page }, x⟩ = allPages := by
  have marked : ({ p.blocks with out := allPages.map Output.page } : Blocks).out.all Output.noEntry = true := by
    rw [List.all_map, List.all_eq_true]
    exact fun _ _ => rfl
  have untouched : ∀ pg ∈ allPages, ¬ pageTouched pg p
      (beforePages ⟨{ p.blocks with out := allPages.map Output.page }, x⟩) = true := by
    intro pg _
    rw [beforePages_eq, Bool.not_eq_true]
    exact untouched_out pg p.blocks [] _ _
  unfold flushedPages
  rw [markedPages_pages, List.filter_eq_nil_iff.mpr untouched, commonPublications_zero marked ready rfl rfl,
    List.append_nil, List.replicate_zero, List.append_nil]

theorem flush_all {p : Part} {x : Exchange} (out : p.blocks.out = []) (ready : x.ready = p.xm.ready) :
    flush p ⟨{ p.blocks with out := allPages.map Output.page }, x⟩
      = allPages.foldl (fun q pg => publish pg q) ⟨p.blocks, x⟩ := by
  rw [flush_eq, flushedPages_all ready, beforePages_eq, takeOutputs_pages]
  rw [Blocks.without_out out]

/-- The link reset of a part in which nothing is held, used or waiting publishes every page once, and that is all that
it does beyond its writes (R183). -/
theorem linkReset_idle {p : Part} (quiet : p.blocks.Quiet) (held : p.xm.heldList = [])
    (forms : ∀ f, p.blocks.form f = unusedFormation)
    (pool : ∀ (k : PoolId) (r : LockRecord), p.blocks.pool[k] = some r → r.slot = none) :
    linkReset p = allPages.foldl (fun q pg => publish pg q) ⟨p.blocks, resetExchange p.xm⟩ := by
  have still := quiet.still none
  obtain ⟨inbox, out, standing, -⟩ := quiet
  unfold linkReset
  dsimp only
  rw [held, resetOrders_idle out standing forms pool, out, List.nil_append, settle_outs p.blocks still inbox]
  rw [flush_all out (resetExchange_ready p.xm)]

/-- What the link reset of any part leaves: the lists, MASK and the words of the site computer (R166, R169, R183). -/
theorem linkReset_leaves (p : Part) : (linkReset p).xm.heldList = [] ∧ (linkReset p).xm.expectedPost = 0
    ∧ (linkReset p).xm.lastFormation = none ∧ (linkReset p).xm.mask = 0 ∧ (linkReset p).xm.ready = p.xm.ready
    ∧ (linkReset p).blocks.wind.standing = [] := by
  unfold linkReset
  dsimp only
  generalize hfresh : ({ resetOrders p.xm.heldList p.blocks with
    out := (resetOrders p.xm.heldList p.blocks).out ++ allPages.map Output.page } : Blocks) = fresh
  have standing : fresh.wind.standing = [] := by
    rw [← hfresh]
    rfl
  obtain ⟨-, settled⟩ := (Onward.refl fresh).settle (old := p.blocks)
  generalize settle p.blocks fresh = b at settled
  obtain ⟨same, -⟩ := flush_outputs p b (resetExchange p.xm)
  obtain ⟨post, formation⟩ := takeOutputs_expectedPost { b with out := [] } b.out (resetExchange p.xm)
  obtain ⟨-, mask⟩ := causeRule.outputs { b with out := [] } b.out (resetExchange p.xm)
  have ready := (takeOutputs_ready { b with out := [] } b.out (resetExchange p.xm)).trans (resetExchange_ready p.xm)
  rw [flush_blocks, same]
  dsimp only
  rw [takeOutputs_heldList, post, formation, mask, ready, resetExchange_eq]
  exact ⟨rfl, rfl, rfl, rfl, rfl, settled standing⟩

/-- What the link reset of a part in which nothing is held, used or waiting leaves besides (R166, R167, R183). -/
theorem linkReset_idle_leaves {p : Part} (quiet : p.blocks.Quiet) (held : p.xm.heldList = [])
    (forms : ∀ f, p.blocks.form f = unusedFormation)
    (pool : ∀ (k : PoolId) (r : LockRecord), p.blocks.pool[k] = some r → r.slot = none) :
    (linkReset p).blocks = p.blocks ∧ SameButPages allPages (resetExchange p.xm) (linkReset p).xm
    ∧ ∀ pg, (linkReset p).xm.editions.get pg = p.xm.editions.get pg + 2 := by
  rw [linkReset_idle quiet held forms pool]
  obtain ⟨blocks, same⟩ := publishAll_same allPages allPages (fun _ h => h) ⟨p.blocks, resetExchange p.xm⟩
  refine ⟨blocks, same, fun pg => (publishAll_edition (mem_allPages pg) allPages_nodup _).trans ?_⟩
  rw [resetExchange_eq]

/-- Settles O7: the blocks hand on no more than the pages, and each page is published once. -/
theorem aLinkResetEmptiesTheSlate : Obligations.ALinkResetEmptiesTheSlate := by
  intro s ready
  have next : exec .nudgeLinkReset s = .next { s with part := linkReset s.part } := by
    show Host.Outcome.next { s with part := writeNudge 2 s.part } = _
    rw [writeNudge, if_pos ready, if_neg (by decide), if_pos rfl]
  obtain ⟨held, post, formation, mask, kept, standing⟩ := linkReset_leaves s.part
  have site := linkReset_sameSiteArea s.part
  have idle := linkReset_idle_leaves (p := s.part)
  generalize linkReset s.part = q at *
  refine ⟨{ s with part := q }, next, rfl, held, post, formation, mask, kept.trans ready, standing, site, ?_⟩
  intro quiet none forms pool
  obtain ⟨blocks, same, edition⟩ := idle quiet none forms pool
  have slots := fun slot => (same.sameSlot slot).state.trans (slotState_resetExchange slot s.part.xm)
  obtain ⟨fields, -, bytes⟩ := same
  have word : q.xm.mem.readWord 0x000C = 0 := by
    rw [← readWord_resetExchange s.part.xm]
    unfold Memory.readWord
    rw [Memory.readBytes_congr fun a h1 h2 => bytes a fun pg _ => (unpublished (by omega)).1 pg]
  refine ⟨blocks, slots, ?_, ?_, ?_, ?_, word, ?_, edition⟩
  all_goals
    dsimp only
    rw [fields, resetExchange_eq]

end Sys2Proof.Machine
end

section
/-! SUPPORT. The step, and the write of the NV RECORD: its begin, its ends and the loss of power (R186, R189 to
R191). -/

namespace Sys2Proof.Machine

/-! ### A step (R191) -/

theorem step_idle {s : State} (h : s.pending = []) : step s = .next (idle s) := by rw [step, h]

theorem step_cons {s : State} {c : Instr} {rest : List Instr} (h : s.pending = c :: rest) :
    step s = exec c { s with pending := rest } := by rw [step, h]

/-- Settles O1: by the two cases of the queue. -/
theorem aStepTakesTheCommandInFront : Obligations.AStepTakesTheCommandInFront :=
  ⟨fun c rest s => step_cons (s := { s with pending := c :: rest }) rfl, fun p => step_idle (s := ⟨p, []⟩) rfl⟩

/-! ### The loss of power (R190) -/

theorem powerLoss_idle {p : Part} (h : p.blocks.site.commit = none) :
    p.powerLoss = { p with xm := { p.xm with ready := false } } := by
  simp [Part.powerLoss, Part.modBlocks, Part.modXm, h]

theorem powerLoss_writing {p : Part} (h : p.blocks.site.commit ≠ none) :
    p.powerLoss = ⟨{ p.blocks with site := p.blocks.site.spoil }, { p.xm with ready := false }⟩ := by
  simp [Part.powerLoss, Part.modBlocks, Part.modXm, Option.isSome_iff_ne_none.mpr h]

/-- Settles O4: by whether a write is in flight. -/
theorem powerLossEndsAWriteAndClearsReady : Obligations.PowerLossEndsAWriteAndClearsReady := by
  intro s
  show Host.Outcome.next { s with part := s.part.powerLoss } = _
  by_cases writing : s.part.blocks.site.commit = none
  · rw [powerLoss_idle writing, if_pos writing]
  · rw [powerLoss_writing writing, if_neg writing]
    rfl

/-! ### The settings state at the end of a write (R186, R189) -/

/-- The end of a write hands on its entry and its cause, a change or none (R186). -/
theorem moveSettings_always (ev : SettingsEvent) (new : SettingsState) (fail : Option CommitFailure) (b : Blocks) :
    moveSettings ev new fail true b = { b with
      site := { b.site with state := new }
      out := b.out ++ [.trail (.settings ev b.site.state new b.site.crc fail) b.clock.time b.clock.valid,
        .cause .settings] } := by
  simp [moveSettings, Blocks.trail, Blocks.cause]

theorem failedState_eq (k : SettingsState) : failedState k = if k = .provisional then .provisional else .adopted := by
  cases k <;> rfl

/-- The answer of a write that still has its order (R189, R190). -/
def commitAnswers (slot : Option SlotId) (a : Answer) (t : Clock) : List Output :=
  match slot with
  | some s => [.answer s a t.time t.valid]
  | none => []

theorem answerCommit_eq (slot : Option SlotId) (a : Answer) (b : Blocks) :
    answerCommit slot a b = { b with out := b.out ++ commitAnswers slot a b.clock } := by
  cases slot with
  | none => simp [answerCommit, commitAnswers]
  | some s => rfl

theorem markedPages_commitAnswers (slot : Option SlotId) (a : Answer) (t : Clock) :
    markedPages (commitAnswers slot a t) = [] := by
  cases slot <;> rfl

/-- What the end of a write hands on (R186, R189). -/
def commitOutputs (c : Commit) (ev : SettingsEvent) (new : SettingsState) (fail : Option CommitFailure) (a : Answer)
    (b : Blocks) : List Output :=
  [.trail (.settings ev b.site.state new b.site.crc fail) b.clock.time b.clock.valid, .cause .settings]
    ++ commitAnswers c.slot a b.clock

theorem markedPages_commitOutputs (c : Commit) (ev : SettingsEvent) (new : SettingsState)
    (fail : Option CommitFailure) (a : Answer) (b : Blocks) : markedPages (commitOutputs c ev new fail a b) = [] := by
  rw [commitOutputs, markedPages_append, markedPages_commitAnswers]
  rfl

/-! ### The ends of a write (R189) -/

@[simp] theorem SiteStore.spoil_working (x : SiteStore) : x.spoil.working = x.working := by simp only [SiteStore.spoil]

@[simp] theorem SiteStore.spoil_crc (x : SiteStore) : x.spoil.crc = x.crc := by simp only [SiteStore.spoil]

@[simp] theorem SiteStore.spoil_state (x : SiteStore) : x.spoil.state = x.state := by simp only [SiteStore.spoil]

theorem commitDone_eq (c : Commit) (b : Blocks) : commitDone c b = { b with
    site := { b.site with commit := none, state := .stored, nv := c.snapshot }
    out := b.out ++ commitOutputs c .commitDone .stored none ⟨.done, noNotes, 0, c.snapshot.drop 1022⟩ b } := by
  unfold commitDone
  dsimp only
  rw [moveSettings_always, answerCommit_eq, commitOutputs, ← List.append_assoc]

/-- The site store after a failed write (R186, R189). -/
def SiteStore.failed (x : SiteStore) : SiteStore := { x.spoil with state := failedState x.state }

theorem SiteStore.failed_working (x : SiteStore) : x.failed.working = x.working := by
  simp only [SiteStore.failed, SiteStore.spoil_working]

theorem SiteStore.failed_eq (x : SiteStore) : x.failed = { x with
    commit := none, state := if x.state = .provisional then .provisional else .adopted
    failures := x.failures + 1, nv := (List.range 1024).map (Config.freeNvByte x.failures) } := by
  simp only [SiteStore.failed, SiteStore.spoil, freeRecord, failedState_eq]

/-- What a failed write hands on (R186, R189). -/
def failureOutputs (c : Commit) (k : CommitFailure) (b : Blocks) : List Output :=
  commitOutputs c .commitFailed (failedState b.site.state) (some k)
    ⟨.endedFault, noNotes, if k = .verify then 7 else 8, []⟩ b

theorem commitFailed_eq (c : Commit) (k : CommitFailure) (b : Blocks) :
    commitFailed c k b = { b with site := b.site.failed, out := b.out ++ failureOutputs c k b } := by
  unfold commitFailed
  dsimp only
  rw [moveSettings_always, answerCommit_eq, failureOutputs, commitOutputs, ← List.append_assoc]
  simp only [SiteStore.failed, SiteStore.spoil_crc, SiteStore.spoil_state]

section

variable {b : Blocks} {c : Commit} {e : NvCompletion}

/-- The completion of another write is ignored (R189). -/
theorem onCompletion_other (hw : e.write ≠ b.site.failures) : onCompletion e b = b := by
  unfold onCompletion
  cases b.site.commit with
  | none => rfl
  | some c => exact if_pos hw

theorem onCompletion_verified (hc : b.site.commit = some c) (hw : e.write = b.site.failures)
    (hr : e.readBack = c.snapshot) : onCompletion e b = commitDone c b := by
  unfold onCompletion
  rw [hc]
  dsimp only
  rw [if_neg (not_not_intro hw), if_pos hr]

theorem onCompletion_differs (hc : b.site.commit = some c) (hw : e.write = b.site.failures)
    (hr : e.readBack ≠ c.snapshot) : onCompletion e b = commitFailed c .verify b := by
  unfold onCompletion
  rw [hc]
  dsimp only
  rw [if_neg (not_not_intro hw), if_neg hr]

theorem onCommitTimer_writing (hc : b.site.commit = some c) :
    onCommitTimer b = commitFailed c .timeout (b.runTo c.timer) := by
  unfold onCommitTimer
  rw [hc]

theorem takeCommit_idle (slot : SlotId) (hc : b.site.commit = none) : takeCommit slot b =
    ({ b with site := { b.site with
      commit := some ⟨siteRecord b.site.working, some slot, b.clock.count + 1000⟩ } }, true) := by
  unfold takeCommit
  rw [hc]

end

/-- A command that changes the site store but for the working settings, maybe after some time, and hands on what
marks no page, leaves the common page alone to be published (R168). -/
theorem actBlocks_site {f : Blocks → Blocks} {s : State} {t : Clock} {x : SiteStore} {outs : List Output}
    (hq : s.part.blocks.Quiet) (hf : f s.part.blocks = { s.part.blocks with clock := t, site := x, out := outs })
    (hx : x.working = s.part.blocks.site.working) (hm : markedPages outs = []) :
    Leaves (actBlocks f s) s { s.part.blocks with clock := t, site := x } s.part.xm outs [.common] := by
  have still : Still none { s.part.blocks with clock := t, site := x } :=
    (hq.still none).of_records rfl rfl fun _ => rfl
  obtain ⟨inbox, out, -⟩ := hq
  refine actBlocks_leaves_untouched ?_ out (by simp [hm])
    (fun pg _ _ _ => pageTouched_of_shown pg (fun _ => rfl) hx rfl) (.inl (List.mem_singleton.mpr rfl))
  rw [hf]
  exact settle_outs (b := { s.part.blocks with clock := t, site := x }) _ still inbox outs

/-- A command by which the write in flight is verified (R189). -/
theorem actBlocks_writeDone {f : Blocks → Blocks} {s : State} {c : Commit} (hq : s.part.blocks.Quiet)
    (hf : f s.part.blocks = commitDone c s.part.blocks) :
    Leaves (actBlocks f s) s
      { s.part.blocks with site := { s.part.blocks.site with commit := none, state := .stored, nv := c.snapshot } }
      s.part.xm (commitOutputs c .commitDone .stored none ⟨.done, noNotes, 0, c.snapshot.drop 1022⟩ s.part.blocks)
      [.common] := by
  have ⟨_, out, _⟩ := hq
  refine actBlocks_site (t := s.part.blocks.clock) hq ?_ rfl (markedPages_commitOutputs ..)
  rw [hf, commitDone_eq, out, List.nil_append]

/-- A command by which the write in flight fails, maybe after some time (R189). -/
theorem actBlocks_writeFailed {f : Blocks → Blocks} {s : State} {t : Clock} {c : Commit} {k : CommitFailure}
    (hq : s.part.blocks.Quiet) (hf : f s.part.blocks = commitFailed c k { s.part.blocks with clock := t }) :
    Leaves (actBlocks f s) s { s.part.blocks with clock := t, site := s.part.blocks.site.failed } s.part.xm
      (failureOutputs c k { s.part.blocks with clock := t }) [.common] := by
  have ⟨_, out, _⟩ := hq
  refine actBlocks_site hq ?_ (SiteStore.failed_working _) (markedPages_commitOutputs ..)
  rw [hf, commitFailed_eq]
  dsimp only
  rw [out, List.nil_append]

/-- An order that its owner takes with work in flight, and nothing else than a change of records by which no page is
published (R168, R176). -/
theorem order_stands_silently {c : Instr} {s : State} {slot : SlotId} {o : Order} {b : Blocks}
    (horder : orderOf c = some (slot, o)) (hslot : Takeable s slot o)
    (hgive : ∀ f staging, giveOrder slot o f staging s.part.blocks = (b, true)) (hstill : Still none b)
    (hi : b.inbox = []) (ho : b.out = []) (hstate : b.site.state = s.part.blocks.site.state)
    (hp : b.presence = s.part.blocks.presence) (ht : ∀ pg, Untouched pg s.part.blocks b) :
    Stands (exec c s) s slot o b [] [] := by
  have ⟨_, _, passed⟩ := hslot
  have taken : command slot o s.part
      = flush (s.part.modXm (Exchange.modMem (placeOrder slot o))) ⟨b, takenIn slot o true none s.part.xm⟩ := by
    rw [command_takeable hslot, takeOrder_eq]
    dsimp only [Part.modXm, Exchange.modMem]
    rw [handOver_passed passed, hgive]
    dsimp only
    rw [settle_still _ hstill hi, ho]
    rfl
  unfold Stands
  rw [exec_of_orderOf horder]
  refine ⟨{ s with part := command slot o s.part }, rfl, rfl, ?_, ?_⟩
  · show (command slot o s.part).blocks = b
    rw [taken, flush_blocks]
    exact Blocks.without_out ho
  · have common : commonPublications (s.part.modXm (Exchange.modMem (placeOrder slot o)))
        ⟨b, takenIn slot o true none s.part.xm⟩ = 0 := by
      refine (commonPublications_site (by exact hstate)).trans
        (commonPublications_zero ?_ (recordTake_ready _ _ _ _ _ _) rfl hp)
      rw [ho]
      rfl
    have same := flush_same _ ⟨b, takenIn slot o true none s.part.xm⟩ [] (by simp [ho, markedPages])
      (fun pg _ => ((ht pg).trans (untouched_out pg b [])) _ _) (.inr common)
    rw [beforePages_eq, Blocks.without_out ho, ho] at same
    show SameButPages [] _ (command slot o s.part).xm
    rw [taken]
    exact same

/-- Settles O24: the take of the order, and the ends of a write. -/
theorem aCommitBeginsAWriteThatEndsByReadBackOrTimer :
    Obligations.ACommitBeginsAWriteThatEndsByReadBackOrTimer := by
  constructor
  · intro h s b o hslot hq idle
    have still := hq.still none
    obtain ⟨inbox, out, -⟩ := hq
    exact order_stands_silently (c := .commitSite h) rfl hslot (fun _ _ => takeCommit_idle h.slot idle)
      (still.of_records rfl rfl fun _ => rfl) inbox out rfl rfl fun pg => untouched_commit pg b _
  · intro s c b answered failed hq writing
    have answers (x : Blocks) (a : Answer) : answered x a = commitAnswers c.slot a x.clock := by
      cases hs : c.slot <;> simp only [answered, hs] <;> rfl
    have fails {f : Blocks → Blocks} {t : Clock} {k : CommitFailure} {detail : Nat}
        (hf : f b = commitFailed c k { b with clock := t }) (hd : (if k = .verify then 7 else 8) = detail) :
        failed { b with clock := t } k detail (actBlocks f s) := by
      have left := actBlocks_writeFailed hq hf
      rw [SiteStore.failed_eq, failureOutputs, commitOutputs, hd, failedState_eq, ← answers] at left
      exact left
    refine ⟨?_, fun readBack differs => ?_, fun write readBack other => ?_, ?_⟩
    · rw [answers]
      exact actBlocks_writeDone hq (onCompletion_verified writing rfl rfl)
    · exact fails (onCompletion_differs writing rfl differs) rfl
    · have still := hq.still none
      obtain ⟨inbox, out, -⟩ := hq
      exact actBlocks_silent (onCompletion_other other) still inbox out rfl rfl fun pg _ => Untouched.refl pg b
    · exact fails (onCommitTimer_writing writing) rfl

end Sys2Proof.Machine
end

section
/-! SUPPORT. SET_TIME and ADJUST_TIME: what moves with array time (R191, R192). -/

namespace Sys2Proof.Machine

/-! ### A change of array time (R192) -/

/-- The blocks once array time is changed, with the profiles and arrivals that move with it (R192). -/
def Blocks.timeChanged (new : ArrayTime) (b : Blocks) : Blocks :=
  { shiftArrivals (new - b.clock.time) (shiftProfiles (new - b.clock.time) b) with
    clock := ⟨new, true, b.clock.count⟩ }

/-- What a change of array time hands on (R192). -/
def timeOutputs (adjust : Bool) (new : ArrayTime) (b : Blocks) : List Output :=
  [.trail (.timeSet adjust b.clock.time b.clock.valid new) new true, .page .common]

theorem changeTime_eq (adjust : Bool) (new : ArrayTime) (b : Blocks) :
    changeTime adjust new b = { b.timeChanged new with out := b.out ++ timeOutputs adjust new b } := by
  have outs : (changeTime adjust new b).out = b.out ++ timeOutputs adjust new b := by
    rw [timeOutputs, List.append_cons]
    rfl
  rw [← outs]
  rfl

/-- The start of every profile but that of a FOLLOW moves (R192). -/
theorem Axis.shiftTime_eq (change : ArrayTime) (x : Axis) : x.shiftTime change = { x with
    profile := x.profile.map fun p =>
      { p with startInstant := if p.kind = .follow then p.startInstant else p.startInstant + change } } := by
  have shifted : (fun p : Profile => if p.kind = .follow then p else { p with startInstant := p.startInstant + change })
      = fun p => { p with startInstant := if p.kind = .follow then p.startInstant else p.startInstant + change } := by
    funext p
    split_ifs <;> rfl
  rw [Axis.shiftTime, shifted]

theorem shiftProfiles_dish (change : ArrayTime) (b : Blocks) (d : DishId) :
    (shiftProfiles change b).dish d = (b.dish d).modAxes (Axis.shiftTime change) := by
  simp [shiftProfiles, Blocks.dish]

theorem Still.timeChanged {b : Blocks} (h : Still none b) (new : ArrayTime) : Still none (b.timeChanged new) :=
  h.of_records rfl rfl fun d => (congrArg Dish.reasons (shiftProfiles_dish _ b d)).trans rfl

/-- A change of array time touches the formation pages alone, which show the arrivals (R26, R70, R192). -/
theorem untouched_timeChanged {pg : Page} (h : pg ∉ Page.common :: allFormations.map Page.formation) (b : Blocks)
    (new : ArrayTime) : Untouched pg b (b.timeChanged new) := by
  have profiles : Untouched pg b (shiftProfiles (new - b.clock.time) b) := fun _ _ =>
    pageTouched_of_shown pg (fun d => (congrArg Dish.shown (shiftProfiles_dish _ b d)).trans rfl) rfl rfl
  refine profiles.trans fun x _ => ?_
  rw [← pageTouched_self pg ⟨shiftProfiles (new - b.clock.time) b, x⟩]
  cases pg
  case formation f => exact absurd (List.mem_cons_of_mem _ (List.mem_map_of_mem (mem_allFormations f))) h
  all_goals rfl

/-- An order by which array time is changed is answered after the entry TIME_SET (R191, R192). -/
theorem order_changesTime {c : Instr} {s : State} {slot : SlotId} {o : Order} {a : Answer} {adjust : Bool}
    {new : ArrayTime} (horder : orderOf c = some (slot, o)) (hslot : Takeable s slot o) (hq : s.part.blocks.Quiet)
    (hgive : ∀ f staging, giveOrder slot o f staging s.part.blocks
      = ((changeTime adjust new s.part.blocks).answer slot a, false)) :
    Answers (exec c s) s slot o a (s.part.blocks.timeChanged new) (timeOutputs adjust new s.part.blocks) []
      (.common :: allFormations.map Page.formation) := by
  have still := (hq.still none).timeChanged new
  obtain ⟨inbox, out, -⟩ := hq
  refine order_answers_last horder hslot (fun f => ?_) still inbox out (by simp [timeOutputs, markedPages])
    (fun pg hp => untouched_timeChanged hp _ _) (.inl List.mem_cons_self)
  rw [hgive, changeTime_eq, out, List.nil_append]

/-! ### The orders (R191, R192) -/

theorem takeSetTime_untracked {slot : SlotId} {new : ArrayTime} {b : Blocks}
    (h : ∀ f, (b.form f).state ≠ .tracking ∧ (b.form f).state ≠ .starved) : takeSetTime slot new b
      = (changeTime false new b).answer slot
        ⟨.done, noNotes, 0, lowBytes 6 b.clock.time.toNat ++ [if b.clock.valid then 1 else 0]⟩ := by
  have untracked : ¬ (allFormations.any fun f =>
      (b.form f).state == .tracking || (b.form f).state == .starved) = true := by simp [h]
  unfold takeSetTime
  rw [if_neg untracked]
  cases b.clock.valid <;> rfl

theorem takeAdjustTime_valid {slot : SlotId} {offset : Word32} {b : Blocks} {old new : Int}
    (hold : (b.clock.time.toNat : Int) = old) (hnew : max 0 (old + offset.toInt) = new)
    (hsmall : offset.toInt.natAbs ≤ 1000) (hvalid : b.clock.valid = true) : takeAdjustTime slot offset b
      = (changeTime true (BitVec.ofInt 48 new) b).answer slot
        ⟨.done, ⟨decide (old + offset.toInt < 0), false, false, false⟩, 0,
          lowBytes 6 b.clock.time.toNat ++ [1, 0] ++ signedBytes 4 (new - old)⟩ := by
  unfold takeAdjustTime
  dsimp only
  rw [hold, hnew, hvalid, if_neg (Nat.not_lt.mpr hsmall), if_neg Bool.noConfusion, List.append_assoc (timeBytes _)]
  rfl

/-- Settles O22: both orders are the one change of time, each with its answer. -/
theorem aChangeOfTimeMovesWhatIsUnderWay : Obligations.AChangeOfTimeMovesWhatIsUnderWay := by
  intro h s b shift after hq
  have changed (new : ArrayTime) : b.timeChanged new = after new := by
    have shifted (c : ArrayTime) : Axis.shiftTime c = shift c := funext (Axis.shiftTime_eq c)
    simp only [after, ← shifted]
    rfl
  constructor
  · intro new o hslot untracked
    rw [← changed]
    exact order_changesTime (c := .setTime h new) rfl hslot hq
      fun _ _ => congrArg (·, false) (takeSetTime_untracked untracked)
  · intro offset o old new hslot small valid
    rw [← changed]
    have given := order_changesTime (c := .adjustTime h offset) rfl hslot hq
      fun _ _ => congrArg (·, false) (takeAdjustTime_valid rfl rfl small valid)
    rw [timeOutputs, valid] at given
    exact given

end Sys2Proof.Machine
end

section
/-! SUPPORT. Every command is an action on the part that the outside has left, which faults on a write that is no word
of the memory (8.1). -/

namespace Sys2Proof.Machine

/-! ### What happens outside before a command (8.1) -/

/-- One happening outside is seen unless it is a write of no word of the memory (log entry 7). -/
theorem seeOne_isSome (p : Part) (o : Outside) : (seeOne p o).isSome = o.wellFormed := by
  cases o with
  | memoryWord a v =>
    by_cases hw : (Outside.memoryWord a v).wellFormed = true <;> simp [seeOne, hw]
  | amplifierReady d ax => rfl

/-- Where one write is no word of the memory, nothing of what happened outside is seen (log entry 7). -/
theorem see_isSome (seen : List Outside) (p : Part) : (see seen p).isSome = seen.all Outside.wellFormed := by
  induction seen generalizing p with
  | nil => rfl
  | cons o l ih =>
    rw [List.all_cons, ← seeOne_isSome p o, see, List.foldlM_cons]
    cases seeOne p o with
    | none => rfl
    | some q => exact ih q

/-! ### The commands -/

/-- Every command is one action on the part, once what happened outside is seen. -/
theorem exec_eq_actSeen (c : Instr) : ∃ f, ∀ s, exec c s = actSeen c.seen f s := by
  rcases ho : orderOf c with _ | ⟨slot, o⟩
  swap
  · rw [orderOf_seen ho]
    exact ⟨command slot o, exec_of_orderOf ho⟩
  cases c
  case form | disband | halt | slew | trackLoad | track | raster | stow | release | meltMode | lock | unlock
      | setBudget | clearFault | setTime | adjustTime | adoptSite | commitSite => cases ho
  case nudgeSweep seen => exact ⟨writeNudge 1, fun _ => rfl⟩
  case sweepTimerExpiry seen => exact ⟨whileReady sweepExpiry, fun _ => rfl⟩
  case pulseEvent seen => exact ⟨whileReady pulse, fun _ => rfl⟩
  case lingerTimerExpiry seen => exact ⟨onLinger, fun _ => rfl⟩
  case presenceCheck seen => exact ⟨whileReady onPresence, fun _ => rfl⟩
  case brakeReleaseTimerExpiry d seen =>
    exact ⟨run (fun b => b.expire (b.dish d).brakeTimer (onBrakeReleaseExpiry d)), fun _ => rfl⟩
  case powerOn levels => exact ⟨Part.restart levels, fun _ => rfl⟩
  case powerLoss => exact ⟨Part.powerLoss, fun _ => rfl⟩
  case nudgeLinkReset => exact ⟨writeNudge 2, fun _ => rfl⟩
  case causeClear v => exact ⟨clearCause v, fun _ => rfl⟩
  case maskWrite v => exact ⟨writeMask v, fun _ => rfl⟩
  case registerWriteIgnored target v =>
    cases target with
    | ident => exact ⟨id, fun _ => rfl⟩
    | nudge => exact ⟨writeNudge v, fun _ => rfl⟩
  all_goals exact ⟨run _, fun _ => rfl⟩

/-- An action on what is seen answers a next state and leaves the queue, or faults. -/
theorem actSeen_answers (seen : List Outside) (f : Part → Part) (s : State) :
    (seen.all Outside.wellFormed = true → ∃ t, actSeen seen f s = .next t ∧ t.pending = s.pending)
      ∧ (seen.all Outside.wellFormed = false → actSeen seen f s = .fault .noSuchWord) := by
  rw [← see_isSome seen s.part]
  constructor
  · intro h
    obtain ⟨p, hsee⟩ := Option.isSome_iff_exists.mp h
    exact ⟨{ s with part := f p }, actSeen_of_see hsee f, rfl⟩
  · intro h
    have hsee : see seen s.part = none := by simpa using h
    rw [actSeen, hsee]

/-- Settles O2: every command is an action on what is seen before it, which fails where a word does not exist. -/
theorem everyCommandAnswersANextState : Obligations.EveryCommandAnswersANextState := by
  intro c s
  obtain ⟨f, hf⟩ := exec_eq_actSeen c
  rw [hf s]
  exact actSeen_answers c.seen f s

end Sys2Proof.Machine
end
